-- ==== Sys2Proof/Word.lean ====
section
/-! DEFINITION. The words of the SV-2040 that its rules treat as bits, and the plainest arithmetic on counts. -/

namespace Sys2Proof

/-- One byte of buffer memory, of a frame or of a console character. -/
abbrev Byte := BitVec 8

/-- Part time: a 32-bit count of milliseconds that wraps to 0 (00, Time). -/
abbrev PartTime := BitVec 32

/-- A console port, 0 to 3. -/
abbrev PortId := Fin 4

/-- A count that rises by one and holds at its cap (R2, R47, R54, R70, R142, R192). -/
def satInc (cap n : Nat) : Nat := if n < cap then n + 1 else n

/-- A configuration value outside its range is replaced by the nearest end of the range (00, Clamped and refused). -/
def clamp (lo hi n : Nat) : Nat := max lo (min hi n)

/-- A vector with entry `i` changed by `f`. -/
def vupd {α : Type} {n : Nat} (v : Vector α n) (i : Fin n) (f : α → α) : Vector α n :=
  v.set i (f v[i]) i.isLt

/-- A vector with every entry changed by `f`. -/
def vmap {α β : Type} {n : Nat} (v : Vector α n) (f : α → β) : Vector β n :=
  ⟨⟨v.toList.map f⟩, by simp⟩

/-- The vector whose entry `i` is `f i`. -/
def vgen {α : Type} (n : Nat) (f : Nat → α) : Vector α n :=
  ⟨⟨(List.range n).map f⟩, by simp⟩

end Sys2Proof
end

