-- ==== Sys2Proof/Config.lean ====
section
/-! DEFINITION. Sizes of the SV-2040, the records the host configures with their defaults, the settings image, and
the free values the manual leaves open. -/

namespace Sys2Proof

/-! ## Sizes -/

/-- The 11 table rates in baud, indexed 0 to 10 (R1, R3). -/
def rateTable : List Nat :=
  [1200, 2400, 4800, 9600, 19200, 38400, 57600, 115200, 230400, 460800, 921600]

/-- Index of a table rate. -/
abbrev RateIdx := Fin 11

/-- The rate of an index, in baud. -/
def baud (r : RateIdx) : Nat := rateTable.getD r 0

/-- Bytes of a page (R58). -/
abbrev pageBytes : Nat := 4096
/-- Pages of buffer memory (R58). -/
abbrev pageCount : Nat := 128
/-- Entries of a transmit queue (R16). -/
abbrev queueCap : Nat := 128
/-- Bytes of a server block. -/
abbrev blockBytes : Nat := 512
/-- The largest stream position (R29). -/
abbrev maxPosition : Nat := 2 ^ 48 - 1
/-- The largest payload of a frame (R176). -/
abbrev maxPayload : Nat := 1040

/-! ## Console configuration (R1) -/

inductive RateMode where
  | fixed | auto
  deriving DecidableEq, Repr

inductive Parity where
  | none | even | odd
  deriving DecidableEq, Repr

inductive Translation where
  | none | t0 | t1
  deriving DecidableEq, Repr

/-- The configuration record of a console port (R1). -/
structure ConConfig where
  rateMode    : RateMode
  fixedRate   : RateIdx
  dataBits    : Nat
  parity      : Parity
  stopBits    : Nat
  gating      : Bool
  translation : Translation
  escape      : Bool
  quota       : Nat
  deriving DecidableEq, Repr

/-- The defaults of R1: FIXED, 115200 baud, 8 data bits, NONE, 1 stop bit, gating on, NONE, off, 8 pages. -/
def defaultConConfig : ConConfig :=
  { rateMode := .fixed, fixedRate := 7, dataBits := 8, parity := .none, stopBits := 1, gating := true,
    translation := .none, escape := false, quota := 8 }

/-! ## Translation tables and markers (R41, R47) -/

inductive XlatEntry where
  | replace (b : Byte)
  | skip
  deriving DecidableEq, Repr

/-- A translation table: 256 entries (R41). -/
abbrev XlatTable := Vector XlatEntry 256

/-- The identity table (R41). -/
def identityTable : XlatTable := vgen 256 fun i => .replace (BitVec.ofNat 8 i)

inductive Role where
  | none | inject | bootOk | progress | fault
  deriving DecidableEq, Repr

/-- The fields of a marker record that the host writes (R47). An absent inject text is the empty list, since a
text has 1 to 32 bytes. -/
structure MarkerCfg where
  enabled : Bool
  pattern : List Byte
  mask    : BitVec 4
  role    : Role
  report  : Bool
  once    : Bool
  inject  : List Byte
  deriving DecidableEq, Repr

/-- The fields of a cleared record (R47). -/
def clearedMarkerCfg : MarkerCfg :=
  { enabled := false, pattern := [], mask := 0, role := .none, report := false, once := false, inject := [] }

/-! ## Power settings (R143, R156) -/

inductive ActiveLevel where
  | low | high
  deriving DecidableEq, Repr

inductive RestMode where
  | release | driveInactive
  deriving DecidableEq, Repr

inductive RestorePolicy where
  | stayOff | powerOn
  deriving DecidableEq, Repr

/-- The three button outputs (R143). -/
inductive Output where
  | power | reset | diag
  deriving DecidableEq, Repr

/-- Active level and rest mode of one output (R143). -/
structure OutputCfg where
  active : ActiveLevel
  rest   : RestMode
  deriving DecidableEq, Repr

/-- The power settings of PWR_CONFIG (R156). The soft-off wait and the restore delay are in seconds, the other
durations in milliseconds. -/
structure PowerCfg where
  debounce   : Nat
  press      : Nat
  onWait     : Nat
  softOff    : Nat
  maxHold    : Nat
  resetPulse : Nat
  diagPulse  : Nat
  dwell      : Nat
  powerOut   : OutputCfg
  resetOut   : OutputCfg
  diagOut    : OutputCfg
  restore    : RestorePolicy
  restoreDelay : Nat
  deriving DecidableEq, Repr

def defaultOutputCfg : OutputCfg := { active := .low, rest := .release }

/-- The defaults of R156. -/
def defaultPowerCfg : PowerCfg :=
  { debounce := 20, press := 200, onWait := 5000, softOff := 120, maxHold := 8000, resetPulse := 100,
    diagPulse := 100, dwell := 5000, powerOut := defaultOutputCfg, resetOut := defaultOutputCfg,
    diagOut := defaultOutputCfg, restore := .stayOff, restoreDelay := 5 }

/-! ## Boot policy (R163) -/

/-- The supervisor's actions: the timeout action is one of NOTIFY, RESET and CYCLE, the fault action any of them. -/
inductive SupAction where
  | notify | diag | reset | cycle
  deriving DecidableEq, Repr

/-- The boot policy (R163); boot timeout and hold-off in seconds. -/
structure BootPolicy where
  enabled       : Bool
  watched       : BitVec 4
  bootTimeout   : Nat
  timeoutAction : SupAction
  faultAction   : SupAction
  holdOff       : Nat
  maxAttempts   : Nat
  eject         : Bool
  deriving DecidableEq, Repr

/-- The defaults of R163. -/
def defaultBootPolicy : BootPolicy :=
  { enabled := false, watched := 0, bootTimeout := 600, timeoutAction := .notify, faultAction := .notify,
    holdOff := 30, maxAttempts := 2, eject := false }

/-! ## MED_CONFIG values (R119, R138) -/

/-- The five values of MED_CONFIG; the fetch timeout is in milliseconds and the sync timeout in seconds. -/
structure MedConfig where
  fetchTimeout : Nat
  readAhead    : Nat
  threshold    : Nat
  syncTimeout  : Nat
  portEnable   : Bool
  deriving DecidableEq, Repr

/-- The defaults of R119 and R138. -/
def defaultMedConfig : MedConfig :=
  { fetchTimeout := 3000, readAhead := 3, threshold := 64, syncTimeout := 30, portEnable := true }

/-! ## The settings image (R189) -/

/-- The content of the settings image, less its CRC-32 (R189). -/
structure SettingsImage where
  consoles : Vector (ConConfig × Bool) 4
  t0       : XlatTable
  t1       : XlatTable
  markers  : Vector MarkerCfg 16
  power    : PowerCfg
  policy   : BootPolicy
  media    : MedConfig
  deriving DecidableEq, Repr

/-! ## Free values -/

/-- FREE VALUE (log 13): the CRC-32 that a save writes over the image's content. R189 gives neither its
polynomial nor the order of the bytes it covers. -/
opaque Config.imageCrc : SettingsImage → BitVec 32

/-- FREE VALUE (log 14): the replacement byte XLAT_READ returns for a SKIP entry, by the part time of the
request and the entry's place (256 times the table number plus the index). R42 says that such a byte is carried
and ignored, R43 that each entry is returned with a replacement byte. -/
opaque Config.skipByte : PartTime → Nat → Byte

end Sys2Proof
end

