-- ==== Sys2Proof/Syntax.lean ====
section
/-! DEFINITION. The commands of the SV-2040: one constructor for each row of spec/opcode_table.json.

A request on the management link carries the tag and the payload bytes of its frame (R176, R178); its kind code is
R181's for its name. Events of the pins, the server and the timers carry what the event brings with it. -/

namespace Sys2Proof

/-- One character as its receiver sampled it (R7, R8): the eight data bits (only seven are data with 7 data bits),
the parity bit (read only when parity is EVEN or ODD), and the two stop bits (the second read only with 2 stop
bits); `true` is the high level. -/
structure RxChar where
  data   : Byte
  parity : Bool
  stop1  : Bool
  stop2  : Bool
  deriving DecidableEq, Repr

/-- The two sense inputs (R140). -/
inductive SensePin where
  | pg | rsts
  deriving DecidableEq, Repr

/-- The commands. -/
inductive Instr where
  -- resets, start-up and the settings image (12)
  | powerOn
  | pinReset
  | resetEnd
  | restoreDeadline
  | saveEnd
  -- the management link (11)
  /-- A transaction whose op byte is neither WRITE nor READ. -/
  | statusPoll (op : Byte)
  /-- The frame bytes of a WRITE transaction whose status byte had IN_READY 0. -/
  | frameIgnored (bytes : List Byte)
  /-- The frame bytes of a WRITE transaction whose collection ends in a fault. -/
  | badFrame (bytes : List Byte)
  /-- A good frame of a kind that is no request kind. -/
  | unknownKind (kind tag : Byte) (payload : List Byte)
  | readTransaction
  /-- CS_N rises after a READ; `shifted` counts the bytes shifted out after the status byte. -/
  | readOutEnd (shifted : Nat)
  -- part-wide requests (12, 04)
  | devIdent (tag : Byte) (payload : List Byte)
  | devTime (tag : Byte) (payload : List Byte)
  | devReset (tag : Byte) (payload : List Byte)
  | setSave (tag : Byte) (payload : List Byte)
  | setDefaults (tag : Byte) (payload : List Byte)
  | faultGet (tag : Byte) (payload : List Byte)
  | faultClear (tag : Byte) (payload : List Byte)
  | poolStatus (tag : Byte) (payload : List Byte)
  -- console requests (01, 02)
  | conConfig (tag : Byte) (payload : List Byte)
  | conEnable (tag : Byte) (payload : List Byte)
  | conDisable (tag : Byte) (payload : List Byte)
  | conClear (tag : Byte) (payload : List Byte)
  | conRead (tag : Byte) (payload : List Byte)
  | conFindTime (tag : Byte) (payload : List Byte)
  | conNotify (tag : Byte) (payload : List Byte)
  | conWrite (tag : Byte) (payload : List Byte)
  | conBreak (tag : Byte) (payload : List Byte)
  | conStatus (tag : Byte) (payload : List Byte)
  -- matcher requests (03)
  | markSet (tag : Byte) (payload : List Byte)
  | markClear (tag : Byte) (payload : List Byte)
  | markGet (tag : Byte) (payload : List Byte)
  | xlatLoad (tag : Byte) (payload : List Byte)
  | xlatRead (tag : Byte) (payload : List Byte)
  | epochGet (tag : Byte) (payload : List Byte)
  -- media requests (05 to 08)
  | medConfig (tag : Byte) (payload : List Byte)
  | medAttach (tag : Byte) (payload : List Byte)
  | medExtentAdd (tag : Byte) (payload : List Byte)
  | medExtentDel (tag : Byte) (payload : List Byte)
  | medPresent (tag : Byte) (payload : List Byte)
  | medEject (tag : Byte) (payload : List Byte)
  | medFill (tag : Byte) (payload : List Byte)
  | medFillFail (tag : Byte) (payload : List Byte)
  | medPut (tag : Byte) (payload : List Byte)
  | medPin (tag : Byte) (payload : List Byte)
  | medUnpin (tag : Byte) (payload : List Byte)
  | medDrain (tag : Byte) (payload : List Byte)
  | medClean (tag : Byte) (payload : List Byte)
  | medStatus (tag : Byte) (payload : List Byte)
  -- power and boot requests (09, 10)
  | pwrConfig (tag : Byte) (payload : List Byte)
  | pwrAction (tag : Byte) (payload : List Byte)
  | pwrAbort (tag : Byte) (payload : List Byte)
  | pwrStatus (tag : Byte) (payload : List Byte)
  | bootPolicy (tag : Byte) (payload : List Byte)
  | bootRelease (tag : Byte) (payload : List Byte)
  -- console line events (01)
  | characterReceived (port : PortId) (c : RxChar)
  | breakReceived (port : PortId)
  /-- An edge on a receive wire; `periods` counts the 48 MHz reference periods since the edge before it. -/
  | receiveLineEdge (port : PortId) (periods : Nat)
  | transmissionEnd (port : PortId)
  /-- An upset of a row (64 times the page plus the row of the page); `flips` are the bit patterns by which the
  upset altered the row's stored bytes, from its first byte on. -/
  | memoryUpset (row : Fin 8192) (flips : List Byte)
  -- server commands (07, 08)
  | inquire
  | ready
  | capacity
  | mode
  | eject
  | sense
  /-- A server command of a kind the port does not know; `code` stands for that kind. -/
  | badCommand (code : Byte)
  | read (lba : BitVec 32) (count : Nat)
  | blockDelivery
  | fetchExpiry (slot : Fin 8)
  | write (lba : BitVec 32) (count : Nat)
  | writeBlock (data : List Byte)
  | stallDeadline
  /-- The expiry of the drain record that bears `tag`. -/
  | drainExpiry (tag : BitVec 16)
  | sync
  | syncDeadline
  | usbReset
  -- sense pins and the power sequencer (09)
  /-- A pin takes a level; `true` is high. -/
  | pinChange (pin : SensePin) (level : Bool)
  | pgRise
  | pgFall
  | rstsEdgeActive
  | rstsEdgeInactive
  | maskTailEnd
  | phaseDeadline
  -- the boot supervisor's timers (10)
  | bootTimerExpiry
  | holdOffExpiry
  deriving DecidableEq, Repr

end Sys2Proof
end

