-- ==== Sys2Proof/Decode.lean ====
section
/-! DEFINITION. Commands from the words of spec/opcode_table.json. The table gives bits to none of its rows (its
"fields" are empty and no row has "fixed"), so no word spells a command (log 19). -/

namespace Sys2Proof

/-- The command a table word spells: none, since the table gives no row any bits (log 19). -/
def decodeTableWord (_nbits _w : Nat) : Option Instr := none

end Sys2Proof
end

