-- ==== Sys2Proof/Machine/State.lean ====
section
/-! DEFINITION. The state of the SV-2040 as plain data, its value right after a part reset, and the reasons a step can
stop. -/

namespace Sys2Proof.Machine

/-- Why the machine stops. -/
inductive Fault where
  /-- Raised by CHARACTER_RECEIVED, CON_ENABLE, RESET_END and DEV_RESET when a console history asks for a page and
  the pool has neither a FREE page nor a non-held line. R62 says that this cannot happen while the pool's laws
  hold. Safe: the model stops where the manual says nothing. -/
  | noPageForHistory
  deriving DecidableEq, Repr

/-- Why a command has no meaning. -/
inductive Refusal where
  /-- A command of the table that the model does not give a meaning yet. Safe. -/
  | notModelled (mnemonic : String)
  deriving DecidableEq, Repr

/-! ## Console ports (01, 02, 03) -/

/-- R2, R14. -/
inductive RateState where
  | hunting
  | candidate (r : RateIdx)
  | locked (r : RateIdx)
  deriving DecidableEq, Repr

/-- An entry of a transmit queue (R16); a BREAK item has a duration in milliseconds. -/
inductive TxEntry where
  | byte (b : Byte)
  | brk (ms : Nat)
  deriving DecidableEq, Repr

/-- What a transmitter that is not idle does (R16): it sends a byte as one character; it holds the wire low for a
BREAK until a part time; or it holds the wire at mark for the character time that follows a BREAK. -/
inductive Sending where
  | byte (b : Byte)
  | brk (until_ : PartTime)
  | mark
  deriving DecidableEq, Repr

/-- An occupied injection slot (R19). -/
structure InjText where
  marker : Fin 16
  text   : List Byte
  deriving DecidableEq, Repr

/-- A page record (R23). -/
structure PageRec where
  page       : Fin 128
  first      : Nat
  firstTime  : Option PartTime
  firstEpoch : Option Nat
  deriving DecidableEq, Repr

/-- R44. -/
inductive FilterState where
  | normal | esc | csi
  deriving DecidableEq, Repr

/-- A console port: its line values (R2), its history (R22) and the matcher's view of it (R44, R46). -/
structure Port where
  cfg           : ConConfig
  enabled       : Bool
  rateState     : RateState
  rate          : Option RateIdx
  lockCount     : Nat
  unlockCount   : Nat
  breakCount    : Nat
  framingCount  : Nat
  parityCount   : Nat
  queue         : List TxEntry
  sending       : Option Sending
  slot          : Option InjText
  /-- The capture counter has had its first edge (R12). -/
  counting      : Bool
  ivCount       : Nat
  ivMin         : Nat
  cwCount       : Nat
  cwErrors      : Nat
  pages         : List PageRec
  w             : Nat
  notify        : Option Nat
  filter        : FilterState
  window        : List Byte
  deriving DecidableEq, Repr

/-! ## Markers and hits (03) -/

/-- A marker record with its kept values (R47). -/
structure Marker where
  cfg   : MarkerCfg
  hits  : Nat
  spent : Bool
  deriving DecidableEq, Repr

/-- A hit record (R52). -/
structure HitRec where
  marker  : Fin 16
  port    : PortId
  pos     : Nat
  time    : PartTime
  role    : Role
  dropped : Bool
  deriving DecidableEq, Repr

/-- What the MARK report register holds of the newest reportable hit (R54). -/
structure MarkEntry where
  hit      : HitRec
  epoch    : Nat
  appended : Bool
  deriving DecidableEq, Repr

/-- The MARK report register (R54). -/
structure MarkReg where
  newest : Option MarkEntry
  count  : Nat
  deriving DecidableEq, Repr

/-! ## The page pool (04) -/

/-- R58. -/
inductive Owner where
  | free
  | history (port : PortId)
  | line
  deriving DecidableEq, Repr

/-- A row that is not SOUND (R66). -/
inductive RowFault where
  | upset | marked
  deriving DecidableEq, Repr

/-- Buffer memory: cells at strictly rising addresses, none of them holding 0 (log 18). -/
abbrev Memory := List Host.Cell

/-- The rows that are not SOUND, at strictly rising row numbers (64 times the page plus the row of the page). -/
abbrev Rows := List (Nat × RowFault)

/-! ## Media (05 to 08) -/

/-- R71. -/
inductive AttachState where
  | detached | attached | presented | ejecting
  deriving DecidableEq, Repr

inductive Access where
  | ro | rw
  deriving DecidableEq, Repr

inductive ExtentKind where
  | data | zero
  deriving DecidableEq, Repr

/-- An extent record less its index (R73); a ZERO extent holds 0 in `object` and `base`, which it does not have. -/
structure Extent where
  first  : Nat
  count  : Nat
  kind   : ExtentKind
  access : Access
  object : Nat
  base   : Nat
  deriving DecidableEq, Repr

/-- The attachment record (R71). -/
structure Attachment where
  state    : AttachState
  capacity : Option Nat
  access   : Option Access
  extents  : Vector (Option Extent) 32
  deriving DecidableEq, Repr

/-- The seven block states (R90). -/
inductive BlockState where
  | invalid | pending | valid | dirty | draining | redirtied | lost
  deriving DecidableEq, Repr

/-- A line record (R89); its LRU place is its place in the directory. -/
structure CacheLine where
  tag    : Nat
  page   : Fin 128
  blocks : Vector BlockState 8
  pinned : Bool
  deriving DecidableEq, Repr

/-- A block of a live fetch (R111). -/
inductive RunBlock where
  | awaited | filled | released
  deriving DecidableEq, Repr

/-- A live fetch record (R111); its handle is its slot and that slot's generation. -/
structure FetchRec where
  tag    : Nat
  first  : Nat
  object : Nat
  offset : Nat
  blocks : List RunBlock
  issue  : PartTime
  expiry : PartTime
  deriving DecidableEq, Repr

/-- A fetch slot (R111). -/
structure FetchSlot where
  gen  : BitVec 8
  live : Option FetchRec
  deriving DecidableEq, Repr

/-- A FETCH notice (R113). -/
structure Notice where
  slot   : Fin 8
  gen    : BitVec 8
  lba    : Nat
  count  : Nat
  object : Nat
  offset : Nat
  issue  : PartTime
  deriving DecidableEq, Repr

/-- A drain record (R131). -/
structure DrainRec where
  lba    : Nat
  tag    : BitVec 16
  expiry : PartTime
  deriving DecidableEq, Repr

/-- Server command kinds (R123); `other` is a kind the port does not know. -/
inductive CmdKind where
  | inquire | ready | capacity | read | write | sync | eject | sense | mode
  | other (code : Byte)
  deriving DecidableEq, Repr

/-- Completion statuses (R123). -/
inductive CmdStatus where
  | good | noMedium | mediumChanged | notReadyRetry | outOfRange | writeProtected | mediumError | badCommand
  deriving DecidableEq, Repr

/-- R104. -/
inductive ScanState where
  | running | paused | complete
  deriving DecidableEq, Repr

/-- The progress of a READ (R104). -/
structure ReadCmd where
  first   : Nat
  count   : Nat
  cursor  : Nat
  failure : Option Nat
  scan    : ScanState
  deriving DecidableEq, Repr

/-- A stall (R129): its deadline, and the block that waits in the server's controller. -/
structure StallRec where
  deadline : PartTime
  data     : List Byte
  deriving DecidableEq, Repr

/-- The progress of a WRITE (R123, R128). -/
structure WriteCmd where
  first : Nat
  count : Nat
  taken : Nat
  stall : Option StallRec
  deriving DecidableEq, Repr

/-- The current command record (R123). -/
inductive Current where
  | read (r : ReadCmd)
  | write (w : WriteCmd)
  | sync (deadline : PartTime)
  deriving DecidableEq, Repr

/-- The sense record (R125). -/
structure Sense where
  kind   : CmdKind
  status : CmdStatus
  lba    : Nat
  count  : Nat
  deriving DecidableEq, Repr

/-- The data a completion carries (R124, R125). -/
inductive AnswerData where
  | none
  | identity (vendor product : String) (removable : Bool)
  | capacity (blocks blockSize : Nat)
  | mode (writeProtect : Bool)
  | sense (record : Option Sense)
  deriving DecidableEq, Repr

/-- A completion sent to the server (R123). -/
structure Answer where
  kind   : CmdKind
  status : CmdStatus
  data   : AnswerData
  deriving DecidableEq, Repr

/-- The server media port (R120 to R138), and the model's own view of what the server receives. -/
structure ServerPort where
  connected     : Bool
  current       : Option Current
  mediumChanged : Bool
  sense         : Option Sense
  dirty         : List Nat
  drains        : List DrainRec
  nextTag       : BitVec 16
  /-- MODEL'S OWN (log 4): the block last sent to the server. -/
  sentBlock     : Option (Nat × List Byte)
  /-- MODEL'S OWN (log 4): the completion last sent to the server. -/
  lastAnswer    : Option Answer
  deriving DecidableEq, Repr

/-! ## Power (09) -/

/-- A sense input (R140): pin level, debounced level (`true` high), and the deadline of its settling timer. -/
structure SenseIn where
  pin      : Bool
  level    : Bool
  settling : Option PartTime
  deriving DecidableEq, Repr

/-- R144. -/
inductive ActionKind where
  | on | offSoft | offHard | reset | diag | cycle
  deriving DecidableEq, Repr

inductive Requester where
  | link | supervisor | restore
  deriving DecidableEq, Repr

/-- R145. -/
inductive Phase where
  | pressOn | waitUp | pressSoft | waitDown | force | resetPulse | diagPulse | dwell
  deriving DecidableEq, Repr

/-- R153. -/
inductive ActResult where
  | done | already | aborted | powerLost | noPowerGood | softTimeout | stuckOn | externalOn
  deriving DecidableEq, Repr

/-- An action record (R144), and the part time its last PRESS_ON was entered (R154). -/
structure ActionRec where
  kind      : ActionKind
  escalate  : Bool
  requester : Requester
  start     : PartTime
  phase     : Option Phase
  deadline  : PartTime
  escalated : Bool
  result    : Option ActResult
  ended     : Option PartTime
  pressedAt : PartTime
  deriving DecidableEq, Repr

/-- The mask of R141: clear, set while RESET_OUT is ACTIVE, or set for the mask tail with its end. -/
inductive MaskState where
  | clear
  | pulse
  | tail (until_ : PartTime)
  deriving DecidableEq, Repr

/-- The power sequencer (09). -/
structure PowerSeq where
  cfg       : PowerCfg
  pg        : SenseIn
  rsts      : SenseIn
  mask      : MaskState
  episode   : Bool
  extResets : Nat
  last      : Option ActionRec
  prior     : Option ActionRec
  latest    : Option PartTime
  previous  : Option PartTime
  deriving DecidableEq, Repr

/-! ## Boot supervision (10) -/

/-- R159, R161. -/
inductive EpochCause where
  | onAction | powerUpExternal | resetAction | resetExternal | partStart
  deriving DecidableEq, Repr

inductive BootStatus where
  | unsupervised | pending | ok | failed | endedUnsettled
  deriving DecidableEq, Repr

inductive EndCause where
  | superseded | powerOffAction | powerLost
  deriving DecidableEq, Repr

/-- An epoch record (R159); it is open while it has no end cause. -/
structure EpochRec where
  number   : Nat
  cause    : EpochCause
  start    : PartTime
  starts   : Vector Nat 4
  status   : BootStatus
  attempts : Nat
  endTime  : Option PartTime
  endCause : Option EndCause
  hits     : List HitRec
  deriving DecidableEq, Repr

/-- R164. -/
inductive SupState where
  | idle | waiting | satisfied | holdoff | givenUp
  deriving DecidableEq, Repr

/-- The return state of R164. -/
inductive ReturnState where
  | waiting | satisfied
  deriving DecidableEq, Repr

inductive Trigger where
  | bootTimeout | faultHoldoff
  deriving DecidableEq, Repr

inductive EscOutcome where
  | taken | skipped | givenUp
  deriving DecidableEq, Repr

/-- The last escalation (R164, R167, R168). -/
structure Escalation where
  trigger : Trigger
  action  : SupAction
  outcome : EscOutcome
  time    : PartTime
  epoch   : Nat
  deriving DecidableEq, Repr

/-- The boot supervisor (R158, R163, R164). -/
structure Supervisor where
  policy    : BootPolicy
  counter   : Nat
  epochs    : List EpochRec
  state     : SupState
  ret       : Option ReturnState
  bootTimer : Option PartTime
  holdTimer : Option PartTime
  attempts  : Nat
  lastEsc   : Option Escalation
  deriving DecidableEq, Repr

/-! ## The management link (11) -/

/-- Reply statuses (R179). -/
inductive Status where
  | ok | partial_ | badFrame | unknownKind | badLength | badField | wrongState | busy | noSpace | overlap
  | notFound | late | duplicate | stale | superseded | dirty | damaged
  deriving DecidableEq, Repr

/-- A finished reply (R179): kind, tag, status, and the payload bytes that follow the status byte. -/
structure Reply where
  kind   : Byte
  tag    : Byte
  status : Status
  body   : List Byte
  deriving DecidableEq, Repr

/-- The reports other than FETCH (R184), in the arbiter's order (R182). -/
inductive Report where
  | start | fault | power | boot | media | mark
  | conLine (port : PortId)
  | conData (port : PortId)
  deriving DecidableEq, Repr

/-- What a READ transaction holds (R175, R184). -/
inductive Held where
  | empty
  | reply
  | notice (n : Notice)
  /-- A notice that was withdrawn while it was held: its fetch was retired (R183). -/
  | withdrawn
  /-- A report, and for MARK the count that its frame carries. -/
  | report (r : Report) (markCount : Nat)
  deriving DecidableEq, Repr

/-- The management link (R173 to R185), and the model's own view of what the host receives. -/
structure Link where
  replies   : List Reply
  notices   : List Notice
  /-- The pending report set: its flags that are set. -/
  flags     : List Report
  held      : Option Held
  /-- MODEL'S OWN (log 4): the frame the last READ transaction built. -/
  outFrame  : List Byte
  /-- MODEL'S OWN (log 4): the status byte shifted out last. -/
  statusOut : Byte
  deriving DecidableEq, Repr

/-! ## Start-up, settings, faults (12) -/

/-- R186. -/
inductive ResetCause where
  | powerOn | pin | soft
  deriving DecidableEq, Repr

/-- Why a load failed (R187). -/
inductive LoadFailure where
  | blank | crc
  deriving DecidableEq, Repr

/-- What the last start found (R187, R191): the source is IMAGE when `failure` is none. -/
structure StartInfo where
  fromImage : Bool
  failure   : Option LoadFailure
  refused   : BitVec 4
  powerOn   : Bool
  epoch     : Option Nat
  deriving DecidableEq, Repr

/-- R188. -/
inductive RestoreState where
  | none
  | waiting (deadline : PartTime)
  | requested
  | cancelled
  deriving DecidableEq, Repr

/-- The nonvolatile settings image (R187, R189). -/
inductive Image where
  | blank
  | invalid
  | valid (content : SettingsImage)
  deriving DecidableEq, Repr

/-- A save in progress (R180, R189): the copy, the tag of its SET_SAVE and the last moment it can end. -/
structure SaveJob where
  copy  : SettingsImage
  tag   : Byte
  by_   : PartTime
  deriving DecidableEq, Repr

/-- A fault's kind and detail (R192). -/
inductive FaultKind where
  | historyDamaged (port : PortId)
  | dirtyLost (lba : Nat)
  | dirtyDiscarded (blocks : Nat)
  | fetchExpired (slot : Fin 8) (gen : BitVec 8) (lba : Nat)
  | powerLost (action : Option (ActionKind × Requester))
  | noPowerGood (action : ActionKind) (requester : Requester)
  | stuckOn (action : ActionKind) (requester : Requester)
  | bootFailed (epoch : Nat) (action : SupAction)
  | settingsInvalid (reason : LoadFailure)
  deriving DecidableEq, Repr

/-- A fault entry (R192). -/
structure FaultEntry where
  kind : FaultKind
  time : PartTime
  deriving DecidableEq, Repr

/-- The fault record (R192). -/
structure FaultRecord where
  first  : Option FaultEntry
  latest : Option FaultEntry
  count  : Nat
  deriving DecidableEq, Repr

/-! ## The whole -/

/-- The state of the part. -/
structure State where
  /-- MODEL'S OWN: the commands that wait, the next one first. -/
  pending   : List Instr
  inReset   : Bool
  cause     : ResetCause
  time      : PartTime
  start     : StartInfo
  restore   : RestoreState
  image     : Image
  save      : Option SaveJob
  faults    : FaultRecord
  ports     : Vector Port 4
  t0        : XlatTable
  t1        : XlatTable
  markers   : Vector Marker 16
  markReg   : MarkReg
  mem       : Memory
  rows      : Rows
  owners    : Vector Owner 128
  committed : Vector Nat 4
  reclaims  : Nat
  media     : Attachment
  cache     : List CacheLine
  fetch     : Vector FetchSlot 8
  medCfg    : MedConfig
  usb       : ServerPort
  power     : PowerSeq
  sup       : Supervisor
  link      : Link
  deriving DecidableEq, Repr

/-! ## Values after part reset -/

/-- A console port after part reset (R1, R2, R22, R45, R46). -/
def resetPort : Port :=
  { cfg := defaultConConfig, enabled := false, rateState := .hunting, rate := none, lockCount := 0,
    unlockCount := 0, breakCount := 0, framingCount := 0, parityCount := 0, queue := [], sending := none,
    slot := none, counting := false, ivCount := 0, ivMin := 65535, cwCount := 0, cwErrors := 0, pages := [],
    w := 0, notify := none, filter := .normal, window := [] }

/-- A cleared marker record (R47). -/
def clearedMarker : Marker := { cfg := clearedMarkerCfg, hits := 0, spent := false }

/-- The attachment after part reset (R71). -/
def resetAttachment : Attachment :=
  { state := .detached, capacity := none, access := none, extents := Vector.replicate 32 none }

/-- The server media port after part reset (R120). -/
def resetServerPort : ServerPort :=
  { connected := false, current := none, mediumChanged := false, sense := none, dirty := [], drains := [],
    nextTag := 1, sentBlock := none, lastAnswer := none }

/-- The power sequencer after part reset (R140 to R144, R154, R156). The pins' own levels are the world's; PG low
and RSTS_IN high stand here (log 7). -/
def resetPowerSeq : PowerSeq :=
  { cfg := defaultPowerCfg, pg := { pin := false, level := false, settling := none },
    rsts := { pin := true, level := true, settling := none }, mask := .clear, episode := false, extResets := 0,
    last := none, prior := none, latest := none, previous := none }

/-- The boot supervisor after part reset (R158, R163, R164). -/
def resetSupervisor : Supervisor :=
  { policy := defaultBootPolicy, counter := 0, epochs := [], state := .idle, ret := none, bootTimer := none,
    holdTimer := none, attempts := 0, lastEsc := none }

/-- The management link during a part reset (R185). -/
def resetLink : Link :=
  { replies := [], notices := [], flags := [], held := none, outFrame := [], statusOut := 0x80 }

/-- The machine right after a POWER_ON reset has begun: every block holds its value after part reset (R186), the
reset has not ended (RESET_END does that), the settings image has never been written (log 5). -/
def State.reset : State :=
  { pending := [], inReset := true, cause := .powerOn, time := 0,
    start := { fromImage := false, failure := none, refused := 0, powerOn := false, epoch := none },
    restore := .none, image := .blank, save := none,
    faults := { first := none, latest := none, count := 0 },
    ports := Vector.replicate 4 resetPort, t0 := identityTable, t1 := identityTable,
    markers := Vector.replicate 16 clearedMarker, markReg := { newest := none, count := 0 },
    mem := [], rows := [], owners := Vector.replicate 128 .free, committed := Vector.replicate 4 0, reclaims := 0,
    media := resetAttachment, cache := [], fetch := Vector.replicate 8 { gen := 0, live := none },
    medCfg := defaultMedConfig, usb := resetServerPort, power := resetPowerSeq, sup := resetSupervisor,
    link := resetLink }

end Sys2Proof.Machine
end

