-- ==== Sys2Proof/Machine/Flags.lean ====
section
/-! DEFINITION. The flags of the part: the pending report set, the fault record, the status byte and ATTN_N, and the
levels and conditions that the rules derive from other state. -/

namespace Sys2Proof.Machine

/-! ## The pending report set (R184) -/

/-- A flag already pending is not set twice (R184). -/
def State.setFlag (r : Report) (s : State) : State :=
  if r ∈ s.link.flags then s else { s with link := { s.link with flags := r :: s.link.flags } }

/-- The flag becomes clear: at the arbiter's choice, or at a withdrawal (R184). -/
def State.clearFlag (r : Report) (s : State) : State :=
  { s with link := { s.link with flags := s.link.flags.filter (· ≠ r) } }

/-- The arbiter's order of the reports (R182). -/
def reportOrder : List Report :=
  [.start, .fault, .power, .boot, .media, .mark, .conLine 0, .conLine 1, .conLine 2, .conLine 3,
    .conData 0, .conData 1, .conData 2, .conData 3]

/-- The first pending report in the arbiter's order (R182). -/
def State.firstReport (s : State) : Option Report :=
  reportOrder.find? fun r => decide (r ∈ s.link.flags)

/-! ## The fault record (R192) -/

/-- LATEST takes the fault, and FIRST too if it is empty; the count rises, and FAULT becomes pending (R192). -/
def State.recordFault (k : FaultKind) (s : State) : State :=
  State.setFlag .fault { s with
    faults := { first := s.faults.first.or (some { kind := k, time := s.time }),
                latest := some { kind := k, time := s.time },
                count := satInc 65535 s.faults.count } }

/-! ## The reply queue's room, the status byte and ATTN_N (R173, R180, R182, R185) -/

/-- Slots of the reply queue that replies and the reservation hold; the reservation stands while a save is in
progress (R180, R189). -/
def State.slotsUsed (s : State) : Nat := s.link.replies.length + (if s.save.isSome then 1 else 0)

/-- IN_READY: the start-up sequence is over and the reply queue has a free slot (R173, R185). -/
def State.inReady (s : State) : Bool := !s.inReset && decide (s.slotsUsed < 8)

/-- OUT_READY: anything outbound exists (R182). -/
def State.outReady (s : State) : Bool :=
  !s.link.replies.isEmpty || !s.link.notices.isEmpty || !s.link.flags.isEmpty

/-- ATTN_N is active (low) while anything outbound exists (R182), and driven high through a part reset (R185). -/
def State.attnActive (s : State) : Bool := !s.inReset && s.outReady

/-- The status byte (R173 and the table of 11.7); 0x80 through a part reset (R185). -/
def State.statusByte (s : State) : Byte :=
  if s.inReset then 0x80
  else 0x80 + (if s.inReady then 2 else 0) + (if s.outReady then 1 else 0)

/-! ## Levels and conditions -/

/-- The debounced PG level is high; the power state is ON (R140, R144). -/
def State.pgHigh (s : State) : Bool := s.power.pg.level

/-- The debounced RSTS_IN level is active, which is low (R140). -/
def State.rstsActive (s : State) : Bool := !s.power.rsts.level

/-- The mask is set (R141). -/
def State.maskSet (s : State) : Bool := decide (s.power.mask ≠ .clear)

/-- The action in progress: LAST while it has a phase (R144). -/
def State.action (s : State) : Option ActionRec := s.power.last.filter (·.phase.isSome)

/-- The phase of the action in progress (R144). -/
def State.phase (s : State) : Option Phase := s.power.last.bind (·.phase)

/-- The output a phase holds ACTIVE (R145). -/
def phaseOutput : Phase → Option Output
  | .pressOn | .pressSoft | .force => some .power
  | .resetPulse => some .reset
  | .diagPulse => some .diag
  | .waitUp | .waitDown | .dwell => none

/-- The condition of a button output (R143). -/
inductive OutputCond where
  | active | inactive | released
  deriving DecidableEq, Repr

/-- The settings of an output (R143). -/
def outputCfg (c : PowerCfg) : Output → OutputCfg
  | .power => c.powerOut
  | .reset => c.resetOut
  | .diag => c.diagOut

/-- R143: RELEASED through a part reset; ACTIVE while a phase that names the output is in progress; else at rest. -/
def State.outputCond (o : Output) (s : State) : OutputCond :=
  if s.inReset then .released
  else if s.phase.bind phaseOutput = some o then .active
  else match (outputCfg s.power.cfg o).rest with
    | .release => .released
    | .driveInactive => .inactive

/-- The level at which a condition drives a pin, `true` high: the active level when ACTIVE, the opposite one when
INACTIVE, none (high impedance) when RELEASED (R143). -/
def drivenLevel (active : ActiveLevel) : OutputCond → Option Bool
  | .active => some (decide (active = .high))
  | .inactive => some (decide (active = .low))
  | .released => none

/-- The level at a button output's pin; it follows the settings and the phase at once (R143). -/
def State.outputLevel (o : Output) (s : State) : Option Bool :=
  drivenLevel (outputCfg s.power.cfg o).active (s.outputCond o)

/-- The server is in reset as the power sequencer sees it (R120). -/
def State.serverInReset (s : State) : Bool :=
  (s.rstsActive && !s.maskSet) || decide (s.phase = some .resetPulse)

/-- A port is gated while its gating field is on and the debounced PG level is low (R2). -/
def State.gated (p : Port) (s : State) : Bool := p.cfg.gating && !s.pgHigh

/-- A port frames characters while it is ENABLED, has a rate in effect and is not gated (R7). -/
def State.framing (p : Port) (s : State) : Bool := p.enabled && p.rate.isSome && !s.gated p

/-- The open epoch: the newest record while it has no end cause (R158). -/
def State.openEpoch (s : State) : Option EpochRec := s.sup.epochs.getLast?.filter (·.endCause.isNone)

/-- The open epoch's number, or 0 (R23, R54). -/
def State.openNumber (s : State) : Nat := (s.openEpoch.map (·.number)).getD 0

end Sys2Proof.Machine
end

