-- ==== Sys2Proof/Machine/Operands.lean ====
section
/-! DEFINITION. Frames and their fields: numbers, CRC-16, collection of an inbound frame, the fields of each request's
payload (R178), and the forms of the fields a reply or report carries (R179). -/

namespace Sys2Proof.Machine

/-! ## Numbers and presence (R178, R179) -/

/-- The number that bytes give, little-endian. -/
def leNat : List Byte → Nat
  | [] => 0
  | b :: bs => b.toNat + 256 * leNat bs

/-- A number as `k` bytes, little-endian. -/
def num : Nat → Nat → List Byte
  | 0, _ => []
  | k + 1, n => BitVec.ofNat 8 n :: num k (n / 256)

/-- A yes-or-no flag: 1 for yes. -/
def flag (b : Bool) : List Byte := [if b then 1 else 0]

/-- A field that may be absent: a presence byte, then the field, or zeros of its `size` (R179). -/
def opt (size : Nat) : Option (List Byte) → List Byte
  | none => 0 :: List.replicate size 0
  | some bs => 1 :: bs

/-- A part time, 4 bytes. -/
def encTime (t : PartTime) : List Byte := num 4 t.toNat

/-- Fields of the given sizes that fill the payload exactly; none when the length is wrong (R178). -/
def fields : List Nat → List Byte → Option (List Nat)
  | [], [] => some []
  | [], _ :: _ => none
  | k :: ks, p => if p.length < k then none else (fields ks (p.drop k)).map (leNat (p.take k) :: ·)

/-- A payload with no fields. -/
def fields0 (p : List Byte) : Option Unit := if p = [] then some () else none

/-- A payload of one field of `a` bytes. -/
def fields1 (a : Nat) (p : List Byte) : Option Nat :=
  match fields [a] p with
  | some [x] => some x
  | _ => none

/-- A payload of two fields. -/
def fields2 (a b : Nat) (p : List Byte) : Option (Nat × Nat) :=
  match fields [a, b] p with
  | some [x, y] => some (x, y)
  | _ => none

/-- A payload of three fields. -/
def fields3 (a b c : Nat) (p : List Byte) : Option (Nat × Nat × Nat) :=
  match fields [a, b, c] p with
  | some [x, y, z] => some (x, y, z)
  | _ => none

/-- A port number 0 to 3. -/
def portOf (n : Nat) : Option PortId := if h : n < 4 then some ⟨n, h⟩ else none

/-- A yes-or-no field: 0 or 1. -/
def boolOf : Nat → Option Bool
  | 0 => some false
  | 1 => some true
  | _ => none

/-! ## CRC-16 and frames (R174, R176) -/

/-- Polynomial 0x1021, most significant bit first (R176). -/
def crcByte (crc : BitVec 16) (b : Byte) : BitVec 16 :=
  (List.range 8).foldl
    (fun x _ => if x.msb then (x <<< 1) ^^^ 0x1021#16 else x <<< 1) (crc ^^^ (b.setWidth 16 <<< 8))

/-- The CRC of bytes 1 through 4 + L of a frame: initial value 0xFFFF, nothing inverted (R176). -/
def crc16 (bs : List Byte) : BitVec 16 := bs.foldl crcByte 0xFFFF#16

/-- A frame: start byte, length, kind, tag, payload, CRC low byte first (R176). -/
def buildFrame (kind tag : Byte) (payload : List Byte) : List Byte :=
  let covered := num 2 payload.length ++ kind :: tag :: payload
  0x7E :: covered ++ num 2 (crc16 covered).toNat

/-- Why a frame is damaged (R174). -/
inductive FrameFault where
  | start | length | crc | truncated
  deriving DecidableEq, Repr

/-- The reason codes of R177. -/
def frameFaultCode : FrameFault → Byte
  | .start => 1
  | .length => 2
  | .crc => 3
  | .truncated => 4

/-- What the collection of the bytes of one WRITE transaction ends in (R174). -/
inductive Collected where
  | noFrame
  | fault (f : FrameFault)
  | good (kind tag : Byte) (payload : List Byte)
  deriving DecidableEq, Repr

/-- The collection of R174 over the bytes after the op byte; bytes after its end are ignored. -/
def collect : List Byte → Collected
  | [] => .noFrame
  | b :: rest =>
    if b ≠ 0x7E then .fault .start
    else if rest.length < 2 then .fault .truncated
    else
      let l := leNat (rest.take 2)
      if maxPayload < l then .fault .length
      else if rest.length < 6 + l then .fault .truncated
      else if leNat ((rest.drop (4 + l)).take 2) ≠ (crc16 (rest.take (4 + l))).toNat then .fault .crc
      else .good (rest.getD 2 0) (rest.getD 3 0) ((rest.drop 4).take l)

/-- The request kinds (R181). -/
def requestKinds : List Byte :=
  [0x01, 0x02, 0x03, 0x04, 0x05, 0x06, 0x07, 0x08] ++
  [0x10, 0x11, 0x12, 0x13, 0x14, 0x15, 0x16, 0x17, 0x18, 0x19] ++
  [0x20, 0x21, 0x22, 0x23, 0x24, 0x25] ++
  [0x30, 0x31, 0x32, 0x33, 0x34, 0x35, 0x36, 0x37, 0x38, 0x39, 0x3A, 0x3B, 0x3C, 0x3D] ++
  [0x40, 0x41, 0x42, 0x43, 0x44, 0x45]

/-- The status codes of R179. -/
def statusCode : Status → Byte
  | .ok => 0 | .partial_ => 1 | .badFrame => 2 | .unknownKind => 3 | .badLength => 4 | .badField => 5
  | .wrongState => 6 | .busy => 7 | .noSpace => 8 | .overlap => 9 | .notFound => 10 | .late => 11
  | .duplicate => 12 | .stale => 13 | .superseded => 14 | .dirty => 15 | .damaged => 16

/-- The kinds of the frames the part raises on its own (R181). -/
def reportCode : Report → Byte
  | .start => 0xC0 | .fault => 0xC1 | .power => 0xC2 | .boot => 0xC3 | .media => 0xC4 | .mark => 0xC6
  | .conLine p => BitVec.ofNat 8 (0xC8 + p.val)
  | .conData p => BitVec.ofNat 8 (0xCC + p.val)

/-! ## Requests with longer payloads (R178) -/

/-- The fields of CON_CONFIG as carried (R3). -/
structure ConConfigReq where
  port : Nat
  rateMode : Nat
  rate : Nat
  dataBits : Nat
  parity : Nat
  stopBits : Nat
  gating : Nat
  translation : Nat
  escape : Nat
  quota : Nat
  deriving DecidableEq, Repr

def parseConConfig (p : List Byte) : Option ConConfigReq :=
  match fields [1, 1, 1, 1, 1, 1, 1, 1, 1, 1] p with
  | some [port, rm, r, db, pa, sb, g, tr, es, q] =>
    some { port := port, rateMode := rm, rate := r, dataBits := db, parity := pa, stopBits := sb, gating := g,
           translation := tr, escape := es, quota := q }
  | _ => none

def rateModeOf : Nat → Option RateMode
  | 0 => some .fixed | 1 => some .auto | _ => none

def parityOf : Nat → Option Parity
  | 0 => some .none | 1 => some .even | 2 => some .odd | _ => none

def translationOf : Nat → Option Translation
  | 0 => some .none | 1 => some .t0 | 2 => some .t1 | _ => none

/-- The record as it would be applied, out-of-range fields refused and the others clamped (R3). -/
def toConConfig (r : ConConfigReq) : Option ConConfig := do
  let rm ← rateModeOf r.rateMode
  let rate ← if h : r.rate < 11 then some (⟨r.rate, h⟩ : RateIdx) else none
  let pa ← parityOf r.parity
  let g ← boolOf r.gating
  let tr ← translationOf r.translation
  let es ← boolOf r.escape
  some { rateMode := rm, fixedRate := rate, dataBits := clamp 7 8 r.dataBits, parity := pa,
         stopBits := clamp 1 2 r.stopBits, gating := g, translation := tr, escape := es,
         quota := clamp 1 64 r.quota }

/-- The fields of CON_WRITE: a port and the rest of the payload, at most 1024 bytes (R17, R178). -/
def parseConWrite : List Byte → Option (Nat × List Byte)
  | [] => none
  | port :: data => if data.length ≤ 1024 then some (port.toNat, data) else none

/-- The fields of MARK_SET as carried (R48). -/
structure MarkSetReq where
  index   : Nat
  enabled : Nat
  pattern : List Byte
  mask    : Nat
  role    : Nat
  report  : Nat
  once    : Nat
  inject  : List Byte
  deriving DecidableEq, Repr

def parseMarkSet : List Byte → Option MarkSetReq
  | idx :: en :: pl :: rest =>
    if rest.length < pl.toNat then none
    else match rest.drop pl.toNat with
      | mask :: role :: rep :: once :: il :: inj =>
        if inj.length = il.toNat then
          some { index := idx.toNat, enabled := en.toNat, pattern := rest.take pl.toNat, mask := mask.toNat,
                 role := role.toNat, report := rep.toNat, once := once.toNat, inject := inj }
        else none
      | _ => none
  | _ => none

def roleOf : Nat → Option Role
  | 0 => some .none | 1 => some .inject | 2 => some .bootOk | 3 => some .progress | 4 => some .fault | _ => none

/-- The record MARK_SET would store, or none where R48 refuses BAD_FIELD (the index is checked apart). -/
def toMarkerCfg (r : MarkSetReq) : Option MarkerCfg := do
  let role ← roleOf r.role
  let en ← boolOf r.enabled
  let rep ← boolOf r.report
  let once ← boolOf r.once
  if 15 < r.mask ∨ r.pattern.length = 0 ∨ 32 < r.pattern.length ∨ 32 < r.inject.length ∨
      (role = .inject ∧ r.inject = []) then none
  else some { enabled := en, pattern := r.pattern, mask := BitVec.ofNat 4 r.mask, role := role, report := rep,
              once := once, inject := if role = .inject then r.inject else [] }

/-- The entries of XLAT_LOAD, as (kind, replacement byte) pairs. -/
def parsePairs : List Byte → Option (List (Byte × Byte))
  | [] => some []
  | [_] => none
  | k :: b :: rest => (parsePairs rest).map ((k, b) :: ·)

/-- The fields of XLAT_LOAD: table, start index, count, and that many entries (R42). -/
def parseXlatLoad : List Byte → Option (Nat × Nat × List (Byte × Byte))
  | t :: st :: c0 :: c1 :: rest =>
    if rest.length = 2 * leNat [c0, c1] then (parsePairs rest).map fun es => (t.toNat, st.toNat, es) else none
  | _ => none

/-- A translation table entry, 0 REPLACE or 1 SKIP (R178). -/
def xlatEntryOf (e : Byte × Byte) : Option XlatEntry :=
  if e.1 = 0 then some (.replace e.2) else if e.1 = 1 then some .skip else none

/-- The fields of MED_CONFIG as carried (R119, R138). -/
structure MedConfigReq where
  fetchTimeout : Nat
  readAhead    : Nat
  threshold    : Nat
  syncTimeout  : Nat
  enable       : Nat
  deriving DecidableEq, Repr

def parseMedConfig (p : List Byte) : Option MedConfigReq :=
  match fields [2, 1, 2, 2, 1] p with
  | some [ft, ra, th, sy, en] =>
    some { fetchTimeout := ft, readAhead := ra, threshold := th, syncTimeout := sy, enable := en }
  | _ => none

def toMedConfig (r : MedConfigReq) : Option MedConfig :=
  (boolOf r.enable).map fun en =>
    { fetchTimeout := clamp 100 60000 r.fetchTimeout, readAhead := clamp 0 7 r.readAhead,
      threshold := clamp 1 992 r.threshold, syncTimeout := clamp 1 600 r.syncTimeout, portEnable := en }

def accessOf : Nat → Option Access
  | 0 => some .ro | 1 => some .rw | _ => none

def extentKindOf : Nat → Option ExtentKind
  | 0 => some .data | 1 => some .zero | _ => none

/-- The fields of MED_EXTENT_ADD as carried (R73, R74). -/
structure ExtentReq where
  index  : Nat
  first  : Nat
  count  : Nat
  kind   : Nat
  access : Nat
  object : Nat
  base   : Nat
  deriving DecidableEq, Repr

def parseExtentAdd (p : List Byte) : Option ExtentReq :=
  match fields [1, 4, 4, 1, 1, 2, 5] p with
  | some [i, f, c, k, a, o, b] =>
    some { index := i, first := f, count := c, kind := k, access := a, object := o, base := b }
  | _ => none

/-- A block of 512 bytes behind `n` bytes of other fields (R178). -/
def parseBlock (n : Nat) (p : List Byte) : Option (List Byte × List Byte) :=
  if p.length = n + blockBytes then some (p.take n, p.drop n) else none

/-- The fields of MED_FILL: slot, generation, sequence, data (R115). -/
def parseFill (p : List Byte) : Option (Nat × Byte × Nat × List Byte) :=
  match parseBlock 3 p with
  | some ([s, g, k], data) => some (s.toNat, g, k.toNat, data)
  | _ => none

/-- The fields of MED_PUT: LBA and data (R99). -/
def parsePut (p : List Byte) : Option (Nat × List Byte) :=
  (parseBlock 4 p).map fun x => (leNat x.1, x.2)

/-- The fields of MED_FILL_FAIL: slot and generation (R116). -/
def parseHandle : List Byte → Option (Nat × Byte)
  | [s, g] => some (s.toNat, g)
  | _ => none

def activeLevelOf : Nat → Option ActiveLevel
  | 0 => some .low | 1 => some .high | _ => none

def restModeOf : Nat → Option RestMode
  | 0 => some .release | 1 => some .driveInactive | _ => none

def restorePolicyOf : Nat → Option RestorePolicy
  | 0 => some .stayOff | 1 => some .powerOn | _ => none

/-- The settings of PWR_CONFIG, in the order of R156: eight durations, three active levels, three rest modes
(POWER, RESET, DIAG), restore policy and delay. -/
structure PowerReq where
  durations : List Nat
  levels    : List Nat
  rests     : List Nat
  policy    : Nat
  delay     : Nat
  deriving DecidableEq, Repr

def parsePwrConfig (p : List Byte) : Option PowerReq :=
  match fields [1, 2, 2, 2, 2, 2, 2, 2, 1, 1, 1, 1, 1, 1, 1, 1] p with
  | some [d0, d1, d2, d3, d4, d5, d6, d7, l0, l1, l2, r0, r1, r2, po, de] =>
    some { durations := [d0, d1, d2, d3, d4, d5, d6, d7], levels := [l0, l1, l2], rests := [r0, r1, r2],
           policy := po, delay := de }
  | _ => none

/-- The settings as they would be applied: durations clamped, enumerations refused (R156). -/
def toPowerCfg (r : PowerReq) : Option PowerCfg := do
  let out (i : Nat) : Option OutputCfg := do
    let a ← activeLevelOf (r.levels.getD i 2)
    let m ← restModeOf (r.rests.getD i 2)
    some { active := a, rest := m }
  let po ← out 0
  let ro ← out 1
  let dg ← out 2
  let rp ← restorePolicyOf r.policy
  let d (i : Nat) := r.durations.getD i 0
  some { debounce := clamp 1 255 (d 0), press := clamp 50 2000 (d 1), onWait := clamp 500 30000 (d 2),
         softOff := clamp 5 1800 (d 3), maxHold := clamp 4000 15000 (d 4), resetPulse := clamp 20 2000 (d 5),
         diagPulse := clamp 20 2000 (d 6), dwell := clamp 1000 60000 (d 7), powerOut := po, resetOut := ro,
         diagOut := dg, restore := rp, restoreDelay := clamp 0 255 r.delay }

def actionKindOf : Nat → Option ActionKind
  | 0 => some .on | 1 => some .offSoft | 2 => some .offHard | 3 => some .reset | 4 => some .diag
  | 5 => some .cycle | _ => none

def timeoutActionOf : Nat → Option SupAction
  | 0 => some .notify | 1 => some .reset | 2 => some .cycle | _ => none

def faultActionOf : Nat → Option SupAction
  | 0 => some .notify | 1 => some .diag | 2 => some .reset | 3 => some .cycle | _ => none

/-- The fields of BOOT_POLICY as carried (R163). -/
structure PolicyReq where
  enabled     : Nat
  watched     : Nat
  bootTimeout : Nat
  timeoutAct  : Nat
  faultAct    : Nat
  holdOff     : Nat
  maxAttempts : Nat
  eject       : Nat
  deriving DecidableEq, Repr

def parsePolicy (p : List Byte) : Option PolicyReq :=
  match fields [1, 1, 2, 1, 1, 2, 1, 1] p with
  | some [en, wa, bt, ta, fa, ho, ma, ej] =>
    some { enabled := en, watched := wa, bootTimeout := bt, timeoutAct := ta, faultAct := fa, holdOff := ho,
           maxAttempts := ma, eject := ej }
  | _ => none

def toPolicy (r : PolicyReq) : Option BootPolicy := do
  let en ← boolOf r.enabled
  let ta ← timeoutActionOf r.timeoutAct
  let fa ← faultActionOf r.faultAct
  let ej ← boolOf r.eject
  if 15 < r.watched then none
  else some { enabled := en, watched := BitVec.ofNat 4 r.watched, bootTimeout := clamp 30 7200 r.bootTimeout,
              timeoutAction := ta, faultAction := fa, holdOff := clamp 0 600 r.holdOff,
              maxAttempts := clamp 0 7 r.maxAttempts, eject := ej }

/-! ## Enumeration codes (R178: the position of the value in its list) -/

def rateModeCode : RateMode → Nat
  | .fixed => 0 | .auto => 1

def parityCode : Parity → Nat
  | .none => 0 | .even => 1 | .odd => 2

def translationCode : Translation → Nat
  | .none => 0 | .t0 => 1 | .t1 => 2

def rateStateCode : RateState → Nat
  | .hunting => 0 | .candidate _ => 1 | .locked _ => 2

def roleCode : Role → Nat
  | .none => 0 | .inject => 1 | .bootOk => 2 | .progress => 3 | .fault => 4

def attachCode : AttachState → Nat
  | .detached => 0 | .attached => 1 | .presented => 2 | .ejecting => 3

/-- R120 lists CONNECTED, then DISCONNECTED. -/
def connectionCode (connected : Bool) : Nat := if connected then 0 else 1

def accessCode : Access → Nat
  | .ro => 0 | .rw => 1

def extentKindCode : ExtentKind → Nat
  | .data => 0 | .zero => 1

def blockStateCode : BlockState → Nat
  | .invalid => 0 | .pending => 1 | .valid => 2 | .dirty => 3 | .draining => 4 | .redirtied => 5 | .lost => 6

def cmdKindCode : CmdKind → Nat
  | .inquire => 0 | .ready => 1 | .capacity => 2 | .read => 3 | .write => 4 | .sync => 5 | .eject => 6
  | .sense => 7 | .mode => 8 | .other c => c.toNat

def activeLevelCode : ActiveLevel → Nat
  | .low => 0 | .high => 1

def restModeCode : RestMode → Nat
  | .release => 0 | .driveInactive => 1

def restorePolicyCode : RestorePolicy → Nat
  | .stayOff => 0 | .powerOn => 1

def actionCode : ActionKind → Nat
  | .on => 0 | .offSoft => 1 | .offHard => 2 | .reset => 3 | .diag => 4 | .cycle => 5

def requesterCode : Requester → Nat
  | .link => 0 | .supervisor => 1 | .restore => 2

def phaseCode : Phase → Nat
  | .pressOn => 0 | .waitUp => 1 | .pressSoft => 2 | .waitDown => 3 | .force => 4 | .resetPulse => 5
  | .diagPulse => 6 | .dwell => 7

def resultCode : ActResult → Nat
  | .done => 0 | .already => 1 | .aborted => 2 | .powerLost => 3 | .noPowerGood => 4 | .softTimeout => 5
  | .stuckOn => 6 | .externalOn => 7

def outputCondCode : OutputCond → Nat
  | .active => 0 | .inactive => 1 | .released => 2

def epochCauseCode : EpochCause → Nat
  | .onAction => 0 | .powerUpExternal => 1 | .resetAction => 2 | .resetExternal => 3 | .partStart => 4

def bootStatusCode : BootStatus → Nat
  | .unsupervised => 0 | .pending => 1 | .ok => 2 | .failed => 3 | .endedUnsettled => 4

def endCauseCode : EndCause → Nat
  | .superseded => 0 | .powerOffAction => 1 | .powerLost => 2

def supStateCode : SupState → Nat
  | .idle => 0 | .waiting => 1 | .satisfied => 2 | .holdoff => 3 | .givenUp => 4

def returnCode : ReturnState → Nat
  | .waiting => 0 | .satisfied => 1

def timeoutActionCode : SupAction → Nat
  | .notify => 0 | .diag => 0 | .reset => 1 | .cycle => 2

def faultActionCode : SupAction → Nat
  | .notify => 0 | .diag => 1 | .reset => 2 | .cycle => 3

def triggerCode : Trigger → Nat
  | .bootTimeout => 0 | .faultHoldoff => 1

def outcomeCode : EscOutcome → Nat
  | .taken => 0 | .skipped => 1 | .givenUp => 2

def causeCode : ResetCause → Nat
  | .powerOn => 0 | .pin => 1 | .soft => 2

def loadFailureCode : LoadFailure → Nat
  | .blank => 0 | .crc => 1

def restoreCode : RestoreState → Nat
  | .none => 0 | .waiting _ => 1 | .requested => 2 | .cancelled => 3

/-! ## Records as replies and reports carry them (R179) -/

/-- A configuration record in the order of R1. -/
def encConConfig (c : ConConfig) : List Byte :=
  num 1 (rateModeCode c.rateMode) ++ num 1 c.fixedRate.val ++ num 1 c.dataBits ++ num 1 (parityCode c.parity) ++
    num 1 c.stopBits ++ flag c.gating ++ num 1 (translationCode c.translation) ++ flag c.escape ++ num 1 c.quota

/-- A marker record in the order of R48. -/
def encMarkerCfg (c : MarkerCfg) : List Byte :=
  flag c.enabled ++ num 1 c.pattern.length ++ c.pattern ++ num 1 c.mask.toNat ++ num 1 (roleCode c.role) ++
    flag c.report ++ flag c.once ++ num 1 c.inject.length ++ c.inject

/-- A hit record in the order of R162. -/
def encHit (h : HitRec) : List Byte :=
  num 1 h.marker.val ++ num 1 h.port.val ++ num 6 h.pos ++ encTime h.time ++ num 1 (roleCode h.role) ++
    flag h.dropped

/-- A page record in the order of R38. -/
def encPage (r : PageRec) : List Byte :=
  num 1 r.page.val ++ num 6 r.first ++ opt 4 (r.firstTime.map encTime) ++ opt 2 (r.firstEpoch.map (num 2))

/-- An epoch record in the order of R162; the four start positions have no count (log 42). -/
def encEpoch (e : EpochRec) : List Byte :=
  num 2 e.number ++ num 1 (epochCauseCode e.cause) ++ encTime e.start ++ (e.starts.toList.map (num 6)).flatten ++
    num 1 (bootStatusCode e.status) ++ num 1 e.attempts ++ opt 4 (e.endTime.map encTime) ++
    opt 1 (e.endCause.map fun c => num 1 (endCauseCode c)) ++ num 1 e.hits.length ++ (e.hits.map encHit).flatten

/-- An extent record with its index, in the order of R73. -/
def encExtent (i : Nat) (e : Extent) : List Byte :=
  num 1 i ++ num 4 e.first ++ num 4 e.count ++ num 1 (extentKindCode e.kind) ++ num 1 (accessCode e.access) ++
    opt 2 (if e.kind = .data then some (num 2 e.object) else none) ++
    opt 5 (if e.kind = .data then some (num 5 e.base) else none)

/-- The five MED_CONFIG values (R119). -/
def encMedConfig (c : MedConfig) : List Byte :=
  num 2 c.fetchTimeout ++ num 1 c.readAhead ++ num 2 c.threshold ++ num 2 c.syncTimeout ++ flag c.portEnable

/-- The power settings in the order of R156. -/
def encPowerCfg (c : PowerCfg) : List Byte :=
  num 1 c.debounce ++ num 2 c.press ++ num 2 c.onWait ++ num 2 c.softOff ++ num 2 c.maxHold ++
    num 2 c.resetPulse ++ num 2 c.diagPulse ++ num 2 c.dwell ++
    ([c.powerOut, c.resetOut, c.diagOut].map fun o => num 1 (activeLevelCode o.active)).flatten ++
    ([c.powerOut, c.resetOut, c.diagOut].map fun o => num 1 (restModeCode o.rest)).flatten ++
    num 1 (restorePolicyCode c.restore) ++ num 1 c.restoreDelay

/-- The boot policy in the order of R163. -/
def encPolicy (p : BootPolicy) : List Byte :=
  flag p.enabled ++ num 1 p.watched.toNat ++ num 2 p.bootTimeout ++ num 1 (timeoutActionCode p.timeoutAction) ++
    num 1 (faultActionCode p.faultAction) ++ num 2 p.holdOff ++ num 1 p.maxAttempts ++ flag p.eject

/-- An action record in the order of R144, 22 bytes; the phase deadline is carried as absent once the action has ended
(log 46). -/
def encAction (a : ActionRec) : List Byte :=
  num 1 (actionCode a.kind) ++ flag a.escalate ++ num 1 (requesterCode a.requester) ++ encTime a.start ++
    opt 1 (a.phase.map fun p => num 1 (phaseCode p)) ++
    opt 4 (a.phase.map fun _ => encTime a.deadline) ++ flag a.escalated ++
    opt 1 (a.result.map fun r => num 1 (resultCode r)) ++ opt 4 (a.ended.map encTime)

/-- An escalation (R164), 9 bytes. -/
def encEscalation (e : Escalation) : List Byte :=
  num 1 (triggerCode e.trigger) ++ num 1 (faultActionCode e.action) ++ num 1 (outcomeCode e.outcome) ++
    encTime e.time ++ num 2 e.epoch

/-- A fault's kind code and its detail padded to 6 bytes (log 17); a POWER_LOST's action is one field (log 48). -/
def encFaultKind : FaultKind → List Byte
  | .historyDamaged p => num 1 0 ++ num 6 p.val
  | .dirtyLost lba => num 1 1 ++ num 6 lba
  | .dirtyDiscarded n => num 1 2 ++ num 6 n
  | .fetchExpired s g lba => num 1 3 ++ num 1 s.val ++ [g] ++ num 4 lba
  | .powerLost a => num 1 4 ++ opt 2 (a.map fun x => num 1 (actionCode x.1) ++ num 1 (requesterCode x.2)) ++ num 3 0
  | .noPowerGood a r => num 1 5 ++ num 1 (actionCode a) ++ num 5 (requesterCode r)
  | .stuckOn a r => num 1 6 ++ num 1 (actionCode a) ++ num 5 (requesterCode r)
  | .bootFailed n a => num 1 7 ++ num 2 n ++ num 4 (faultActionCode a)
  | .settingsInvalid r => num 1 8 ++ num 6 (loadFailureCode r)

/-- A fault entry, 11 bytes: kind, part time, detail (R192, log 17). -/
def encFaultEntry (e : FaultEntry) : List Byte :=
  (encFaultKind e.kind).take 1 ++ encTime e.time ++ (encFaultKind e.kind).drop 1

/-- The fault record: FIRST, LATEST, count (R192); each entry is one field (log 48). -/
def encFaults (f : FaultRecord) : List Byte :=
  opt 11 (f.first.map encFaultEntry) ++ opt 11 (f.latest.map encFaultEntry) ++ num 2 f.count

end Sys2Proof.Machine
end

