-- ==== Sys2Proof/Machine/Ops.lean ====
section
/-! DEFINITION. The named operations over part time, buffer memory, rows, pages, console ports and cache lines. -/

namespace Sys2Proof.Machine

/-! ## Part time and deadlines (00, Time; log 2) -/

/-- The deadline `ms` milliseconds from now, wrapping at 2^32. -/
def State.after (ms : Nat) (s : State) : PartTime := s.time + BitVec.ofNat 32 ms

/-- The deadline of the stall or of the waiting SYNC. -/
def currentDeadline : Option Current → Option PartTime
  | some (.write w) => w.stall.map (·.deadline)
  | some (.sync d) => some d
  | _ => none

/-- The end of the mask tail while one runs (R141). -/
def tailEnd : MaskState → Option PartTime
  | .tail t => some t
  | _ => none

/-- The deadline of a restore that waits (R188). -/
def restoreDeadline : RestoreState → Option PartTime
  | .waiting d => some d
  | _ => none

/-- The phase deadline of the action in progress (R145). -/
def State.phaseDue (s : State) : Option PartTime := s.action.map (·.deadline)

/-- The part time at which the low level of a BREAK under transmission ends (R16). -/
def breakEnd : Option Sending → Option PartTime
  | some (.brk t) => some t
  | _ => none

/-- Every deadline that runs: fetches, drains, stall or SYNC, settling, mask tail, phase, supervision, restore, the
last moment a save can end, and the ends of BREAKs. -/
def State.deadlines (s : State) : List PartTime :=
  s.fetch.toList.filterMap (fun f => f.live.map (·.expiry)) ++ s.usb.drains.map (·.expiry) ++
    [currentDeadline s.usb.current, s.power.pg.settling, s.power.rsts.settling, tailEnd s.power.mask, s.phaseDue,
      s.sup.bootTimer, s.sup.holdTimer, restoreDeadline s.restore, s.save.map (·.by_)].filterMap id ++
    s.ports.toList.filterMap fun p => breakEnd p.sending

/-- Part time can reach the deadline `d`: no running deadline lies before it (log 2). -/
def State.reaches (d : PartTime) (s : State) : Bool :=
  s.deadlines.all fun e => decide (d - s.time ≤ e - s.time)

/-- A timed event: where its timer runs and part time can reach its deadline, part time becomes the deadline and
the event is taken; otherwise it does not take place (log 2). -/
def State.atDeadline (d : Option PartTime) (take : State → State) (s : State) : State :=
  match d with
  | none => s
  | some d => if s.reaches d then take { s with time := d } else s

/-! ## Buffer memory (R58, R66) -/

/-- The canonical form: addresses strictly rising, no cell holding 0, which is what an unlisted address reads. -/
def Memory.wf (m : Memory) : Bool :=
  decide (m.Pairwise fun a b => a.1 < b.1) && m.all fun c => decide (c.2 ≠ 0)

/-- The byte at an address. -/
def readByte (m : Memory) (a : Nat) : Byte := ((m.find? fun c => c.1 == a).map (·.2)).getD 0

/-- The `n` bytes from an address on. -/
def readBytes (m : Memory) (a n : Nat) : List Byte := (List.range n).map fun i => readByte m (a + i)

/-- The cells of bytes stored from an address on. -/
def cellsOf : Nat → List Byte → Memory
  | _, [] => []
  | a, b :: bs => if b = 0 then cellsOf (a + 1) bs else (a, b) :: cellsOf (a + 1) bs

/-- Memory with bytes stored from an address on. -/
def writeBytes (m : Memory) (a : Nat) (bs : List Byte) : Memory :=
  m.filter (fun c => decide (c.1 < a)) ++ cellsOf a bs ++ m.filter (fun c => decide (a + bs.length ≤ c.1))

/-- The address of byte `off` of a page. -/
def pageAddr (p : Fin 128) (off : Nat) : Nat := pageBytes * p.val + off

/-! ## Rows (R66) -/

/-- The number of row `k` of a page. -/
def rowOf (p : Fin 128) (k : Nat) : Nat := 64 * p.val + k

/-- The state of a row: none is SOUND. -/
def rowState (rs : Rows) (r : Nat) : Option RowFault := (rs.find? fun x => x.1 == r).map (·.2)

/-- Rows `r` to `r + n - 1` written whole become SOUND. -/
def soundRows (rs : Rows) (r n : Nat) : Rows := rs.filter fun x => decide (x.1 < r ∨ r + n ≤ x.1)

/-- The rows of those touched in which a read finds an error. -/
def rowsInError (rs : Rows) (touched : Nat → Bool) : List Nat := (rs.filter fun x => touched x.1).map (·.1)

/-- A read of the touched rows: each of them that is UPSET becomes MARKED. -/
def markRows (rs : Rows) (touched : Nat → Bool) : Rows :=
  rs.map fun x => if touched x.1 then (x.1, .marked) else x

/-- An upset: a SOUND row becomes UPSET, another keeps its state. -/
def upsetRow (rs : Rows) (r : Nat) : Rows :=
  match rowState rs r with
  | some _ => rs
  | none => rs.filter (fun x => decide (x.1 < r)) ++ (r, .upset) :: rs.filter (fun x => decide (r < x.1))

/-! ## Console ports -/

/-- A port changed by `f`. -/
def State.modPort (i : PortId) (f : Port → Port) (s : State) : State := { s with ports := vupd s.ports i f }

/-- O: the first position of the oldest page, or W when the list is empty (R22). -/
def Port.o (p : Port) : Nat := (p.pages.head?.map (·.first)).getD p.w

/-- The free entries of the transmit queue (R16). -/
def Port.free (p : Port) : Nat := queueCap - p.queue.length

/-! ## The page pool (R58 to R64) -/

/-- The sum of the committed amounts (R59). -/
def State.committedSum (s : State) : Nat := s.committed.toList.sum

/-- The floor F (R59). -/
def State.floor (s : State) : Nat := pageCount - s.committedSum

/-- The lowest-numbered FREE page (R62, R64). -/
def State.lowestFree (s : State) : Option (Fin 128) := (List.finRange 128).find? fun p => decide (s.owners[p] = .free)

/-- The count of FREE pages. -/
def State.freePages (s : State) : Nat := s.owners.toList.count .free

def State.setOwner (p : Fin 128) (o : Owner) (s : State) : State := { s with owners := vupd s.owners p fun _ => o }

/-! ## Cache lines (R89 to R96) -/

/-- States that make a line dirty-or-pinned (R91). -/
def BlockState.isUnclean : BlockState → Bool
  | .dirty | .draining | .redirtied | .lost => true
  | .invalid | .pending | .valid => false

/-- States of the blocks of the dirty list (R90). -/
def BlockState.isListed : BlockState → Bool
  | .dirty | .draining | .redirtied => true
  | .invalid | .pending | .valid | .lost => false

/-- R91. -/
def CacheLine.dirtyOrPinned (l : CacheLine) : Bool := l.pinned || l.blocks.toList.any (·.isUnclean)

/-- R91. -/
def CacheLine.held (l : CacheLine) : Bool :=
  l.pinned || l.blocks.toList.any fun b => b.isUnclean || decide (b = .pending)

/-- All eight blocks are INVALID (R96). -/
def CacheLine.empty (l : CacheLine) : Bool := l.blocks.toList.all fun b => decide (b = .invalid)

def State.pinnedCount (s : State) : Nat := s.cache.countP (·.pinned)
def State.heldCount (s : State) : Nat := s.cache.countP (·.held)
def State.dirtyOrPinnedCount (s : State) : Nat := s.cache.countP (·.dirtyOrPinned)

/-- The LOST count (R130). -/
def State.lostCount (s : State) : Nat := (s.cache.map fun l => l.blocks.toList.count .lost).sum

/-- The line of a tag (R89). -/
def State.line (tag : Nat) (s : State) : Option CacheLine := s.cache.find? fun l => l.tag == tag

/-- The tag of a block's line. -/
abbrev tagOf (lba : Nat) : Nat := lba / 8

/-- A block's index in its line. -/
def idxOf (lba : Nat) : Fin 8 := ⟨lba % 8, Nat.mod_lt _ (by decide)⟩

/-- The state of a block; INVALID where its tag has no line (R90). -/
def State.block (lba : Nat) (s : State) : BlockState :=
  match s.line (tagOf lba) with
  | some l => l.blocks[idxOf lba]
  | none => .invalid

/-- A line changed by `f`, in its LRU place. -/
def State.modLine (tag : Nat) (f : CacheLine → CacheLine) (s : State) : State :=
  { s with cache := s.cache.map fun l => if l.tag == tag then f l else l }

/-- A block's state set, in a line that is present. -/
def State.setBlock (lba : Nat) (b : BlockState) (s : State) : State :=
  s.modLine (tagOf lba) fun l => { l with blocks := vupd l.blocks (idxOf lba) fun _ => b }

/-- A line moves to the most-recent end (R93). -/
def State.touch (tag : Nat) (s : State) : State :=
  match s.line tag with
  | some l => { s with cache := s.cache.filter (fun x => x.tag != tag) ++ [l] }
  | none => s

/-- The least-recently-used non-held line (R63, R95). -/
def State.victim (s : State) : Option CacheLine := s.cache.find? fun l => !l.held

/-- A line leaves the directory and the LRU order. -/
def State.dropLine (tag : Nat) (s : State) : State := { s with cache := s.cache.filter fun l => l.tag != tag }

/-- A line left unpinned with every block INVALID is released, its page FREE (R96). -/
def State.releaseIfEmpty (tag : Nat) (s : State) : State :=
  match s.line tag with
  | some l => if !l.pinned && l.empty then (s.dropLine tag).setOwner l.page .free else s
  | none => s

/-- A page for a console history: the lowest FREE page, or one reclaimed from the cache (R62, R63). -/
def State.supplyHistory (i : PortId) (s : State) : Option (Fin 128 × State) :=
  match s.lowestFree with
  | some p => some (p, s.setOwner p (.history i))
  | none =>
    match s.victim with
    | some l =>
      some (l.page, { (s.dropLine l.tag).setOwner l.page (.history i) with reclaims := satInc 65535 s.reclaims })
    | none => none

/-- A page for the cache: the lowest FREE page, or that of its own victim (R64). -/
def State.supplyLine (s : State) : Option (Fin 128 × State) :=
  match s.lowestFree with
  | some p => some (p, s.setOwner p .line)
  | none =>
    match s.victim with
    | some l => some (l.page, s.dropLine l.tag)
    | none => none

/-- A line record made for a tag, all blocks INVALID, at the most-recent end (R94). -/
def State.allocate (tag : Nat) (s : State) : Option State :=
  match s.supplyLine with
  | some (p, s') =>
    some { s' with
      cache := s'.cache ++ [{ tag := tag, page := p, blocks := Vector.replicate 8 .invalid, pinned := false }] }
  | none => none

/-- 1 where a line is not yet counted in a class, 0 where it is. -/
def notYet (counted : CacheLine → Bool) : Option CacheLine → Nat
  | some l => if counted l then 0 else 1
  | none => 1

/-- The class test of a fetch run: the held count (R92). -/
def State.fetchTest (tag : Nat) (s : State) : Bool :=
  notYet (·.held) (s.line tag) == 0 || decide (s.heldCount + 1 ≤ s.floor)

/-- The class test of a server WRITE block: dirty-or-pinned and held counts (R92). -/
def State.writeTest (tag : Nat) (s : State) : Bool :=
  notYet (·.dirtyOrPinned) (s.line tag) == 0 ||
    (decide (s.dirtyOrPinnedCount + 1 + 4 ≤ s.floor) &&
      decide (s.heldCount + notYet (·.held) (s.line tag) ≤ s.floor))

/-- The class test of a pin: all three counts (R92, R97). -/
def State.pinTest (tag : Nat) (s : State) : Bool :=
  decide (s.pinnedCount + notYet (·.pinned) (s.line tag) ≤ 8) &&
    decide (s.dirtyOrPinnedCount + notYet (·.dirtyOrPinned) (s.line tag) + 4 ≤ s.floor) &&
    decide (s.heldCount + notYet (·.held) (s.line tag) ≤ s.floor)

/-- The address of a block's slot in its line's page (R89). -/
def slotAddr (l : CacheLine) (lba : Nat) : Nat := pageAddr l.page (blockBytes * (lba % 8))

/-- The bytes of a block's slot. -/
def State.blockData (lba : Nat) (s : State) : List Byte :=
  match s.line (tagOf lba) with
  | some l => readBytes s.mem (slotAddr l lba) blockBytes
  | none => []

/-- A slot written whole, which makes its 8 rows SOUND (R66, R90). -/
def State.writeSlot (lba : Nat) (data : List Byte) (s : State) : State :=
  match s.line (tagOf lba) with
  | some l =>
    { s with mem := writeBytes s.mem (slotAddr l lba) data,
             rows := soundRows s.rows (rowOf l.page (8 * (lba % 8))) 8 }
  | none => s

/-- The rows of a block's slot. -/
def blockRows (l : CacheLine) (lba : Nat) (r : Nat) : Bool :=
  decide (rowOf l.page (8 * (lba % 8)) ≤ r ∧ r < rowOf l.page (8 * (lba % 8)) + 8)

/-- A read of a block's 8 rows: whether an error is found, and the state with the rows marked (R66, R67). -/
def State.readRows (lba : Nat) (s : State) : Bool × State :=
  match s.line (tagOf lba) with
  | some l =>
    (!(rowsInError s.rows (blockRows l lba)).isEmpty, { s with rows := markRows s.rows (blockRows l lba) })
  | none => (false, s)

end Sys2Proof.Machine
end

