-- ==== Sys2Proof/Machine/MediaOps.lean ====
section
/-! DEFINITION. The shared operations of the media chapters: extents, fetch records, scan passes, intake, the dirty list,
the ends of commands and attachments, and the connection. -/

namespace Sys2Proof.Machine

/-! ## Extents (R73 to R77) -/

/-- An extent covers the LBAs from `first` to `first + count - 1` (R73). -/
def Extent.covers (e : Extent) (lba : Nat) : Bool := decide (e.first ≤ lba ∧ lba < e.first + e.count)

/-- The DATA extent a block lies in; none for a block of a ZERO extent, a hole or beyond the capacity (R76). -/
def State.dataExtent (lba : Nat) (s : State) : Option Extent :=
  s.media.extents.toList.findSome? fun
    | some e => if e.kind = .data && e.covers lba then some e else none
    | none => none

/-- The object offset of a block in its DATA extent (R76). -/
def Extent.offset (e : Extent) (lba : Nat) : Nat := e.base + (lba - e.first)

/-- The server may write the block: it lies in a DATA extent, and both accesses are RW (R76, R127). -/
def State.writable (lba : Nat) (s : State) : Bool :=
  match s.dataExtent lba with
  | some e => decide (s.media.access = some .rw ∧ e.access = .rw)
  | none => false

/-- Extents in use (R71). -/
def State.extentsInUse (s : State) : Nat := s.media.extents.toList.countP (·.isSome)

/-! ## Fetch records (R111 to R114) -/

/-- The LBA of block `k` of a record (R111). -/
def FetchRec.lba (r : FetchRec) (k : Nat) : Nat := 8 * r.tag + r.first + k

/-- The blocks of the record still AWAITED. -/
def FetchRec.awaited (r : FetchRec) : Nat := r.blocks.count .awaited

/-- The LBAs of the blocks still AWAITED, rising. -/
def FetchRec.awaitedLbas (r : FetchRec) : List Nat :=
  (List.range r.blocks.length).filterMap fun k => if r.blocks[k]? = some .awaited then some (r.lba k) else none

/-- A READ waits on a record when an AWAITED block of it lies in the undelivered range (R112). -/
def waitsOn (c : ReadCmd) (r : FetchRec) : Bool :=
  r.awaitedLbas.any fun b => decide (c.cursor ≤ b ∧ b < c.first + c.count)

/-- The live records (R111). -/
def State.liveCount (s : State) : Nat := s.fetch.toList.countP (·.live.isSome)

/-- The record a handle names: its slot live, its generation the slot's (R111). -/
def State.handle (slot : Fin 8) (gen : BitVec 8) (s : State) : Option FetchRec :=
  if s.fetch[slot].gen = gen then s.fetch[slot].live else none

/-- The notice carries the handle (R113). -/
def Notice.names (slot : Fin 8) (gen : BitVec 8) (n : Notice) : Bool := decide (n.slot = slot) && decide (n.gen = gen)

/-- What a READ transaction holds, once the fetch of a handle is retired: a held notice of it is withdrawn (R183). -/
def Held.withdraw (slot : Fin 8) (gen : BitVec 8) (h : Held) : Held :=
  match h with
  | .notice n => if n.names slot gen then .withdrawn else .notice n
  | .empty => .empty
  | .reply => .reply
  | .withdrawn => .withdrawn
  | .report r c => .report r c

/-- The slot becomes free, its generation increases by one, and its unread notice is withdrawn, held or not (R111, R113,
R183). -/
def State.retire (i : Fin 8) (s : State) : State :=
  { s with
    fetch := vupd s.fetch i fun f => { gen := f.gen + 1, live := none },
    link := { s.link with
      notices := s.link.notices.filter fun n => !n.names i s.fetch[i].gen,
      held := s.link.held.map (Held.withdraw i s.fetch[i].gen) } }

/-- Block `k` of a live record takes a state; a record left with no AWAITED block is retired (R111), and a later fill
by its handle is LATE, of a RELEASED block too (log 33). -/
def State.settleRunBlock (i : Fin 8) (r : FetchRec) (k : Nat) (b : RunBlock) (s : State) : State :=
  let r' := { r with blocks := r.blocks.set k b }
  if r'.awaited = 0 then s.retire i else { s with fetch := vupd s.fetch i fun f => { f with live := some r' } }

/-- The slot whose record awaits a block (R90, R111). -/
def State.awaiter (lba : Nat) (s : State) : Option (Fin 8) :=
  (List.finRange 8).find? fun i =>
    match s.fetch[i].live with
    | some r => decide (lba ∈ r.awaitedLbas)
    | none => false

/-- A PENDING block's state is replaced by a write of other data: its fetch stops awaiting it (R114). -/
def State.releaseAwait (lba : Nat) (s : State) : State :=
  match s.awaiter lba with
  | some i =>
    match s.fetch[i].live with
    | some r => s.settleRunBlock i r (lba - r.lba 0) .released
    | none => s
  | none => s

/-- The blocks of the list become INVALID. -/
def State.invalidate (lbas : List Nat) (s : State) : State := lbas.foldl (fun s b => s.setBlock b .invalid) s

/-! ## Ends of server commands (R123, R125) -/

/-- A command ends with a status: the record becomes none, and a status other than GOOD replaces the sense record. -/
def State.complete (kind : CmdKind) (st : CmdStatus) (lba count : Nat) (data : AnswerData) (s : State) : State :=
  { s with usb := { s.usb with
      current := none,
      lastAnswer := some { kind := kind, status := st, data := data },
      sense := if st = .good then s.usb.sense
               else some { kind := kind, status := st, lba := lba, count := count } } }

/-- The command in progress ends with a status, its LBA and count as R125 gives. -/
def State.endCurrent (st : CmdStatus) (s : State) : State :=
  match s.usb.current with
  | some (.read r) => s.complete .read st r.cursor (r.cursor - r.first) .none
  | some (.write w) => s.complete .write st (w.first + w.taken) w.taken .none
  | some (.sync _) => s.complete .sync st 0 0 .none
  | none => s

/-- The command in progress becomes `c`. -/
def State.setCurrent (c : Current) (s : State) : State := { s with usb := { s.usb with current := some c } }

/-! ## Connection (R120, R121) -/

/-- None of the conditions of R120 holds. -/
def State.shouldConnect (s : State) : Bool := s.pgHigh && !s.serverInReset && s.medCfg.portEnable

/-- The port connects: medium-changed set, sense record emptied (R121). -/
def State.connect (s : State) : State :=
  { s with usb := { s.usb with connected := true, mediumChanged := true, sense := none } }

/-- The port disconnects: the command in progress is dropped, the sense record emptied (R121). -/
def State.disconnect (s : State) : State :=
  { s with usb := { s.usb with connected := false, current := none, sense := none } }

/-- The connection follows the conditions of R120. -/
def State.updateConnection (s : State) : State :=
  if s.shouldConnect = s.usb.connected then s else if s.shouldConnect then s.connect else s.disconnect

/-! ## The end of an attachment (R80, R84 to R86) -/

/-- The READ in progress waits on some live fetch. -/
def State.readWaits (s : State) : Bool :=
  match s.usb.current with
  | some (.read c) => s.fetch.toList.any fun f => (f.live.map (waitsOn c)).getD false
  | _ => false

/-- Every live fetch is cancelled, with NO_MEDIUM as the outcome for a waiter (R80). Its blocks leave with their
lines (R86). -/
def State.cancelFetches (s : State) : State :=
  (List.finRange 8).foldl (fun s i => if s.fetch[i].live.isSome then s.retire i else s)
    (if s.readWaits then s.endCurrent .noMedium else s)

/-- The attachment ends, as one piece of work (R86). -/
def State.endAttachment (s : State) : State :=
  let s := s.cancelFetches
  State.setFlag .media { s with
    cache := [],
    owners := vmap s.owners fun o => if o = .line then .free else o,
    usb := { s.usb with dirty := [], drains := [] },
    media := resetAttachment }

/-- In EJECTING, a soft eject completes at the moment the dirty list is empty (R83, R84). LOST blocks go with their
lines. -/
def State.completeEject (s : State) : State :=
  if s.media.state = .ejecting ∧ s.usb.dirty = [] then s.endAttachment else s

/-- A soft eject begins from PRESENTED (R83). -/
def State.softEject (s : State) : State :=
  State.completeEject (State.setFlag .media
    (State.endCurrent .noMedium { s with media := { s.media with state := .ejecting } }))

/-- A force eject from PRESENTED or EJECTING (R85). -/
def State.forceEject (s : State) : State :=
  let n := s.usb.dirty.length
  let s := s.endCurrent .noMedium
  (if n = 0 then s else s.recordFault (.dirtyDiscarded n)).endAttachment

/-! ## The dirty list (R130, R131) -/

/-- A block enters at the tail; reaching the threshold from one below makes MEDIA pending (R130). -/
def State.appendDirty (lba : Nat) (s : State) : State :=
  let s' := { s with usb := { s.usb with dirty := s.usb.dirty ++ [lba] } }
  if s.usb.dirty.length + 1 = s.medCfg.threshold then s'.setFlag .media else s'

/-- A block leaves the dirty list. -/
def State.removeDirty (lba : Nat) (s : State) : State :=
  { s with usb := { s.usb with dirty := s.usb.dirty.filter (· ≠ lba) } }

/-- A block's drain record goes, its tag voided (R131). -/
def State.dropDrain (lba : Nat) (s : State) : State :=
  { s with usb := { s.usb with drains := s.usb.drains.filter (·.lba ≠ lba) } }

/-- The server waits in a SYNC (R136). -/
def State.syncWaits (s : State) : Bool :=
  match s.usb.current with
  | some (.sync _) => true
  | _ => false

/-- A DIRTY, DRAINING or REDIRTIED block turns LOST (R69, R102); a waiting SYNC ends MEDIUM_ERROR (R136), and in
EJECTING an emptied list completes the eject (R84). -/
def State.loseBlock (lba : Nat) (s : State) : State :=
  let s := (((s.setBlock lba .lost).removeDirty lba).dropDrain lba).recordFault (.dirtyLost lba)
  (if s.syncWaits then s.endCurrent .mediumError else s).completeEject

/-- An OK clean that leaves the list empty ends a waiting SYNC, GOOD while no block is LOST (R136), and completes a
soft eject (R84). -/
def State.afterClean (s : State) : State :=
  (if s.usb.dirty = [] ∧ s.lostCount = 0 ∧ s.syncWaits then s.endCurrent .good else s).completeEject

/-- The next drain tag: from 65535 to 1 (R131). -/
def nextTag (t : BitVec 16) : BitVec 16 := if t = 0xFFFF#16 then 1#16 else t + 1

/-! ## Scan passes (R106 to R108) -/

/-- A run takes in block `b` after one of extent `e`: INVALID, in the same line, in the same extent (R106). -/
def State.extends_ (e : Extent) (b : Nat) (s : State) : Bool :=
  decide (b % 8 ≠ 0) && e.covers b && decide (s.block b = .invalid)

/-- The end of a run grown from `b` by at most `fuel` blocks while `ok` holds of the next block. -/
def growRun (ok : Nat → Bool) : Nat → Nat → Nat
  | 0, b => b
  | n + 1, b => if ok (b + 1) then growRun ok n (b + 1) else b

/-- Where a scan pass stops: the failure point, or the end of the range (R106). -/
def ReadCmd.stop (c : ReadCmd) : Nat := c.failure.getD (c.first + c.count)

/-- The last block of the run that begins at `b` (R106): step 1 over needed blocks, and step 2 over read-ahead
blocks when the command's range ended step 1. -/
def State.runEnd (c : ReadCmd) (e : Extent) (b : Nat) (s : State) : Nat :=
  let e1 := growRun (fun n => decide (n < c.stop) && s.extends_ e n) 7 b
  if e1 + 1 = c.first + c.count then growRun (s.extends_ e ·) s.medCfg.readAhead e1 else e1

/-- The lowest-numbered free fetch slot (R107). -/
def State.freeSlot (s : State) : Option (Fin 8) := (List.finRange 8).find? fun i => s.fetch[i].live.isNone

/-- A run of `n` blocks from `b` in extent `e` is issued, if a slot is free and its line available (R107). -/
def State.issueRun (e : Extent) (b n : Nat) (s : State) : Option State :=
  match s.freeSlot with
  | none => none
  | some i =>
    if s.fetchTest (tagOf b) then
      match (if (s.line (tagOf b)).isSome then some s else s.allocate (tagOf b)) with
      | none => none
      | some s' =>
        let s'' := (List.range n).foldl (fun s k => s.setBlock (b + k) .pending) s'
        let record : FetchRec :=
          { tag := tagOf b, first := b % 8, object := e.object, offset := e.offset b,
            blocks := List.replicate n .awaited, issue := s.time, expiry := s.after s.medCfg.fetchTimeout }
        let notice : Notice :=
          { slot := i, gen := s.fetch[i].gen, lba := b, count := n, object := e.object, offset := e.offset b,
            issue := s.time }
        some { s'' with
          fetch := vupd s''.fetch i fun f => { f with live := some record },
          link := { s''.link with notices := s''.link.notices ++ [notice] } }
    else none

/-- A scan pass from block `b` on, with at most `fuel` blocks left to look at; whether every run issued (R106 to
R108). -/
def scanFrom (c : ReadCmd) : Nat → Nat → State → State × ScanState
  | 0, _, s => (s, .complete)
  | fuel + 1, b, s =>
    if c.stop ≤ b then (s, .complete)
    else match s.dataExtent b with
      | none => scanFrom c fuel (b + 1) s
      | some e =>
        if s.block b = .invalid then
          match s.issueRun e b (s.runEnd c e b + 1 - b) with
          | none => (s, .paused)
          | some s' => scanFrom c fuel (s.runEnd c e b + 1) s'
        else scanFrom c fuel (b + 1) s

/-- A scan pass of the READ in progress, from its delivery cursor (R108). -/
def State.scanPass (s : State) : State :=
  match s.usb.current with
  | some (.read c) =>
    let r := scanFrom c (c.stop - c.cursor) c.cursor s
    r.1.setCurrent (.read { c with scan := r.2 })
  | _ => s

/-! ## Intake (R128, R129) -/

/-- The state of a block once a server WRITE block is written into it (R128). -/
def writtenState : BlockState → BlockState
  | .draining | .redirtied => .redirtied
  | .invalid | .valid | .pending | .dirty | .lost => .dirty

/-- The line of a WRITE block is available: the class test passes, and an absent line is allocated (R128). -/
def State.lineForWrite (lba : Nat) (s : State) : Option State :=
  if s.writeTest (tagOf lba) then
    if (s.line (tagOf lba)).isSome then some s else s.allocate (tagOf lba)
  else none

/-- A WRITE block is taken into its line (R128): none where the line is not available. -/
def State.takeBlock (lba : Nat) (data : List Byte) (s : State) : Option State :=
  (s.lineForWrite lba).map fun s =>
    let old := s.block lba
    let s := ((s.writeSlot lba data).setBlock lba (writtenState old)).touch (tagOf lba)
    let s := if old = .pending then s.releaseAwait lba else s
    if old.isListed then s else s.appendDirty lba

/-- The next block of the WRITE in progress is offered: taken, the command GOOD after its last; or intake stalls,
a stall already running keeping its deadline (R128, R129). -/
def State.offerBlock (w : WriteCmd) (data : List Byte) (s : State) : State :=
  match s.takeBlock (w.first + w.taken) data with
  | some s' =>
    if w.taken + 1 = w.count then s'.complete .write .good 0 0 .none
    else s'.setCurrent (.write { w with taken := w.taken + 1, stall := none })
  | none =>
    match w.stall with
    | some _ => s
    | none => s.setCurrent (.write
        { w with stall := some { deadline := s.after s.medCfg.fetchTimeout, data := data } })

/-! ## The pool's notices (R59, R64, R91, R108, R129) -/

/-- A line that stays in the directory stops being held, or stops being dirty-or-pinned (R91). -/
def lineFreed : Option CacheLine → Option CacheLine → Bool
  | some a, some b => (a.held && !b.held) || (a.dirtyOrPinned && !b.dirtyOrPinned)
  | _, _ => false

/-- From `before` to `s` a page became FREE, a line stopped being held or dirty-or-pinned, F rose, or a fetch slot
became free. -/
def State.noticed (before s : State) : Bool :=
  (List.finRange 128).any (fun p => decide (s.owners[p] = .free) && decide (before.owners[p] ≠ .free)) ||
    before.cache.any (fun l => lineFreed (before.line l.tag) (s.line l.tag)) ||
    decide (before.floor < s.floor) ||
    (List.finRange 8).any (fun i => before.fetch[i].live.isSome && s.fetch[i].live.isNone)

/-- A paused scan makes a pass, and a stalled intake tries its block again. -/
def State.retry (s : State) : State :=
  match s.usb.current with
  | some (.read c) => if c.scan = .paused then s.scanPass else s
  | some (.write w) =>
    match w.stall with
    | some st => s.offerBlock w st.data
    | none => s
  | _ => s

/-- The retry of R108 and R129, where a notice came between `before` and `s`. -/
def State.settle (before s : State) : State := if State.noticed before s then s.retry else s

end Sys2Proof.Machine
end

