-- ==== Sys2Proof/Machine/PowerOps.lean ====
section
/-! DEFINITION. The shared operations of power, epochs and boot supervision: opening and closing an epoch, arming and
disarming, the phases and ends of an action, a request for one, and the escalations. -/

namespace Sys2Proof.Machine

/-! ## Epochs (R57, R158 to R161) -/

/-- Every marker's spent flag becomes no (R57). -/
def State.clearSpent (s : State) : State := { s with markers := vmap s.markers fun m => { m with spent := false } }

/-- The matcher at an epoch start: windows emptied, filters NORMAL, spent flags no (R57). -/
def State.clearMatcher (s : State) : State :=
  State.clearSpent { s with ports := vmap s.ports fun p => { p with window := [], filter := .normal } }

/-- The newest epoch record changed by `f`. -/
def modNewest (f : EpochRec → EpochRec) : List EpochRec → List EpochRec
  | [] => []
  | [e] => [f e]
  | e :: es => e :: modNewest f es

/-- The open epoch's record changed by `f`, where one is open. -/
def State.modOpen (f : EpochRec → EpochRec) (s : State) : State :=
  if s.openEpoch.isSome then { s with sup := { s.sup with epochs := modNewest f s.sup.epochs } } else s

/-- The open epoch's boot status becomes `b` if it is PENDING. -/
def State.settlePending (b : BootStatus) (s : State) : State :=
  s.modOpen fun e => if e.status = .pending then { e with status := b } else e

/-- The record of the open epoch closes, and the spent flags become no; no effect with none open (R160). -/
def State.closeRecord (c : EndCause) (s : State) : State :=
  if s.openEpoch.isSome then
    State.clearSpent (State.modOpen
      (fun e => { e with endTime := some s.time, endCause := some c,
                         status := if e.status = .pending then .endedUnsettled else e.status }) s)
  else s

/-- Both timers stop and the return state becomes absent; the state becomes IDLE, but for GIVEN_UP (R165). -/
def State.disarm (s : State) : State :=
  { s with sup := { s.sup with bootTimer := none, holdTimer := none, ret := none,
                               state := if s.sup.state = .givenUp then .givenUp else .idle } }

/-- The close of the open epoch at a fall of power-good: the record closes and supervision is disarmed (R160, R165). -/
def State.closeEpoch (c : EndCause) (s : State) : State :=
  if s.openEpoch.isSome then (s.closeRecord c).disarm else s

/-- The number after `n`: from 65535 to 1 (R158). -/
def nextEpochNumber (n : Nat) : Nat := if n = 65535 then 1 else n + 1

/-- Supervision is armed at an epoch start (R165). GIVEN_UP does not arm, nor where an expiry of the same moment has just
given up: the model's choice beside R172 (log 56). -/
def State.arms (c : EpochCause) (s : State) : Bool :=
  s.sup.policy.enabled && decide (c ≠ .partStart) && decide (s.sup.state ≠ .givenUp)

/-- The boot timer's deadline, if it starts now (R165, R166). -/
def State.bootDue (s : State) : PartTime := s.after (1000 * s.sup.policy.bootTimeout)

/-- Step 6 of an epoch start (R165): armed in WAITING with the boot timer, or not. -/
def State.arm (c : EpochCause) (s : State) : State :=
  if s.arms c then
    { s with sup := { s.sup with state := .waiting, bootTimer := some s.bootDue, holdTimer := none, ret := none } }
  else s.disarm

/-- The record of an epoch that starts now (R159, R161). -/
def State.newEpoch (c : EpochCause) (s : State) : EpochRec :=
  { number := nextEpochNumber s.sup.counter, cause := c, start := s.time, starts := vmap s.ports (·.w),
    status := if s.arms c then .pending else .unsupervised, attempts := s.sup.attempts, endTime := none,
    endCause := none, hits := [] }

/-- An epoch starts, as one piece of work (R161). -/
def State.startEpoch (c : EpochCause) (s : State) : State :=
  let e := s.newEpoch c
  let s := s.closeRecord .superseded
  let kept := if s.sup.epochs.length < 8 then s.sup.epochs else s.sup.epochs.tail
  (State.clearMatcher { s with sup := { s.sup with counter := e.number, epochs := kept ++ [e] } }).arm c

/-! ## Actions (R141, R143 to R149, R153) -/

/-- The duration of a phase in milliseconds (R145). -/
def phaseDuration (c : PowerCfg) : Phase → Nat
  | .pressOn | .pressSoft => c.press
  | .waitUp => c.onWait
  | .waitDown => 1000 * c.softOff
  | .force => c.maxHold
  | .resetPulse => c.resetPulse
  | .diagPulse => c.diagPulse
  | .dwell => c.dwell

def State.modPower (f : PowerSeq → PowerSeq) (s : State) : State := { s with power := f s.power }

/-- The mask is set as RESET_OUT becomes ACTIVE; an episode in progress ends without an epoch (R141, R142), also where an
edge of the same moment would have ended it with one (R172): the model's choice (log 55). -/
def State.setMask (s : State) : State :=
  let s' := s.modPower fun p => { p with mask := .pulse, episode := false }
  if s.power.episode then s'.setFlag .power else s'

/-- The record with a phase entered now (R145). -/
def State.inPhase (p : Phase) (a : ActionRec) (s : State) : ActionRec :=
  { a with phase := some p, deadline := s.after (phaseDuration s.power.cfg p),
           pressedAt := if p = .pressOn then s.time else a.pressedAt }

/-- LAST enters a phase: its deadline and output follow, and for RESET_PULSE the mask (R145, R148). -/
def State.enterPhase (p : Phase) (s : State) : State :=
  let s' := s.modPower fun w => { w with last := w.last.map fun a => s.inPhase p a }
  State.updateConnection (if p = .resetPulse then s'.setMask else s')

/-- A newly accepted action becomes LAST, and LAST becomes PRIOR (R144). -/
def State.pushAction (a : ActionRec) (s : State) : State :=
  s.modPower fun p => { p with last := some a, prior := p.last }

/-- The record of an action accepted now. -/
def State.newAction (k : ActionKind) (esc : Bool) (r : Requester) (s : State) : ActionRec :=
  { kind := k, escalate := esc, requester := r, start := s.time, phase := none, deadline := 0, escalated := false,
    result := none, ended := none, pressedAt := 0 }

/-- An accepted action begins at a phase (R146). -/
def State.beginAction (k : ActionKind) (esc : Bool) (r : Requester) (p : Phase) (s : State) : State :=
  (s.pushAction (s.newAction k esc r)).enterPhase p

/-- An accepted action ends at once with ALREADY (R146). -/
def State.alreadyAction (k : ActionKind) (esc : Bool) (r : Requester) (s : State) : State :=
  State.setFlag .power
    (s.pushAction { s.newAction k esc r with result := some .already, ended := some s.time })

/-- The release of RESET_OUT from RESET_PULSE: the mask tail begins, and with PG high an epoch starts (R148). -/
def State.releaseReset (s : State) : State :=
  let s := s.modPower fun p => { p with mask := .tail (s.after s.power.cfg.debounce) }
  if s.pgHigh then s.startEpoch .resetAction else s

/-- The fault a result records, other than POWER_LOST (R153). -/
def resultFault (a : ActionRec) : ActResult → Option FaultKind
  | .noPowerGood => some (.noPowerGood a.kind a.requester)
  | .stuckOn => some (.stuckOn a.kind a.requester)
  | .done | .already | .aborted | .powerLost | .softTimeout | .externalOn => none

/-- The action in progress ends with a result: its output returns to rest, and from RESET_PULSE the release
follows (R148, R153). -/
def State.endAction (r : ActResult) (s : State) : State :=
  match s.action with
  | none => s
  | some a =>
    let s' := State.setFlag .power (s.modPower fun p =>
      { p with last := some { a with phase := none, result := some r, ended := some s.time } })
    let s' := match resultFault a r with
      | some k => s'.recordFault k
      | none => s'
    State.updateConnection (if a.phase = some .resetPulse then s'.releaseReset else s')

/-- What the sequencer answers to a request (R146). -/
inductive ReqOutcome where
  | begun (p : Phase)
  | already
  | busy
  | wrongState
  deriving DecidableEq, Repr

/-- Step 4 of R146 by kind and power state. OFF_HARD is dispatched apart (R149). -/
def actionTable (k : ActionKind) (on : Bool) : ReqOutcome :=
  match k, on with
  | .on, false => .begun .pressOn
  | .on, true => .already
  | .offSoft, false => .already
  | .offSoft, true => .begun .pressSoft
  | .offHard, false => .already
  | .offHard, true => .begun .force
  | .reset, false => .wrongState
  | .reset, true => .begun .resetPulse
  | .diag, false => .wrongState
  | .diag, true => .begun .diagPulse
  | .cycle, false => .begun .pressOn
  | .cycle, true => .begun .force

/-- An action's course by an outcome: begun, ended ALREADY, or not accepted. -/
def State.accept (k : ActionKind) (esc : Bool) (r : Requester) (o : ReqOutcome) (s : State) : State :=
  match o with
  | .begun p => s.beginAction k esc r p
  | .already => s.alreadyAction k esc r
  | .busy | .wrongState => s

/-- The answer of steps 3 and 4 of R146. A LINK action that ended ALREADY at the same moment leaves no action in progress,
and so is no ground for BUSY: the model's choice beside R172 (log 54). -/
def State.answerTo (k : ActionKind) (s : State) : ReqOutcome :=
  if s.action.isSome then .busy else actionTable k s.pgHigh

/-- A request for an action other than OFF_HARD (R146). -/
def State.requestAction (k : ActionKind) (esc : Bool) (r : Requester) (s : State) : State :=
  s.accept k esc r (s.answerTo k)

/-- The attempts count becomes 0, and GIVEN_UP becomes IDLE (R170). -/
def State.releaseSup (s : State) : State :=
  { s with sup := { s.sup with attempts := 0, state := if s.sup.state = .givenUp then .idle else s.sup.state } }

/-- What follows an accepted LINK action: the supervisor's attempts, and a restore that waits is cancelled (R146,
R170, R188). -/
def State.linkAccepted (s : State) : State :=
  let s := s.releaseSup
  match s.restore with
  | .waiting _ => { s with restore := .cancelled }
  | _ => s

/-- An ON with requester RESTORE is requested, its escalate field no (log 39), and the restore state becomes REQUESTED
(R188). -/
def State.takeRestore (s : State) : State :=
  { s.requestAction .on false .restore with restore := .requested }

/-! ## The sequencer at a power-good fall (R140, R152) -/

/-- One sense input changed by `f`. -/
def State.modPin (pin : SensePin) (f : SenseIn → SenseIn) (s : State) : State :=
  s.modPower fun p =>
    match pin with
    | .pg => { p with pg := f p.pg }
    | .rsts => { p with rsts := f p.rsts }

/-- The debounced level takes the pin's level (R140). -/
def State.takeEdge (pin : SensePin) (s : State) : State :=
  s.modPin pin fun p => { p with level := p.pin, settling := none }

/-- The settling timer of an input whose pin holds a level that differs from the debounced one (R140). -/
def settlesTo (level : Bool) (p : SenseIn) : Option PartTime :=
  if p.pin = level ∧ p.level ≠ level then p.settling else none

/-- The end cause of the epoch that a PG fall closes (R152). -/
def fallCause : Option Phase → EndCause
  | some .pressSoft => .powerOffAction
  | some .waitDown => .powerOffAction
  | some .force => .powerOffAction
  | _ => .powerLost

/-- The action in progress as a PG fall finds it (the table of R152). -/
def State.endAtFall (s : State) : State :=
  match s.action with
  | none => s.recordFault (.powerLost none)
  | some a =>
    match a.phase with
    | some .pressSoft => s.endAction .done
    | some .waitDown => s.endAction .done
    | some .force => if a.kind = .cycle then s.enterPhase .dwell else s.endAction .done
    | some .resetPulse => (s.endAction .powerLost).recordFault (.powerLost (some (a.kind, a.requester)))
    | some .diagPulse => (s.endAction .powerLost).recordFault (.powerLost (some (a.kind, a.requester)))
    | _ => s

/-- The sequencer takes a falling edge of PG: the power state, the episode, the action in progress (R152). -/
def State.fallAction (s : State) : State :=
  State.setFlag .power (State.endAtFall ((s.takeEdge .pg).modPower fun p => { p with episode := false }))

/-- The sequencer as a PG fall leaves it that settles at the present moment (R172; log 50). -/
def State.asFallLeft (s : State) : State := if settlesTo false s.power.pg = some s.time then s.fallAction else s

/-! ## Supervision (R163 to R169) -/

/-- A change of the policy disarms supervision, leaves GIVEN_UP, clears attempts, and makes an open PENDING epoch
UNSUPERVISED (R163, R165). -/
def State.setPolicy (p : BootPolicy) (s : State) : State :=
  let s := (s.settlePending .unsupervised).disarm
  { s with sup := { s.sup with policy := p, state := .idle, attempts := 0 } }

/-- The last escalation is recorded with the open epoch's number, and BOOT becomes pending (R167, R168). -/
def State.escalated (t : Trigger) (a : SupAction) (o : EscOutcome) (epoch : Nat) (s : State) : State :=
  State.setFlag .boot { s with sup := { s.sup with
    lastEsc := some { trigger := t, action := a, outcome := o, time := s.time, epoch := epoch } } }

/-- The power action a supervisor action asks for; NOTIFY asks for none. -/
def SupAction.kind : SupAction → Option ActionKind
  | .notify => none
  | .diag => some .diag
  | .reset => some .reset
  | .cycle => some .cycle

def State.modSup (f : Supervisor → Supervisor) (s : State) : State := { s with sup := f s.sup }

/-- The supervisor's RESET or CYCLE was begun (R169). -/
def State.supBegun (s : State) : State :=
  (s.settlePending .failed).modSup fun u =>
    { u with attempts := u.attempts + 1, state := .idle, ret := none, bootTimer := none, holdTimer := none }

/-- Attempts stand at their limit: GIVEN_UP, the epoch FAILED if it was PENDING, fault BOOT_FAILED (R167, R168). -/
def State.giveUp (a : SupAction) (s : State) : State :=
  State.recordFault (.bootFailed s.openNumber a) ((s.settlePending .failed).modSup fun u =>
    { u with state := .givenUp, ret := none, bootTimer := none, holdTimer := none })

/-- The state becomes the return state; WAITING starts the boot timer again (R168). -/
def State.returnSup (s : State) : State :=
  s.modSup fun u =>
    { u with
      state := match u.ret with
        | some .waiting => .waiting
        | some .satisfied => .satisfied
        | none => u.state,
      bootTimer := if u.ret = some .waiting then some s.bootDue else none,
      ret := none, holdTimer := none }

/-- A RESET or CYCLE is requested with requester SUPERVISOR, its escalate field no (log 39); `refused` is what a
skipped request does (R169). A PG fall that settles at the same moment has reached the sequencer (R172; log 50). With max
attempts 0 the attempts stand at their limit after a BOOT_OK too, and the state becomes GIVEN_UP (R168; log 51). -/
def State.supRequest (t : Trigger) (a : SupAction) (k : ActionKind) (refused : State → State) (s : State) : State :=
  if s.sup.attempts < s.sup.policy.maxAttempts then
    let f := s.asFallLeft
    match f.answerTo k with
    | .begun _ => ((f.requestAction k false .supervisor).supBegun).escalated t a .taken s.openNumber
    | .already | .busy | .wrongState => (refused f).escalated t a .skipped s.openNumber
  else (s.giveUp a).escalated t a .givenUp s.openNumber

/-- The boot timer expires in WAITING (R167). -/
def State.bootExpired (s : State) : State :=
  let a := s.sup.policy.timeoutAction
  match a with
  | .reset => s.supRequest .bootTimeout a .reset fun s => s.modSup fun u => { u with bootTimer := some s.bootDue }
  | .cycle => s.supRequest .bootTimeout a .cycle fun s => s.modSup fun u => { u with bootTimer := some s.bootDue }
  | .notify | .diag =>
    ((s.settlePending .failed).modSup fun u => { u with state := .idle, bootTimer := none }).escalated
      .bootTimeout a .taken s.openNumber

/-- The hold-off timer expires, in HOLDOFF or in SATISFIED (R168); a DIAG's escalate field is no (log 39). -/
def State.holdExpired (s : State) : State :=
  let a := s.sup.policy.faultAction
  match a with
  | .notify => (s.returnSup).escalated .faultHoldoff a .taken s.openNumber
  | .diag =>
    let f := s.asFallLeft
    ((f.requestAction .diag false .supervisor).returnSup).escalated .faultHoldoff a
      (match f.answerTo .diag with
        | .begun _ => .taken
        | _ => .skipped) s.openNumber
  | .reset => s.supRequest .faultHoldoff a .reset State.returnSup
  | .cycle => s.supRequest .faultHoldoff a .cycle State.returnSup

/-- A FAULT hit begins a hold-off from WAITING or SATISFIED; one of 0 s expires at once (R166). -/
def State.beginHoldOff (r : ReturnState) (s : State) : State :=
  let s := State.setFlag .boot (s.modSup fun u =>
    { u with state := .holdoff, ret := some r, bootTimer := none,
             holdTimer := some (s.after (1000 * u.policy.holdOff)) })
  if s.sup.policy.holdOff = 0 then s.holdExpired else s

/-- A BOOT_OK hit satisfies supervision; the eject of the policy follows (R87, R166). -/
def State.satisfy (s : State) : State :=
  let s' := State.setFlag .boot ((s.modOpen fun e => { e with status := .ok }).modSup fun u =>
    { u with state := .satisfied, attempts := 0, bootTimer := none,
             ret := if u.state = .holdoff then some .satisfied else u.ret })
  if s.sup.policy.eject ∧ s.media.state = .presented then s'.softEject else s'

/-- A hit of role BOOT_OK, PROGRESS or FAULT handed to the supervisor (R56, R166). -/
def State.supHit (r : Role) (port : PortId) (s : State) : State :=
  if s.sup.policy.watched.getLsbD port.val then
    match r, s.sup.state with
    | .bootOk, .waiting => s.satisfy
    | .bootOk, .holdoff => s.satisfy
    | .progress, .waiting => s.modSup fun u => { u with bootTimer := some s.bootDue }
    | .fault, .waiting => s.beginHoldOff .waiting
    | .fault, .satisfied => if s.sup.holdTimer.isNone then s.beginHoldOff .satisfied else s
    | _, _ => s
  else s

end Sys2Proof.Machine
end

