-- ==== Sys2Proof/Machine/ConsoleOps.lean ====
section
/-! DEFINITION. The shared operations of the console chapters: transmission and injection, gating, enabling and
disabling a port, rate measurement, capture into history, and the marker matcher's path of one byte. -/

namespace Sys2Proof.Machine

/-! ## Transmission and injection (R16, R19, R20) -/

/-- A text in the slot moves whole into the queue once the free entries number its length (R20). -/
def Port.moveText (p : Port) : Port :=
  match p.slot with
  | some t =>
    if t.text.length ≤ p.free then { p with queue := p.queue ++ t.text.map .byte, slot := none } else p
  | none => p

/-- An entry's transmission that begins now: a BREAK holds the wire low for its duration in milliseconds (R16). -/
def TxEntry.start (now : PartTime) : TxEntry → Sending
  | .byte b => .byte b
  | .brk ms => .brk (now + BitVec.ofNat 32 ms)

/-- The head entry leaves the queue and its transmission begins, which may let a waiting text move (R16, R20). -/
def Port.begin_ (now : PartTime) (p : Port) : Port :=
  match p.sending, p.queue with
  | none, e :: rest => Port.moveText { p with queue := rest, sending := some (e.start now) }
  | _, _ => p

/-- The queue drains while the port is ENABLED, has a rate in effect and is not gated (R16). -/
def State.kick (i : PortId) (s : State) : State :=
  if s.framing s.ports[i] then s.modPort i (Port.begin_ s.time) else s

def State.kickAll (s : State) : State := (List.finRange 4).foldl (fun s i => s.kick i) s

/-- A BREAK whose duration ends now: the transmitter holds the wire at mark for one character time (R16). -/
def Port.endBreak (now : PartTime) (p : Port) : Port :=
  if breakEnd p.sending = some now then { p with sending := some .mark } else p

/-- The BREAKs whose duration ends at the present moment give way to mark. -/
def State.endBreaks (s : State) : State := { s with ports := vmap s.ports (Port.endBreak s.time) }

/-- The transmitter becomes idle, and the head of the queue may begin (R16, R20). -/
def State.sent (i : PortId) (s : State) : State := (s.modPort i fun p => { p with sending := none }).kick i

/-- A BREAK item under transmission is cut short; a data byte goes on (R10, R15). -/
def Port.cutBreak (p : Port) : Port :=
  match p.sending with
  | some (.brk _) => { p with sending := none }
  | _ => p

/-! ## Gating (R10) -/

/-- Gating begins on an ENABLED port: windows emptied, the capture counter stops, a break is cut (R10). -/
def Port.gateBegin (p : Port) : Port :=
  if p.enabled && p.cfg.gating then
    { p.cutBreak with ivCount := 0, ivMin := 65535, counting := false, cwCount := 0, cwErrors := 0 }
  else p

/-- The debounced PG level fell: every port with gating on becomes gated. -/
def State.gateAll (s : State) : State := { s with ports := vmap s.ports Port.gateBegin }

/-! ## What a power-good fall brings beside the sequencer (R10, R121, R152) -/

/-- The close of the open epoch that the sequencer hands over, with its two further effects: the ports gated on power, and
the media port disconnected (R10, R121, R152, R160). -/
def State.fallClose (c : EndCause) (s : State) : State := State.updateConnection (State.gateAll (s.closeEpoch c))

/-- A fall that reached the sequencer first in the piece of work between `before` and `s` is complete: its close follows
the escalation (R172; log 50). -/
def State.closeFall (before s : State) : State :=
  if before.pgHigh && !s.pgHigh then s.fallClose (fallCause before.phase) else s

/-! ## Enabling and disabling (R4, R5, R25, R59, R60) -/

/-- The commit check of R60. -/
def State.grants (q : Nat) (s : State) : Bool :=
  decide (s.committedSum + q ≤ 112) && decide (s.heldCount + q ≤ s.floor) &&
    decide (s.dirtyOrPinnedCount + q + 4 ≤ s.floor)

/-- The effects of an enable on the port itself (R4). -/
def Port.enable (p : Port) : Port :=
  { p with
    enabled := true, lockCount := 0, unlockCount := 0, breakCount := 0, framingCount := 0, parityCount := 0,
    rateState := match p.cfg.rateMode with
      | .fixed => .locked p.cfg.fixedRate
      | .auto => .hunting,
    rate := match p.cfg.rateMode with
      | .fixed => some p.cfg.fixedRate
      | .auto => none,
    ivCount := 0, ivMin := 65535, counting := false, cwCount := 0, cwErrors := 0, filter := .normal, window := [] }

/-- A page that joins an empty list at an enable (R25). -/
def firstPage (pg : Fin 128) (w : Nat) : PageRec :=
  { page := pg, first := w, firstTime := none, firstEpoch := none }

/-- CON_ENABLE of a DISABLED port (R4): the status of its reply with the state after; none where the pool has no
page although it granted the commitment. -/
def State.enablePort (i : PortId) (s : State) : Option (Status × State) :=
  let p := s.ports[i]
  if p.pages = [] then
    if s.grants p.cfg.quota then
      match State.supplyHistory i { s with committed := vupd s.committed i fun _ => p.cfg.quota } with
      | some (pg, s') =>
        some (.ok, State.kick i (s'.modPort i fun p => { p.enable with pages := [firstPage pg p.w] }))
      | none => none
    else some (.noSpace, s)
  else some (.ok, State.kick i (s.modPort i Port.enable))

/-- The effects of a disable on the port itself (R5). -/
def Port.disable (p : Port) : Port :=
  { p with enabled := false, sending := none, queue := [], slot := none, notify := none, rateState := .hunting,
           rate := none, ivCount := 0, ivMin := 65535, counting := false, cwCount := 0, cwErrors := 0 }

/-- CON_DISABLE of an ENABLED port: the port's effects, and its reports withdrawn (R5, R184). -/
def State.disablePort (i : PortId) (s : State) : State :=
  ((s.modPort i Port.disable).clearFlag (.conLine i)).clearFlag (.conData i)

/-! ## Rate measurement (R12 to R15) -/

/-- The distance of two numbers. -/
def absDiff (a b : Nat) : Nat := (a - b) + (b - a)

/-- The table rate nearest to an estimate; of two equally far, the higher (R13). -/
def nearestRate (est : Nat) : RateIdx :=
  (List.finRange 11).foldl (fun best r => if absDiff est (baud r) ≤ absDiff est (baud best) then r else best) 0

/-- The outcome of a complete interval window with smallest interval `m`: accepted with a rate, or rejected (R13). -/
def evaluateWindow (m : Nat) : Option RateIdx :=
  if m < 48 then none
  else
    let est := 48000000 / m
    let r := nearestRate est
    if 25 * absDiff est (baud r) ≤ baud r then some r else none

/-- The move of the rate state at an evaluated window, and whether it enters LOCKED (R14). -/
def rateMove : RateState → Option RateIdx → RateState
  | .hunting, some r => .candidate r
  | .hunting, none => .hunting
  | .candidate r, some r' => if r' = r then .locked r else .candidate r'
  | .candidate _, none => .hunting
  | .locked r, _ => .locked r

/-- An interval joins the window; the 64th brings its evaluation (R12 to R14). -/
def Port.interval (iv : Nat) (p : Port) : Port :=
  let m := min p.ivMin iv
  if p.ivCount + 1 < 64 then { p with ivCount := p.ivCount + 1, ivMin := m }
  else
    let st := rateMove p.rateState (evaluateWindow m)
    let p := { p with ivCount := 0, ivMin := 65535, rateState := st }
    match st with
    | .locked r =>
      { p with rate := some r, lockCount := satInc 65535 p.lockCount, cwCount := 0, cwErrors := 0,
               counting := false }
    | _ => p

/-- The port unlocks (R15). -/
def Port.unlock (p : Port) : Port :=
  { p.cutBreak with rateState := .hunting, rate := none, unlockCount := satInc 65535 p.unlockCount,
                    counting := false, ivCount := 0, ivMin := 65535 }

/-- A character is counted in the character window of an AUTO port; the 64th brings the look, and with 8 or more
errored the port unlocks (R15). -/
def State.countChar (i : PortId) (bad : Bool) (s : State) : State :=
  let p := s.ports[i]
  if p.cfg.rateMode = .auto then
    let errors := p.cwErrors + (if bad then 1 else 0)
    if p.cwCount + 1 < 64 then s.modPort i fun p => { p with cwCount := p.cwCount + 1, cwErrors := errors }
    else
      let s := s.modPort i fun p => { p with cwCount := 0, cwErrors := 0 }
      if 8 ≤ errors then (s.modPort i Port.unlock).setFlag (.conLine i) else s
  else s

/-! ## Framing (R7, R8) -/

/-- The byte of the data bits: with 7 data bits, their value 0 to 127 (R7). -/
def charByte (c : ConConfig) (x : RxChar) : Byte := if c.dataBits = 7 then x.data &&& 0x7F else x.data

/-- Any configured stop bit is low (R8). -/
def framingError (c : ConConfig) (x : RxChar) : Bool := !x.stop1 || (decide (c.stopBits = 2) && !x.stop2)

/-- The number of 1 bits of a byte is odd. -/
def oddBits (b : Byte) : Bool := (List.range 8).foldl (fun a i => a ^^ b.getLsbD i) false

/-- The parity bit does not give the configured parity over the data bits (R8). -/
def parityError (c : ConConfig) (x : RxChar) : Bool :=
  match c.parity with
  | .none => false
  | .even => oddBits (charByte c x) ^^ x.parity
  | .odd => !(oddBits (charByte c x) ^^ x.parity)

/-- The parity bit a transmitter generates (R16). -/
def parityBit (c : ConConfig) (b : Byte) : List Bool :=
  match c.parity with
  | .none => []
  | .even => [oddBits b]
  | .odd => [!oddBits b]

/-- The wire levels of a data byte as one character: start bit, data bits least significant first, parity, stop
bits; with 7 data bits the most significant bit is not sent (R7, R16). -/
def charLevels (c : ConConfig) (b : Byte) : List Bool :=
  false :: ((List.range c.dataBits).map fun i => b.getLsbD i) ++
    parityBit c (if c.dataBits = 7 then b &&& 0x7F else b) ++ List.replicate c.stopBits true

/-- The levels that the transmit wire carries while the transmitter stands as it does, `true` high: the bits of the
character of a data byte, low for a BREAK's duration, and mark otherwise (R16). -/
def Port.wireLevels (p : Port) : List Bool :=
  match p.sending with
  | some (.byte b) => charLevels p.cfg b
  | some (.brk _) => [false]
  | some .mark => [true]
  | none => [true]

/-! ## Capture (R26 to R30, R37) -/

/-- The page record of a page that a byte begins now (R23, R27). -/
def State.freshPage (pg : Fin 128) (first : Nat) (s : State) : PageRec :=
  { page := pg, first := first, firstTime := some s.time, firstEpoch := some s.openNumber }

/-- A page record whose first byte, if it has none yet, is written now (R26). -/
def State.stampPage (r : PageRec) (s : State) : PageRec :=
  if r.firstTime.isNone then s.freshPage r.page r.first else r

/-- The list of pages that the next byte finds: the newest page while it has room, a page from the pool below the
quota, or the oldest page recycled (R26 to R28). None where the pool has no page. -/
def State.pageForByte (i : PortId) (s : State) : Option State :=
  let p := s.ports[i]
  match p.pages.getLast? with
  | some r =>
    if p.w - r.first < pageBytes then
      some (s.modPort i fun p => { p with pages := p.pages.dropLast ++ [s.stampPage r] })
    else if p.pages.length < p.cfg.quota then
      (s.supplyHistory i).map fun x =>
        x.2.modPort i fun p => { p with pages := p.pages ++ [s.freshPage x.1 p.w] }
    else
      some (s.modPort i fun p =>
        match p.pages with
        | o :: rest => { p with pages := rest ++ [s.freshPage o.page p.w] }
        | [] => p)
  | none =>
    (s.supplyHistory i).map fun x => x.2.modPort i fun p => { p with pages := [s.freshPage x.1 p.w] }

/-- A byte stored in the newest page at W; the row is SOUND once its last byte is written (R26, R30). -/
def State.storeByte (i : PortId) (b : Byte) (s : State) : State :=
  let p := s.ports[i]
  match p.pages.getLast? with
  | some r =>
    let off := p.w - r.first
    { s with mem := writeBytes s.mem (pageAddr r.page off) [b],
             rows := if off % 64 = 63 then soundRows s.rows (rowOf r.page (off / 64)) 1 else s.rows }
  | none => s

/-- W increases by one, and a notify position that it reaches makes CON_DATA pending (R26, R37). -/
def State.advanceW (i : PortId) (s : State) : State :=
  let p := s.ports[i]
  let fired := (p.notify.map fun q => decide (q ≤ p.w + 1)).getD false
  let s := s.modPort i fun p => { p with w := p.w + 1, notify := if fired then none else p.notify }
  if fired then s.setFlag (.conData i) else s

/-- A byte is captured into history (R26 to R28, R37). -/
def State.capture (i : PortId) (b : Byte) (s : State) : Option State :=
  (s.pageForByte i).map fun s => (s.storeByte i b).advanceW i

/-! ## The marker matcher (R40 to R56) -/

/-- The escape filter: whether the byte is passed, and the next state (R44). -/
def filterStep (f : FilterState) (b : Byte) : Bool × FilterState :=
  match f with
  | .normal => if b = 0x1B then (false, .esc) else (true, .normal)
  | .esc => if b = 0x5B then (false, .csi) else (false, .normal)
  | .csi => if 0x40 ≤ b.toNat ∧ b.toNat ≤ 0x7E then (false, .normal) else (false, .csi)

/-- The port's selected table; none passes bytes unchanged (R41). -/
def State.table (t : Translation) (s : State) : Option XlatTable :=
  match t with
  | .none => none
  | .t0 => some s.t0
  | .t1 => some s.t1

/-- The translated byte, or none for SKIP (R40, R41). -/
def State.translate (t : Translation) (b : Byte) (s : State) : Option Byte :=
  match s.table t with
  | none => some b
  | some tab =>
    match tab[b.toNat]'b.isLt with
    | .replace r => some r
    | .skip => none

/-- The window with a byte pushed: its newest 32 bytes (R46). -/
def pushWindow (w : List Byte) (b : Byte) : List Byte := if w.length < 32 then w ++ [b] else w.tail ++ [b]

/-- The marker hits on the port's window (R51). -/
def hitsOn (m : Marker) (port : PortId) (w : List Byte) : Bool :=
  m.cfg.enabled && m.cfg.mask.getLsbD port.val && decide (m.cfg.pattern.length ≤ w.length) &&
    decide (w.drop (w.length - m.cfg.pattern.length) = m.cfg.pattern) && !(m.cfg.once && m.spent)

/-- The markers that hit, lowest index first (R51). -/
def State.hitList (port : PortId) (w : List Byte) (s : State) : List (Fin 16) :=
  (List.finRange 16).filter fun m => hitsOn s.markers[m] port w

/-- A text offered to the slot: taken where the slot is empty, which at once applies R20; else dropped (R19). -/
def State.offerText (port : PortId) (t : InjText) (s : State) : Bool × State :=
  match s.ports[port].slot with
  | some _ => (false, s)
  | none => (true, State.kick port (s.modPort port fun p => Port.moveText { p with slot := some t }))

/-- A hit record offered to the open epoch's hit list: appended while it holds fewer than 31 (R53). -/
def State.appendHit (h : HitRec) (s : State) : Bool × State :=
  match s.openEpoch with
  | some e =>
    if e.hits.length < 31 then (true, s.modOpen fun e => { e with hits := e.hits ++ [h] }) else (false, s)
  | none => (false, s)

/-- The MARK report register takes a reportable hit (R54). -/
def State.reportHit (h : HitRec) (appended : Bool) (s : State) : State :=
  State.setFlag .mark { s with
    markReg := { newest := some { hit := h, epoch := s.openNumber, appended := appended },
                 count := satInc 255 s.markReg.count } }

/-- The steps for one marker that hits (R52). -/
def State.hit (port : PortId) (pos : Nat) (s : State) (m : Fin 16) : State :=
  let c := s.markers[m].cfg
  let s := { s with markers := vupd s.markers m fun k =>
    { k with hits := satInc 65535 k.hits, spent := k.spent || c.once } }
  let offered := if c.role = .inject then s.offerText port { marker := m, text := c.inject } else (true, s)
  let h : HitRec := { marker := m, port := port, pos := pos, time := s.time, role := c.role, dropped := !offered.1 }
  let appended := State.appendHit h offered.2
  let s := if c.report then appended.2.reportHit h appended.1 else appended.2
  match c.role with
  | .bootOk | .progress | .fault => s.supHit c.role port
  | .none | .inject => s

/-- The path of one captured byte through the matcher (R40). -/
def State.matchByte (port : PortId) (pos : Nat) (b : Byte) (s : State) : State :=
  let p := s.ports[port]
  let f := if p.cfg.escape then filterStep p.filter b else (true, p.filter)
  let s := s.modPort port fun p => { p with filter := f.2 }
  if f.1 then
    match s.translate p.cfg.translation b with
    | none => s
    | some t =>
      let w := pushWindow p.window t
      let s := s.modPort port fun p => { p with window := w }
      (s.hitList port w).foldl (State.hit port pos) s
  else s

/-- A framed character: checked, captured and matched if good, discarded and counted if not; then the character
window (R7, R8, R15, R29, R40). None where the pool has no page. -/
def State.receive (i : PortId) (x : RxChar) (s : State) : Option State :=
  let p := s.ports[i]
  if s.framing p = false ∨ maxPosition ≤ p.w then some s
  else if framingError p.cfg x then
    some (State.countChar i true (s.modPort i fun p => { p with framingCount := satInc 65535 p.framingCount }))
  else if parityError p.cfg x then
    some (State.countChar i true (s.modPort i fun p => { p with parityCount := satInc 65535 p.parityCount }))
  else
    (s.capture i (charByte p.cfg x)).map fun s => (s.matchByte i p.w (charByte p.cfg x)).countChar i false

end Sys2Proof.Machine
end

