-- ==== Sys2Proof/Machine/LinkOps.lean ====
section
/-! DEFINITION. The management link's shared operations: replies, the snapshots of the reports, the outbound arbiter, and
the taking of a request. -/

namespace Sys2Proof.Machine

/-! ## Replies (R177, R179, R180) -/

/-- A reply joins the tail of the reply queue (R180). -/
def State.pushReply (r : Reply) (s : State) : State :=
  { s with link := { s.link with replies := s.link.replies ++ [r] } }

/-- The status byte is shifted out at the start of a transaction (R173). -/
def State.shiftStatus (s : State) : State := { s with link := { s.link with statusOut := s.statusByte } }

/-- The op byte of a READ transaction (R173). -/
abbrev readOp : Byte := 0x52

/-- The byte that the part shifts out at place `k` of the latest transaction, whose op byte was `op`: the status byte
first; after it the frame of a READ; and 0x00 at each place for which there is no byte to send, which is every place
after the status byte of a poll or a WRITE, and every place past the frame (R173, R175). -/
def State.byteOut (op : Byte) (k : Nat) (s : State) : Byte :=
  match k with
  | 0 => s.link.statusOut
  | k + 1 => if op = readOp then s.link.outFrame.getD k 0 else 0

/-- The `n` bytes that a READ transaction shifts out after the status byte (R175). -/
def State.bytesRead (n : Nat) (s : State) : List Byte := (List.range n).map fun k => s.byteOut readOp (k + 1)

/-- A frame reaches a part whose IN_READY is 1, or is ignored (R174). -/
def State.whenReady (take : State → State) (s : State) : State :=
  if s.inReady then take s.shiftStatus else s.shiftStatus

/-- A request's handler: the state after it, the status and the payload bytes after the status. -/
abbrev Handler (α : Type) := α → State → State × Status × List Byte

/-- A reply to a request. -/
def mkReply (kind tag : Byte) (st : Status) (body : List Byte) : Reply :=
  { kind := kind, tag := tag, status := st, body := body }

/-- A request of a kind is taken (R174, R177): BAD_LENGTH where the payload has no permitted length (no `fields`);
otherwise its handler's reply joins the queue. -/
def State.request {α : Type} (kind tag : Byte) (fields : Option α) (h : Handler α) (s : State) : State :=
  s.whenReady fun s =>
    match fields with
    | none => s.pushReply (mkReply kind tag .badLength [])
    | some a => (h a s).1.pushReply (mkReply kind tag (h a s).2.1 (h a s).2.2)

/-- A reply of a status alone. -/
def alone (st : Status) (s : State) : State × Status × List Byte := (s, st, [])

/-- A handler that first reads a port number: one above 3 is refused BAD_FIELD. -/
def onPort (n : Nat) (h : PortId → State → State × Status × List Byte) (s : State) : State × Status × List Byte :=
  match portOf n with
  | some i => h i s
  | none => alone .badField s

/-- A request whose handler may find the pool without a page (R62). -/
def State.requestOpt {α : Type} (kind tag : Byte) (fields : Option α)
    (h : α → State → Option (State × Status × List Byte)) (s : State) : Option State :=
  if s.inReady then
    match fields with
    | none => some (s.shiftStatus.pushReply (mkReply kind tag .badLength []))
    | some a => (h a s.shiftStatus).map fun r => r.1.pushReply (mkReply kind tag r.2.1 r.2.2)
  else some s.shiftStatus

/-! ## Parts of snapshots (R21, R37, R38, R137, R155, R171) -/

/-- The rate in effect, or 0. -/
def rateInEffect (p : Port) : Nat := (p.rate.map baud).getD 0

/-- The candidate rate, or 0. -/
def candidateRate (p : Port) : Nat :=
  match p.rateState with
  | .candidate r => baud r
  | _ => 0

/-- The line values of a port (R21). -/
def State.encLine (i : PortId) (s : State) : List Byte :=
  let p := s.ports[i]
  flag p.enabled ++ num 1 (rateModeCode p.cfg.rateMode) ++ num 1 (rateStateCode p.rateState) ++
    num 4 (rateInEffect p) ++ num 4 (candidateRate p) ++ flag (s.gated p) ++ num 2 p.lockCount ++
    num 2 p.unlockCount ++ num 2 p.breakCount ++ num 2 p.framingCount ++ num 2 p.parityCount ++ num 1 p.free ++
    flag p.slot.isSome

/-- The snapshot of CON_DATA (R37). The first time and first epoch of the newest page are two fields, each with its presence
byte: the model's choice (log 53). -/
def State.encConData (i : PortId) (s : State) : List Byte :=
  let p := s.ports[i]
  num 1 i.val ++ flag p.enabled ++ num 6 p.o ++ num 6 p.w ++ num 1 p.pages.length ++ num 1 p.cfg.quota ++
    opt 6 (p.notify.map (num 6)) ++ opt 4 ((p.pages.getLast?.bind (·.firstTime)).map encTime) ++
    opt 2 ((p.pages.getLast?.bind (·.firstEpoch)).map (num 2))

/-- The action records and the capture pair (R155); each record is one field (log 48). -/
def State.encActions (s : State) : List Byte :=
  opt 22 (s.power.last.map encAction) ++ opt 22 (s.power.prior.map encAction) ++
    opt 4 (s.power.latest.map encTime) ++ opt 4 (s.power.previous.map encTime)

/-- The conditions of the three outputs, POWER_OUT, RESET_OUT, DIAG_OUT (log 37). -/
def State.encOutputs (s : State) : List Byte :=
  ([Output.power, .reset, .diag].map fun o => num 1 (outputCondCode (s.outputCond o))).flatten

/-- The snapshot of POWER (R155); a high debounced level is coded 1, so RSTS_IN reads 1 while inactive (log 36). -/
def State.encPower (s : State) : List Byte :=
  flag s.pgHigh ++ flag s.power.pg.level ++ flag s.power.rsts.level ++ flag s.maskSet ++ flag s.power.episode ++
    num 2 s.power.extResets ++ s.encOutputs ++ s.encActions

/-- The supervision snapshot of BOOT (R171). The number and boot status of the open epoch, or none, stand under one
presence byte (log 44), and the last escalation is one field (log 48). -/
def State.encBoot (s : State) : List Byte :=
  num 1 (supStateCode s.sup.state) ++ opt 1 (s.sup.ret.map fun r => num 1 (returnCode r)) ++
    opt 4 (s.sup.bootTimer.map encTime) ++ opt 4 (s.sup.holdTimer.map encTime) ++ num 1 s.sup.attempts ++
    num 1 s.sup.policy.maxAttempts ++ num 2 s.sup.counter ++
    opt 3 (s.openEpoch.map fun e => num 2 e.number ++ num 1 (bootStatusCode e.status)) ++
    opt 9 (s.sup.lastEsc.map encEscalation)

/-- The kind of the command in progress. -/
def currentKind : Current → CmdKind
  | .read _ => .read
  | .write _ => .write
  | .sync _ => .sync

/-- The deadline of a SYNC that waits. -/
def syncDue : Option Current → Option PartTime
  | some (.sync d) => some d
  | _ => none

/-- The snapshot of MEDIA (R137). Whether a SYNC waits is the presence byte of its deadline (log 34). -/
def State.encMedia (s : State) : List Byte :=
  num 1 (attachCode s.media.state) ++ opt 4 (s.media.capacity.map (num 4)) ++ num 1 (connectionCode s.usb.connected) ++
    num 2 s.usb.dirty.length ++ num 1 s.usb.drains.length ++ num 2 s.lostCount ++ num 2 s.medCfg.threshold ++
    opt 4 ((syncDue s.usb.current).map encTime) ++
    opt 1 (s.usb.current.map fun c => num 1 (cmdKindCode (currentKind c)))

/-- The snapshot of MARK (R54); the register is never empty while MARK is pending. -/
def State.encMark (s : State) : List Byte :=
  match s.markReg.newest with
  | some m => encHit m.hit ++ num 2 m.epoch ++ flag m.appended ++ num 1 s.markReg.count
  | none => List.replicate 18 0

/-- The ports of a mask, one byte, bit x for port x (R178; for ports that a rule names without a form, log 52). -/
def encMask (m : BitVec 4) : List Byte := num 1 m.toNat

/-- The snapshot of START (R187); the reason of a failed load and the restore deadline have presence bytes (log 49). The
ports whose enable was refused are one mask byte, bit x for port x: the model's choice (log 52). -/
def State.encStart (s : State) : List Byte :=
  num 1 (causeCode s.cause) ++ num 1 (if s.start.fromImage then 0 else 1) ++
    opt 1 (s.start.failure.map fun f => num 1 (loadFailureCode f)) ++ encMask s.start.refused ++
    flag s.start.powerOn ++ opt 2 (s.start.epoch.map (num 2)) ++ num 1 (restoreCode s.restore) ++
    opt 4 ((restoreDeadline s.restore).map encTime)

/-- The snapshot of a report. -/
def State.encReport (r : Report) (s : State) : List Byte :=
  match r with
  | .start => s.encStart
  | .fault => encFaults s.faults
  | .power => s.encPower
  | .boot => s.encBoot
  | .media => s.encMedia
  | .mark => s.encMark
  | .conLine i => num 1 i.val ++ s.encLine i
  | .conData i => s.encConData i

/-! ## The outbound arbiter (R175, R182 to R184) -/

/-- The frame of a reply (R179). -/
def replyFrame (r : Reply) : List Byte := buildFrame r.kind r.tag (statusCode r.status :: r.body)

/-- The frame of a FETCH notice, laid out as 11.7 gives. -/
def noticeFrame (n : Notice) : List Byte :=
  buildFrame 0xC5 0 (num 1 n.slot.val ++ [n.gen] ++ num 4 n.lba ++ num 1 n.count ++ num 2 n.object ++
    num 5 n.offset ++ encTime n.issue)

/-- The frame of a report (R181). -/
def State.reportFrame (r : Report) (s : State) : List Byte := buildFrame (reportCode r) 0 (s.encReport r)

/-- The empty frame (R175). -/
def emptyFrame : List Byte := buildFrame 0 0 []

/-- A READ transaction holds an item and its frame. -/
def State.hold (h : Held) (frame : List Byte) (s : State) : State :=
  { s with link := { s.link with held := some h, outFrame := frame } }

/-- The count that the frame of a report carries out of the MARK register (R184). -/
def State.markCarried (r : Report) (s : State) : Nat := if r = .mark then s.markReg.count else 0

/-- A report is chosen: its flag clears, its snapshot is the frame, and for MARK the count passes into it (R184). -/
def State.chooseReport (r : Report) (s : State) : State :=
  let s' := (s.clearFlag r).hold (.report r (s.markCarried r)) (s.reportFrame r)
  if r = .mark then { s' with markReg := { s'.markReg with count := 0 } } else s'

/-- The arbiter's choice: the oldest reply, else the oldest notice, else the first pending report, else the empty
frame (R175, R182); through a part reset the empty frame (R185). -/
def State.choose (s : State) : State :=
  if s.inReset then s.hold .empty emptyFrame
  else match s.link.replies with
    | r :: _ => s.hold .reply (replyFrame r)
    | [] =>
      match s.link.notices with
      | n :: _ => s.hold (.notice n) (noticeFrame n)
      | [] =>
        match s.firstReport with
        | some r => s.chooseReport r
        | none => s.hold .empty emptyFrame

/-- A complete read-out: a held reply leaves the reply queue, a held notice the notice queue; a notice withdrawn while it
was held removes none (R175, R183). -/
def State.readOutComplete (h : Held) (s : State) : State :=
  match h with
  | .reply => { s with link := { s.link with replies := s.link.replies.tail } }
  | .notice n => { s with link := { s.link with notices := s.link.notices.filter fun m => !m.names n.slot n.gen } }
  | .withdrawn => s
  | .report _ _ => s
  | .empty => s

/-- A cut read-out: a reply or notice stands where it was, and a notice withdrawn while it was held does not return; a
report's flag is pending again, and the MARK count is added back (R175, R183, R184). -/
def State.readOutCut (h : Held) (s : State) : State :=
  match h with
  | .report r n =>
    State.setFlag r { s with markReg := { s.markReg with count := min 255 (s.markReg.count + n) } }
  | .reply => s
  | .notice _ => s
  | .withdrawn => s
  | .empty => s

end Sys2Proof.Machine
end

