-- ==== Sys2Proof/Machine/SystemOps.lean ====
section
/-! DEFINITION. The shared operations of resets, start-up and the settings image. -/

namespace Sys2Proof.Machine

/-! ## Part reset (R186) -/

/-- A pin keeps its own level; its debounced level is the value after part reset (R140). -/
def resetSense (level : Bool) (p : SenseIn) : SenseIn := { pin := p.pin, level := level, settling := none }

/-- A part reset begins: every block holds its value after part reset. The settings image, the levels at the pins and
the commands that wait are untouched; a save in progress leaves the image as it marked it, invalid (R186, R189). -/
def State.partReset (c : ResetCause) (s : State) : State :=
  { State.reset with
    pending := s.pending, cause := c, image := s.image,
    power := { resetPowerSeq with pg := resetSense false s.power.pg, rsts := resetSense true s.power.rsts } }

/-! ## The settings image (R187, R189) -/

/-- The live settings that a save copies (R189). -/
def State.liveSettings (s : State) : SettingsImage :=
  { consoles := vmap s.ports fun p => (p.cfg, p.enabled), t0 := s.t0, t1 := s.t1,
    markers := vmap s.markers (·.cfg), power := s.power.cfg, policy := s.sup.policy, media := s.medCfg }

/-- The settings that hold by default (R190). -/
def defaultSettings : SettingsImage :=
  { consoles := Vector.replicate 4 (defaultConConfig, false), t0 := identityTable, t1 := identityTable,
    markers := Vector.replicate 16 clearedMarkerCfg, power := defaultPowerCfg, policy := defaultBootPolicy,
    media := defaultMedConfig }

/-- A configuration record as it is written: a port that holds pages keeps its committed quota (R59, R190). -/
def State.recordFor (i : PortId) (c : ConConfig) (s : State) : ConConfig :=
  if s.ports[i].pages = [] then c else { c with quota := s.committed[i] }

/-- The settings written in the order of step 2 of R187. -/
def State.writeSettings (c : SettingsImage) (s : State) : State :=
  let s := (List.finRange 4).foldl
    (fun s i => s.modPort i fun p => { p with cfg := s.recordFor i c.consoles[i].1 }) s
  let s := { s with t0 := c.t0, t1 := c.t1,
                    markers := vmap c.markers fun m => { cfg := m, hits := 0, spent := false } }
  let s := (s.modPower fun p => { p with cfg := c.power }).setPolicy c.policy
  State.updateConnection { s with medCfg := c.media }

/-- The ports flagged in the image are enabled in port order; a refused one is named in the START report (R187). -/
def State.enableFlagged (c : SettingsImage) (s : State) : Option State :=
  (List.finRange 4).foldl (fun o i =>
    match o with
    | none => none
    | some s =>
      if c.consoles[i].2 then
        match s.enablePort i with
        | none => none
        | some (.ok, s') => some s'
        | some (_, s') =>
          some { s' with start := { s'.start with refused := s'.start.refused ||| BitVec.ofNat 4 (2 ^ i.val) } }
      else some s) (some s)

/-! ## The start-up sequence (R187, R188) -/

/-- A load that fails: defaults stay in force, and SETTINGS_INVALID is recorded (R187). -/
def State.loadFailed (r : LoadFailure) (s : State) : State :=
  State.recordFault (.settingsInvalid r) { s with start := { s.start with fromImage := false, failure := some r } }

/-- Steps 1 and 2: load and apply. -/
def State.loadApply (s : State) : Option State :=
  match s.image with
  | .blank => some (s.loadFailed .blank)
  | .invalid => some (s.loadFailed .crc)
  | .valid c =>
    State.enableFlagged c
      (State.writeSettings c { s with start := { s.start with fromImage := true, failure := none } })

/-- A sense input's debounced level takes the pin's level, without settling and without an edge (R140). -/
def sampled (p : SenseIn) : SenseIn := { pin := p.pin, level := p.pin, settling := none }

/-- Step 3: the sample, with an epoch of cause PART_START when PG is high; the ports and the media port follow. -/
def State.sample (s : State) : State :=
  let s := s.modPower fun p => { p with pg := sampled p.pg, rsts := sampled p.rsts }
  let s := { s with start := { s.start with powerOn := s.pgHigh } }
  let s := if s.pgHigh then s.startEpoch .partStart else s
  let s := { s with start := { s.start with epoch := if s.pgHigh then some s.sup.counter else none } }
  (s.kickAll).updateConnection

/-- Step 4: the restore decision (R188). -/
def State.decideRestore (s : State) : State :=
  if s.cause = .powerOn ∧ s.pgHigh = false ∧ s.power.cfg.restore = .powerOn then
    { s with restore := .waiting (s.after (1000 * s.power.cfg.restoreDelay)) }
  else s

/-- Step 5: the START flag becomes pending and the link takes frames; a restore delay of 0 then ends at once
(R187, R188). -/
def State.announce (s : State) : State :=
  let s := State.setFlag .start { s with inReset := false }
  if s.restore = .waiting s.time then s.takeRestore else s

/-- A reset ends: part time becomes 0 and the start-up sequence runs as one piece of work (R186, R187). None where
the pool has no page for a port to enable. -/
def State.startUp (s : State) : Option State :=
  (State.loadApply { s with time := 0 }).map fun s => ((s.sample).decideRestore).announce

end Sys2Proof.Machine
end

