-- ==== Sys2Proof/Machine/System.lean ====
section
/-! DEFINITION. The meanings of resets, start-up, the settings image, identification and the fault record (12), and of
POOL_STATUS and MEMORY_UPSET (04). -/

namespace Sys2Proof.Machine

/-- What a command answers: a next state, or the fault where a console history found no page (R62). -/
abbrev Result := Host.Outcome State Fault Refusal

/-- The state after, or the fault of R62's broken guarantee. -/
def orNoPage : Option State → Result
  | some s => .next s
  | none => .fault .noPageForHistory

/-! ## Resets (R186 to R188) -/

/-- POWER_ON: the part's own supply rises. -/
def execPowerOn (s : State) : Result := .next (s.partReset .powerOn)

/-- PIN_RESET: RESET_N is held low. -/
def execPinReset (s : State) : Result := .next (s.partReset .pin)

/-- RESET_END: the supply is good, or RESET_N released; with no reset in progress nothing ends. -/
def execResetEnd (s : State) : Result := if s.inReset then orNoPage s.startUp else .next s

/-- RESTORE_DEADLINE: part time reaches the deadline of a restore that waits (R188). -/
def execRestoreDeadline (s : State) : Result := .next (s.atDeadline (restoreDeadline s.restore) State.takeRestore)

/-- DEV_RESET: receives no reply; its SOFT reset begins and ends at the moment it is taken (R180, R186; log 20). -/
def execDevReset (tag : Byte) (payload : List Byte) (s : State) : Result :=
  match fields0 payload with
  | some _ => if s.inReady then orNoPage (State.startUp (s.partReset .soft)) else .next s.shiftStatus
  | none => .next (State.request 0x03 tag (none : Option Unit) (fun _ => alone .ok) s)

/-! ## The settings image (R189, R190) -/

/-- The latest a save can end after it begins, in milliseconds (R189). -/
def saveLimit : Nat := 400

/-- SET_SAVE: BUSY while a save is in progress; else the copy is taken, the image marked invalid and the save begun,
its reservation standing in place of a reply (R180, R189). -/
def execSetSave (tag : Byte) (payload : List Byte) (s : State) : Result :=
  .next (s.whenReady fun s =>
    match fields0 payload with
    | none => s.pushReply (mkReply 0x04 tag .badLength [])
    | some _ =>
      if s.save.isSome then s.pushReply (mkReply 0x04 tag .busy [])
      else { s with image := .invalid,
                    save := some { copy := s.liveSettings, tag := tag, by_ := s.after saveLimit } })

/-- SAVE_END: the image becomes valid and the reservation becomes the SET_SAVE reply, with the CRC-32 (R180, R189). -/
def execSaveEnd (s : State) : Result :=
  match s.save with
  | none => .next s
  | some j =>
    .next (State.pushReply (mkReply 0x04 j.tag .ok (num 4 (Config.imageCrc j.copy).toNat))
      { s with image := .valid j.copy, save := none })

/-- The ports that are ENABLED, as a mask. -/
def State.enabledMask (s : State) : BitVec 4 :=
  (List.finRange 4).foldl
    (fun m i => if s.ports[i].enabled then m ||| BitVec.ofNat 4 (2 ^ i.val) else m) 0

/-- Every ENABLED port is disabled with all the effects of CON_DISABLE (R190). -/
def State.disableAll (s : State) : State :=
  (List.finRange 4).foldl (fun s i => if s.ports[i].enabled then s.disablePort i else s) s

/-- SET_DEFAULTS' handler (R190). The ports disabled by the request are one mask byte in the reply, bit x for port x: the
model's choice (log 52). -/
def setDefaults : Handler Unit := fun _ s =>
  if s.action.isSome ∨ s.save.isSome then alone .busy s
  else ((s.disableAll).writeSettings defaultSettings, .ok, encMask s.enabledMask)

/-- SET_DEFAULTS. -/
def execSetDefaults (tag : Byte) (payload : List Byte) (s : State) : Result :=
  .next (State.request 0x05 tag (fields0 payload) setDefaults s)

/-! ## Identification and time (R191) -/

/-- The ASCII bytes of a string. -/
def ascii (t : String) : List Byte := t.toList.map fun c => BitVec.ofNat 8 c.toNat

/-- DEV_IDENT's handler (R191). The save state is coded IDLE 0 and SAVING 1 (log 47). -/
def devIdent : Handler Unit := fun _ s =>
  (s, .ok, ascii "NMR" ++ num 2 2040 ++ ascii "A" ++ [4, 128, 16, 32, 8] ++
    num 1 (if s.start.fromImage then 0 else 1) ++ flag s.save.isSome)

/-- DEV_IDENT. -/
def execDevIdent (tag : Byte) (payload : List Byte) (s : State) : Result :=
  .next (State.request 0x01 tag (fields0 payload) devIdent s)

/-- DEV_TIME's handler. -/
def devTime : Handler Unit := fun _ s => (s, .ok, encTime s.time ++ num 1 (causeCode s.cause))

/-- DEV_TIME. -/
def execDevTime (tag : Byte) (payload : List Byte) (s : State) : Result :=
  .next (State.request 0x02 tag (fields0 payload) devTime s)

/-! ## The fault record (R192) -/

/-- FAULT_GET's handler. -/
def faultGet : Handler Unit := fun _ s => (s, .ok, encFaults s.faults)

/-- FAULT_GET. -/
def execFaultGet (tag : Byte) (payload : List Byte) (s : State) : Result :=
  .next (State.request 0x06 tag (fields0 payload) faultGet s)

/-- FAULT_CLEAR's handler: both entries empty, the count 0, the FAULT flag as it stands. -/
def faultClear : Handler Unit := fun _ s =>
  ({ s with faults := { first := none, latest := none, count := 0 } }, .ok, [])

/-- FAULT_CLEAR. -/
def execFaultClear (tag : Byte) (payload : List Byte) (s : State) : Result :=
  .next (State.request 0x07 tag (fields0 payload) faultClear s)

/-! ## The pool's state and memory upsets (R66, R70) -/

/-- The rows in state MARKED. -/
def State.markedRows (s : State) : Nat := s.rows.countP fun x => decide (x.2 = .marked)

/-- POOL_STATUS' handler; the four ports' values have no count (log 42). -/
def poolStatus : Handler Unit := fun _ s =>
  (s, .ok, num 1 s.freePages ++ opt 1 (s.lowestFree.map fun p => num 1 p.val) ++
    (s.ports.toList.map fun p => num 1 p.pages.length).flatten ++ (s.committed.toList.map (num 1)).flatten ++
    num 1 s.committedSum ++ num 1 s.floor ++ num 1 s.cache.length ++ num 1 s.heldCount ++
    num 1 s.dirtyOrPinnedCount ++ num 1 s.pinnedCount ++ num 2 s.markedRows ++ num 2 s.reclaims)

/-- POOL_STATUS. -/
def execPoolStatus (tag : Byte) (payload : List Byte) (s : State) : Result :=
  .next (State.request 0x08 tag (fields0 payload) poolStatus s)

/-- The stored bytes of a row as an upset leaves them: each altered by its bit pattern. -/
def flipBytes (bs flips : List Byte) : List Byte := List.zipWith (· ^^^ ·) bs flips

/-- A row's stored bytes altered by bit patterns, and a SOUND row become UPSET (R66). -/
def State.upset (row : Fin 8192) (flips : List Byte) (s : State) : State :=
  { s with
    mem := writeBytes s.mem (64 * row.val) (flipBytes (readBytes s.mem (64 * row.val) 64) flips),
    rows := upsetRow s.rows row.val }

/-- MEMORY_UPSET: stored bytes of a row, or only its parity, are altered; a SOUND row becomes UPSET (R66). While a
part reset lasts, buffer memory holds its reset value and an upset leaves nothing (R66, R186; log 32). -/
def execMemoryUpset (row : Fin 8192) (flips : List Byte) (s : State) : Result :=
  .next (if s.inReset then s else s.upset row flips)

end Sys2Proof.Machine
end

