-- ==== Sys2Proof/Machine/Power.lean ====
section
/-! DEFINITION. The meanings of the power requests, the sense pins and the sequencer's timers (09). -/

namespace Sys2Proof.Machine

/-! ## Settings (R156) -/

/-- PWR_CONFIG's handler (R156): BUSY while an action is in progress. -/
def pwrConfig : Handler PowerReq := fun r s =>
  if s.action.isSome then alone .busy s
  else match toPowerCfg r with
    | none => alone .badField s
    | some c => (s.modPower fun p => { p with cfg := c }, .ok, encPowerCfg c)

/-- PWR_CONFIG. -/
def execPwrConfig (tag : Byte) (payload : List Byte) (s : State) : Result :=
  .next (State.request 0x40 tag (parsePwrConfig payload) pwrConfig s)

/-! ## Requests for actions (R146, R149, R150) -/

/-- A refused PWR_ACTION: the kind as carried and the power state (R146). -/
def refuseAction (kind : Nat) (st : Status) (s : State) : State × Status × List Byte :=
  (s, st, num 1 kind ++ flag s.pgHigh)

/-- The first phase, or the result ALREADY, of a request's outcome: two fields that may be absent, each with its
presence byte (log 38). -/
def encOutcome (o : ReqOutcome) : List Byte :=
  match o with
  | .begun p => opt 1 (some (num 1 (phaseCode p))) ++ opt 1 none
  | .already => opt 1 none ++ opt 1 (some (num 1 (resultCode .already)))
  | .busy => []
  | .wrongState => []

/-- A LINK request other than OFF_HARD (R146). -/
def linkAction (k : ActionKind) (esc : Bool) (s : State) : State × Status × List Byte :=
  match s.answerTo k with
  | .busy => refuseAction (actionCode k) .busy s
  | .wrongState => refuseAction (actionCode k) .wrongState s
  | .begun p =>
    ((s.beginAction k esc .link p).linkAccepted, .ok,
      num 1 (actionCode k) ++ num 1 (requesterCode .link) ++ encTime s.time ++ encOutcome (.begun p))
  | .already =>
    ((s.alreadyAction k esc .link).linkAccepted, .ok,
      num 1 (actionCode k) ++ num 1 (requesterCode .link) ++ encTime s.time ++ encOutcome .already)

/-- The kind and phase of the action in progress, or none: both fields under one presence byte (log 40). -/
def State.encPreempted (s : State) : List Byte :=
  opt 2 (s.action.map fun a => num 1 (actionCode a.kind) ++ num 1 ((a.phase.map phaseCode).getD 0))

/-- OFF_HARD (R149): BUSY during another OFF_HARD; else an action in progress is preempted, and OFF_HARD begins at
FORCE or ends ALREADY. -/
def offHard (esc : Bool) (s : State) : State × Status × List Byte :=
  if (s.action.map (·.kind)) = some .offHard then refuseAction (actionCode .offHard) .busy s
  else
    let o := actionTable .offHard s.pgHigh
    (((s.endAction .aborted).accept .offHard esc .link o).linkAccepted, .ok,
      num 1 (actionCode .offHard) ++ encOutcome o ++ s.encPreempted)

/-- PWR_ACTION's handler: the steps of R146 in order. -/
def pwrAction : Handler (Nat × Nat) := fun r s =>
  match actionKindOf r.1, boolOf r.2 with
  | some .offHard, some esc => offHard esc s
  | some k, some esc => linkAction k esc s
  | _, _ => refuseAction r.1 .badField s

/-- PWR_ACTION. -/
def execPwrAction (tag : Byte) (payload : List Byte) (s : State) : Result :=
  .next (State.request 0x41 tag (fields2 1 1 payload) pwrAction s)

/-- PWR_ABORT's handler (R150). -/
def pwrAbort : Handler Unit := fun _ s =>
  match s.action with
  | none => alone .wrongState s
  | some a => (s.endAction .aborted, .ok, num 1 (actionCode a.kind) ++ num 1 (requesterCode a.requester) ++
      num 1 ((a.phase.map phaseCode).getD 0))

/-- PWR_ABORT. -/
def execPwrAbort (tag : Byte) (payload : List Byte) (s : State) : Result :=
  .next (State.request 0x42 tag (fields0 payload) pwrAbort s)

/-! ## Status (R157) -/

/-- The pin level and the debounced level of a sense input; a high level is coded 1 (log 36). -/
def encSense (p : SenseIn) : List Byte := flag p.pin ++ flag p.level

/-- PWR_STATUS' handler (R157): the levels of both inputs, then whether each settles. Whether an action is in progress is
a flag of its own, before its phase and its phase deadline, each with a presence byte (log 45), as the end of the mask's
tail and the restore deadline have (log 49). -/
def pwrStatus : Handler Unit := fun _ s =>
  (s, .ok, flag s.pgHigh ++ encSense s.power.pg ++ encSense s.power.rsts ++ flag s.power.pg.settling.isSome ++
    flag s.power.rsts.settling.isSome ++ flag s.maskSet ++ opt 4 ((tailEnd s.power.mask).map encTime) ++
    flag s.power.episode ++ num 2 s.power.extResets ++ s.encOutputs ++
    flag s.action.isSome ++ opt 1 (s.phase.map fun p => num 1 (phaseCode p)) ++ opt 4 (s.phaseDue.map encTime) ++
    s.encActions ++ num 1 (restoreCode s.restore) ++ opt 4 ((restoreDeadline s.restore).map encTime))

/-- PWR_STATUS. -/
def execPwrStatus (tag : Byte) (payload : List Byte) (s : State) : Result :=
  .next (State.request 0x43 tag (fields0 payload) pwrStatus s)

/-! ## Sense pins (R140) -/

/-- An input whose pin takes a level: settling stops where it agrees with the debounced level, and starts where it
comes to differ (R140). -/
def SenseIn.moved (level : Bool) (due : PartTime) (p : SenseIn) : SenseIn :=
  { p with pin := level,
           settling := if level = p.level then none else some (p.settling.getD due) }

/-- PIN_CHANGE: nothing settles from a part reset until the start-up sample (R140). -/
def execPinChange (pin : SensePin) (level : Bool) (s : State) : Result :=
  .next (s.modPin pin (if s.inReset then fun p => { p with pin := level }
    else SenseIn.moved level (s.after s.power.cfg.debounce)))

/-! ## Power-good edges (R151 to R154) -/

/-- The latency of a rise enters the capture pair (R154). -/
def State.capture_ (a : ActionRec) (s : State) : State :=
  s.modPower fun p => { p with latest := some (s.time - a.pressedAt), previous := p.latest }

/-- A PG rise as the action in progress finds it (the table of R151). -/
def State.riseAction (s : State) : State :=
  match s.action with
  | none => s.startEpoch .powerUpExternal
  | some a =>
    match a.phase with
    | some .pressOn => ((s.capture_ a).endAction .done).startEpoch .onAction
    | some .waitUp => ((s.capture_ a).endAction .done).startEpoch .onAction
    | some .dwell => (s.endAction .externalOn).startEpoch .powerUpExternal
    | _ => s.startEpoch .powerUpExternal

/-- A restore that still waits is cancelled at a PG rise (R188). -/
def State.cancelRestore (s : State) : State :=
  match s.restore with
  | .waiting _ => { s with restore := .cancelled }
  | _ => s

/-- A rising edge of PG is taken (R151). -/
def State.rise (s : State) : State :=
  (State.kickAll (State.setFlag .power (((s.takeEdge .pg).cancelRestore).riseAction))).updateConnection

/-- PG_RISE. -/
def execPgRise (s : State) : Result := .next (s.atDeadline (settlesTo true s.power.pg) State.rise)

/-- A falling edge of PG is taken (R152). -/
def State.fall (s : State) : State := (s.fallAction).fallClose (fallCause s.phase)

/-- PG_FALL. -/
def execPgFall (s : State) : Result := .next (s.atDeadline (settlesTo false s.power.pg) State.fall)

/-! ## Edges of RSTS_IN and the mask (R141, R142) -/

/-- An edge of RSTS_IN to active: unmasked and with PG high, an episode begins (R142). -/
def State.resetSeen (s : State) : State :=
  let s' := s.takeEdge .rsts
  State.updateConnection (if !s.maskSet && s.pgHigh then
      (s'.modPower fun p => { p with episode := true }).setFlag .power
    else s')

/-- RSTS_EDGE_ACTIVE. -/
def execRstsEdgeActive (s : State) : Result := .next (s.atDeadline (settlesTo false s.power.rsts) State.resetSeen)

/-- An edge of RSTS_IN to inactive: unmasked, it ends an episode in progress with an epoch start (R142). -/
def State.resetGone (s : State) : State :=
  let s' := s.takeEdge .rsts
  State.updateConnection (if !s.maskSet && s.power.episode then
      State.setFlag .power (State.startEpoch .resetExternal
        (s'.modPower fun p => { p with episode := false, extResets := satInc 65535 p.extResets }))
    else s')

/-- RSTS_EDGE_INACTIVE. -/
def execRstsEdgeInactive (s : State) : Result := .next (s.atDeadline (settlesTo true s.power.rsts) State.resetGone)

/-- The mask clears; a level still active is a held-over reset, which the media port follows (R141). -/
def State.unmask (s : State) : State := State.updateConnection (s.modPower fun p => { p with mask := .clear })

/-- MASK_TAIL_END (R141). -/
def execMaskTailEnd (s : State) : Result := .next (s.atDeadline (tailEnd s.power.mask) State.unmask)

/-! ## Phase deadlines (R145) -/

/-- WAIT_DOWN passes to FORCE: the record is marked escalated (R145). -/
def State.escalate (s : State) : State :=
  (s.modPower fun p => { p with last := p.last.map fun a => { a with escalated := true } }).enterPhase .force

/-- The phase's timer expires (the table of R145). -/
def State.phaseExpired (s : State) : State :=
  match s.action with
  | none => s
  | some a =>
    match a.phase with
    | some .pressOn => s.enterPhase .waitUp
    | some .waitUp => s.endAction .noPowerGood
    | some .pressSoft => s.enterPhase .waitDown
    | some .waitDown => if a.escalate then s.escalate else s.endAction .softTimeout
    | some .force => s.endAction .stuckOn
    | some .resetPulse => s.endAction .done
    | some .diagPulse => s.endAction .done
    | some .dwell => s.enterPhase .pressOn
    | none => s

/-- PHASE_DEADLINE. -/
def execPhaseDeadline (s : State) : Result := .next (s.atDeadline s.phaseDue State.phaseExpired)

end Sys2Proof.Machine
end

