-- ==== Sys2Proof/Machine/Fetch.lean ====
section
/-! DEFINITION. The meanings of the fills, failures and expiries of fetches, of a server READ and of its delivery (07). -/

namespace Sys2Proof.Machine

/-- A slot number 0 to 7. -/
def slotOf (n : Nat) : Option (Fin 8) := if h : n < 8 then some ⟨n, h⟩ else none

/-! ## Fills (R115) -/

/-- A MED_FILL reply, laid out as 11.7 gives: the handle and k as carried, the blocks still AWAITED, and whether this
fill retired the record. -/
def fillReply (slot : Nat) (gen : Byte) (k awaited : Nat) (retired : Bool) (st : Status) (s : State) :
    State × Status × List Byte :=
  (s, st, num 1 slot ++ [gen] ++ num 1 k ++ num 1 awaited ++ flag retired)

/-- The fill of an AWAITED block: slot written, block VALID, block k FILLED, the record retired with its last (R115). -/
def State.fill (i : Fin 8) (r : FetchRec) (k : Nat) (data : List Byte) (s : State) : State :=
  ((s.writeSlot (r.lba k) data).setBlock (r.lba k) .valid).settleRunBlock i r k .filled

/-- MED_FILL's handler: the checks of R115 in order. A fill of a block whose release left its record with no AWAITED
block finds the record retired, so its handle stale, and is LATE (R111, R114, R115; log 33). -/
def medFill : Handler (Nat × Byte × Nat × List Byte) := fun q s =>
  let slot := q.1
  let gen := q.2.1
  let k := q.2.2.1
  let reply := fillReply slot gen k
  match slotOf slot with
  | none => reply 0 false .badField s
  | some i =>
    let awaited := ((s.handle i gen).map (·.awaited)).getD 0
    if 7 < k then reply awaited false .badField s
    else match s.handle i gen with
      | none => reply 0 false .late s
      | some r =>
        match r.blocks[k]? with
        | none => reply awaited false .badField s
        | some .filled => reply awaited false .duplicate s
        | some .released => reply awaited false .superseded s
        | some .awaited => reply (r.awaited - 1) (decide (r.awaited = 1)) .ok (s.fill i r k q.2.2.2)

/-- MED_FILL: a retired fetch, or a line that stops being held, is a notice (R91, R108). -/
def execMedFill (tag : Byte) (payload : List Byte) (s : State) : Result :=
  .next (State.settle s (State.request 0x36 tag (parseFill payload) medFill s))

/-! ## Failures (R116) -/

/-- The failure point of a READ lowered to the lowest of the blocks that lies in its undelivered range (R116). -/
def failAt (c : ReadCmd) (lbas : List Nat) : ReadCmd :=
  match (lbas.filter fun b => decide (c.cursor ≤ b ∧ b < c.first + c.count)).min? with
  | some b => { c with failure := some (min b (c.failure.getD b)) }
  | none => c

/-- The failure point of the READ in progress follows a failed fetch. -/
def State.lowerFailure (lbas : List Nat) (s : State) : State :=
  match s.usb.current with
  | some (.read c) => s.setCurrent (.read (failAt c lbas))
  | _ => s

/-- A live record fails: its AWAITED blocks become INVALID, it is retired, an empty line is released (R116). -/
def State.failFetch (i : Fin 8) (r : FetchRec) (s : State) : State :=
  (((s.invalidate r.awaitedLbas).lowerFailure r.awaitedLbas).retire i).releaseIfEmpty r.tag

/-- MED_FILL_FAIL's handler (R116). -/
def medFillFail : Handler (Nat × Byte) := fun q s =>
  match slotOf q.1 with
  | none => alone .badField s
  | some i =>
    match s.handle i q.2 with
    | none => alone .late s
    | some r => (s.failFetch i r, .ok, num 1 q.1 ++ [q.2] ++ num 1 r.awaited)

/-- MED_FILL_FAIL: the freed slot is a notice (R108). -/
def execMedFillFail (tag : Byte) (payload : List Byte) (s : State) : Result :=
  .next (State.settle s (State.request 0x37 tag (parseHandle payload) medFillFail s))

/-! ## Expiry (R117) -/

/-- The READ in progress waits on a record (R112). -/
def State.waitedOn (r : FetchRec) (s : State) : Bool :=
  match s.usb.current with
  | some (.read c) => waitsOn c r
  | _ => false

/-- A live fetch expires, as one piece of work (R117). -/
def State.expireFetch (i : Fin 8) (s : State) : State :=
  match s.fetch[i].live with
  | none => s
  | some r =>
    let waited := s.waitedOn r
    let gen := s.fetch[i].gen
    let s := (s.invalidate r.awaitedLbas).retire i
    let s := if waited then s.endCurrent .notReadyRetry else s
    (s.recordFault (.fetchExpired i gen (r.lba 0))).releaseIfEmpty r.tag

/-- FETCH_EXPIRY: part time reaches a live fetch's expiry time (R117). -/
def execFetchExpiry (slot : Fin 8) (s : State) : Result :=
  .next (State.settle s (s.atDeadline (s.fetch[slot].live.map (·.expiry)) (State.expireFetch slot)))

/-! ## A server command's dispatch (R123) -/

/-- The port takes a server command: CONNECTED, and none in progress (R120, R123; log 8). -/
def State.takesCommand (s : State) : Bool := s.usb.connected && s.usb.current.isNone

/-- The dispatch of a medium-touching command (R123): NO_MEDIUM, MEDIUM_CHANGED once, or its own rule. -/
def State.dispatch (kind : CmdKind) (lba : Nat) (perform : State → State) (s : State) : State :=
  if s.media.state ≠ .presented then s.complete kind .noMedium lba 0 .none
  else if s.usb.mediumChanged then
    State.complete kind .mediumChanged lba 0 .none { s with usb := { s.usb with mediumChanged := false } }
  else perform s

/-- A server command at a port that takes commands; at another it changes nothing (log 8). -/
def State.serve (run : State → State) (s : State) : State := if s.takesCommand then run s else s

/-- The checks a READ and a WRITE share: count 0, count above 256, the capacity (R104, R127). -/
def State.rangeChecked (kind : CmdKind) (lba count : Nat) (go : State → State) (s : State) : State :=
  if count = 0 then s.complete kind .good 0 0 .none
  else if 256 < count then s.complete kind .badCommand lba 0 .none
  else if s.media.capacity.getD 0 < lba + count then s.complete kind .outOfRange lba 0 .none
  else go s

/-! ## READ (R104 to R110) -/

/-- A READ that passes its range check begins with a scan pass (R104). -/
def State.beginRead (lba count : Nat) (s : State) : State :=
  (s.setCurrent (.read { first := lba, count := count, cursor := lba, failure := none, scan := .running })).scanPass

/-- READ (R104, R126). -/
def execRead (lba : BitVec 32) (count : Nat) (s : State) : Result :=
  .next (s.serve (State.dispatch .read lba.toNat
    (State.rangeChecked .read lba.toNat count (State.beginRead lba.toNat count))))

/-! ## Delivery (R109) -/

/-- A block's bytes are sent, and the cursor advances; the command ends GOOD after its last block (R109). -/
def State.sendBlock (c : ReadCmd) (data : List Byte) (s : State) : State :=
  let s := { s with usb := { s.usb with sentBlock := some (c.cursor, data) } }
  if c.cursor + 1 = c.first + c.count then s.complete .read .good 0 0 .none
  else s.setCurrent (.read { c with cursor := c.cursor + 1 })

/-- Delivery of a VALID block: sent and its line touched, or dropped as INVALID with a scan pass (R101, R109). -/
def State.deliverValid (c : ReadCmd) (s : State) : State :=
  let r := s.readRows c.cursor
  if r.1 then ((r.2.setBlock c.cursor .invalid).releaseIfEmpty (tagOf c.cursor)).scanPass
  else (r.2.touch (tagOf c.cursor)).sendBlock c (s.blockData c.cursor)

/-- Delivery of a DIRTY, DRAINING or REDIRTIED block: sent, or LOST and the command ends (R102, R109). -/
def State.deliverListed (c : ReadCmd) (s : State) : State :=
  let r := s.readRows c.cursor
  if r.1 then (r.2.loseBlock c.cursor).endCurrent .mediumError
  else (r.2.touch (tagOf c.cursor)).sendBlock c (s.blockData c.cursor)

/-- The block at the cursor, handled by its class and state in the order of R109's table. -/
def State.deliver (c : ReadCmd) (s : State) : State :=
  if (s.dataExtent c.cursor).isNone then s.sendBlock c (List.replicate blockBytes 0)
  else if c.failure = some c.cursor then s.endCurrent .mediumError
  else match s.block c.cursor with
    | .valid => s.deliverValid c
    | .dirty => s.deliverListed c
    | .draining => s.deliverListed c
    | .redirtied => s.deliverListed c
    | .lost => s.endCurrent .mediumError
    | .pending => s
    | .invalid => s.scanPass

/-- BLOCK_DELIVERY: delivery reaches the block at the cursor of the READ in progress. -/
def execBlockDelivery (s : State) : Result :=
  .next (match s.usb.current with
    | some (.read c) => State.settle s (s.deliver c)
    | _ => s)

end Sys2Proof.Machine
end

