-- ==== Sys2Proof/Machine/Server.lean ====
section
/-! DEFINITION. The meanings of the server's other commands, of write-back, and of the media port's status (08). -/

namespace Sys2Proof.Machine

/-! ## Commands that carry no blocks (R124, R125) -/

/-- INQUIRE (R124). -/
def execInquire (s : State) : Result :=
  .next (s.serve (State.complete .inquire .good 0 0 (.identity "NEMAURE" "SORVEL MEDIA" true)))

/-- READY (R124). -/
def execReady (s : State) : Result :=
  .next (s.serve (State.dispatch .ready 0 (State.complete .ready .good 0 0 .none)))

/-- CAPACITY (R124). -/
def execCapacity (s : State) : Result :=
  .next (s.serve (State.dispatch .capacity 0 fun s =>
    s.complete .capacity .good 0 0 (.capacity (s.media.capacity.getD 0) blockBytes)))

/-- MODE (R124). -/
def execMode (s : State) : Result :=
  .next (s.serve (State.dispatch .mode 0 fun s =>
    s.complete .mode .good 0 0 (.mode (decide (s.media.access = some .ro)))))

/-- EJECT: a soft eject, then GOOD (R87, R124). -/
def execEject (s : State) : Result :=
  .next (s.serve (State.dispatch .eject 0 fun s => (s.softEject).complete .eject .good 0 0 .none))

/-- SENSE: GOOD with the record's contents, which empties it (R125). -/
def execSense (s : State) : Result :=
  .next (s.serve fun s =>
    let s' := s.complete .sense .good 0 0 (.sense s.usb.sense)
    { s' with usb := { s'.usb with sense := none } })

/-- BAD_COMMAND: a kind the port does not know (R123). -/
def execBadCommand (code : Byte) (s : State) : Result :=
  .next (s.serve (State.complete (.other code) .badCommand 0 0 .none))

/-! ## WRITE (R127 to R129) -/

/-- A WRITE that passes its range check: PROTECTED unless every block is writable, else intake begins (R127). -/
def State.beginWrite (lba count : Nat) (s : State) : State :=
  if (List.range count).all fun k => s.writable (lba + k) then
    s.setCurrent (.write { first := lba, count := count, taken := 0, stall := none })
  else s.complete .write .writeProtected lba 0 .none

/-- WRITE (R127). -/
def execWrite (lba : BitVec 32) (count : Nat) (s : State) : Result :=
  .next (s.serve (State.dispatch .write lba.toNat
    (State.rangeChecked .write lba.toNat count (State.beginWrite lba.toNat count))))

/-- WRITE_BLOCK: the server sends the next block of the WRITE in progress; during a stall none is accepted (R128). -/
def execWriteBlock (data : List Byte) (s : State) : Result :=
  .next (match s.usb.current with
    | some (.write w) => if w.stall.isNone ∧ data.length = blockBytes then s.offerBlock w data else s
    | _ => s)

/-- The deadline of a stall in progress (R129). -/
def stallDue : Option Current → Option PartTime
  | some (.write w) => w.stall.map (·.deadline)
  | _ => none

/-- STALL_DEADLINE: the WRITE ends NOT_READY_RETRY (R129). -/
def execStallDeadline (s : State) : Result :=
  .next (s.atDeadline (stallDue s.usb.current) (State.endCurrent .notReadyRetry))

/-! ## Draining (R131 to R134) -/

/-- The search of MED_DRAIN from the head of the list: the first DIRTY block read without error; a block in error
becomes LOST (R69, R132). -/
def drainFrom : List Nat → State → State × Option Nat
  | [], s => (s, none)
  | b :: bs, s =>
    if s.block b = .dirty then
      if (s.readRows b).1 then drainFrom bs ((s.readRows b).2.loseBlock b) else ((s.readRows b).2, some b)
    else drainFrom bs s

/-- The block becomes DRAINING under the next tag (R131, R132). -/
def State.beginDrain (b : Nat) (s : State) : State :=
  let s := s.setBlock b .draining
  { s with usb := { s.usb with
      drains := s.usb.drains ++ [{ lba := b, tag := s.usb.nextTag, expiry := s.after s.medCfg.fetchTimeout }],
      nextTag := nextTag s.usb.nextTag } }

/-- The object id and offset of a block in its DATA extent (R76). -/
def State.objectOf (b : Nat) (s : State) : Nat × Nat :=
  match s.dataExtent b with
  | some e => (e.object, e.offset b)
  | none => (0, 0)

/-- The OK reply of MED_DRAIN, laid out as 11.7 gives. -/
def State.encDrain (b : Nat) (s : State) : List Byte :=
  num 4 b ++ num 2 (s.objectOf b).1 ++ num 5 (s.objectOf b).2 ++ num 2 s.usb.nextTag.toNat ++
    encTime (s.after s.medCfg.fetchTimeout) ++ num 2 s.usb.dirty.length ++ s.blockData b

/-- MED_DRAIN's handler (R132). -/
def medDrain : Handler Unit := fun _ s =>
  if 8 ≤ s.usb.drains.length then (s, .busy, num 2 s.usb.dirty.length)
  else
    let r := drainFrom s.usb.dirty s
    match r.2 with
    | none => (r.1, .notFound, num 2 r.1.usb.dirty.length)
    | some b => (r.1.beginDrain b, .ok, r.1.encDrain b)

/-- MED_DRAIN: an attachment that ends in the search is a notice like any other (R64). -/
def execMedDrain (tag : Byte) (payload : List Byte) (s : State) : Result :=
  .next (State.settle s (State.request 0x3B tag (fields0 payload) medDrain s))

/-- The drain record with both the LBA and the tag (R133). -/
def State.drainRec (lba tag : Nat) (s : State) : Option DrainRec :=
  s.usb.drains.find? fun d => d.lba == lba && d.tag.toNat == tag

/-- A matching clean: its status and the state after it (R133). -/
def State.clean (lba : Nat) (s : State) : Status × State :=
  if s.block lba = .redirtied then (.stale, (s.setBlock lba .dirty).dropDrain lba)
  else (.ok, (((s.setBlock lba .valid).removeDirty lba).dropDrain lba).afterClean)

/-- A MED_CLEAN reply: for OK the LBA, the block's state, drains in flight and the list's length (R133); a STALE or a
LATE is the status alone, as R179 gives for a reply that is not OK and whose fields no rule names for its status. -/
def cleanReply (lba : Nat) (st : Status) (s : State) : State × Status × List Byte :=
  (s, st, if st = .ok then num 4 lba ++ num 1 (blockStateCode (s.block lba)) ++ num 1 s.usb.drains.length ++
    num 2 s.usb.dirty.length else [])

/-- MED_CLEAN's handler (R133). -/
def medClean : Handler (Nat × Nat) := fun r s =>
  match s.drainRec r.1 r.2 with
  | none => cleanReply r.1 .late s
  | some _ => cleanReply r.1 (s.clean r.1).1 (s.clean r.1).2

/-- MED_CLEAN: a line that stops being held or dirty-or-pinned is a notice, taken after the reply is formed (R91;
log 21). -/
def execMedClean (tag : Byte) (payload : List Byte) (s : State) : Result :=
  .next (State.settle s (State.request 0x3C tag (fields2 4 2 payload) medClean s))

/-- A drain record expires: its block becomes DIRTY in its place, the tag voided (R134). -/
def State.expireDrain (d : DrainRec) (s : State) : State := (s.setBlock d.lba .dirty).dropDrain d.lba

/-- DRAIN_EXPIRY (R134). -/
def execDrainExpiry (tag : BitVec 16) (s : State) : Result :=
  .next (match s.usb.drains.find? fun d => d.tag == tag with
    | some d => s.atDeadline (some d.expiry) (State.expireDrain d)
    | none => s)

/-! ## SYNC (R136) -/

/-- SYNC after its dispatch (R136). -/
def State.beginSync (s : State) : State :=
  if 0 < s.lostCount then s.complete .sync .mediumError 0 0 .none
  else if s.usb.dirty = [] then s.complete .sync .good 0 0 .none
  else (s.setCurrent (.sync (s.after (1000 * s.medCfg.syncTimeout)))).setFlag .media

/-- SYNC. -/
def execSync (s : State) : Result := .next (s.serve (State.dispatch .sync 0 State.beginSync))

/-- SYNC_DEADLINE: a waiting SYNC ends NOT_READY_RETRY (R136). -/
def execSyncDeadline (s : State) : Result :=
  .next (s.atDeadline (syncDue s.usb.current) (State.endCurrent .notReadyRetry))

/-- USB_RESET: a disconnect followed at once by a connect (R121). -/
def execUsbReset (s : State) : Result := .next (if s.usb.connected then s.disconnect.connect else s)

/-! ## Status (R139) -/

/-- The kind, first LBA, count and progress of a command in progress; a SYNC has no LBA and no count (log 16), and the
progress is one field of 4 bytes, the blocks taken of a WRITE too (log 35). -/
def encCurrent : Current → List Byte
  | .read r => num 1 (cmdKindCode .read) ++ num 4 r.first ++ num 2 r.count ++ num 4 r.cursor
  | .write w => num 1 (cmdKindCode .write) ++ num 4 w.first ++ num 2 w.count ++ num 4 w.taken
  | .sync d => num 1 (cmdKindCode .sync) ++ num 4 0 ++ num 2 0 ++ encTime d

/-- MED_STATUS' handler (R139). The four fields of the current command, or none, stand under one presence byte (log
43). -/
def medStatus : Handler Unit := fun _ s =>
  (s, .ok, num 1 (attachCode s.media.state) ++ opt 4 (s.media.capacity.map (num 4)) ++
    opt 1 (s.media.access.map fun a => num 1 (accessCode a)) ++ num 1 s.extentsInUse ++
    num 1 (connectionCode s.usb.connected) ++ flag s.usb.mediumChanged ++ num 1 s.cache.length ++
    num 1 s.heldCount ++ num 1 s.dirtyOrPinnedCount ++ num 1 s.pinnedCount ++ num 1 s.floor ++ num 2 s.usb.dirty.length ++ num 1 s.usb.drains.length ++
    num 2 s.lostCount ++ num 1 s.liveCount ++ opt 11 (s.usb.current.map encCurrent) ++
    flag (stallDue s.usb.current).isSome ++ encMedConfig s.medCfg)

/-- MED_STATUS. -/
def execMedStatus (tag : Byte) (payload : List Byte) (s : State) : Result :=
  .next (State.request 0x3D tag (fields0 payload) medStatus s)

end Sys2Proof.Machine
end

