-- ==== Sys2Proof/Machine/Clock.lean ====
section
/-! DEFINITION. What a step does with no command waiting: the event that is due, or a millisecond of part time (log 1,
log 25). -/

namespace Sys2Proof.Machine

/-- The event where the deadline is the present moment. -/
def dueAt (now : PartTime) (d : Option PartTime) (e : Instr) : List Instr := if d = some now then [e] else []

/-- The boot timer's deadline where its expiry can arise (R167). -/
def State.bootTimerDue (s : State) : Option PartTime := if s.sup.state = .waiting then s.sup.bootTimer else none

/-- The timed events whose deadline is the present moment, in the model's order (log 25). -/
def State.dueEvents (s : State) : List Instr :=
  (List.finRange 8).flatMap (fun i => dueAt s.time (s.fetch[i].live.map (·.expiry)) (.fetchExpiry i)) ++
    s.usb.drains.flatMap (fun d => dueAt s.time (some d.expiry) (.drainExpiry d.tag)) ++
    dueAt s.time (stallDue s.usb.current) .stallDeadline ++ dueAt s.time (syncDue s.usb.current) .syncDeadline ++
    dueAt s.time (settlesTo true s.power.pg) .pgRise ++ dueAt s.time (settlesTo false s.power.pg) .pgFall ++
    dueAt s.time (settlesTo false s.power.rsts) .rstsEdgeActive ++
    dueAt s.time (settlesTo true s.power.rsts) .rstsEdgeInactive ++ dueAt s.time (tailEnd s.power.mask) .maskTailEnd ++
    dueAt s.time s.phaseDue .phaseDeadline ++ dueAt s.time s.bootTimerDue .bootTimerExpiry ++
    dueAt s.time s.sup.holdTimer .holdOffExpiry ++ dueAt s.time (restoreDeadline s.restore) .restoreDeadline ++
    dueAt s.time (s.save.map (·.by_)) .saveEnd

/-- With no command waiting: BREAKs whose duration is over end; the first event that is due at the present moment waits
in the queue, so that each event finds what the one before it left; with none due, a millisecond passes, wrapping at
2^32. Through a part reset part time does not run (00, Time; R186). -/
def State.tick (s : State) : State :=
  if s.inReset then s
  else
    let s := s.endBreaks
    match s.dueEvents with
    | e :: _ => { s with pending := s.pending ++ [e] }
    | [] => { s with time := s.time + 1 }

end Sys2Proof.Machine
end

