-- ==== Sys2Proof/Machine/Boot.lean ====
section
/-! DEFINITION. The meanings of the boot supervisor's requests and timers (10). -/

namespace Sys2Proof.Machine

/-- What every EPOCH_GET reply carries: the counter, whether an epoch is open, and the numbers in the table (R162). -/
def State.encTable (s : State) : List Byte :=
  num 2 s.sup.counter ++ flag s.openEpoch.isSome ++ num 1 s.sup.epochs.length ++
    (s.sup.epochs.map fun e => num 2 e.number).flatten

/-- EPOCH_GET's handler (R162). -/
def epochGet : Handler Nat := fun n s =>
  if n = 0 then (s, .badField, s.encTable)
  else match s.sup.epochs.find? fun e => e.number == n with
    | some e => (s, .ok, s.encTable ++ encEpoch e)
    | none => (s, .notFound, s.encTable)

/-- EPOCH_GET. -/
def execEpochGet (tag : Byte) (payload : List Byte) (s : State) : Result :=
  .next (State.request 0x25 tag (fields1 2 payload) epochGet s)

/-- BOOT_POLICY's handler (R163): the applied record and the supervision snapshot. -/
def bootPolicy : Handler PolicyReq := fun r s =>
  match toPolicy r with
  | none => alone .badField s
  | some p => (s.setPolicy p, .ok, encPolicy p ++ (s.setPolicy p).encBoot)

/-- BOOT_POLICY. -/
def execBootPolicy (tag : Byte) (payload : List Byte) (s : State) : Result :=
  .next (State.request 0x44 tag (parsePolicy payload) bootPolicy s)

/-- BOOT_RELEASE's handler (R170). -/
def bootRelease : Handler Unit := fun _ s => (s.releaseSup, .ok, s.releaseSup.encBoot)

/-- BOOT_RELEASE. -/
def execBootRelease (tag : Byte) (payload : List Byte) (s : State) : Result :=
  .next (State.request 0x45 tag (fields0 payload) bootRelease s)

/-- BOOT_TIMER_EXPIRY: in WAITING (R167). A PG fall that settles at the same moment, and whose sequencer a request met, is
complete with the expiry (R172; log 50). -/
def execBootTimerExpiry (s : State) : Result :=
  .next (if s.sup.state = .waiting then
      State.settle s (State.closeFall s (s.atDeadline s.sup.bootTimer State.bootExpired))
    else s)

/-- HOLD_OFF_EXPIRY: in HOLDOFF, or in SATISFIED with the hold-off still running (R166, R168). A PG fall at the same moment
as for the boot timer (R172; log 50). -/
def execHoldOffExpiry (s : State) : Result :=
  .next (State.settle s (State.closeFall s (s.atDeadline s.sup.holdTimer State.holdExpired)))

end Sys2Proof.Machine
end

