-- ==== Sys2Proof/Machine/Cache.lean ====
section
/-! DEFINITION. The meanings of the requests that place and pin cache lines (06). -/

namespace Sys2Proof.Machine

/-- The requests that place a line are taken in ATTACHED and PRESENTED only (R97, R99). -/
def State.placeable (s : State) : Bool := decide (s.media.state = .attached) || decide (s.media.state = .presented)

/-- The eight block states of a tag, all INVALID where it has no line (R90): eight fields of one byte, with no count before
them (log 42). -/
def State.encStates (tag : Nat) (s : State) : List Byte :=
  match s.line tag with
  | some l => l.blocks.toList.map fun b => BitVec.ofNat 8 (blockStateCode b)
  | none => List.replicate 8 0

/-- The pinned, dirty-or-pinned and held counts. -/
def State.encCounts (s : State) : List Byte :=
  num 1 s.pinnedCount ++ num 1 s.dirtyOrPinnedCount ++ num 1 s.heldCount

/-! ## Placing (R99) -/

/-- The line of a MED_PUT: present, or allocated with no class test (R94, R99). -/
def State.lineForPut (lba : Nat) (s : State) : Option State :=
  if (s.line (tagOf lba)).isSome then some s else s.allocate (tagOf lba)

/-- A block placed in its line: the slot written, the block VALID, and a fetch that awaited it released (R99, R114). -/
def State.place (lba : Nat) (data : List Byte) (s : State) : State :=
  let s' := (s.writeSlot lba data).setBlock lba .valid
  if s.block lba = .pending then s'.releaseAwait lba else s'

/-- MED_PUT's handler: the checks of R99 in order. -/
def medPut : Handler (Nat × List Byte) := fun r s =>
  if s.placeable then
    if (s.dataExtent r.1).isNone then alone .badField s
    else if (s.block r.1).isUnclean then alone .dirty s
    else match s.lineForPut r.1 with
      | none => alone .noSpace s
      | some s' =>
        let after := s'.place r.1 r.2
        (after, .ok, num 4 r.1 ++ num 1 (blockStateCode (s.block r.1)) ++ num 1 (blockStateCode (after.block r.1)) ++
          flag (s.line (tagOf r.1)).isNone)
  else alone .wrongState s

/-- MED_PUT: a line that stops being held, or a fetch that retires, is a notice (R91, R108). -/
def execMedPut (tag : Byte) (payload : List Byte) (s : State) : Result :=
  .next (State.settle s (State.request 0x38 tag (parsePut payload) medPut s))

/-! ## Pinning (R97, R98) -/

/-- The reply of a taken MED_PIN. -/
def pinReply (t : Nat) (new already : Bool) (s : State) : State × Status × List Byte :=
  (s, .ok, num 4 t ++ flag new ++ flag already ++ s.encStates t ++ s.encCounts ++ num 1 s.floor)

/-- The pinned field of a line set. -/
def State.setPin (t : Nat) (b : Bool) (s : State) : State := s.modLine t fun l => { l with pinned := b }

/-- MED_PIN's handler: the checks of R97 in order. -/
def medPin : Handler Nat := fun t s =>
  if s.placeable then
    if (s.media.capacity.getD 1 - 1) / 8 < t then alone .badField s
    else match s.line t with
      | some l =>
        if l.pinned then pinReply t false true s
        else if s.pinTest t then pinReply t false false (s.setPin t true) else alone .noSpace s
      | none =>
        if s.pinTest t then
          match s.allocate t with
          | some s' => pinReply t true false (s'.setPin t true)
          | none => alone .noSpace s
        else alone .noSpace s
  else alone .wrongState s

/-- MED_PIN. -/
def execMedPin (tag : Byte) (payload : List Byte) (s : State) : Result :=
  .next (State.request 0x39 tag (fields1 4 payload) medPin s)

/-- MED_UNPIN's handler (R98): a line left with every block INVALID is released (R96). -/
def medUnpin : Handler Nat := fun t s =>
  if 536870911 < t then alone .badField s
  else match s.line t with
    | some l =>
      if l.pinned then
        let s' := (s.setPin t false).releaseIfEmpty t
        (s', .ok, num 4 t ++ s'.encStates t ++ s'.encCounts)
      else alone .notFound s
    | none => alone .notFound s

/-- MED_UNPIN: the line may stop being held, which is a notice (R91). -/
def execMedUnpin (tag : Byte) (payload : List Byte) (s : State) : Result :=
  .next (State.settle s (State.request 0x3A tag (fields1 4 payload) medUnpin s))

end Sys2Proof.Machine
end

