-- ==== Sys2Proof/Machine/Console.lean ====
section
/-! DEFINITION. The meanings of the console requests of 01 and of the console line events. -/

namespace Sys2Proof.Machine

/-! ## Configuring, enabling, disabling and clearing (R3 to R6) -/

/-- CON_CONFIG's handler (R3): the port number, the port's state, the fields, then the committed quota. -/
def conConfig : Handler ConConfigReq := fun r s =>
  onPort r.port (fun i s =>
    if s.ports[i].enabled then alone .wrongState s
    else match toConConfig r with
      | none => alone .badField s
      | some c =>
        if s.ports[i].pages ≠ [] ∧ c.quota ≠ s.ports[i].cfg.quota then alone .wrongState s
        else (s.modPort i fun p => { p with cfg := c }, .ok, encConConfig c)) s

/-- CON_CONFIG. -/
def execConConfig (tag : Byte) (payload : List Byte) (s : State) : Result :=
  .next (State.request 0x10 tag (parseConConfig payload) conConfig s)

/-- CON_ENABLE's handler (R4). -/
def conEnable (n : Nat) (s : State) : Option (State × Status × List Byte) :=
  match portOf n with
  | none => some (alone .badField s)
  | some i =>
    if s.ports[i].enabled then some (alone .wrongState s)
    else (s.enablePort i).map fun r => alone r.1 r.2

/-- CON_ENABLE. -/
def execConEnable (tag : Byte) (payload : List Byte) (s : State) : Result :=
  orNoPage (State.requestOpt 0x11 tag (fields1 1 payload) conEnable s)

/-- CON_DISABLE's handler (R5). -/
def conDisable : Handler Nat := fun n s =>
  onPort n (fun i s => if s.ports[i].enabled then alone .ok (s.disablePort i) else alone .wrongState s) s

/-- CON_DISABLE. -/
def execConDisable (tag : Byte) (payload : List Byte) (s : State) : Result :=
  .next (State.request 0x12 tag (fields1 1 payload) conDisable s)

/-- A port's pages return to the pool and its quota is no longer committed (R6, R59, R61). -/
def State.clearPort (i : PortId) (s : State) : State :=
  if s.ports[i].pages = [] then s
  else
    let s := (s.ports[i].pages).foldl (fun s r => s.setOwner r.page .free) s
    { s with committed := vupd s.committed i fun _ => 0,
             ports := vupd s.ports i fun p => { p with pages := [], window := [] } }

/-- CON_CLEAR's handler (R6). -/
def conClear : Handler Nat := fun n s =>
  onPort n (fun i s => if s.ports[i].enabled then alone .wrongState s else alone .ok (s.clearPort i)) s

/-- CON_CLEAR: the pages that become FREE are a notice to the cache (R59, R64). -/
def execConClear (tag : Byte) (payload : List Byte) (s : State) : Result :=
  .next (State.settle s (State.request 0x13 tag (fields1 1 payload) conClear s))

/-! ## Writing (R17, R18) -/

/-- The bytes of a CON_WRITE that are placed. -/
def acceptedBytes (p : Port) (data : List Byte) : List Byte := if p.slot.isSome then [] else data.take p.free

/-- CON_WRITE's handler (R17): the reply counts the entries as they stand before a transmission begins (log 21). -/
def conWrite : Handler (Nat × List Byte) := fun r s =>
  onPort r.1 (fun i s =>
    let p := s.ports[i]
    if p.enabled then
      let placed := acceptedBytes p r.2
      let s := s.modPort i fun p => { p with queue := p.queue ++ placed.map .byte }
      (s.kick i, if placed.length = r.2.length then .ok else .partial_,
        num 2 placed.length ++ num 1 s.ports[i].free)
    else alone .wrongState s) s

/-- CON_WRITE. -/
def execConWrite (tag : Byte) (payload : List Byte) (s : State) : Result :=
  .next (State.request 0x17 tag (parseConWrite payload) conWrite s)

/-- CON_BREAK's handler (R18). -/
def conBreak : Handler (Nat × Nat) := fun r s =>
  onPort r.1 (fun i s =>
    let p := s.ports[i]
    let ms := clamp 1 2000 r.2
    if p.enabled then
      if p.slot.isNone ∧ 0 < p.free then
        let s := s.modPort i fun p => { p with queue := p.queue ++ [.brk ms] }
        (s.kick i, .ok, num 1 1 ++ num 2 ms ++ num 1 s.ports[i].free)
      else (s, .partial_, num 1 0 ++ num 2 ms ++ num 1 p.free)
    else alone .wrongState s) s

/-- CON_BREAK. -/
def execConBreak (tag : Byte) (payload : List Byte) (s : State) : Result :=
  .next (State.request 0x18 tag (fields2 1 2 payload) conBreak s)

/-! ## Line events (R7 to R16, R20) -/

/-- CHARACTER_RECEIVED: a line port frames a character; the cache may be given back a page's notice by what a hit
does (R7, R8, R26 to R30, R40). A hold-off of 0 s expires within it (R166), so a PG fall at the same moment is complete
with it where a request met its sequencer (R172; log 50). -/
def execCharacterReceived (port : PortId) (c : RxChar) (s : State) : Result :=
  orNoPage ((s.receive port c).map fun t => State.settle s (State.closeFall s t))

/-- BREAK_RECEIVED: the break count rises and CON_LINE becomes pending (R9). -/
def execBreakReceived (port : PortId) (s : State) : Result :=
  .next (if s.framing s.ports[port] then
      (s.modPort port fun p => { p with breakCount := satInc 65535 p.breakCount }).setFlag (.conLine port)
    else s)

/-- The port measures edge intervals: AUTO, ENABLED, not gated, HUNTING or CANDIDATE (R12). -/
def State.measures (p : Port) (s : State) : Bool :=
  decide (p.cfg.rateMode = .auto) && p.enabled && !s.gated p && p.rate.isNone

/-- An edge of a measuring port: its first starts the counter, another gives an interval (R12 to R14). -/
def State.edge (port : PortId) (periods : Nat) (s : State) : State :=
  let p := s.ports[port]
  if p.counting then
    let s := s.modPort port (Port.interval (min 65535 periods))
    if s.ports[port].rate.isSome then (s.setFlag (.conLine port)).kick port else s
  else s.modPort port fun p => { p with counting := true }

/-- RECEIVE_LINE_EDGE (R12 to R14). -/
def execReceiveLineEdge (port : PortId) (periods : Nat) (s : State) : Result :=
  .next (if s.measures s.ports[port] then s.edge port periods else s)

/-- TRANSMISSION_END: the transmitter finishes a byte, or the mark after a BREAK, and is idle. The low level of a BREAK
ends no sooner than its duration: part time becomes its end where it can reach it, and the wire is then at mark for the
character time that the next TRANSMISSION_END ends (R16, R20; log 2, log 41). -/
def execTransmissionEnd (port : PortId) (s : State) : Result :=
  .next (match breakEnd s.ports[port].sending with
    | some t => s.atDeadline (some t) fun s => s.modPort port (Port.endBreak t)
    | none => s.sent port)

end Sys2Proof.Machine
end

