-- ==== Sys2Proof/Machine/History.lean ====
section
/-! DEFINITION. The meanings of the console history requests (02). -/

namespace Sys2Proof.Machine

/-! ## Reading (R32 to R34) -/

/-- The byte at a stream position a port holds (R24, R32). -/
def State.historyByte (i : PortId) (q : Nat) (s : State) : Byte :=
  match s.ports[i].pages.find? fun r => decide (r.first ≤ q ∧ q < r.first + pageBytes) with
  | some r => readByte s.mem (pageAddr r.page (q - r.first))
  | none => 0

/-- The page record of a port that a row belongs to. -/
def pageOfRow (p : Port) (row : Nat) : Option PageRec := p.pages.find? fun r => r.page.val == row / 64

/-- The first position of a row in its page record (R30). -/
def rowStart (r : PageRec) (row : Nat) : Nat := r.first + 64 * (row % 64)

/-- The row holds one of the `c` positions from `start` on; with none, no row is touched (R33). -/
def touchesRow (p : Port) (start c row : Nat) : Bool :=
  match pageOfRow p row with
  | some r => decide (0 < c ∧ rowStart r row < start + c ∧ start < rowStart r row + 64)
  | none => false

/-- The offset from `start` at which a damaged row is named: where it begins, or `start` itself (R33). -/
def damageOffset (p : Port) (start row : Nat) : Nat := ((pageOfRow p row).map (rowStart · row)).getD start - start

/-- The first damaged position less the start, over the damaged rows; none when there are none (R33). -/
def firstDamage (p : Port) (start : Nat) (bad : List Nat) : Option Nat := (bad.map (damageOffset p start)).min?

/-- The actual start (R32). -/
def readStart (p : Port) (q : Nat) : Nat := max p.o q

/-- The count returned (R32). -/
def readCount (p : Port) (q n : Nat) : Nat := min (clamp 0 1024 n) (p.w - readStart p q)

/-- CON_READ's flags byte (11.7). -/
def readFlags (i : PortId) (gap full : Bool) : List Byte :=
  num 1 (i.val + (if gap then 4 else 0) + (if full then 8 else 0))

/-- CON_READ's handler (R32 to R34), its reply laid out as 11.7 gives. -/
def conRead : Handler (Nat × Nat × Nat) := fun r s =>
  onPort r.1 (fun i s =>
    let p := s.ports[i]
    let start := readStart p r.2.1
    let c := readCount p r.2.1 r.2.2
    let bad := rowsInError s.rows (touchesRow p start c)
    let damage := firstDamage p start bad
    let s' := { s with rows := markRows s.rows (touchesRow p start c) }
    let body := readFlags i (decide (r.2.1 < p.o)) (decide (c = 0)) ++ num 6 p.w ++ num 3 (p.w - p.o) ++
      num 3 (if c = 0 then 0 else start - p.o) ++ num 2 (damage.getD 0) ++
      (if c = 0 then num 6 start else (List.range c).map fun k => s.historyByte i (start + k))
    if damage.isSome then (s'.recordFault (.historyDamaged i), .damaged, body) else (s', .ok, body)) s

/-- CON_READ. -/
def execConRead (tag : Byte) (payload : List Byte) (s : State) : Result :=
  .next (State.request 0x14 tag (fields3 1 6 2 payload) conRead s)

/-! ## Finding by time (R35) -/

inductive MatchKind where
  | empty | beforeAll | page
  deriving DecidableEq, Repr

def matchKindCode : MatchKind → Nat
  | .empty => 0 | .beforeAll => 1 | .page => 2

/-- The page record's first time is present and at most `t`. -/
def begunBy (t : Nat) (r : PageRec) : Bool := (r.firstTime.map fun x => decide (x.toNat ≤ t)).getD false

/-- The match kind and the result position, with the page for PAGE (R35). -/
def findTime (p : Port) (t : Nat) : MatchKind × Nat × Option PageRec :=
  if p.pages.all (·.firstTime.isNone) then (.empty, p.w, none)
  else match p.pages.reverse.find? (begunBy t) with
    | some r => (.page, r.first, some r)
    | none => (.beforeAll, p.o, none)

/-- CON_FIND_TIME's handler (R35): for PAGE, the page's first time and first epoch follow (log 16). -/
def conFindTime : Handler (Nat × Nat) := fun r s =>
  onPort r.1 (fun i s =>
    let p := s.ports[i]
    let f := findTime p r.2
    (s, .ok, num 6 f.2.1 ++ num 1 (matchKindCode f.1) ++ num 6 p.o ++ num 6 p.w ++
      match f.2.2 with
      | some pg => encTime (pg.firstTime.getD 0) ++ num 2 (pg.firstEpoch.getD 0)
      | none => [])) s

/-- CON_FIND_TIME. -/
def execConFindTime (tag : Byte) (payload : List Byte) (s : State) : Result :=
  .next (State.request 0x15 tag (fields2 1 4 payload) conFindTime s)

/-! ## Notification (R36) -/

/-- CON_NOTIFY's handler (R36). A notification that fires at once leaves the notify position absent. The reply's last
byte is 1 where it fired at once and 0 where it was set (log 30). -/
def conNotify : Handler (Nat × Nat) := fun r s =>
  onPort r.1 (fun i s =>
    let p := s.ports[i]
    if p.enabled then
      if r.2 ≤ p.w then
        ((s.modPort i fun p => { p with notify := none }).setFlag (.conData i), .ok, num 6 p.w ++ flag true)
      else (s.modPort i fun p => { p with notify := some r.2 }, .ok, num 6 p.w ++ flag false)
    else alone .wrongState s) s

/-- CON_NOTIFY. -/
def execConNotify (tag : Byte) (payload : List Byte) (s : State) : Result :=
  .next (State.request 0x16 tag (fields2 1 6 payload) conNotify s)

/-! ## Status (R38) -/

/-- The bytes that a port's newest page holds, 0 where the list is empty (log 31). -/
def newestBytes (p : Port) : Nat := (p.pages.getLast?.map fun r => p.w - r.first).getD 0

/-- CON_STATUS' handler (R38). -/
def conStatus : Handler Nat := fun n s =>
  onPort n (fun i s =>
    let p := s.ports[i]
    (s, .ok, encConConfig p.cfg ++ s.encLine i ++ flag (decide (s.committed[i] ≠ 0)) ++ num 6 p.o ++ num 6 p.w ++
      num 1 p.pages.length ++ num 2 (newestBytes p) ++ opt 6 (p.notify.map (num 6)) ++
      flag (decide (Report.conData i ∈ s.link.flags)) ++ flag (decide (Report.conLine i ∈ s.link.flags)) ++
      num 1 p.pages.length ++ (p.pages.map encPage).flatten)) s

/-- CON_STATUS. -/
def execConStatus (tag : Byte) (payload : List Byte) (s : State) : Result :=
  .next (State.request 0x19 tag (fields1 1 payload) conStatus s)

end Sys2Proof.Machine
end

