-- ==== Sys2Proof/Machine/Link.lean ====
section
/-! DEFINITION. The meanings of the management link's transactions that are no known request (11). -/

namespace Sys2Proof.Machine

/-- STATUS_POLL: the status byte is shifted out, and no frame moves (R173). -/
def execStatusPoll (_op : Byte) (s : State) : Result := .next s.shiftStatus

/-- FRAME_IGNORED: the bytes of a WRITE to a part whose IN_READY is 0 are ignored (R174). -/
def execFrameIgnored (_bytes : List Byte) (s : State) : Result := .next s.shiftStatus

/-- The reply to a frame whose collection ends in a fault: kind and tag 0, the reason in a byte (R174, R177). -/
def badFrameReply (f : FrameFault) : Reply := mkReply 0 0 .badFrame [frameFaultCode f]

/-- BAD_FRAME: the collection ends in a fault, and the BAD_FRAME reply joins the queue (R174, R177). Bytes that give
no fault are no such command and change nothing but the status byte (log 27). -/
def execBadFrame (bytes : List Byte) (s : State) : Result :=
  .next (s.whenReady fun s =>
    match collect bytes with
    | .fault f => s.pushReply (badFrameReply f)
    | .noFrame => s
    | .good _ _ _ => s)

/-- UNKNOWN_KIND: a good frame of no request kind, with no other effect (R177). A request kind is no such command
(log 27). -/
def execUnknownKind (kind tag : Byte) (_payload : List Byte) (s : State) : Result :=
  .next (s.whenReady fun s =>
    if kind ∈ requestKinds then s else s.pushReply (mkReply kind tag .unknownKind []))

/-- READ: the arbiter chooses an item and holds it (R175, R182); a READ while one is held is none (log 12). -/
def execReadTransaction (s : State) : Result :=
  .next (if s.link.held.isSome then s else s.shiftStatus.choose)

/-- The end of a READ transaction (R175): complete when the whole frame was shifted out. -/
def State.endRead (shifted : Nat) (s : State) : State :=
  match s.link.held with
  | none => s
  | some h =>
    let s' := if s.link.outFrame.length ≤ shifted then s.readOutComplete h else s.readOutCut h
    { s' with link := { s'.link with held := none } }

/-- READ_OUT_END: CS_N rises after a READ (R175, R184). -/
def execReadOutEnd (shifted : Nat) (s : State) : Result := .next (s.endRead shifted)

end Sys2Proof.Machine
end

