-- ==== Sys2Proof/Machine/Matcher.lean ====
section
/-! DEFINITION. The meanings of the requests on markers and translation tables (03). -/

namespace Sys2Proof.Machine

/-- A marker index 0 to 15. -/
def markerOf (n : Nat) : Option (Fin 16) := if h : n < 16 then some ⟨n, h⟩ else none

/-- A handler that first reads a marker index: one above 15 is refused BAD_FIELD. -/
def onMarker (n : Nat) (h : Fin 16 → State → State × Status × List Byte) (s : State) : State × Status × List Byte :=
  match markerOf n with
  | some m => h m s
  | none => alone .badField s

/-- A marker record replaced by a configuration, its hit count 0 and its spent flag no (R48, R49). -/
def State.putMarker (m : Fin 16) (c : MarkerCfg) (s : State) : State :=
  { s with markers := vupd s.markers m fun _ => { cfg := c, hits := 0, spent := false } }

/-- MARK_SET's handler (R48). -/
def markSet : Handler MarkSetReq := fun r s =>
  onMarker r.index (fun m s =>
    match toMarkerCfg r with
    | none => alone .badField s
    | some c => (s.putMarker m c, .ok, encMarkerCfg c)) s

/-- MARK_SET. -/
def execMarkSet (tag : Byte) (payload : List Byte) (s : State) : Result :=
  .next (State.request 0x20 tag (parseMarkSet payload) markSet s)

/-- MARK_CLEAR's handler (R49). -/
def markClear : Handler Nat := fun n s => onMarker n (fun m s => alone .ok (s.putMarker m clearedMarkerCfg)) s

/-- MARK_CLEAR. -/
def execMarkClear (tag : Byte) (payload : List Byte) (s : State) : Result :=
  .next (State.request 0x21 tag (fields1 1 payload) markClear s)

/-- MARK_GET's handler (R50). -/
def markGet : Handler Nat := fun n s =>
  onMarker n (fun m s =>
    (s, .ok, encMarkerCfg s.markers[m].cfg ++ num 2 s.markers[m].hits ++ flag s.markers[m].spent)) s

/-- MARK_GET. -/
def execMarkGet (tag : Byte) (payload : List Byte) (s : State) : Result :=
  .next (State.request 0x22 tag (fields1 1 payload) markGet s)

/-! ## Translation tables (R42, R43) -/

/-- A table with entries written from an index upward, stopping after index 255. -/
def loadTable (t : XlatTable) : Nat → List XlatEntry → XlatTable
  | _, [] => t
  | k, e :: es => if h : k < 256 then loadTable (t.set k e h) (k + 1) es else t

/-- The tables with table `n` (0 or 1) changed. -/
def State.modTable (n : Nat) (f : XlatTable → XlatTable) (s : State) : State :=
  if n = 0 then { s with t0 := f s.t0 } else { s with t1 := f s.t1 }

/-- The table numbered 0 or 1. -/
def State.tableAt (n : Nat) (s : State) : XlatTable := if n = 0 then s.t0 else s.t1

/-- Every entry read, or none where a kind is neither REPLACE nor SKIP. -/
def entriesOf : List (Byte × Byte) → Option (List XlatEntry)
  | [] => some []
  | e :: es =>
    match xlatEntryOf e, entriesOf es with
    | some x, some xs => some (x :: xs)
    | _, _ => none

/-- XLAT_LOAD's handler (R42); a count above 256 is out of range (log 23). -/
def xlatLoad : Handler (Nat × Nat × List (Byte × Byte)) := fun r s =>
  if 1 < r.1 ∨ 256 < r.2.2.length then alone .badField s
  else match entriesOf r.2.2 with
    | none => alone .badField s
    | some es =>
      let n := min es.length (256 - r.2.1)
      (s.modTable r.1 fun t => loadTable t r.2.1 es, if n = es.length then .ok else .partial_,
        num 2 n ++ num 2 (r.2.1 + n))

/-- XLAT_LOAD. -/
def execXlatLoad (tag : Byte) (payload : List Byte) (s : State) : Result :=
  .next (State.request 0x23 tag (parseXlatLoad payload) xlatLoad s)

/-- An entry as XLAT_READ carries it; the replacement byte of a SKIP entry is a free value (log 14). -/
def encXlat (time : PartTime) (place : Nat) : XlatEntry → List Byte
  | .replace b => [0, b]
  | .skip => [1, Config.skipByte time place]

/-- XLAT_READ's handler (R43). -/
def xlatRead : Handler (Nat × Nat × Nat) := fun r s =>
  if 1 < r.1 then alone .badField s
  else
    let n := min (clamp 0 256 r.2.2) (256 - r.2.1)
    (s, .ok, num 1 r.1 ++ num 1 r.2.1 ++ num 2 n ++
      ((List.range n).map fun k =>
        encXlat s.time (256 * r.1 + (r.2.1 + k)) ((s.tableAt r.1).toList.getD (r.2.1 + k) .skip)).flatten)

/-- XLAT_READ. -/
def execXlatRead (tag : Byte) (payload : List Byte) (s : State) : Result :=
  .next (State.request 0x24 tag (fields3 1 1 2 payload) xlatRead s)

end Sys2Proof.Machine
end

