-- ==== Sys2Proof/Machine/Media.lean ====
section
/-! DEFINITION. The meanings of the requests on the attachment and its extents (05), and of MED_CONFIG (R119, R138). -/

namespace Sys2Proof.Machine

/-! ## Settings (R119, R138) -/

/-- MED_CONFIG's handler (R119, R138): the five values are written together, and the connection follows. -/
def medConfig : Handler MedConfigReq := fun r s =>
  match toMedConfig r with
  | none => alone .badField s
  | some c => (State.updateConnection { s with medCfg := c }, .ok, encMedConfig c)

/-- MED_CONFIG. -/
def execMedConfig (tag : Byte) (payload : List Byte) (s : State) : Result :=
  .next (State.request 0x30 tag (parseMedConfig payload) medConfig s)

/-! ## Attaching (R72) -/

/-- MED_ATTACH's handler (R72). -/
def medAttach : Handler (Nat × Nat) := fun r s =>
  if s.media.state ≠ .detached then alone .wrongState s
  else match accessOf r.2 with
    | none => alone .badField s
    | some a =>
      if r.1 = 0 then alone .badField s
      else ({ s with media := { s.media with state := .attached, capacity := some r.1, access := some a } }, .ok,
        num 4 r.1 ++ num 1 (accessCode a) ++ num 1 (attachCode .attached))

/-- MED_ATTACH. -/
def execMedAttach (tag : Byte) (payload : List Byte) (s : State) : Result :=
  .next (State.request 0x31 tag (fields2 4 1 payload) medAttach s)

/-! ## Extents (R74, R78, R79) -/

/-- An extent index 0 to 31. -/
def extentOf (n : Nat) : Option (Fin 32) := if h : n < 32 then some ⟨n, h⟩ else none

/-- Two extents share an LBA (R74). -/
def Extent.shares (a b : Extent) : Bool := decide (a.first < b.first + b.count ∧ b.first < a.first + a.count)

/-- Check 2 of R74: the index, the kind and the access code. -/
def extentFields (r : ExtentReq) : Option (Fin 32 × ExtentKind × Access) := do
  let i ← extentOf r.index
  let k ← extentKindOf r.kind
  let a ← accessOf r.access
  some (i, k, a)

/-- Checks 3 to 7 of R74. -/
def extentRefused (r : ExtentReq) (k : ExtentKind) (a : Access) (capacity : Nat) : Bool :=
  decide (r.count = 0) || (decide (k = .data) && decide (r.object = 0)) || decide (capacity < r.first + r.count) ||
    (decide (k = .zero) && decide (a = .rw)) ||
    (decide (k = .data) && decide (2 ^ 40 - 1 < r.base + r.count - 1))

/-- The record as stored: a ZERO extent has no object id and no base. -/
def storedExtent (r : ExtentReq) (k : ExtentKind) (a : Access) : Extent :=
  { first := r.first, count := r.count, kind := k, access := a,
    object := if k = .data then r.object else 0, base := if k = .data then r.base else 0 }

/-- The entry of the extent table takes a content. -/
def State.setExtent (i : Fin 32) (e : Option Extent) (s : State) : State :=
  { s with media := { s.media with extents := vupd s.media.extents i fun _ => e } }

/-- MED_EXTENT_ADD's handler: the nine checks of R74 in order. -/
def medExtentAdd : Handler ExtentReq := fun r s =>
  if s.media.state = .detached ∨ s.media.state = .ejecting then alone .wrongState s
  else match extentFields r with
    | none => alone .badField s
    | some (i, k, a) =>
      if extentRefused r k a (s.media.capacity.getD 0) then alone .badField s
      else if s.media.extents[i].isSome then alone .wrongState s
      else
        let e := storedExtent r k a
        if s.media.extents.toList.any (fun x => (x.map e.shares).getD false) then alone .overlap s
        else (s.setExtent i (some e), .ok, encExtent i.val e)

/-- MED_EXTENT_ADD. -/
def execMedExtentAdd (tag : Byte) (payload : List Byte) (s : State) : Result :=
  .next (State.request 0x32 tag (parseExtentAdd payload) medExtentAdd s)

/-- Block `i` of a line lies in an extent. -/
def lineBlockIn (e : Extent) (l : CacheLine) (i : Fin 8) : Bool := e.covers (8 * l.tag + i.val)

/-- Some block of the extent's range is DIRTY, DRAINING, REDIRTIED or LOST (check 4 of R78). -/
def State.extentUnclean (e : Extent) (s : State) : Bool :=
  s.cache.any fun l => (List.finRange 8).any fun i => lineBlockIn e l i && l.blocks[i].isUnclean

/-- A line with its VALID blocks in the extent's range made INVALID (step 2 of R79). -/
def dropBlocks (e : Extent) (l : CacheLine) : CacheLine :=
  { l with blocks := vgen 8 fun n =>
      let i : Fin 8 := ⟨n % 8, Nat.mod_lt _ (by decide)⟩
      if lineBlockIn e l i && decide (l.blocks[i] = .valid) then .invalid else l.blocks[i] }

/-- Steps 2 to 4 of R79. -/
def State.removeExtent (i : Fin 32) (e : Extent) (s : State) : State :=
  let s := { s with cache := s.cache.map (dropBlocks e) }
  State.setExtent i none ((s.cache.map (·.tag)).foldl (fun s t => s.releaseIfEmpty t) s)

/-- MED_EXTENT_DEL's handler: the checks of R78 in order. -/
def medExtentDel : Handler Nat := fun n s =>
  match extentOf n with
  | none => alone .badField s
  | some i =>
    if s.media.state ≠ .attached then alone .wrongState s
    else match s.media.extents[i] with
      | none => alone .notFound s
      | some e =>
        if s.extentUnclean e then alone .dirty s else (s.removeExtent i e, .ok, encExtent i.val e)

/-- MED_EXTENT_DEL: the pages it frees are a notice to the cache (R79). -/
def execMedExtentDel (tag : Byte) (payload : List Byte) (s : State) : Result :=
  .next (State.settle s (State.request 0x33 tag (fields1 1 payload) medExtentDel s))

/-! ## Presenting and ejecting (R81 to R87) -/

/-- The attachment becomes PRESENTED, and the medium-changed flag is set (R81). -/
def State.present (s : State) : State :=
  { s with media := { s.media with state := .presented }, usb := { s.usb with mediumChanged := true } }

/-- MED_PRESENT's handler (R81). -/
def medPresent : Handler Unit := fun _ s =>
  if s.media.state = .attached then
    (s.present, .ok, num 1 (attachCode .presented) ++ num 4 (s.media.capacity.getD 0) ++
      num 1 (accessCode (s.media.access.getD .ro)) ++ num 1 s.extentsInUse)
  else alone .wrongState s

/-- MED_PRESENT. -/
def execMedPresent (tag : Byte) (payload : List Byte) (s : State) : Result :=
  .next (State.request 0x34 tag (fields0 payload) medPresent s)

/-- The reply of a taken MED_EJECT: the state and the dirty-list length after, and the blocks discarded (R82). -/
def ejected (discarded : Nat) (s : State) : State × Status × List Byte :=
  (s, .ok, num 1 (attachCode s.media.state) ++ num 2 s.usb.dirty.length ++ num 2 discarded)

/-- MED_EJECT's handler: mode 0 is SOFT and mode 1 FORCE, dispatched by the state (R82). -/
def medEject : Handler Nat := fun mode s =>
  if 1 < mode then alone .badField s
  else match s.media.state, mode with
    | .detached, _ => alone .wrongState s
    | .attached, _ => ejected 0 s.endAttachment
    | .presented, 0 => ejected 0 s.softEject
    | .presented, _ => ejected s.usb.dirty.length s.forceEject
    | .ejecting, 0 => alone .wrongState s
    | .ejecting, _ => ejected s.usb.dirty.length s.forceEject

/-- MED_EJECT. -/
def execMedEject (tag : Byte) (payload : List Byte) (s : State) : Result :=
  .next (State.request 0x35 tag (fields1 1 payload) medEject s)

end Sys2Proof.Machine
end

