-- ==== Sys2Proof/Machine/Dispatch.lean ====
section
/-! DEFINITION. One arm per command: a direct call of its meaning. -/

namespace Sys2Proof.Machine

def exec (i : Instr) (s : State) : Host.Outcome State Fault Refusal :=
  match i with
  | .powerOn => Sys2Proof.Machine.execPowerOn s
  | .pinReset => Sys2Proof.Machine.execPinReset s
  | .resetEnd => Sys2Proof.Machine.execResetEnd s
  | .restoreDeadline => Sys2Proof.Machine.execRestoreDeadline s
  | .saveEnd => Sys2Proof.Machine.execSaveEnd s
  | .statusPoll op => Sys2Proof.Machine.execStatusPoll op s
  | .frameIgnored bytes => Sys2Proof.Machine.execFrameIgnored bytes s
  | .badFrame bytes => Sys2Proof.Machine.execBadFrame bytes s
  | .unknownKind kind tag payload => Sys2Proof.Machine.execUnknownKind kind tag payload s
  | .readTransaction => Sys2Proof.Machine.execReadTransaction s
  | .readOutEnd shifted => Sys2Proof.Machine.execReadOutEnd shifted s
  | .devIdent tag payload => Sys2Proof.Machine.execDevIdent tag payload s
  | .devTime tag payload => Sys2Proof.Machine.execDevTime tag payload s
  | .devReset tag payload => Sys2Proof.Machine.execDevReset tag payload s
  | .setSave tag payload => Sys2Proof.Machine.execSetSave tag payload s
  | .setDefaults tag payload => Sys2Proof.Machine.execSetDefaults tag payload s
  | .faultGet tag payload => Sys2Proof.Machine.execFaultGet tag payload s
  | .faultClear tag payload => Sys2Proof.Machine.execFaultClear tag payload s
  | .poolStatus tag payload => Sys2Proof.Machine.execPoolStatus tag payload s
  | .conConfig tag payload => Sys2Proof.Machine.execConConfig tag payload s
  | .conEnable tag payload => Sys2Proof.Machine.execConEnable tag payload s
  | .conDisable tag payload => Sys2Proof.Machine.execConDisable tag payload s
  | .conClear tag payload => Sys2Proof.Machine.execConClear tag payload s
  | .conRead tag payload => Sys2Proof.Machine.execConRead tag payload s
  | .conFindTime tag payload => Sys2Proof.Machine.execConFindTime tag payload s
  | .conNotify tag payload => Sys2Proof.Machine.execConNotify tag payload s
  | .conWrite tag payload => Sys2Proof.Machine.execConWrite tag payload s
  | .conBreak tag payload => Sys2Proof.Machine.execConBreak tag payload s
  | .conStatus tag payload => Sys2Proof.Machine.execConStatus tag payload s
  | .markSet tag payload => Sys2Proof.Machine.execMarkSet tag payload s
  | .markClear tag payload => Sys2Proof.Machine.execMarkClear tag payload s
  | .markGet tag payload => Sys2Proof.Machine.execMarkGet tag payload s
  | .xlatLoad tag payload => Sys2Proof.Machine.execXlatLoad tag payload s
  | .xlatRead tag payload => Sys2Proof.Machine.execXlatRead tag payload s
  | .epochGet tag payload => Sys2Proof.Machine.execEpochGet tag payload s
  | .medConfig tag payload => Sys2Proof.Machine.execMedConfig tag payload s
  | .medAttach tag payload => Sys2Proof.Machine.execMedAttach tag payload s
  | .medExtentAdd tag payload => Sys2Proof.Machine.execMedExtentAdd tag payload s
  | .medExtentDel tag payload => Sys2Proof.Machine.execMedExtentDel tag payload s
  | .medPresent tag payload => Sys2Proof.Machine.execMedPresent tag payload s
  | .medEject tag payload => Sys2Proof.Machine.execMedEject tag payload s
  | .medFill tag payload => Sys2Proof.Machine.execMedFill tag payload s
  | .medFillFail tag payload => Sys2Proof.Machine.execMedFillFail tag payload s
  | .medPut tag payload => Sys2Proof.Machine.execMedPut tag payload s
  | .medPin tag payload => Sys2Proof.Machine.execMedPin tag payload s
  | .medUnpin tag payload => Sys2Proof.Machine.execMedUnpin tag payload s
  | .medDrain tag payload => Sys2Proof.Machine.execMedDrain tag payload s
  | .medClean tag payload => Sys2Proof.Machine.execMedClean tag payload s
  | .medStatus tag payload => Sys2Proof.Machine.execMedStatus tag payload s
  | .pwrConfig tag payload => Sys2Proof.Machine.execPwrConfig tag payload s
  | .pwrAction tag payload => Sys2Proof.Machine.execPwrAction tag payload s
  | .pwrAbort tag payload => Sys2Proof.Machine.execPwrAbort tag payload s
  | .pwrStatus tag payload => Sys2Proof.Machine.execPwrStatus tag payload s
  | .bootPolicy tag payload => Sys2Proof.Machine.execBootPolicy tag payload s
  | .bootRelease tag payload => Sys2Proof.Machine.execBootRelease tag payload s
  | .characterReceived port c => Sys2Proof.Machine.execCharacterReceived port c s
  | .breakReceived port => Sys2Proof.Machine.execBreakReceived port s
  | .receiveLineEdge port periods => Sys2Proof.Machine.execReceiveLineEdge port periods s
  | .transmissionEnd port => Sys2Proof.Machine.execTransmissionEnd port s
  | .memoryUpset row flips => Sys2Proof.Machine.execMemoryUpset row flips s
  | .inquire => Sys2Proof.Machine.execInquire s
  | .ready => Sys2Proof.Machine.execReady s
  | .capacity => Sys2Proof.Machine.execCapacity s
  | .mode => Sys2Proof.Machine.execMode s
  | .eject => Sys2Proof.Machine.execEject s
  | .sense => Sys2Proof.Machine.execSense s
  | .badCommand code => Sys2Proof.Machine.execBadCommand code s
  | .read lba count => Sys2Proof.Machine.execRead lba count s
  | .blockDelivery => Sys2Proof.Machine.execBlockDelivery s
  | .fetchExpiry slot => Sys2Proof.Machine.execFetchExpiry slot s
  | .write lba count => Sys2Proof.Machine.execWrite lba count s
  | .writeBlock data => Sys2Proof.Machine.execWriteBlock data s
  | .stallDeadline => Sys2Proof.Machine.execStallDeadline s
  | .drainExpiry tag => Sys2Proof.Machine.execDrainExpiry tag s
  | .sync => Sys2Proof.Machine.execSync s
  | .syncDeadline => Sys2Proof.Machine.execSyncDeadline s
  | .usbReset => Sys2Proof.Machine.execUsbReset s
  | .pinChange pin level => Sys2Proof.Machine.execPinChange pin level s
  | .pgRise => Sys2Proof.Machine.execPgRise s
  | .pgFall => Sys2Proof.Machine.execPgFall s
  | .rstsEdgeActive => Sys2Proof.Machine.execRstsEdgeActive s
  | .rstsEdgeInactive => Sys2Proof.Machine.execRstsEdgeInactive s
  | .maskTailEnd => Sys2Proof.Machine.execMaskTailEnd s
  | .phaseDeadline => Sys2Proof.Machine.execPhaseDeadline s
  | .bootTimerExpiry => Sys2Proof.Machine.execBootTimerExpiry s
  | .holdOffExpiry => Sys2Proof.Machine.execHoldOffExpiry s

end Sys2Proof.Machine
end

