-- ==== Sys2Proof/Safety.lean ====
section
/-! DEFINITION. What counts as a safe run of the part: a step that stops is never met while the part's invariants hold;
and the terms in which claims speak of requests and replies. -/

namespace Sys2Proof.Machine

/-! ## Requests and replies -/

/-- The frame of a request command: its kind (R181), tag and payload; none for a command that is no request. -/
def requestOf (c : Instr) : Option (Byte × Byte × List Byte) :=
  match c with
  | .devIdent t p => some (0x01, t, p)
  | .devTime t p => some (0x02, t, p)
  | .devReset t p => some (0x03, t, p)
  | .setSave t p => some (0x04, t, p)
  | .setDefaults t p => some (0x05, t, p)
  | .faultGet t p => some (0x06, t, p)
  | .faultClear t p => some (0x07, t, p)
  | .poolStatus t p => some (0x08, t, p)
  | .conConfig t p => some (0x10, t, p)
  | .conEnable t p => some (0x11, t, p)
  | .conDisable t p => some (0x12, t, p)
  | .conClear t p => some (0x13, t, p)
  | .conRead t p => some (0x14, t, p)
  | .conFindTime t p => some (0x15, t, p)
  | .conNotify t p => some (0x16, t, p)
  | .conWrite t p => some (0x17, t, p)
  | .conBreak t p => some (0x18, t, p)
  | .conStatus t p => some (0x19, t, p)
  | .markSet t p => some (0x20, t, p)
  | .markClear t p => some (0x21, t, p)
  | .markGet t p => some (0x22, t, p)
  | .xlatLoad t p => some (0x23, t, p)
  | .xlatRead t p => some (0x24, t, p)
  | .epochGet t p => some (0x25, t, p)
  | .medConfig t p => some (0x30, t, p)
  | .medAttach t p => some (0x31, t, p)
  | .medExtentAdd t p => some (0x32, t, p)
  | .medExtentDel t p => some (0x33, t, p)
  | .medPresent t p => some (0x34, t, p)
  | .medEject t p => some (0x35, t, p)
  | .medFill t p => some (0x36, t, p)
  | .medFillFail t p => some (0x37, t, p)
  | .medPut t p => some (0x38, t, p)
  | .medPin t p => some (0x39, t, p)
  | .medUnpin t p => some (0x3A, t, p)
  | .medDrain t p => some (0x3B, t, p)
  | .medClean t p => some (0x3C, t, p)
  | .medStatus t p => some (0x3D, t, p)
  | .pwrConfig t p => some (0x40, t, p)
  | .pwrAction t p => some (0x41, t, p)
  | .pwrAbort t p => some (0x42, t, p)
  | .pwrStatus t p => some (0x43, t, p)
  | .bootPolicy t p => some (0x44, t, p)
  | .bootRelease t p => some (0x45, t, p)
  | .powerOn => none
  | .pinReset => none
  | .resetEnd => none
  | .restoreDeadline => none
  | .saveEnd => none
  | .statusPoll _ => none
  | .frameIgnored _ => none
  | .badFrame _ => none
  | .unknownKind _ _ _ => none
  | .readTransaction => none
  | .readOutEnd _ => none
  | .characterReceived _ _ => none
  | .breakReceived _ => none
  | .receiveLineEdge _ _ => none
  | .transmissionEnd _ => none
  | .memoryUpset _ _ => none
  | .inquire => none
  | .ready => none
  | .capacity => none
  | .mode => none
  | .eject => none
  | .sense => none
  | .badCommand _ => none
  | .read _ _ => none
  | .blockDelivery => none
  | .fetchExpiry _ => none
  | .write _ _ => none
  | .writeBlock _ => none
  | .stallDeadline => none
  | .drainExpiry _ => none
  | .sync => none
  | .syncDeadline => none
  | .usbReset => none
  | .pinChange _ _ => none
  | .pgRise => none
  | .pgFall => none
  | .rstsEdgeActive => none
  | .rstsEdgeInactive => none
  | .maskTailEnd => none
  | .phaseDeadline => none
  | .bootTimerExpiry => none
  | .holdOffExpiry => none

/-- The kinds whose payload has one length, and that length in bytes (R178 with the owning rules). -/
def fixedLengths : List (Byte × Nat) :=
  [(0x01, 0), (0x02, 0), (0x03, 0), (0x04, 0), (0x05, 0), (0x06, 0), (0x07, 0), (0x08, 0)] ++
  [(0x10, 10), (0x11, 1), (0x12, 1), (0x13, 1), (0x14, 9), (0x15, 5), (0x16, 7), (0x18, 3), (0x19, 1)] ++
  [(0x21, 1), (0x22, 1), (0x24, 4), (0x25, 2)] ++
  [(0x30, 8), (0x31, 5), (0x32, 18), (0x33, 1), (0x34, 0), (0x35, 1), (0x36, 515), (0x37, 2)] ++
  [(0x38, 516), (0x39, 4), (0x3A, 4), (0x3B, 0), (0x3C, 6), (0x3D, 0)] ++
  [(0x40, 23), (0x41, 2), (0x42, 0), (0x43, 0), (0x44, 10), (0x45, 0)]

/-- A MARK_SET payload whose length agrees with its two text lengths (R48). -/
def markSetLength (p : List Byte) : Bool :=
  let pl := (p.getD 2 0).toNat
  let il := (p.getD (7 + pl) 0).toNat
  decide (8 + pl ≤ p.length) && decide (p.length = 8 + pl + il)

/-- The payload's length is one the kind permits (R177, R178). -/
def permitted (kind : Byte) (p : List Byte) : Bool :=
  if kind = 0x17 then decide (1 ≤ p.length ∧ p.length ≤ 1025)
  else if kind = 0x20 then markSetLength p
  else if kind = 0x23 then decide (4 ≤ p.length ∧ p.length = 4 + 2 * leNat [p.getD 2 0, p.getD 3 0])
  else fixedLengths.any fun x => decide (x.1 = kind) && decide (x.2 = p.length)

/-- The state `t` after a request's effect on `s`, with the status byte of `s` shifted out and a reply queued. -/
def State.answered (s : State) (kind tag : Byte) (st : Status) (body : List Byte) (t : State) : State :=
  { t with link := { t.link with
      statusOut := s.statusByte,
      replies := t.link.replies ++ [{ kind := kind, tag := tag, status := st, body := body }] } }

/-- A port number, a marker index or another number below 256 as one payload byte. -/
abbrev byteOf (n : Nat) : Byte := BitVec.ofNat 8 n

/-! ## Terms of claims -/

/-- The record of an action that begins at phase `p` at part time `d` with requester `r`. -/
def begunRecord (k : ActionKind) (esc : Bool) (r : Requester) (p : Phase) (d : PartTime) (c : PowerCfg) : ActionRec :=
  { kind := k, escalate := esc, requester := r, start := d, phase := some p,
    deadline := d + BitVec.ofNat 32 (phaseDuration c p), escalated := false, result := none, ended := none,
    pressedAt := if p = .pressOn then d else 0 }

/-- The supervisor's action of kind `k` begins at part time `d` in phase `p`: its record is LAST, what was LAST is
PRIOR. -/
def State.supActs (k : ActionKind) (p : Phase) (d : PartTime) (s t : State) : Prop :=
  t.power.last = some (begunRecord k false .supervisor p d s.power.cfg) ∧ t.power.prior = s.power.last

/-- The open epoch keeps its record, but that a PENDING one is FAILED (R167, R168, R169). -/
def State.failsPending (s t : State) : Prop :=
  ∀ e, s.openEpoch = some e →
    t.openEpoch = some { e with status := if e.status = .pending then .failed else e.status }

/-- From HOLDOFF, or SATISFIED with its hold-off running, the supervisor is in its return state; WAITING starts the
boot timer again at part time `d` (R168). -/
def State.returnsAt (d : PartTime) (s t : State) : Prop :=
  t.sup.ret = none ∧ t.sup.holdTimer = none ∧ t.sup.attempts = s.sup.attempts ∧ t.sup.epochs = s.sup.epochs ∧
  (s.sup.ret = some .waiting → t.sup.state = .waiting ∧
    t.sup.bootTimer = some (d + BitVec.ofNat 32 (1000 * s.sup.policy.bootTimeout))) ∧
  (s.sup.ret = some .satisfied → t.sup.state = .satisfied ∧ t.sup.bootTimer = none)

/-- A fall of PG settles at part time `d`: the pin is low, the debounced level high, the settling timer ends then (R140). -/
def State.fallDue (d : PartTime) (s : State) : Prop := s.power.pg = { pin := false, level := true, settling := some d }

/-- The supervisor has stopped: both timers stopped, the return state absent. -/
def State.supStopped (x : SupState) (t : State) : Prop :=
  t.sup.state = x ∧ t.sup.bootTimer = none ∧ t.sup.holdTimer = none ∧ t.sup.ret = none

/-- The escalation record that an expiry at part time `d` leaves, with BOOT pending (R167, R168). -/
def State.escalatedAs (tr : Trigger) (a : SupAction) (o : EscOutcome) (d : PartTime) (s t : State) : Prop :=
  t.sup.lastEsc = some { trigger := tr, action := a, outcome := o, time := d, epoch := s.openNumber } ∧
  Report.boot ∈ t.link.flags

/-- The power action that a RESET or CYCLE of the supervisor begins, and its first phase (R146, R169). -/
def State.supPhase (a : SupAction) (k : ActionKind) (p : Phase) (s : State) : Prop :=
  (a = .reset ∧ k = .reset ∧ p = .resetPulse ∧ s.pgHigh = true) ∨
    (a = .cycle ∧ k = .cycle ∧ (p = .force ∧ s.pgHigh = true ∨ p = .pressOn ∧ s.pgHigh = false))

/-- A RESET or CYCLE of the supervisor begins at part time `d` in phase `p`, with its output ACTIVE (R169). -/
def State.supBegins (tr : Trigger) (a : SupAction) (k : ActionKind) (p : Phase) (d : PartTime) (s t : State) : Prop :=
  t.supStopped .idle ∧ t.sup.attempts = s.sup.attempts + 1 ∧ s.failsPending t ∧ s.escalatedAs tr a .taken d t ∧
  s.supActs k p d t ∧
  (∀ o, phaseOutput p = some o → t.outputCond o = if s.inReset = true then .released else .active) ∧
  (p = .resetPulse → t.power.mask = .pulse ∧ t.power.episode = false ∧ t.usb.connected = false) ∧
  (p ≠ .resetPulse → t.power.mask = s.power.mask ∧ t.power.episode = s.power.episode) ∧
  t.faults = s.faults ∧ t.mem = s.mem

/-- Attempts stand at their limit at an expiry at part time `d`: GIVEN_UP with the BOOT_FAILED fault (R167, R168). -/
def State.givesUp (tr : Trigger) (a : SupAction) (d : PartTime) (s t : State) : Prop :=
  t.supStopped .givenUp ∧ t.sup.attempts = s.sup.attempts ∧ s.failsPending t ∧ s.escalatedAs tr a .givenUp d t ∧
  t.faults.latest = some { kind := .bootFailed s.openNumber a, time := d } ∧ Report.fault ∈ t.link.flags ∧
  t.power = s.power ∧ t.usb = s.usb ∧ t.mem = s.mem

/-- A fetch of the one block `lba` of extent `e` is issued in slot `i`, its line allocated at page `p` (R107, R111,
R113). -/
def State.issuesOne (lba : Nat) (e : Extent) (i : Fin 8) (p : Fin 128) (s t : State) : Prop :=
  t.fetch[i].gen = s.fetch[i].gen ∧
  t.fetch[i].live = some
    { tag := lba / 8, first := lba % 8, object := e.object, offset := e.base + (lba - e.first),
      blocks := [.awaited], issue := s.time, expiry := s.time + BitVec.ofNat 32 s.medCfg.fetchTimeout } ∧
  (∀ j : Fin 8, j ≠ i → t.fetch[j] = s.fetch[j]) ∧
  t.link.notices = s.link.notices ++
    [{ slot := i, gen := s.fetch[i].gen, lba := lba, count := 1, object := e.object,
       offset := e.base + (lba - e.first), issue := s.time }] ∧
  t.block lba = .pending ∧ (∀ b, b ≠ lba → t.block b = s.block b) ∧ t.owners[p] = .line ∧
  (∀ q : Fin 128, q ≠ p → t.owners[q] = s.owners[q]) ∧ t.mem = s.mem ∧ t.usb.dirty = s.usb.dirty

/-- The next block of the WRITE `w` is taken with its data into the line of state `u`; `s` is the state before (R128). -/
def State.takesBlock (w : WriteCmd) (data : List Byte) (s u t : State) : Prop :=
  t.blockData (w.first + w.taken) = data ∧
  t.block (w.first + w.taken) = (match s.block (w.first + w.taken) with
    | .draining => .redirtied
    | .redirtied => .redirtied
    | _ => .dirty) ∧
  (∀ b, b ≠ w.first + w.taken → t.block b = u.block b) ∧
  t.usb.dirty = (if (s.block (w.first + w.taken)).isListed then s.usb.dirty
    else s.usb.dirty ++ [w.first + w.taken]) ∧
  t.usb.drains = s.usb.drains ∧ (t.cache.getLast?.map (·.tag)) = some ((w.first + w.taken) / 8) ∧
  t.usb.current = (if w.taken + 1 = w.count then none
    else some (.write { w with taken := w.taken + 1, stall := none })) ∧
  (w.taken + 1 = w.count → t.usb.lastAnswer = some { kind := .write, status := .good, data := .none })

/-- The rows of a block's slot in a state: whether one of them is not SOUND. -/
def State.inError (lba : Nat) (s : State) : Prop :=
  ∃ l x, s.line (tagOf lba) = some l ∧ x ∈ s.rows ∧ blockRows l lba x.1 = true

/-- The rows of a state after a block's 8 rows are read: those not SOUND are MARKED (R66). -/
def State.rowsRead (lba : Nat) (s : State) : Rows :=
  match s.line (tagOf lba) with
  | some l => s.rows.map fun x => if blockRows l lba x.1 then (x.1, .marked) else x
  | none => s.rows

/-- A listed block turns LOST as its rows are read: its fault, the rows marked, and a waiting SYNC ended (R69, R102,
R136). -/
def State.losesBlock (lba : Nat) (s t : State) : Prop :=
  t.block lba = .lost ∧ t.usb.dirty = s.usb.dirty.filter (· ≠ lba) ∧ t.rows = s.rowsRead lba ∧ t.mem = s.mem ∧
  t.faults.latest = some { kind := .dirtyLost lba, time := s.time } ∧ Report.fault ∈ t.link.flags ∧
  (∀ x, s.usb.current = some (.sync x) → t.usb.current = none ∧
    t.usb.lastAnswer = some { kind := .sync, status := .mediumError, data := .none }) ∧
  ((∀ x, s.usb.current ≠ some (.sync x)) → t.usb.current = s.usb.current)

/-! ## Invariants -/

/-- Buffer memory keeps its canonical form. -/
def State.memOk (s : State) : Prop := Memory.wf s.mem = true

/-- The reply queue with its reservation holds at most 8 (R180). -/
def State.repliesOk (s : State) : Prop := s.slotsUsed ≤ 8

/-- A port's transmit queue holds at most 128 entries (R16) and its window at most 32 bytes (R46). -/
def Port.queuesOk (p : Port) : Prop := p.queue.length ≤ 128 ∧ p.window.length ≤ 32

/-- Every port keeps to R16 and R46. -/
def State.portsOk (s : State) : Prop := ∀ i : PortId, s.ports[i].queuesOk

/-- The epoch table holds at most 8 records, each with at most 31 hits (R53, R158). -/
def State.epochsOk (s : State) : Prop := s.sup.epochs.length ≤ 8 ∧ ∀ e ∈ s.sup.epochs, e.hits.length ≤ 31

/-- At most 8 drains are in flight (R130, R131). -/
def State.drainsOk (s : State) : Prop := s.usb.drains.length ≤ 8

/-- The pages that the four histories hold. -/
def State.historyPages (s : State) : Nat := (s.ports.toList.map fun p => p.pages.length).sum

/-- The premises of R62: pages are FREE, of a history or of a line; the commitments are at most 112; the held lines
are within F. -/
def State.poolOk (s : State) : Prop :=
  s.historyPages + s.cache.length + s.freePages = pageCount ∧ s.committedSum ≤ 112 ∧ s.heldCount ≤ s.floor

/-- A port's record against its committed amount: a quota of at least 1; no more pages than are committed; with no
page nothing is committed and the port is DISABLED; with pages the quota is committed (R1, R4, R6, R22, R59). -/
def Port.quotaOk (p : Port) (committed : Nat) : Prop :=
  1 ≤ p.cfg.quota ∧ p.pages.length ≤ committed ∧ (p.pages = [] → committed = 0 ∧ p.enabled = false) ∧
    (p.pages ≠ [] → committed = p.cfg.quota)

/-- Every console record of a settings image has a quota of at least 1 (R1, R189). -/
def SettingsImage.quotasOk (c : SettingsImage) : Prop := ∀ i : PortId, 1 ≤ c.consoles[i].1.quota

/-- The quotas: every port keeps to its commitment, the commitments are at most 112 (R60), and so will those be that the
image or a save in progress holds. -/
structure State.QuotaInv (s : State) : Prop where
  port  : ∀ i : PortId, s.ports[i].quotaOk s.committed[i]
  sum   : s.committedSum ≤ 112
  image : ∀ c, s.image = .valid c → SettingsImage.quotasOk c
  save  : ∀ j, s.save = some j → SettingsImage.quotasOk j.copy

/-- The pages: no two lines of one tag or one page, no page twice in a history, and the owner of each page is the line or
the history that holds it (R58, R89). -/
structure State.LayoutInv (s : State) : Prop where
  tags  : (s.cache.map (·.tag)).Nodup
  lines : (s.cache.map (·.page)).Nodup
  hists : ∀ i : PortId, (s.ports[i].pages.map (·.page)).Nodup
  line  : ∀ p : Fin 128, s.owners[p] = .line ↔ p ∈ s.cache.map (·.page)
  hist  : ∀ (p : Fin 128) (i : PortId), s.owners[p] = .history i ↔ p ∈ s.ports[i].pages.map (·.page)

/-- The blocks: a drain in flight is of a DRAINING or REDIRTIED block (R131), a block that a live fetch awaits is
PENDING (R111), and no two fetches await one block. -/
structure State.BlockInv (s : State) : Prop where
  drain : ∀ d ∈ s.usb.drains, s.block d.lba = .draining ∨ s.block d.lba = .redirtied
  await : ∀ (i : Fin 8) r, s.fetch[i].live = some r → ∀ b ∈ r.awaitedLbas, s.block b = .pending
  apart : ∀ (i j : Fin 8) r q, s.fetch[i].live = some r → s.fetch[j].live = some q →
    ∀ b ∈ r.awaitedLbas, b ∈ q.awaitedLbas → i = j

/-- The held lines are within F (R92). -/
def State.heldInv (s : State) : Prop := s.heldCount ≤ s.floor

/-- The pool's invariant, which every step keeps; with it the premises of R62 hold, so that no history is ever without
a page. -/
structure State.PoolInv (s : State) : Prop where
  quota  : s.QuotaInv
  layout : s.LayoutInv
  blocks : s.BlockInv
  held   : s.heldInv

/-! ## Safe steps -/

/-- A step does not stop. -/
def State.safe (s : State) : Prop := ∃ t, step s = .next t

end Sys2Proof.Machine
end

