-- ==== Sys2Proof/Certificates/Slice0/Obligations.lean ====
section
/-! DEFINITION. The statements for the provers. Each says which rules of spec/ it rests on in OBLIGATIONS.json. A
statement of a command's next state gives it whole, as the state before with the fields that change: what is not
named is unchanged. -/

open Sys2Proof Sys2Proof.Machine

/-! ## Steps -/

/-- A step with a command at the front of the queue runs it on the state with the queue's rest. With none waiting (the
model's choice, log 1): nothing happens through a part reset; else BREAKs whose duration is over give way to mark, and
the first event due at the present moment waits in the queue; only with none due a millisecond passes, so no running
timer's deadline is passed by. -/
def Obligations.StepRunsFrontCommand : Prop :=
  (∀ (c : Instr) (rest : List Instr) (s : State),
    step { s with pending := c :: rest } = exec c { s with pending := rest }) ∧
  ∀ s : State, s.pending = [] →
    (s.inReset = true → step s = .next s) ∧
    (s.inReset = false →
      (∀ e es, s.endBreaks.dueEvents = e :: es → step s = .next { s.endBreaks with pending := [e] }) ∧
      (s.endBreaks.dueEvents = [] → step s = .next { s.endBreaks with time := s.time + 1 }) ∧
      (s.phaseDue = some s.time ∨ s.sup.holdTimer = some s.time ∨
          (s.sup.state = .waiting ∧ s.sup.bootTimer = some s.time) →
        ∃ e, step s = .next { s.endBreaks with pending := [e] })) ∧
    s.endBreaks = { s with ports := s.endBreaks.ports } ∧
    ∀ i : PortId, s.endBreaks.ports[i] =
      if s.ports[i].sending = some (.brk s.time) then { s.ports[i] with sending := some .mark } else s.ports[i]

/-! ## The management link -/

/-- A poll, and a WRITE while IN_READY is 0, shift out the status byte and change nothing else; the status byte's
bits. The bytes after it: 0x00 in any transaction but a READ, and in a READ the frame and then 0x00. -/
def Obligations.StatusByteIsShiftedOut : Prop :=
  (∀ (op : Byte) (bytes : List Byte) (s : State),
    exec (.statusPoll op) s = .next { s with link := { s.link with statusOut := s.statusByte } } ∧
    exec (.frameIgnored bytes) s = .next { s with link := { s.link with statusOut := s.statusByte } } ∧
    s.statusByte.getLsbD 7 = true ∧ (∀ k, 2 ≤ k → k ≤ 6 → s.statusByte.getLsbD k = false) ∧
    s.statusByte.getLsbD 1 = (!s.inReset && decide (s.link.replies.length + (if s.save.isSome then 1 else 0) < 8)) ∧
    s.statusByte.getLsbD 0 = (!s.inReset && s.outReady)) ∧
  ∀ (op : Byte) (s : State),
    s.byteOut op 0 = s.link.statusOut ∧ (op ≠ 0x52 → ∀ k, s.byteOut op (k + 1) = 0) ∧
    (∀ n, n ≤ s.link.outFrame.length → s.bytesRead n = s.link.outFrame.take n) ∧
    ∀ n, s.link.outFrame.length ≤ n →
      s.bytesRead n = s.link.outFrame ++ List.replicate (n - s.link.outFrame.length) 0

/-- While IN_READY is 1, a frame whose collection ends in a fault, and a good frame of no request kind, are answered and
change nothing else; while it is 0 no frame is taken, whatever it carries. -/
def Obligations.FramesNeedAKindAndRoom : Prop :=
  (∀ s : State, s.inReady = true →
    (∀ (bytes : List Byte) (f : FrameFault), collect bytes = .fault f →
      exec (.badFrame bytes) s = .next (s.answered 0 0 .badFrame [frameFaultCode f] s)) ∧
    ∀ (kind tag : Byte) (payload : List Byte), kind ∉ requestKinds →
      exec (.unknownKind kind tag payload) s = .next (s.answered kind tag .unknownKind [] s)) ∧
  ∀ (c : Instr) (s : State), s.inReady = false →
    ((requestOf c).isSome = true ∨ (∃ bytes, c = .badFrame bytes) ∨ ∃ k t p, c = .unknownKind k t p) →
    exec c s = .next { s with link := { s.link with statusOut := s.statusByte } }

/-- A request whose payload has no length its kind permits is answered BAD_LENGTH; one that names a port above 3, a
marker above 15 or an extent index above 31 is refused BAD_FIELD; nothing else changes. -/
def Obligations.BadRequestsAreRefused : Prop :=
  (∀ (c : Instr) (kind tag : Byte) (payload : List Byte) (s : State),
    requestOf c = some (kind, tag, payload) → permitted kind payload = false → s.inReady = true →
    exec c s = .next (s.answered kind tag .badLength [] s)) ∧
  ∀ (c : Instr) (kind tag : Byte) (payload : List Byte) (s : State),
    requestOf c = some (kind, tag, payload) → permitted kind payload = true → s.inReady = true →
    ((0x10 ≤ kind.toNat ∧ kind.toNat ≤ 0x19 ∧ 3 < (payload.getD 0 0).toNat) ∨
      (0x20 ≤ kind.toNat ∧ kind.toNat ≤ 0x22 ∧ 15 < (payload.getD 0 0).toNat) ∨
      (kind = 0x33 ∧ 31 < (payload.getD 0 0).toNat)) →
    exec c s = .next (s.answered kind tag .badField [] s)

/-- The arbiter's choice at a READ: the empty frame through a part reset; else the oldest reply, the oldest notice, the
first pending report in the order START, FAULT, POWER, BOOT, MEDIA, MARK, CON_LINE and CON_DATA of ports 0 to 3 (its flag
clears, and MARK's count passes into the frame), or the empty frame. At its end a complete read-out removes a held reply
or notice, a cut one leaves it, and of a notice withdrawn meanwhile nothing remains; a cut report is pending again with
MARK's count added back. That a READ ends only once begun is the model's choice (log 12), and so are the layouts of the
snapshots where the rules leave them open (log 15, log 17, log 29, log 34, log 36, log 37, log 44, log 46, log 48, log 49,
log 52, log 53). -/
def Obligations.ReadsChooseByRankAndEndWhole : Prop :=
  (∀ s : State, s.link.held = none →
    (s.inReset = true → exec .readTransaction s = .next { s with link := { s.link with
      statusOut := 0x80, held := some .empty, outFrame := buildFrame 0 0 [] } }) ∧
    (s.inReset = false →
      (∀ r rs, s.link.replies = r :: rs → exec .readTransaction s = .next { s with link := { s.link with
        statusOut := s.statusByte, held := some .reply,
        outFrame := buildFrame r.kind r.tag (statusCode r.status :: r.body) } }) ∧
      (∀ n ns, s.link.replies = [] → s.link.notices = n :: ns →
        exec .readTransaction s = .next { s with link := { s.link with
          statusOut := s.statusByte, held := some (.notice n), outFrame := noticeFrame n } }) ∧
      (∀ before r after, s.link.replies = [] → s.link.notices = [] →
        [.start, .fault, .power, .boot, .media, .mark, .conLine 0, .conLine 1, .conLine 2, .conLine 3, .conData 0,
          .conData 1, .conData 2, .conData 3] = before ++ r :: after →
        (∀ x ∈ before, x ∉ s.link.flags) → r ∈ s.link.flags →
        exec .readTransaction s = .next { s with
          link := { s.link with
            statusOut := s.statusByte, flags := s.link.flags.filter (· ≠ r),
            held := some (.report r (if r = .mark then s.markReg.count else 0)),
            outFrame := buildFrame (reportCode r) 0 (s.encReport r) },
          markReg := if r = .mark then { s.markReg with count := 0 } else s.markReg }) ∧
      (s.link.replies = [] → s.link.notices = [] → s.link.flags = [] →
        exec .readTransaction s = .next { s with link := { s.link with
          statusOut := s.statusByte, held := some .empty, outFrame := buildFrame 0 0 [] } }))) ∧
  ∀ (s : State) (n : Nat),
    (s.link.held = none → exec (.readOutEnd n) s = .next s) ∧
    (s.link.held = some .empty ∨ s.link.held = some .withdrawn → exec (.readOutEnd n) s = .next { s with link := { s.link with held := none } }) ∧
    (∀ r rs, s.link.held = some .reply → s.link.replies = r :: rs →
      exec (.readOutEnd n) s = .next { s with link := { s.link with
        held := none, replies := if s.link.outFrame.length ≤ n then rs else r :: rs } }) ∧
    (∀ m, s.link.held = some (.notice m) →
      exec (.readOutEnd n) s = .next { s with link := { s.link with
        held := none,
        notices := if s.link.outFrame.length ≤ n
          then s.link.notices.filter (fun x => !(decide (x.slot = m.slot) && decide (x.gen = m.gen)))
          else s.link.notices } }) ∧
    ∀ r c, s.link.held = some (.report r c) →
      (s.link.outFrame.length ≤ n →
        exec (.readOutEnd n) s = .next { s with link := { s.link with held := none } }) ∧
      (n < s.link.outFrame.length →
        exec (.readOutEnd n) s = .next { s with
          link := { s.link with
            held := none, flags := if r ∈ s.link.flags then s.link.flags else r :: s.link.flags },
          markReg := { s.markReg with count := min 255 (s.markReg.count + c) } })

/-! ## Resets, start-up and settings -/

/-- A part reset: every block at its value after part reset, but for the image, the pins' own levels, the waiting
commands (the model's queue, log 26) and the cause. The model's own are these: that a reset begun during a reset begins it
anew, its cause the latest (log 28); the values of what the outside last received (log 4) and of what the last start found
(log 6), which no rule gives for a part reset; and that RESET_END with no reset in progress has no effect (log 20). -/
def Obligations.PartResetReturnsDefaults : Prop :=
  ∀ (s : State) (c : ResetCause),
    (c = .powerOn → exec .powerOn s = .next (s.partReset c)) ∧ (c = .pin → exec .pinReset s = .next (s.partReset c)) ∧
    (s.inReset = false → exec .resetEnd s = .next s) ∧
    s.partReset c = { State.reset with
      pending := s.pending, cause := c, image := s.image,
      power := { State.reset.power with
        pg := { pin := s.power.pg.pin, level := false, settling := none },
        rsts := { pin := s.power.rsts.pin, level := true, settling := none } } }

/-- The end of a part reset always completes the start-up sequence: part time 0, the levels sampled, an epoch of cause
PART_START where PG is high, the restore decision, START pending and the link open; a blank or invalid image leaves one
SETTINGS_INVALID fault, and a valid one gives its settings and has its flagged ports enabled in port order, each while its
quota fits in the 112 pages, the others named in START as refused. DEV_RESET is taken as a SOFT part reset with its
start-up at one moment (the model's choice, log 20), and queues no reply. That the ON of a restore holds escalate no is
the model's choice too (log 39). -/
def Obligations.StartUpCompletes : Prop :=
  (∀ (s : State) (c : ResetCause), ∃ t : State,
    exec .resetEnd (s.partReset c) = .next t ∧ t.inReset = false ∧ t.time = 0 ∧ t.cause = c ∧ t.image = s.image ∧
    t.pending = s.pending ∧ Report.start ∈ t.link.flags ∧ t.link.replies = [] ∧
    t.power.pg.level = s.power.pg.pin ∧ t.power.rsts.level = s.power.rsts.pin ∧ t.start.powerOn = s.power.pg.pin ∧
    t.mem = [] ∧ t.rows = [] ∧ t.cache = [] ∧ t.media = State.reset.media ∧
    (s.power.pg.pin = true → t.start.epoch = some 1 ∧ t.sup.counter = 1 ∧ ∃ e : EpochRec,
      t.sup.epochs = [e] ∧ e.number = 1 ∧ e.cause = .partStart ∧ e.start = 0 ∧ e.status = .unsupervised ∧
      e.endCause = none) ∧
    (s.power.pg.pin = false → t.start.epoch = none ∧ t.sup.counter = 0 ∧ t.sup.epochs = []) ∧
    ((s.image = .blank ∨ s.image = .invalid ∨ c ≠ .powerOn ∨ s.power.pg.pin = true) → t.restore = .none) ∧
    (s.image = .blank → t.faults =
      { first := some { kind := .settingsInvalid .blank, time := 0 },
        latest := some { kind := .settingsInvalid .blank, time := 0 }, count := 1 }) ∧
    (s.image = .invalid → t.faults =
      { first := some { kind := .settingsInvalid .crc, time := 0 },
        latest := some { kind := .settingsInvalid .crc, time := 0 }, count := 1 }) ∧
    (∀ g, s.image = .valid g → t.faults = State.reset.faults ∧ t.t0 = g.t0 ∧ t.t1 = g.t1 ∧ t.power.cfg = g.power ∧
      t.sup.policy = g.policy ∧ t.medCfg = g.media ∧ (∀ m : Fin 16, t.markers[m].cfg = g.markers[m]) ∧
      (∀ i : PortId, t.ports[i].cfg = g.consoles[i].1) ∧
      (∀ i : PortId,
        t.ports[i].enabled = (g.consoles[i].2 && decide
          ((((List.finRange 4).filter (· < i)).map fun j => t.committed[j]).sum + g.consoles[i].1.quota ≤ 112)) ∧
        t.committed[i] = (if t.ports[i].enabled = true then g.consoles[i].1.quota else 0) ∧
        t.start.refused.getLsbD i.val = (g.consoles[i].2 && !t.ports[i].enabled) ∧
        t.ports[i].pages.length = if t.ports[i].enabled = true then 1 else 0) ∧
      (c = .powerOn → s.power.pg.pin = false → g.power.restore = .stayOff → t.restore = .none) ∧
      ∀ d, d = BitVec.ofNat 32 (1000 * g.power.restoreDelay) → c = .powerOn → s.power.pg.pin = false →
        g.power.restore = .powerOn →
        (d ≠ 0 → t.restore = .waiting d ∧ t.action = none) ∧
        (d = 0 → t.restore = .requested ∧
          t.power.last = some (begunRecord .on false .restore .pressOn 0 g.power)))) ∧
  ∀ (s : State) (tag : Byte), s.inReady = true →
    ∃ t : State, exec (.devReset tag []) s = .next t ∧ exec .resetEnd (s.partReset .soft) = .next t ∧
      t.cause = .soft ∧ t.link.replies = []

/-- At the deadline of a restore that waits, an ON with requester RESTORE is requested, and the state is REQUESTED
whatever the answer. That a deadline event sets part time is the model's choice (log 2), and so is the escalate field no
of the ON (log 39). -/
def Obligations.RestoreIsRequestedAtItsDeadline : Prop :=
  ∀ (s : State) (d : PartTime), s.restore = .waiting d → s.reaches d = true →
    (s.action.isSome = true → exec .restoreDeadline s = .next { s with time := d, restore := .requested }) ∧
    (s.action = none → s.pgHigh = true → exec .restoreDeadline s = .next (State.setFlag .power { s with
      time := d, restore := .requested,
      power := { s.power with
        prior := s.power.last,
        last := some { kind := .on, escalate := false, requester := .restore, start := d, phase := none,
                       deadline := 0, escalated := false, result := some .already, ended := some d,
                       pressedAt := 0 } } })) ∧
    (s.action = none → s.pgHigh = false → exec .restoreDeadline s = .next (State.updateConnection { s with
      time := d, restore := .requested,
      power := { s.power with
        prior := s.power.last,
        last := some { kind := .on, escalate := false, requester := .restore, start := d, phase := some .pressOn,
                       deadline := d + BitVec.ofNat 32 s.power.cfg.press, escalated := false, result := none,
                       ended := none, pressedAt := d } } }))

/-- SET_SAVE copies the live settings, marks the image invalid and reserves its reply, or is refused BUSY; the save's
end makes the image valid and queues the reply with the CRC-32 (a free value, log 13). That SAVE_END with no save in
progress changes nothing is the model's choice (log 27). -/
def Obligations.SaveRunsToItsReply : Prop :=
  ∀ (s : State) (tag : Byte),
    (s.inReady = true → s.save = none → exec (.setSave tag []) s = .next { s with
      image := .invalid, save := some { copy := s.liveSettings, tag := tag, by_ := s.time + 400 },
      link := { s.link with statusOut := s.statusByte } }) ∧
    (s.inReady = true → s.save ≠ none → exec (.setSave tag []) s = .next (s.answered 0x04 tag .busy [] s)) ∧
    (s.save = none → exec .saveEnd s = .next s) ∧
    ∀ j, s.save = some j → exec .saveEnd s = .next { s with
      image := .valid j.copy, save := none,
      link := { s.link with replies := s.link.replies ++
        [{ kind := 0x04, tag := j.tag, status := .ok, body := num 4 (Config.imageCrc j.copy).toNat }] } }

/-- SET_DEFAULTS: BUSY while an action or a save is in progress; else every port is disabled and every setting takes
its default, a port with pages keeping its committed quota. That the disabled ports stand in the reply as one mask byte,
bit x for port x, is the model's choice (log 52). -/
def Obligations.DefaultsAreRestored : Prop :=
  ∀ (s : State) (tag : Byte), s.inReady = true →
    ((s.action.isSome = true ∨ s.save.isSome = true) →
      exec (.setDefaults tag []) s = .next (s.answered 0x05 tag .busy [] s)) ∧
    (s.action = none → s.save = none → ∃ t : State,
      exec (.setDefaults tag []) s = .next t ∧ t.t0 = identityTable ∧ t.t1 = identityTable ∧
      (∀ m : Fin 16, t.markers[m] = clearedMarker) ∧ t.power = { s.power with cfg := defaultPowerCfg } ∧
      t.sup.policy = defaultBootPolicy ∧ t.sup.attempts = 0 ∧ t.sup.state = .idle ∧ t.medCfg = defaultMedConfig ∧
      (∀ i : PortId, t.ports[i].enabled = false ∧ t.ports[i].pages = s.ports[i].pages ∧
        t.ports[i].w = s.ports[i].w ∧
        t.ports[i].cfg = { defaultConConfig with
          quota := if s.ports[i].pages = [] then defaultConConfig.quota else s.committed[i] }) ∧
      t.mem = s.mem ∧ t.rows = s.rows ∧ t.owners = s.owners ∧ t.committed = s.committed ∧ t.cache = s.cache ∧
      t.fetch = s.fetch ∧ t.media = s.media ∧ t.image = s.image ∧ t.faults = s.faults ∧ t.time = s.time ∧
      t.link.replies = s.link.replies ++
        [{ kind := 0x05, tag := tag, status := .ok, body := num 1 s.enabledMask.toNat }])

/-- The requests that only report change nothing but the link: a reply is queued. And what CON_STATUS, MARK_GET,
XLAT_READ, EPOCH_GET, MED_STATUS and PWR_STATUS answer, with the model's choices: field sizes and order (log 15, log 16),
the newest page's bytes of an empty list (log 31), one progress field (log 35), sense levels and outputs (log 36,
log 37), and what stands under one presence byte, under several or without a count (log 42, log 43, log 45, log 46,
log 48, log 49). The replacement byte that XLAT_READ returns for a SKIP entry is a free value (log 14). -/
def Obligations.QueriesChangeNothing : Prop :=
  (∀ (c : Instr) (kind tag : Byte) (payload : List Byte) (s : State),
    requestOf c = some (kind, tag, payload) →
    kind ∈ ([0x01, 0x02, 0x06, 0x08, 0x15, 0x19, 0x22, 0x24, 0x25, 0x3D, 0x43] : List Byte) →
    permitted kind payload = true → s.inReady = true →
    ∃ (st : Status) (body : List Byte), exec c s = .next (s.answered kind tag st body s)) ∧
  ∀ (s : State) (tag : Byte), s.inReady = true →
    (∀ i : PortId, exec (.conStatus tag [byteOf i.val]) s = .next (s.answered 0x19 tag .ok
      (encConConfig s.ports[i].cfg ++ s.encLine i ++ [if s.committed[i] = 0 then 0 else 1] ++ num 6 s.ports[i].o ++
        num 6 s.ports[i].w ++ num 1 s.ports[i].pages.length ++
        num 2 ((s.ports[i].pages.getLast?.map fun r => s.ports[i].w - r.first).getD 0) ++
        opt 6 (s.ports[i].notify.map (num 6)) ++ [if Report.conData i ∈ s.link.flags then 1 else 0] ++
        [if Report.conLine i ∈ s.link.flags then 1 else 0] ++ num 1 s.ports[i].pages.length ++
        (s.ports[i].pages.map encPage).flatten) s)) ∧
    (∀ m : Fin 16, exec (.markGet tag [byteOf m.val]) s = .next (s.answered 0x22 tag .ok
      (encMarkerCfg s.markers[m].cfg ++ num 2 s.markers[m].hits ++ [if s.markers[m].spent then 1 else 0]) s)) ∧
    (∀ (n start : Byte) (c k : Nat), n.toNat ≤ 1 → c < 65536 → k = min (min 256 c) (256 - start.toNat) →
      exec (.xlatRead tag ([n, start] ++ num 2 c)) s = .next (s.answered 0x24 tag .ok
        ([n, start] ++ num 2 k ++ ((List.range k).map fun j =>
          encXlat s.time (256 * n.toNat + (start.toNat + j))
            ((if n.toNat = 0 then s.t0 else s.t1).toList.getD (start.toNat + j) .skip)).flatten) s)) ∧
    (∀ n, n < 65536 → n ≠ 0 →
      (∀ e, s.sup.epochs.find? (fun e => e.number == n) = some e → exec (.epochGet tag (num 2 n)) s =
        .next (s.answered 0x25 tag .ok (s.encTable ++ encEpoch e) s)) ∧
      ((∀ e ∈ s.sup.epochs, e.number ≠ n) →
        exec (.epochGet tag (num 2 n)) s = .next (s.answered 0x25 tag .notFound s.encTable s))) ∧
    exec (.epochGet tag (num 2 0)) s = .next (s.answered 0x25 tag .badField s.encTable s) ∧
    exec (.medStatus tag []) s = .next (s.answered 0x3D tag .ok
      (num 1 (attachCode s.media.state) ++ opt 4 (s.media.capacity.map (num 4)) ++
        opt 1 (s.media.access.map fun a => num 1 (accessCode a)) ++ num 1 s.extentsInUse ++
        num 1 (connectionCode s.usb.connected) ++ [if s.usb.mediumChanged then 1 else 0] ++
        num 1 s.cache.length ++ num 1 s.heldCount ++ num 1 s.dirtyOrPinnedCount ++ num 1 s.pinnedCount ++ num 1 s.floor ++
        num 2 s.usb.dirty.length ++ num 1 s.usb.drains.length ++ num 2 s.lostCount ++ num 1 s.liveCount ++
        opt 11 (s.usb.current.map encCurrent) ++ [if (stallDue s.usb.current).isSome then 1 else 0] ++
        encMedConfig s.medCfg) s) ∧
    exec (.pwrStatus tag []) s = .next (s.answered 0x43 tag .ok
      ([if s.power.pg.level then 1 else 0] ++ [if s.power.pg.pin then 1 else 0] ++
        [if s.power.pg.level then 1 else 0] ++ [if s.power.rsts.pin then 1 else 0] ++
        [if s.power.rsts.level then 1 else 0] ++ [if s.power.pg.settling.isSome then 1 else 0] ++
        [if s.power.rsts.settling.isSome then 1 else 0] ++ [if s.maskSet then 1 else 0] ++ opt 4 ((tailEnd s.power.mask).map encTime) ++
        [if s.power.episode then 1 else 0] ++ num 2 s.power.extResets ++ s.encOutputs ++
        [if s.action.isSome then 1 else 0] ++ opt 1 (s.phase.map fun p => num 1 (phaseCode p)) ++
        opt 4 (s.phaseDue.map encTime) ++ s.encActions ++ num 1 (restoreCode s.restore) ++
        opt 4 ((restoreDeadline s.restore).map encTime)) s)

/-- What DEV_IDENT, DEV_TIME, FAULT_GET and POOL_STATUS answer, with the model's choices: field sizes and order (log 15),
the fault entry (log 17, log 48), the four ports' values without a count (log 42) and the save state's code (log 47). -/
def Obligations.PartWideReplies : Prop :=
  ∀ (s : State) (tag : Byte), s.inReady = true →
    exec (.devIdent tag []) s = .next (s.answered 0x01 tag .ok
      [0x4E, 0x4D, 0x52, 0xF8, 0x07, 0x41, 4, 128, 16, 32, 8, if s.start.fromImage then 0 else 1,
        if s.save.isSome then 1 else 0] s) ∧
    exec (.devTime tag []) s = .next (s.answered 0x02 tag .ok
      (num 4 s.time.toNat ++ num 1 (match s.cause with | .powerOn => 0 | .pin => 1 | .soft => 2)) s) ∧
    exec (.faultGet tag []) s = .next (s.answered 0x06 tag .ok
      (opt 11 (s.faults.first.map encFaultEntry) ++ opt 11 (s.faults.latest.map encFaultEntry) ++
        num 2 s.faults.count) s) ∧
    exec (.poolStatus tag []) s = .next (s.answered 0x08 tag .ok
      (num 1 (s.owners.toList.count .free) ++ opt 1 (s.lowestFree.map fun p => num 1 p.val) ++
        num 1 s.ports[0].pages.length ++ num 1 s.ports[1].pages.length ++ num 1 s.ports[2].pages.length ++
        num 1 s.ports[3].pages.length ++ num 1 s.committed[0] ++ num 1 s.committed[1] ++ num 1 s.committed[2] ++
        num 1 s.committed[3] ++ num 1 s.committedSum ++ num 1 (128 - s.committedSum) ++ num 1 s.cache.length ++
        num 1 (s.cache.countP (·.held)) ++ num 1 (s.cache.countP (·.dirtyOrPinned)) ++
        num 1 (s.cache.countP (·.pinned)) ++ num 2 (s.rows.countP fun x => decide (x.2 = .marked)) ++
        num 2 s.reclaims) s)

/-- A recorded fault enters LATEST, and FIRST where that is empty, the count rises to at most 65535 and FAULT is
pending; FAULT_CLEAR empties the record and leaves the flag. -/
def Obligations.FaultsAreRecordedAndCleared : Prop :=
  (∀ (s : State) (k : FaultKind),
    (s.recordFault k).faults =
      { first := match s.faults.first with
          | some e => some e
          | none => some { kind := k, time := s.time },
        latest := some { kind := k, time := s.time },
        count := if s.faults.count < 65535 then s.faults.count + 1 else s.faults.count } ∧
    Report.fault ∈ (s.recordFault k).link.flags) ∧
  ∀ (s : State) (tag : Byte), s.inReady = true →
    exec (.faultClear tag []) s = .next (s.answered 0x07 tag .ok []
      { s with faults := { first := none, latest := none, count := 0 } })

/-! ## Console lines -/

/-- CON_CONFIG: the port number, the port's state, the fields, then the committed quota decide; an enumerated field out of
its list is refused, a taken request writes the record with the coded and the clamped fields. -/
def Obligations.ConConfigWritesTheRecord : Prop :=
  ∀ (s : State) (tag : Byte) (payload : List Byte) (r : ConConfigReq), s.inReady = true →
    parseConConfig payload = some r →
    (3 < r.port → exec (.conConfig tag payload) s = .next (s.answered 0x10 tag .badField [] s)) ∧
    ∀ i : PortId, r.port = i.val →
      (s.ports[i].enabled = true →
        exec (.conConfig tag payload) s = .next (s.answered 0x10 tag .wrongState [] s)) ∧
      (s.ports[i].enabled = false →
        1 < r.rateMode ∨ 10 < r.rate ∨ 2 < r.parity ∨ 1 < r.gating ∨ 2 < r.translation ∨ 1 < r.escape →
        exec (.conConfig tag payload) s = .next (s.answered 0x10 tag .badField [] s)) ∧
      ∀ (c : ConConfig) (k : RateIdx), s.ports[i].enabled = false → r.rateMode ≤ 1 → r.rate = k.val →
        r.parity ≤ 2 → r.gating ≤ 1 → r.translation ≤ 2 → r.escape ≤ 1 →
        c = { rateMode := if r.rateMode = 0 then .fixed else .auto, fixedRate := k,
              dataBits := max 7 (min 8 r.dataBits),
              parity := if r.parity = 0 then .none else if r.parity = 1 then .even else .odd,
              stopBits := max 1 (min 2 r.stopBits), gating := decide (r.gating = 1),
              translation := if r.translation = 0 then .none else if r.translation = 1 then .t0 else .t1,
              escape := decide (r.escape = 1), quota := max 1 (min 64 r.quota) } →
        (s.ports[i].pages ≠ [] → c.quota ≠ s.ports[i].cfg.quota →
          exec (.conConfig tag payload) s = .next (s.answered 0x10 tag .wrongState [] s)) ∧
        (s.ports[i].pages = [] ∨ c.quota = s.ports[i].cfg.quota →
          exec (.conConfig tag payload) s = .next (s.answered 0x10 tag .ok (encConConfig c)
            { s with ports := vupd s.ports i fun p => { p with cfg := c } }))

/-- CON_ENABLE: refused for a port above 3 or an ENABLED port; NO_SPACE where the pool does not commit the quota; else
the port is ENABLED, its counts 0, its windows empty, its filter NORMAL and its rate the fixed one or none, with its first
page from the pool if it held none; its queue then begins. -/
def Obligations.ConEnableCommitsAndEnables : Prop :=
  ∀ (s : State) (tag : Byte), s.inReady = true →
    (∀ b : Byte, 3 < b.toNat → exec (.conEnable tag [b]) s = .next (s.answered 0x11 tag .badField [] s)) ∧
    ∀ (i : PortId) (q : Port),
      q = { s.ports[i] with
        enabled := true, lockCount := 0, unlockCount := 0, breakCount := 0, framingCount := 0, parityCount := 0,
        rateState := if s.ports[i].cfg.rateMode = .fixed then .locked s.ports[i].cfg.fixedRate else .hunting,
        rate := if s.ports[i].cfg.rateMode = .fixed then some s.ports[i].cfg.fixedRate else none,
        ivCount := 0, ivMin := 65535, counting := false, cwCount := 0, cwErrors := 0, filter := .normal,
        window := [] } →
      (s.ports[i].enabled = true →
        exec (.conEnable tag [byteOf i.val]) s = .next (s.answered 0x11 tag .wrongState [] s)) ∧
      (s.ports[i].enabled = false → s.ports[i].pages ≠ [] →
        exec (.conEnable tag [byteOf i.val]) s = .next (s.answered 0x11 tag .ok []
          (State.kick i { s with ports := vupd s.ports i fun _ => q }))) ∧
      (s.ports[i].enabled = false → s.ports[i].pages = [] →
        ¬(s.committedSum + s.ports[i].cfg.quota ≤ 112 ∧ s.heldCount + s.ports[i].cfg.quota ≤ s.floor ∧
          s.dirtyOrPinnedCount + s.ports[i].cfg.quota + 4 ≤ s.floor) →
        exec (.conEnable tag [byteOf i.val]) s = .next (s.answered 0x11 tag .noSpace [] s)) ∧
      ∀ pg u, s.ports[i].enabled = false → s.ports[i].pages = [] →
        s.committedSum + s.ports[i].cfg.quota ≤ 112 → s.heldCount + s.ports[i].cfg.quota ≤ s.floor →
        s.dirtyOrPinnedCount + s.ports[i].cfg.quota + 4 ≤ s.floor →
        State.supplyHistory i { s with committed := vupd s.committed i fun _ => s.ports[i].cfg.quota } =
          some (pg, u) →
        exec (.conEnable tag [byteOf i.val]) s = .next (s.answered 0x11 tag .ok []
          (State.kick i { u with ports := vupd u.ports i fun _ =>
            { q with pages := [{ page := pg, first := q.w, firstTime := none, firstEpoch := none }] } }))

/-- CON_DISABLE: the queue, the slot, the notify position, the windows and the rate go; the reports are withdrawn; the
pages, the commitment and the counts stay. -/
def Obligations.ConDisableStopsThePort : Prop :=
  ∀ (s : State) (tag : Byte), s.inReady = true →
    (∀ b : Byte, 3 < b.toNat → exec (.conDisable tag [b]) s = .next (s.answered 0x12 tag .badField [] s)) ∧
    ∀ i : PortId,
      (s.ports[i].enabled = false →
        exec (.conDisable tag [byteOf i.val]) s = .next (s.answered 0x12 tag .wrongState [] s)) ∧
      (s.ports[i].enabled = true → ∃ t : State, exec (.conDisable tag [byteOf i.val]) s = .next t ∧
        t = { s with
          ports := vupd s.ports i fun p =>
            { p with enabled := false, sending := none, queue := [], slot := none, notify := none,
                     rateState := .hunting, rate := none, ivCount := 0, ivMin := 65535, counting := false,
                     cwCount := 0, cwErrors := 0 },
          link := { s.link with
            statusOut := s.statusByte, flags := t.link.flags,
            replies := s.link.replies ++ [{ kind := 0x12, tag := tag, status := .ok, body := [] }] } } ∧
        ∀ r : Report, r ∈ t.link.flags ↔ (r ∈ s.link.flags ∧ r ≠ .conLine i ∧ r ≠ .conData i))

/-- CON_CLEAR: every page the port holds becomes FREE, its quota is no longer committed, its window is emptied, W is
kept and O becomes W. -/
def Obligations.ConClearReturnsThePages : Prop :=
  ∀ (s : State) (tag : Byte), s.inReady = true →
    (∀ b : Byte, 3 < b.toNat → exec (.conClear tag [b]) s = .next (s.answered 0x13 tag .badField [] s)) ∧
    ∀ i : PortId,
      (s.ports[i].enabled = true →
        exec (.conClear tag [byteOf i.val]) s = .next (s.answered 0x13 tag .wrongState [] s)) ∧
      (s.ports[i].enabled = false → s.ports[i].pages = [] →
        exec (.conClear tag [byteOf i.val]) s = .next (s.answered 0x13 tag .ok [] s)) ∧
      (s.ports[i].enabled = false → s.ports[i].pages ≠ [] →
        exec (.conClear tag [byteOf i.val]) s = .next (State.settle s (s.answered 0x13 tag .ok [] { s with
          owners := s.ports[i].pages.foldl (fun o r => vupd o r.page fun _ => .free) s.owners,
          committed := vupd s.committed i fun _ => 0,
          ports := vupd s.ports i fun p => { p with pages := [], window := [] } })) ∧
        Port.o { s.ports[i] with pages := [], window := [] } = s.ports[i].w)

/-- CON_WRITE and CON_BREAK place entries at the tail of the queue: none while the slot is occupied, and no more than
there are free entries. That the reply counts the free entries as they stand before an idle transmitter takes the head
is the model's choice (log 21). -/
def Obligations.WritesJoinTheQueue : Prop :=
  ∀ (s : State) (tag : Byte) (i : PortId), s.inReady = true →
    (∀ data : List Byte, data.length ≤ 1024 →
      (s.ports[i].enabled = false →
        exec (.conWrite tag (byteOf i.val :: data)) s = .next (s.answered 0x17 tag .wrongState [] s)) ∧
      (s.ports[i].enabled = true → s.ports[i].slot ≠ none →
        exec (.conWrite tag (byteOf i.val :: data)) s = .next (s.answered 0x17 tag
          (if data = [] then .ok else .partial_) (num 2 0 ++ num 1 (128 - s.ports[i].queue.length))
          (State.kick i s))) ∧
      (s.ports[i].enabled = true → s.ports[i].slot = none → ∀ k,
        k = min data.length (128 - s.ports[i].queue.length) →
        exec (.conWrite tag (byteOf i.val :: data)) s = .next (s.answered 0x17 tag
          (if k = data.length then .ok else .partial_)
          (num 2 k ++ num 1 (128 - (s.ports[i].queue.length + k)))
          (State.kick i { s with ports := vupd s.ports i fun p =>
            { p with queue := p.queue ++ (data.take k).map .byte } })))) ∧
    ∀ n : Nat, n < 65536 →
      (s.ports[i].enabled = false →
        exec (.conBreak tag (byteOf i.val :: num 2 n)) s = .next (s.answered 0x18 tag .wrongState [] s)) ∧
      (s.ports[i].enabled = true → s.ports[i].slot ≠ none ∨ 128 ≤ s.ports[i].queue.length →
        exec (.conBreak tag (byteOf i.val :: num 2 n)) s = .next (s.answered 0x18 tag .partial_
          ([0] ++ num 2 (max 1 (min 2000 n)) ++ num 1 (128 - s.ports[i].queue.length)) s)) ∧
      (s.ports[i].enabled = true → s.ports[i].slot = none → s.ports[i].queue.length < 128 →
        exec (.conBreak tag (byteOf i.val :: num 2 n)) s = .next (s.answered 0x18 tag .ok
          ([1] ++ num 2 (max 1 (min 2000 n)) ++ num 1 (128 - (s.ports[i].queue.length + 1)))
          (State.kick i { s with ports := vupd s.ports i fun p =>
            { p with queue := p.queue ++ [.brk (max 1 (min 2000 n))] } })))

/-- The transmitter finishes its entry and is idle: where the port frames, the head of the queue leaves it and its
transmission begins, a BREAK's low level to end its duration later, and a waiting text moves whole once the free entries
number its length; else the queue keeps its entries. The low level of a BREAK under transmission lasts its duration:
where part time can reach its end that becomes the part time and the wire is at mark, which the next TRANSMISSION_END
ends; else nothing follows (log 2, log 41). The levels on the wire. -/
def Obligations.TransmissionTakesTheHead : Prop :=
  (∀ (s : State) (i : PortId), (∀ u, s.ports[i].sending ≠ some (.brk u)) →
    (s.framing s.ports[i] = false ∨ s.ports[i].queue = [] →
      exec (.transmissionEnd i) s =
        .next { s with ports := vupd s.ports i fun p => { p with sending := none } }) ∧
    ∀ e rest x, s.framing s.ports[i] = true → s.ports[i].queue = e :: rest →
      ((∃ b, e = .byte b ∧ x = Sending.byte b) ∨ ∃ ms, e = .brk ms ∧ x = .brk (s.time + BitVec.ofNat 32 ms)) →
      (s.ports[i].slot = none → exec (.transmissionEnd i) s =
        .next { s with ports := vupd s.ports i fun p => { p with queue := rest, sending := some x } }) ∧
      ∀ y, s.ports[i].slot = some y →
        (128 - rest.length < y.text.length → exec (.transmissionEnd i) s =
          .next { s with ports := vupd s.ports i fun p => { p with queue := rest, sending := some x } }) ∧
        (y.text.length ≤ 128 - rest.length → exec (.transmissionEnd i) s =
          .next { s with ports := vupd s.ports i fun p =>
            { p with queue := rest ++ y.text.map .byte, sending := some x, slot := none } })) ∧
  ∀ (s : State) (i : PortId),
    (∀ u, s.ports[i].sending = some (.brk u) → s.ports[i].wireLevels = [false] ∧
      (s.reaches u = false → exec (.transmissionEnd i) s = .next s) ∧
      (s.reaches u = true → exec (.transmissionEnd i) s =
        .next { s with time := u, ports := vupd s.ports i fun p => { p with sending := some .mark } })) ∧
    (s.ports[i].sending = none ∨ s.ports[i].sending = some .mark → s.ports[i].wireLevels = [true]) ∧
    ∀ b, s.ports[i].sending = some (.byte b) → s.ports[i].wireLevels =
      [false] ++ ((List.range s.ports[i].cfg.dataBits).map fun k => b.getLsbD k) ++
        parityBit s.ports[i].cfg (if s.ports[i].cfg.dataBits = 7 then b &&& 0x7F else b) ++
        List.replicate s.ports[i].cfg.stopBits true

/-- A character at a port that does not frame, or in error, is captured nowhere: the port's counts and the character
window alone follow it. The 64th character of an AUTO port's window with 8 or more errored unlocks the port and makes
CON_LINE pending. A received break raises the break count and makes CON_LINE pending. -/
def Obligations.ErrorsAndBreaksAreCounted : Prop :=
  (∀ (s : State) (i : PortId) (c : RxChar),
    (s.framing s.ports[i] = false → exec (.characterReceived i c) s = .next s) ∧
    (s.framing s.ports[i] = true → s.ports[i].w < 2 ^ 48 - 1 →
      (c.stop1 = false ∨ (s.ports[i].cfg.stopBits = 2 ∧ c.stop2 = false) →
        exec (.characterReceived i c) s = .next (State.countChar i true { s with ports := vupd s.ports i fun p =>
          { p with framingCount := if p.framingCount < 65535 then p.framingCount + 1 else p.framingCount } })) ∧
      (c.stop1 = true → (s.ports[i].cfg.stopBits = 2 → c.stop2 = true) → parityError s.ports[i].cfg c = true →
        exec (.characterReceived i c) s = .next (State.countChar i true { s with ports := vupd s.ports i fun p =>
          { p with parityCount := if p.parityCount < 65535 then p.parityCount + 1 else p.parityCount } })))) ∧
  (∀ (s : State) (i : PortId) (bad : Bool) (n : Nat), n = s.ports[i].cwErrors + (if bad then 1 else 0) →
    (s.ports[i].cfg.rateMode = .fixed → State.countChar i bad s = s) ∧
    (s.ports[i].cfg.rateMode = .auto → s.ports[i].cwCount < 63 → State.countChar i bad s =
      { s with ports := vupd s.ports i fun p => { p with cwCount := p.cwCount + 1, cwErrors := n } }) ∧
    (s.ports[i].cfg.rateMode = .auto → 63 ≤ s.ports[i].cwCount → n < 8 → State.countChar i bad s =
      { s with ports := vupd s.ports i fun p => { p with cwCount := 0, cwErrors := 0 } }) ∧
    (s.ports[i].cfg.rateMode = .auto → 63 ≤ s.ports[i].cwCount → 8 ≤ n → State.countChar i bad s =
      State.setFlag (.conLine i) { s with ports := vupd s.ports i fun p =>
        { p with cwCount := 0, cwErrors := 0, rateState := .hunting, rate := none,
                 unlockCount := if p.unlockCount < 65535 then p.unlockCount + 1 else p.unlockCount,
                 counting := false, ivCount := 0, ivMin := 65535,
                 sending := match p.sending with
                   | some (.brk _) => none
                   | x => x } })) ∧
  ∀ (s : State) (i : PortId),
    (s.framing s.ports[i] = false → exec (.breakReceived i) s = .next s) ∧
    (s.framing s.ports[i] = true → exec (.breakReceived i) s = .next (State.setFlag (.conLine i)
      { s with ports := vupd s.ports i fun p =>
        { p with breakCount := if p.breakCount < 65535 then p.breakCount + 1 else p.breakCount } }))

/-- A good character at a port whose W is at its top is discarded. Below it the character is written at W: in the newest
page while that has room; below the quota in a page from the pool, which joins the list; else in the port's oldest page,
which becomes its newest. W advances by one, CON_DATA is pending where the notify position is reached, a row whose last
byte is written is SOUND, and nothing else changes. The byte then takes the matcher's path with its position
(HitsAreRecorded says what that does), and the character is counted in the port's window. Where PG did not fall within the
hits, that is all but what a hit gave back to the cache, which is a notice to it; a hold-off of 0 s that expires at the
moment of a PG fall completes that fall (log 50). Without an enabled marker there is neither. -/
def Obligations.GoodCharactersAreCaptured : Prop :=
  ∀ (s : State) (i : PortId) (c : RxChar), s.framing s.ports[i] = true → framingError s.ports[i].cfg c = false →
    parityError s.ports[i].cfg c = false →
    (2 ^ 48 - 1 ≤ s.ports[i].w → exec (.characterReceived i c) s = .next s) ∧
    ∀ (r : PageRec) (u : State) (pg : Fin 128) (off : Nat) (pages : List PageRec),
      s.ports[i].w < 2 ^ 48 - 1 → s.ports[i].pages.getLast? = some r → r.first ≤ s.ports[i].w →
      ((s.ports[i].w < r.first + 4096 ∧ u = s ∧ pg = r.page ∧ off = s.ports[i].w - r.first ∧
          pages = s.ports[i].pages.dropLast ++ [if r.firstTime = none
            then { r with firstTime := some s.time, firstEpoch := some s.openNumber } else r]) ∨
        (r.first + 4096 ≤ s.ports[i].w ∧ s.ports[i].pages.length < s.ports[i].cfg.quota ∧
          s.supplyHistory i = some (pg, u) ∧ off = 0 ∧ pages = s.ports[i].pages ++
            [{ page := pg, first := s.ports[i].w, firstTime := some s.time, firstEpoch := some s.openNumber }]) ∨
        (r.first + 4096 ≤ s.ports[i].w ∧ s.ports[i].cfg.quota ≤ s.ports[i].pages.length ∧ u = s ∧ off = 0 ∧
          ∃ o rest, s.ports[i].pages = o :: rest ∧ pg = o.page ∧ pages = rest ++
            [{ page := pg, first := s.ports[i].w, firstTime := some s.time, firstEpoch := some s.openNumber }])) →
      ∃ t v : State, v = State.countChar i false (State.matchByte i s.ports[i].w (charByte s.ports[i].cfg c) t) ∧
        exec (.characterReceived i c) s = .next (State.settle s (State.closeFall s v)) ∧
        (v.pgHigh = s.pgHigh → exec (.characterReceived i c) s = .next (State.settle s v)) ∧
        ((∀ m : Fin 16, s.markers[m].cfg.enabled = false) → exec (.characterReceived i c) s = .next v) ∧
        t = { s with ports := t.ports, mem := t.mem, rows := t.rows, owners := u.owners, cache := u.cache,
                     reclaims := u.reclaims, link := { s.link with flags := t.link.flags } } ∧
        (∀ j : PortId, j ≠ i → t.ports[j] = s.ports[j]) ∧
        t.ports[i] = { s.ports[i] with
          pages := pages, w := s.ports[i].w + 1,
          notify := s.ports[i].notify.filter fun q => decide (s.ports[i].w + 1 < q) } ∧
        readByte t.mem (4096 * pg.val + off) = charByte s.ports[i].cfg c ∧
        (∀ a, a ≠ 4096 * pg.val + off → readByte t.mem a = readByte s.mem a) ∧
        (∀ q, rowState t.rows q =
          if off % 64 = 63 ∧ q = 64 * pg.val + off / 64 then none else rowState s.rows q) ∧
        ∀ x, x ∈ t.link.flags ↔ x ∈ s.link.flags ∨
          (x = .conData i ∧ ∃ q, s.ports[i].notify = some q ∧ q ≤ s.ports[i].w + 1)

/-- The evaluation of an interval window: a smallest interval below 48 is a glitch; else the nearest table rate, of two
equally far the higher, is accepted within 4 percent. -/
def Obligations.RateIsTheNearestWithinTolerance : Prop :=
  ∀ m : Nat,
    (m < 48 → evaluateWindow m = none) ∧
    (48 ≤ m → ∀ r : RateIdx, evaluateWindow m = some r ↔
      (25 * absDiff (48000000 / m) (baud r) ≤ baud r ∧
        (∀ q : RateIdx, absDiff (48000000 / m) (baud r) ≤ absDiff (48000000 / m) (baud q)) ∧
        ∀ q : RateIdx, absDiff (48000000 / m) (baud q) = absDiff (48000000 / m) (baud r) → baud q ≤ baud r))

/-- An edge of a measuring port: the first starts the counter, another joins the window with its interval (held at
65535), and the 64th brings the evaluation and the move of the rate state. -/
def Obligations.EdgesMoveTheRateState : Prop :=
  (∀ r q : RateIdx,
    rateMove .hunting (some r) = .candidate r ∧ rateMove .hunting none = .hunting ∧
    rateMove (.candidate r) (some r) = .locked r ∧ (q ≠ r → rateMove (.candidate r) (some q) = .candidate q) ∧
    rateMove (.candidate r) none = .hunting) ∧
  ∀ (s : State) (i : PortId) (n : Nat),
    (s.measures s.ports[i] = false → exec (.receiveLineEdge i n) s = .next s) ∧
    (s.measures s.ports[i] = true → s.ports[i].counting = false →
      exec (.receiveLineEdge i n) s = .next { s with ports := vupd s.ports i fun p => { p with counting := true } }) ∧
    (s.measures s.ports[i] = true → s.ports[i].counting = true → s.ports[i].ivCount < 63 →
      exec (.receiveLineEdge i n) s = .next { s with ports := vupd s.ports i fun p =>
        { p with ivCount := p.ivCount + 1, ivMin := min p.ivMin (min 65535 n) } }) ∧
    ∀ st, s.measures s.ports[i] = true → s.ports[i].counting = true → s.ports[i].ivCount = 63 →
      st = rateMove s.ports[i].rateState (evaluateWindow (min s.ports[i].ivMin (min 65535 n))) →
      ((∀ r, st ≠ .locked r) →
        exec (.receiveLineEdge i n) s = .next { s with ports := vupd s.ports i fun p =>
          { p with ivCount := 0, ivMin := 65535, rateState := st } }) ∧
      ∀ r, st = .locked r →
        exec (.receiveLineEdge i n) s = .next (State.kick i (State.setFlag (.conLine i)
          { s with ports := vupd s.ports i fun p =>
            { p with ivCount := 0, ivMin := 65535, rateState := .locked r, rate := some r,
                     lockCount := if p.lockCount < 65535 then p.lockCount + 1 else p.lockCount,
                     cwCount := 0, cwErrors := 0, counting := false } }))

/-! ## Console history -/

/-- CON_READ that touches no row in error: the GAP and FULL_START flags, O, W, the actual start, and the bytes held from
it. One that touches a row not SOUND is DAMAGED: it carries the same and the first damaged position, the least over those
rows of the row's first position or the start; the rows become MARKED and one HISTORY_DAMAGED fault is recorded. The rows
touched, and the byte held at a position. -/
def Obligations.ConReadReturnsTheBytes : Prop :=
  (∀ (p : Port) (start c row : Nat), (p.pages.map (·.page)).Nodup → (touchesRow p start c row = true ↔
    ∃ r ∈ p.pages, r.page.val = row / 64 ∧ 0 < c ∧ r.first + 64 * (row % 64) < start + c ∧
      start < r.first + 64 * (row % 64) + 64)) ∧
  (∀ (s : State) (i : PortId) (q : Nat) older r newer, s.ports[i].pages = older ++ r :: newer →
    (∀ x ∈ older, ¬(x.first ≤ q ∧ q < x.first + 4096)) → r.first ≤ q → q < r.first + 4096 →
    s.historyByte i q = readByte s.mem (4096 * r.page.val + (q - r.first))) ∧
  ∀ (s : State) (tag : Byte) (i : PortId) (q n start c : Nat), s.inReady = true → q < 2 ^ 48 → n < 65536 →
    start = max s.ports[i].o q → c = min (min 1024 n) (s.ports[i].w - start) →
    ((∀ x ∈ s.rows, touchesRow s.ports[i] start c x.1 = false) →
      exec (.conRead tag (byteOf i.val :: num 6 q ++ num 2 n)) s = .next (s.answered 0x14 tag .ok
        ([byteOf (i.val + (if q < s.ports[i].o then 4 else 0) + (if c = 0 then 8 else 0))] ++ num 6 s.ports[i].w ++
          num 3 (s.ports[i].w - s.ports[i].o) ++ num 3 (if c = 0 then 0 else start - s.ports[i].o) ++ [0, 0] ++
          (if c = 0 then num 6 start else (List.range c).map fun k => s.historyByte i (start + k))) s)) ∧
    ∀ x r f, (s.ports[i].pages.map (·.page)).Nodup → x ∈ s.rows → touchesRow s.ports[i] start c x.1 = true →
      r ∈ s.ports[i].pages → r.page.val = x.1 / 64 → start + f = max start (r.first + 64 * (x.1 % 64)) →
      (∀ y ∈ s.rows, touchesRow s.ports[i] start c y.1 = true → ∀ r' ∈ s.ports[i].pages, r'.page.val = y.1 / 64 →
        start + f ≤ max start (r'.first + 64 * (y.1 % 64))) →
      exec (.conRead tag (byteOf i.val :: num 6 q ++ num 2 n)) s = .next (s.answered 0x14 tag .damaged
        ([byteOf (i.val + (if q < s.ports[i].o then 4 else 0))] ++ num 6 s.ports[i].w ++
          num 3 (s.ports[i].w - s.ports[i].o) ++ num 3 (start - s.ports[i].o) ++ num 2 f ++
          (List.range c).map fun k => s.historyByte i (start + k))
        (State.recordFault (.historyDamaged i) { s with
          rows := s.rows.map fun x => if touchesRow s.ports[i] start c x.1 then (x.1, .marked) else x }))

/-- CON_FIND_TIME: EMPTY, BEFORE_ALL, or the newest page whose first time is at most the time asked for. That the page's
first time and first epoch follow only for a page, without presence bytes, is the model's choice (log 16). -/
def Obligations.FindTimeIsTheNewestPage : Prop :=
  ∀ (s : State) (tag : Byte) (t : PartTime), s.inReady = true →
    (∀ b : Byte, 3 < b.toNat →
      exec (.conFindTime tag (b :: num 4 t.toNat)) s = .next (s.answered 0x15 tag .badField [] s)) ∧
    ∀ i : PortId,
      ((∀ r ∈ s.ports[i].pages, r.firstTime = none) →
        exec (.conFindTime tag (byteOf i.val :: num 4 t.toNat)) s = .next (s.answered 0x15 tag .ok
          (num 6 s.ports[i].w ++ [0] ++ num 6 s.ports[i].o ++ num 6 s.ports[i].w) s)) ∧
      ((∃ r ∈ s.ports[i].pages, r.firstTime ≠ none) →
        (∀ r ∈ s.ports[i].pages, ∀ x, r.firstTime = some x → t.toNat < x.toNat) →
        exec (.conFindTime tag (byteOf i.val :: num 4 t.toNat)) s = .next (s.answered 0x15 tag .ok
          (num 6 s.ports[i].o ++ [1] ++ num 6 s.ports[i].o ++ num 6 s.ports[i].w) s)) ∧
      ∀ older r x newer, s.ports[i].pages = older ++ r :: newer → r.firstTime = some x → x.toNat ≤ t.toNat →
        (∀ r' ∈ newer, ∀ y, r'.firstTime = some y → t.toNat < y.toNat) →
        exec (.conFindTime tag (byteOf i.val :: num 4 t.toNat)) s = .next (s.answered 0x15 tag .ok
          (num 6 r.first ++ [2] ++ num 6 s.ports[i].o ++ num 6 s.ports[i].w ++ num 4 x.toNat ++
            num 2 (r.firstEpoch.getD 0)) s)

/-- CON_NOTIFY: refused for a port above 3 or a DISABLED port; at once where W has reached the position, else the
position is set. That the reply codes 'fired at once' 1 and 'set' 0 is the model's choice (log 30). -/
def Obligations.NotifyFiresOrIsSet : Prop :=
  ∀ (s : State) (tag : Byte) (q : Nat), s.inReady = true → q < 2 ^ 48 →
    (∀ b : Byte, 3 < b.toNat →
      exec (.conNotify tag (b :: num 6 q)) s = .next (s.answered 0x16 tag .badField [] s)) ∧
    ∀ i : PortId,
      (s.ports[i].enabled = false →
        exec (.conNotify tag (byteOf i.val :: num 6 q)) s = .next (s.answered 0x16 tag .wrongState [] s)) ∧
      (s.ports[i].enabled = true → q ≤ s.ports[i].w →
        exec (.conNotify tag (byteOf i.val :: num 6 q)) s = .next (s.answered 0x16 tag .ok
          (num 6 s.ports[i].w ++ [1]) (State.setFlag (.conData i)
            { s with ports := vupd s.ports i fun p => { p with notify := none } }))) ∧
      (s.ports[i].enabled = true → s.ports[i].w < q →
        exec (.conNotify tag (byteOf i.val :: num 6 q)) s = .next (s.answered 0x16 tag .ok
          (num 6 s.ports[i].w ++ [0]) { s with ports := vupd s.ports i fun p => { p with notify := some q } }))

/-! ## Ranges, markers, tables -/

/-- MARK_SET writes every field with the hit count 0 and the spent flag no, or is refused just where a field is out of
range; MARK_CLEAR leaves a cleared record. -/
def Obligations.MarkersAreSetAndCleared : Prop :=
  ∀ (s : State) (tag : Byte), s.inReady = true →
    (∀ (payload : List Byte) (r : MarkSetReq) (m : Fin 16), parseMarkSet payload = some r → r.index = m.val →
      ((4 < r.role ∨ 15 < r.mask ∨ 1 < r.enabled ∨ 1 < r.report ∨ 1 < r.once ∨ r.pattern.length = 0 ∨
          32 < r.pattern.length ∨ 32 < r.inject.length ∨ (r.role = 1 ∧ r.inject.length = 0)) →
        exec (.markSet tag payload) s = .next (s.answered 0x20 tag .badField [] s)) ∧
      (¬(4 < r.role ∨ 15 < r.mask ∨ 1 < r.enabled ∨ 1 < r.report ∨ 1 < r.once ∨ r.pattern.length = 0 ∨
          32 < r.pattern.length ∨ 32 < r.inject.length ∨ (r.role = 1 ∧ r.inject.length = 0)) →
        ∃ c : MarkerCfg, exec (.markSet tag payload) s = .next (s.answered 0x20 tag .ok (encMarkerCfg c)
          { s with markers := vupd s.markers m fun _ => { cfg := c, hits := 0, spent := false } }) ∧
          c.pattern = r.pattern ∧ roleCode c.role = r.role ∧ c.mask.toNat = r.mask ∧
          c.enabled = decide (r.enabled = 1) ∧ c.report = decide (r.report = 1) ∧ c.once = decide (r.once = 1) ∧
          c.inject = if r.role = 1 then r.inject else [])) ∧
    ∀ m : Fin 16, exec (.markClear tag [byteOf m.val]) s = .next (s.answered 0x21 tag .ok []
      { s with markers := vupd s.markers m fun _ => clearedMarker })

/-- XLAT_LOAD writes its entries from the start index to the table's end, kind 0 with its byte as REPLACE and kind 1 as
SKIP, and PARTIAL says that some were ignored; a table above 1 or an entry kind above 1 is refused. -/
def Obligations.XlatLoadWritesItsEntries : Prop :=
  (∀ (t : XlatTable) (start : Nat) (es : List XlatEntry) (j : Fin 256),
    (loadTable t start es)[j] =
      if start ≤ j.val then es.getD (j.val - start) t[j] else t[j]) ∧
  ∀ (s : State) (tag : Byte) (payload : List Byte) (n start : Nat) (es : List (Byte × Byte)), s.inReady = true →
    parseXlatLoad payload = some (n, start, es) → es.length ≤ 256 →
    (1 < n ∨ (∃ e ∈ es, 1 < e.1.toNat) →
      exec (.xlatLoad tag payload) s = .next (s.answered 0x23 tag .badField [] s)) ∧
    ∀ xs : List XlatEntry, n ≤ 1 → (∀ e ∈ es, e.1.toNat ≤ 1) →
      xs = es.map (fun e => if e.1.toNat = 0 then .replace e.2 else .skip) →
      exec (.xlatLoad tag payload) s = .next (s.answered 0x23 tag
        (if start + es.length ≤ 256 then .ok else .partial_)
        (num 2 (min es.length (256 - start)) ++ num 2 (start + min es.length (256 - start)))
        { s with t0 := if n = 0 then loadTable s.t0 start xs else s.t0,
                 t1 := if n = 1 then loadTable s.t1 start xs else s.t1 })

/-- The path of a captured byte through the matcher: the escape filter's table, the port's translation table, the
window's newest 32 bytes, and the markers that hit, lowest index first. A hit: the hit count rises, a once marker is
spent, an INJECT text is taken by an empty slot or dropped, the record joins the open epoch's list while it holds fewer
than 31, the MARK register takes a reportable hit, and a hit of role BOOT_OK, PROGRESS or FAULT is handed to the
supervisor, which answers by port, role and state. A hold-off of 0 s expires with its hit; a PG fall due at that very
moment is completed by the command (log 50). -/
def Obligations.HitsAreRecorded : Prop :=
  (∀ b : Byte,
    filterStep .normal b = (if b = 0x1B then (false, .esc) else (true, .normal)) ∧
    filterStep .esc b = (false, if b = 0x5B then .csi else .normal) ∧
    filterStep .csi b = (false, if 0x40 ≤ b.toNat ∧ b.toNat ≤ 0x7E then .normal else .csi)) ∧
  (∀ (s : State) (port : PortId) (pos : Nat) (b : Byte) (passed : Bool) (f : FilterState),
    (passed, f) = (if s.ports[port].cfg.escape = true then filterStep s.ports[port].filter b
      else (true, s.ports[port].filter)) →
    (passed = false ∨ (s.ports[port].cfg.translation = .t0 ∧ s.t0[b.toNat]'b.isLt = .skip) ∨
        (s.ports[port].cfg.translation = .t1 ∧ s.t1[b.toNat]'b.isLt = .skip) →
      State.matchByte port pos b s = { s with ports := vupd s.ports port fun q => { q with filter := f } }) ∧
    ∀ (t : Byte) (w : List Byte), passed = true →
      (s.ports[port].cfg.translation = .none ∧ t = b ∨
        s.ports[port].cfg.translation = .t0 ∧ s.t0[b.toNat]'b.isLt = .replace t ∨
        s.ports[port].cfg.translation = .t1 ∧ s.t1[b.toNat]'b.isLt = .replace t) →
      s.ports[port].window.length ≤ 32 →
      w = (s.ports[port].window ++ [t]).drop (s.ports[port].window.length + 1 - 32) →
      State.matchByte port pos b s =
        ((List.finRange 16).filter fun m => decide (s.markers[m].cfg.enabled = true ∧
          s.markers[m].cfg.mask.getLsbD port.val = true ∧ s.markers[m].cfg.pattern <:+ w ∧
          ¬(s.markers[m].cfg.once = true ∧ s.markers[m].spent = true))).foldl (State.hit port pos)
          { s with ports := vupd s.ports port fun q => { q with filter := f, window := w } }) ∧
  (∀ (s : State) (port : PortId) (pos : Nat) (m : Fin 16) (h : HitRec) (r : Role), s.markers[m].cfg.role = r →
    h = { marker := m, port := port, pos := pos, time := s.time, role := r,
          dropped := decide (r = .inject ∧ s.ports[port].slot ≠ none) } →
    ∃ x : State, State.hit port pos s m =
        (if r = .bootOk ∨ r = .progress ∨ r = .fault then State.supHit r port x else x) ∧
      x.markers[m] = { s.markers[m] with
        hits := if s.markers[m].hits < 65535 then s.markers[m].hits + 1 else s.markers[m].hits,
        spent := s.markers[m].spent || s.markers[m].cfg.once } ∧
      (∀ k : Fin 16, k ≠ m → x.markers[k] = s.markers[k]) ∧
      (∀ e, s.openEpoch = some e → e.hits.length < 31 → x.openEpoch = some { e with hits := e.hits ++ [h] }) ∧
      (∀ e, s.openEpoch = some e → 31 ≤ e.hits.length → x.sup = s.sup) ∧
      (s.openEpoch = none → x.sup = s.sup) ∧
      (s.markers[m].cfg.report = false → x.markReg = s.markReg ∧ x.link = s.link) ∧
      (s.markers[m].cfg.report = true → Report.mark ∈ x.link.flags ∧ x.markReg =
        { newest := some { hit := h, epoch := (s.openEpoch.map (·.number)).getD 0,
                           appended := (s.openEpoch.map fun e => decide (e.hits.length < 31)).getD false },
          count := if s.markReg.count < 255 then s.markReg.count + 1 else s.markReg.count }) ∧
      (r ≠ .inject ∨ s.ports[port].slot ≠ none → x.ports = s.ports) ∧
      (r = .inject → s.ports[port].slot = none →
        (128 - s.ports[port].queue.length < s.markers[m].cfg.inject.length →
          x.ports = (State.kick port { s with ports := vupd s.ports port fun q =>
            { q with slot := some { marker := m, text := s.markers[m].cfg.inject } } }).ports) ∧
        (s.markers[m].cfg.inject.length ≤ 128 - s.ports[port].queue.length →
          x.ports = (State.kick port { s with ports := vupd s.ports port fun q =>
            { q with queue := q.queue ++ s.markers[m].cfg.inject.map .byte } }).ports)) ∧
      x.mem = s.mem ∧ x.power = s.power ∧ x.usb = s.usb ∧ x.media = s.media ∧ x.cache = s.cache ∧
      x.time = s.time ∧ x.faults = s.faults) ∧
  ∀ (s : State) (port : PortId),
    (∀ r, s.sup.policy.watched.getLsbD port.val = false → State.supHit r port s = s) ∧
    (s.sup.policy.watched.getLsbD port.val = true →
      (s.sup.state ≠ .waiting → s.sup.state ≠ .holdoff → State.supHit .bootOk port s = s) ∧
      (s.sup.state ≠ .waiting → State.supHit .progress port s = s) ∧
      (s.sup.state ≠ .waiting → ¬(s.sup.state = .satisfied ∧ s.sup.holdTimer = none) →
        State.supHit .fault port s = s) ∧
      (s.sup.state = .waiting → State.supHit .progress port s = { s with sup := { s.sup with
        bootTimer := some (s.time + BitVec.ofNat 32 (1000 * s.sup.policy.bootTimeout)) } }) ∧
      (s.sup.state = .waiting ∨ s.sup.state = .holdoff → ∃ u : State,
        u = State.setFlag .boot { s with sup := { s.sup with
          epochs := u.sup.epochs, state := .satisfied, attempts := 0, bootTimer := none,
          ret := if s.sup.state = .holdoff then some .satisfied else s.sup.ret } } ∧
        (∀ e, s.openEpoch = some e → u.openEpoch = some { e with status := .ok }) ∧
        (s.sup.policy.eject = false ∨ s.media.state ≠ .presented → State.supHit .bootOk port s = u) ∧
        (s.sup.policy.eject = true → s.media.state = .presented → ∃ t : State,
          State.supHit .bootOk port s = t ∧ t.sup = u.sup ∧ Report.media ∈ t.link.flags ∧
          Report.boot ∈ t.link.flags ∧
          (s.usb.dirty ≠ [] → t.media = { s.media with state := .ejecting }) ∧
          (s.usb.dirty = [] → t.media = State.reset.media ∧ t.cache = []))) ∧
      ∀ (x : ReturnState) (u : State), (s.sup.state = .waiting ∧ x = .waiting) ∨
          (s.sup.state = .satisfied ∧ s.sup.holdTimer = none ∧ x = .satisfied) →
        u = State.setFlag .boot { s with sup := { s.sup with
          state := .holdoff, ret := some x, bootTimer := none,
          holdTimer := some (s.time + BitVec.ofNat 32 (1000 * s.sup.policy.holdOff)) } } →
        (s.sup.policy.holdOff ≠ 0 → State.supHit .fault port s = u) ∧
        (s.sup.policy.holdOff = 0 → exec .holdOffExpiry u = .next (State.closeFall u (State.supHit .fault port s))) ∧
        (s.sup.policy.holdOff = 0 → ¬s.fallDue s.time →
          exec .holdOffExpiry u = .next (State.supHit .fault port s)))

/-! ## Epochs and boot supervision -/

/-- An epoch start: the counter, the superseded record, the new record at the newest place of at most 8, the matcher
cleared, and supervision armed or not. That GIVEN_UP does not arm, as R165 says, also where an expiry of the same moment
has just given up, is the model's choice beside R172 (log 56). -/
def Obligations.EpochsStartWhole : Prop :=
  ∀ (s : State) (c : EpochCause), s.sup.epochs.length ≤ 8 →
    (s.startEpoch c).sup.counter = (if s.sup.counter = 65535 then 1 else s.sup.counter + 1) ∧
    (s.startEpoch c).sup.epochs.length = min 8 (s.sup.epochs.length + 1) ∧
    (s.startEpoch c).openEpoch = some
      { number := (s.startEpoch c).sup.counter, cause := c, start := s.time, starts := vmap s.ports (·.w),
        status := if s.sup.policy.enabled = true ∧ c ≠ .partStart ∧ s.sup.state ≠ .givenUp
          then .pending else .unsupervised,
        attempts := s.sup.attempts, endTime := none, endCause := none, hits := [] } ∧
    (∀ e, s.openEpoch = some e → { e with
      endTime := some s.time, endCause := some .superseded,
      status := if e.status = .pending then .endedUnsettled else e.status } ∈ (s.startEpoch c).sup.epochs) ∧
    (∀ i : PortId, (s.startEpoch c).ports[i] = { s.ports[i] with window := [], filter := .normal }) ∧
    (∀ m : Fin 16, (s.startEpoch c).markers[m] = { s.markers[m] with spent := false }) ∧
    (s.sup.policy.enabled = true → c ≠ .partStart → s.sup.state ≠ .givenUp →
      (s.startEpoch c).sup.state = .waiting ∧
      (s.startEpoch c).sup.bootTimer = some (s.time + BitVec.ofNat 32 (1000 * s.sup.policy.bootTimeout))) ∧
    (¬(s.sup.policy.enabled = true ∧ c ≠ .partStart ∧ s.sup.state ≠ .givenUp) →
      (s.startEpoch c).sup.state = (if s.sup.state = .givenUp then .givenUp else .idle) ∧
      (s.startEpoch c).sup.bootTimer = none) ∧
    (s.startEpoch c).sup.holdTimer = none ∧ (s.startEpoch c).sup.ret = none ∧
    (s.startEpoch c).sup.attempts = s.sup.attempts ∧
    (s.startEpoch c).mem = s.mem ∧ (s.startEpoch c).link = s.link ∧ (s.startEpoch c).power = s.power ∧
    (s.startEpoch c).usb = s.usb ∧ (s.startEpoch c).cache = s.cache ∧ (s.startEpoch c).faults = s.faults

/-- BOOT_POLICY writes the eight fields as clamped or coded, disarms, clears attempts and makes an open PENDING epoch
UNSUPERVISED, or is refused where a field is out of range; BOOT_RELEASE clears attempts and leaves GIVEN_UP. Their replies
end in the supervision snapshot, whose presence bytes are the model's choice (log 44, log 48). -/
def Obligations.PolicyAndRelease : Prop :=
  ∀ (s : State) (tag : Byte), s.inReady = true →
    (∀ (en wa bt ta fa ho ma ej : Nat) (payload : List Byte), en < 256 → wa < 256 → bt < 65536 → ta < 256 →
      fa < 256 → ho < 65536 → ma < 256 → ej < 256 →
      payload = num 1 en ++ num 1 wa ++ num 2 bt ++ num 1 ta ++ num 1 fa ++ num 2 ho ++ num 1 ma ++ num 1 ej →
      ((15 < wa ∨ 2 < ta ∨ 3 < fa ∨ 1 < en ∨ 1 < ej) →
        exec (.bootPolicy tag payload) s = .next (s.answered 0x44 tag .badField [] s)) ∧
      ∀ (p : BootPolicy) (t f : SupAction) (es : List EpochRec), wa ≤ 15 → en ≤ 1 → ej ≤ 1 →
        (ta = 0 ∧ t = .notify ∨ ta = 1 ∧ t = .reset ∨ ta = 2 ∧ t = .cycle) →
        (fa = 0 ∧ f = .notify ∨ fa = 1 ∧ f = .diag ∨ fa = 2 ∧ f = .reset ∨ fa = 3 ∧ f = .cycle) →
        p = { enabled := decide (en = 1), watched := BitVec.ofNat 4 wa, bootTimeout := max 30 (min 7200 bt),
              timeoutAction := t, faultAction := f, holdOff := min 600 ho, maxAttempts := min 7 ma,
              eject := decide (ej = 1) } →
        es = (match s.openEpoch with
          | none => s.sup.epochs
          | some e => s.sup.epochs.dropLast ++
              [{ e with status := if e.status = .pending then .unsupervised else e.status }]) →
        ∀ u, u = { s.sup with
            policy := p, epochs := es, state := .idle, attempts := 0, bootTimer := none, holdTimer := none,
            ret := none } →
          exec (.bootPolicy tag payload) s = .next (s.answered 0x44 tag .ok
            (encPolicy p ++ State.encBoot { s with sup := u }) { s with sup := u })) ∧
    ∀ u, u = { s.sup with attempts := 0, state := if s.sup.state = .givenUp then .idle else s.sup.state } →
      exec (.bootRelease tag []) s = .next (s.answered 0x45 tag .ok (State.encBoot { s with sup := u })
        { s with sup := u })

/-- The boot timer's expiry in WAITING, and the hold-off timer's: NOTIFY, a DIAG, RESET or CYCLE begun or refused, or
given up, each with its escalation record and BOOT pending; an epoch that was PENDING is FAILED at NOTIFY of the boot
timer, at a RESET or CYCLE begun, and at a give-up. At the moment of a PG fall, taken after the expiry, a request finds the
sequencer as the fall left it: DIAG and RESET are skipped, and so is CYCLE in an action's dwell; a CYCLE otherwise begins
in PRESS_ON, the closed epoch FAILED if it was PENDING. That the fall is complete with the command then is the model's
choice (log 50), and so are these: GIVEN_UP after a BOOT_OK with max attempts 0 (log 51); that a request begins although a
LINK action ended ALREADY at the same moment, where R172 says BUSY (log 54); that a RESET begun ends an episode without an
epoch at the moment of the edge that would end it too (log 55); that an expiry of the boot timer outside WAITING changes
nothing (log 27); that part time moves to the deadline (log 2); that one list names the actions of both timers (log 29);
and the escalate field no of an action begun (log 39). -/
def Obligations.TimersEscalate : Prop :=
  ∀ (s : State) (d : PartTime), s.reaches d = true →
    (s.sup.bootTimer = some d → s.sup.state ≠ .waiting → exec .bootTimerExpiry s = .next s) ∧
    (∀ a, s.sup.bootTimer = some d → s.sup.state = .waiting → s.sup.policy.timeoutAction = a →
      (a = .notify → ∃ t : State, exec .bootTimerExpiry s = .next t ∧ t.time = d ∧ t.sup.state = .idle ∧
        t.sup.bootTimer = none ∧ t.sup.attempts = s.sup.attempts ∧ s.failsPending t ∧
        s.escalatedAs .bootTimeout a .taken d t ∧ t.power = s.power ∧ t.faults = s.faults ∧ t.usb = s.usb ∧
        t.mem = s.mem) ∧
      (a = .reset ∨ a = .cycle → s.sup.policy.maxAttempts ≤ s.sup.attempts → ∃ t : State,
        exec .bootTimerExpiry s = .next t ∧ t.time = d ∧ s.givesUp .bootTimeout a d t) ∧
      (a = .reset ∧ (s.action.isSome = true ∨ s.pgHigh = false) ∨ a = .cycle ∧ s.action.isSome = true →
        s.sup.attempts < s.sup.policy.maxAttempts → ¬s.fallDue d →
        exec .bootTimerExpiry s = .next (State.setFlag .boot { s with time := d, sup := { s.sup with
          bootTimer := some (d + BitVec.ofNat 32 (1000 * s.sup.policy.bootTimeout)),
          lastEsc := some { trigger := .bootTimeout, action := a, outcome := .skipped, time := d,
                            epoch := s.openNumber } } })) ∧
      ∀ k p, s.supPhase a k p → s.action = none → s.sup.attempts < s.sup.policy.maxAttempts → ¬s.fallDue d →
        ∃ t : State, exec .bootTimerExpiry s = .next t ∧ t.time = d ∧ s.supBegins .bootTimeout a k p d t) ∧
    (∀ a, s.sup.holdTimer = some d → s.sup.policy.faultAction = a →
      (a = .notify → ∃ t : State, exec .holdOffExpiry s = .next t ∧ t.time = d ∧ s.returnsAt d t ∧
        s.escalatedAs .faultHoldoff a .taken d t ∧ t.power = s.power ∧ t.faults = s.faults ∧ t.usb = s.usb ∧
        t.mem = s.mem) ∧
      (a = .diag → s.action = none → s.pgHigh = true → ¬s.fallDue d → ∃ t : State, exec .holdOffExpiry s = .next t ∧ t.time = d ∧
        s.returnsAt d t ∧ s.escalatedAs .faultHoldoff a .taken d t ∧ s.supActs .diag .diagPulse d t ∧
        t.power.mask = s.power.mask ∧ t.faults = s.faults ∧ t.mem = s.mem) ∧
      (a = .diag ∧ (s.action.isSome = true ∨ s.pgHigh = false) ∨
          s.sup.attempts < s.sup.policy.maxAttempts ∧
            (a = .reset ∧ (s.action.isSome = true ∨ s.pgHigh = false) ∨ a = .cycle ∧ s.action.isSome = true) →
        ¬s.fallDue d → ∃ t : State, exec .holdOffExpiry s = .next t ∧ t.time = d ∧ s.returnsAt d t ∧
          s.escalatedAs .faultHoldoff a .skipped d t ∧ t.power = s.power ∧ t.faults = s.faults ∧ t.usb = s.usb ∧
          t.mem = s.mem) ∧
      (a = .reset ∨ a = .cycle → s.sup.policy.maxAttempts ≤ s.sup.attempts → ∃ t : State,
        exec .holdOffExpiry s = .next t ∧ t.time = d ∧ s.givesUp .faultHoldoff a d t) ∧
      ∀ k p, s.supPhase a k p → s.action = none → s.sup.attempts < s.sup.policy.maxAttempts → ¬s.fallDue d →
        ∃ t : State, exec .holdOffExpiry s = .next t ∧ t.time = d ∧ s.supBegins .faultHoldoff a k p d t) ∧
    ∀ c tr a e (f : State), s.fallDue d → exec .pgFall s = .next f → s.openEpoch = some e →
      (c = .bootTimerExpiry ∧ tr = .bootTimeout ∧ s.sup.bootTimer = some d ∧ s.sup.state = .waiting ∧
          a = s.sup.policy.timeoutAction ∧ a ≠ .diag ∨
        c = .holdOffExpiry ∧ tr = .faultHoldoff ∧ s.sup.holdTimer = some d ∧ s.sup.state ≠ .givenUp ∧
          a = s.sup.policy.faultAction) →
      (a = .diag ∨ s.sup.attempts < s.sup.policy.maxAttempts ∧ (a = .reset ∨ a = .cycle ∧ f.action.isSome = true) →
        exec c s = .next (State.setFlag .boot { f with sup := { f.sup with
          lastEsc := some { trigger := tr, action := a, outcome := .skipped, time := d, epoch := e.number } } })) ∧
      (a = .cycle → f.action = none → s.sup.attempts < s.sup.policy.maxAttempts → ∃ t : State,
        exec c s = .next t ∧ t.time = d ∧ t.supStopped .idle ∧ t.sup.attempts = s.sup.attempts + 1 ∧
        t.sup.lastEsc = some { trigger := tr, action := a, outcome := .taken, time := d, epoch := e.number } ∧
        Report.boot ∈ t.link.flags ∧ f.supActs .cycle .pressOn d t ∧
        (∀ o, phaseOutput .pressOn = some o → t.outputCond o = if s.inReset = true then .released else .active) ∧
        t.sup.epochs.getLast? = some { e with
          endTime := some d, endCause := some (fallCause s.phase),
          status := if e.status = .pending then .failed else e.status } ∧
        t.openEpoch = none ∧ t.power.pg = f.power.pg ∧ t.power.mask = f.power.mask ∧ t.usb.connected = false ∧
        t.ports = f.ports ∧ t.markers = f.markers ∧ t.faults = f.faults ∧ t.mem = s.mem)

/-! ## The attachment, the cache and fetching -/

/-- MED_CONFIG writes the five clamped values together, and the connection follows: a connect sets medium-changed and
empties the sense record, a disconnect drops the command in progress and empties the sense record. -/
def Obligations.MedConfigIsWrittenAndConnects : Prop :=
  (∀ s : State,
    (s.updateConnection).usb.connected = (s.power.pg.level && !s.serverInReset && s.medCfg.portEnable) ∧
    ((s.power.pg.level && !s.serverInReset && s.medCfg.portEnable) = s.usb.connected → s.updateConnection = s) ∧
    ((s.power.pg.level && !s.serverInReset && s.medCfg.portEnable) = true → s.usb.connected = false →
      s.updateConnection =
        { s with usb := { s.usb with connected := true, mediumChanged := true, sense := none } }) ∧
    ((s.power.pg.level && !s.serverInReset && s.medCfg.portEnable) = false → s.usb.connected = true →
      s.updateConnection = { s with usb := { s.usb with connected := false, current := none, sense := none } })) ∧
  ∀ (s : State) (tag : Byte) (payload : List Byte) (r : MedConfigReq), s.inReady = true →
    parseMedConfig payload = some r →
    (1 < r.enable → exec (.medConfig tag payload) s = .next (s.answered 0x30 tag .badField [] s)) ∧
    ∀ c, r.enable ≤ 1 →
      c = { fetchTimeout := max 100 (min 60000 r.fetchTimeout), readAhead := min 7 r.readAhead,
            threshold := max 1 (min 992 r.threshold), syncTimeout := max 1 (min 600 r.syncTimeout),
            portEnable := decide (r.enable = 1) } →
      exec (.medConfig tag payload) s = .next (s.answered 0x30 tag .ok (encMedConfig c)
        (State.updateConnection { s with medCfg := c }))

/-- MED_ATTACH and MED_PRESENT move the attachment, or are refused with nothing changed. -/
def Obligations.AttachAndPresent : Prop :=
  ∀ (s : State) (tag : Byte), s.inReady = true →
    (∀ (n : Nat) (a : Byte), n < 2 ^ 32 →
      (s.media.state ≠ .detached →
        exec (.medAttach tag (num 4 n ++ [a])) s = .next (s.answered 0x31 tag .wrongState [] s)) ∧
      (s.media.state = .detached → n = 0 ∨ 1 < a.toNat →
        exec (.medAttach tag (num 4 n ++ [a])) s = .next (s.answered 0x31 tag .badField [] s)) ∧
      (s.media.state = .detached → 0 < n → a.toNat ≤ 1 →
        exec (.medAttach tag (num 4 n ++ [a])) s = .next (s.answered 0x31 tag .ok (num 4 n ++ [a, 1])
          { s with media := { s.media with
            state := .attached, capacity := some n, access := some (if a.toNat = 0 then .ro else .rw) } }))) ∧
    (s.media.state ≠ .attached →
      exec (.medPresent tag []) s = .next (s.answered 0x34 tag .wrongState [] s)) ∧
    ∀ n a, s.media.state = .attached → s.media.capacity = some n → s.media.access = some a →
      exec (.medPresent tag []) s = .next (s.answered 0x34 tag .ok
        ([2] ++ num 4 n ++ num 1 (accessCode a) ++ num 1 s.extentsInUse)
        { s with media := { s.media with state := .presented }, usb := { s.usb with mediumChanged := true } })

/-- MED_EJECT, dispatched by the state: a soft eject waits in EJECTING for the dirty list or completes at once; a force
eject ends the attachment and records the blocks discarded. -/
def Obligations.EjectsEndTheAttachment : Prop :=
  ∀ (s : State) (tag : Byte), s.inReady = true →
    (∀ b : Byte, 1 < b.toNat ∨ s.media.state = .detached ∨ (s.media.state = .ejecting ∧ b = 0) →
      exec (.medEject tag [b]) s = .next (s.answered 0x35 tag
        (if 1 < b.toNat then .badField else .wrongState) [] s)) ∧
    (s.media.state = .presented → s.usb.dirty ≠ [] → ∃ t : State, exec (.medEject tag [0]) s = .next t ∧
      t.media = { s.media with state := .ejecting } ∧ t.usb.dirty = s.usb.dirty ∧ t.usb.current = none ∧
      t.cache = s.cache ∧ t.fetch = s.fetch ∧ t.mem = s.mem ∧ t.owners = s.owners ∧ t.faults = s.faults ∧
      Report.media ∈ t.link.flags ∧ t.link.replies = s.link.replies ++
        [{ kind := 0x35, tag := tag, status := .ok, body := [3] ++ num 2 s.usb.dirty.length ++ [0, 0] }]) ∧
    ∀ b : Byte, (b = 1 ∧ (s.media.state = .presented ∨ s.media.state = .ejecting)) ∨
        (b.toNat ≤ 1 ∧ s.media.state = .attached) ∨
        (b = 0 ∧ s.media.state = .presented ∧ s.usb.dirty = []) →
      ∃ t : State, exec (.medEject tag [b]) s = .next t ∧ t.media = State.reset.media ∧ t.cache = [] ∧
        t.usb.dirty = [] ∧ t.usb.drains = [] ∧ (∀ i : Fin 8, t.fetch[i].live = none) ∧
        (∀ p : Fin 128, t.owners[p] = if s.owners[p] = .line then .free else s.owners[p]) ∧
        (∀ i : PortId, t.ports[i] = s.ports[i]) ∧ t.mem = s.mem ∧ t.rows = s.rows ∧ t.committed = s.committed ∧
        t.usb.mediumChanged = s.usb.mediumChanged ∧ Report.media ∈ t.link.flags ∧
        (s.media.state ≠ .attached → t.usb.current = none) ∧
        t.faults = (if b = 1 ∧ s.media.state ≠ .attached ∧ s.usb.dirty ≠ []
          then (s.recordFault (.dirtyDiscarded s.usb.dirty.length)).faults else s.faults) ∧
        t.link.replies = s.link.replies ++
          [mkReply 0x35 tag .ok
            ([0, 0, 0] ++ num 2 (if s.media.state = .attached then 0 else s.usb.dirty.length))]

/-- MED_EXTENT_ADD's checks in their order, and the record stored. -/
def Obligations.ExtentAddChecksInOrder : Prop :=
  ∀ (s : State) (tag : Byte) (payload : List Byte) (r : ExtentReq), s.inReady = true →
    parseExtentAdd payload = some r →
    (s.media.state = .detached ∨ s.media.state = .ejecting →
      exec (.medExtentAdd tag payload) s = .next (s.answered 0x32 tag .wrongState [] s)) ∧
    (s.media.state = .attached ∨ s.media.state = .presented →
      31 < r.index ∨ 1 < r.kind ∨ 1 < r.access ∨ r.count = 0 ∨ (r.kind = 0 ∧ r.object = 0) ∨
        s.media.capacity.getD 0 < r.first + r.count ∨ (r.kind = 1 ∧ r.access = 1) ∨
        (r.kind = 0 ∧ 2 ^ 40 - 1 < r.base + r.count - 1) →
      exec (.medExtentAdd tag payload) s = .next (s.answered 0x32 tag .badField [] s)) ∧
    ∀ (i : Fin 32) (e : Extent), s.media.state = .attached ∨ s.media.state = .presented →
      r.index = i.val → r.kind ≤ 1 → r.access ≤ 1 → 0 < r.count → (r.kind = 0 → r.object ≠ 0) →
      r.first + r.count ≤ s.media.capacity.getD 0 → (r.kind = 1 → r.access = 0) →
      (r.kind = 0 → r.base + r.count - 1 ≤ 2 ^ 40 - 1) →
      e = { first := r.first, count := r.count, kind := if r.kind = 0 then .data else .zero,
            access := if r.access = 0 then .ro else .rw, object := if r.kind = 0 then r.object else 0,
            base := if r.kind = 0 then r.base else 0 } →
      (s.media.extents[i] ≠ none →
        exec (.medExtentAdd tag payload) s = .next (s.answered 0x32 tag .wrongState [] s)) ∧
      (s.media.extents[i] = none →
        (∃ x, some x ∈ s.media.extents.toList ∧ x.first < e.first + e.count ∧ e.first < x.first + x.count) →
        exec (.medExtentAdd tag payload) s = .next (s.answered 0x32 tag .overlap [] s)) ∧
      (s.media.extents[i] = none →
        (∀ x, some x ∈ s.media.extents.toList → x.first + x.count ≤ e.first ∨ e.first + e.count ≤ x.first) →
        exec (.medExtentAdd tag payload) s = .next (s.answered 0x32 tag .ok (encExtent i.val e)
          { s with media := { s.media with extents := vupd s.media.extents i fun _ => some e } }))

/-- MED_EXTENT_DEL removes the extent, and its VALID blocks become INVALID; other blocks keep their states. -/
def Obligations.ExtentDelInvalidatesItsBlocks : Prop :=
  ∀ (s : State) (tag : Byte) (i : Fin 32), s.inReady = true →
    (s.media.state ≠ .attached →
      exec (.medExtentDel tag [byteOf i.val]) s = .next (s.answered 0x33 tag .wrongState [] s)) ∧
    (s.media.state = .attached → s.media.extents[i] = none →
      exec (.medExtentDel tag [byteOf i.val]) s = .next (s.answered 0x33 tag .notFound [] s)) ∧
    ∀ e, s.media.state = .attached → s.media.extents[i] = some e →
      (s.extentUnclean e = true →
        exec (.medExtentDel tag [byteOf i.val]) s = .next (s.answered 0x33 tag .dirty [] s)) ∧
      (s.extentUnclean e = false → s.usb.current = none → ∃ t : State,
        exec (.medExtentDel tag [byteOf i.val]) s = .next t ∧ t.media.extents[i] = none ∧
        (∀ j : Fin 32, j ≠ i → t.media.extents[j] = s.media.extents[j]) ∧
        (∀ b, e.covers b = true → s.block b = .valid → t.block b = .invalid) ∧
        (∀ b, e.covers b = false ∨ s.block b ≠ .valid → t.block b = s.block b) ∧
        t.mem = s.mem ∧ t.rows = s.rows ∧ t.fetch = s.fetch ∧ t.usb = s.usb ∧ t.ports = s.ports ∧
        t.link.replies = s.link.replies ++
          [{ kind := 0x33, tag := tag, status := .ok, body := encExtent i.val e }])

/-- MED_PUT's checks in order; a placed block is VALID with the data, in its line present or allocated. -/
def Obligations.PutPlacesABlock : Prop :=
  ∀ (s : State) (tag : Byte) (lba : Nat) (data : List Byte), s.inReady = true → lba < 2 ^ 32 → data.length = 512 →
    (s.media.state ≠ .attached → s.media.state ≠ .presented →
      exec (.medPut tag (num 4 lba ++ data)) s = .next (s.answered 0x38 tag .wrongState [] s)) ∧
    (s.media.state = .attached ∨ s.media.state = .presented →
      (s.dataExtent lba = none →
        exec (.medPut tag (num 4 lba ++ data)) s = .next (s.answered 0x38 tag .badField [] s)) ∧
      (s.dataExtent lba ≠ none → (s.block lba).isUnclean = true →
        exec (.medPut tag (num 4 lba ++ data)) s = .next (s.answered 0x38 tag .dirty [] s)) ∧
      (s.dataExtent lba ≠ none → s.line (lba / 8) = none → s.lowestFree = none → s.victim = none →
        exec (.medPut tag (num 4 lba ++ data)) s = .next (s.answered 0x38 tag .noSpace [] s)) ∧
      ∀ u, s.dataExtent lba ≠ none → (s.block lba).isUnclean = false →
        (s.line (lba / 8) ≠ none ∧ u = s ∨ s.line (lba / 8) = none ∧ s.allocate (lba / 8) = some u) →
        exec (.medPut tag (num 4 lba ++ data)) s = .next (State.settle s (s.answered 0x38 tag .ok
          (num 4 lba ++ num 1 (blockStateCode (s.block lba)) ++ [2] ++
            [if s.line (lba / 8) = none then 1 else 0]) (u.place lba data))) ∧
        (u.place lba data).block lba = .valid ∧ (u.place lba data).blockData lba = data ∧
        (∀ b, b ≠ lba → (u.place lba data).block b = u.block b) ∧
        ∀ l, u.line (lba / 8) = some l → ∀ a,
          a < 4096 * l.page.val + 512 * (lba % 8) ∨ 4096 * l.page.val + 512 * (lba % 8) + 512 ≤ a →
          readByte (u.place lba data).mem a = readByte s.mem a)

/-- MED_PIN and MED_UNPIN: the checks in order, and the pinned field of the line. A pin that would leave more than 8 lines
pinned, more than F less 4 dirty or pinned, or more than F held is refused. That MED_UNPIN's counts are taken
before a paused scan or a stalled WRITE tries again is the model's choice (log 21), and so are the eight block states
without a count (log 42). -/
def Obligations.PinsAreSetAndTaken : Prop :=
  ∀ (s : State) (tag : Byte) (t : Nat), s.inReady = true → t < 2 ^ 32 →
    (s.media.state ≠ .attached → s.media.state ≠ .presented →
      exec (.medPin tag (num 4 t)) s = .next (s.answered 0x39 tag .wrongState [] s)) ∧
    (∀ n a b, s.media.state = .attached ∨ s.media.state = .presented → s.media.capacity = some n →
      a = (if (s.line t).any (·.dirtyOrPinned) = true then 0 else 1) →
      b = (if (s.line t).any (·.held) = true then 0 else 1) →
      ((n - 1) / 8 < t → exec (.medPin tag (num 4 t)) s = .next (s.answered 0x39 tag .badField [] s)) ∧
      (∀ l, t ≤ (n - 1) / 8 → s.line t = some l → l.pinned = true →
        exec (.medPin tag (num 4 t)) s = .next (s.answered 0x39 tag .ok
          (num 4 t ++ [0, 1] ++ s.encStates t ++ s.encCounts ++ num 1 s.floor) s)) ∧
      (t ≤ (n - 1) / 8 → (∀ l, s.line t = some l → l.pinned = false) →
        ¬(s.pinnedCount + 1 ≤ 8 ∧ s.dirtyOrPinnedCount + a + 4 ≤ s.floor ∧ s.heldCount + b ≤ s.floor) →
        exec (.medPin tag (num 4 t)) s = .next (s.answered 0x39 tag .noSpace [] s)) ∧
      (t ≤ (n - 1) / 8 → s.line t = none → s.allocate t = none →
        exec (.medPin tag (num 4 t)) s = .next (s.answered 0x39 tag .noSpace [] s)) ∧
      ∀ u, t ≤ (n - 1) / 8 → (∀ l, s.line t = some l → l.pinned = false) →
        s.pinnedCount + 1 ≤ 8 → s.dirtyOrPinnedCount + a + 4 ≤ s.floor → s.heldCount + b ≤ s.floor →
        (s.line t ≠ none ∧ u = s ∨ s.line t = none ∧ s.allocate t = some u) →
        ∃ v, v = { u with cache := u.cache.map fun l => if l.tag == t then { l with pinned := true } else l } ∧
          exec (.medPin tag (num 4 t)) s = .next (s.answered 0x39 tag .ok
            (num 4 t ++ [if s.line t = none then 1 else 0, 0] ++ v.encStates t ++ v.encCounts ++ num 1 v.floor) v)) ∧
    (536870911 < t → exec (.medUnpin tag (num 4 t)) s = .next (s.answered 0x3A tag .badField [] s)) ∧
    (t ≤ 536870911 → (∀ l, s.line t = some l → l.pinned = false) →
      exec (.medUnpin tag (num 4 t)) s = .next (s.answered 0x3A tag .notFound [] s)) ∧
    ∀ l v, t ≤ 536870911 → s.line t = some l → l.pinned = true →
      v = State.releaseIfEmpty t
        { s with cache := s.cache.map fun l => if l.tag == t then { l with pinned := false } else l } →
      exec (.medUnpin tag (num 4 t)) s = .next (State.settle s (s.answered 0x3A tag .ok
        (num 4 t ++ v.encStates t ++ v.encCounts) v))

/-- MED_FILL's checks in the order of R115; a fill of an AWAITED block makes it VALID with the data and retires the
record with its last. -/
def Obligations.FillsAreCheckedInOrder : Prop :=
  ∀ (s : State) (tag slot gen k : Byte) (data : List Byte), s.inReady = true → data.length = 512 →
    (7 < slot.toNat → exec (.medFill tag ([slot, gen, k] ++ data)) s =
      .next (s.answered 0x36 tag .badField [slot, gen, k, 0, 0] s)) ∧
    ∀ i : Fin 8, slot.toNat = i.val →
      (s.handle i gen = none → exec (.medFill tag ([slot, gen, k] ++ data)) s =
        .next (s.answered 0x36 tag (if 7 < k.toNat then .badField else .late) [slot, gen, k, 0, 0] s)) ∧
      ∀ r, s.handle i gen = some r →
        (7 < k.toNat ∨ r.blocks.length ≤ k.toNat → exec (.medFill tag ([slot, gen, k] ++ data)) s =
          .next (s.answered 0x36 tag .badField ([slot, gen, k] ++ num 1 r.awaited ++ [0]) s)) ∧
        (k.toNat ≤ 7 → r.blocks[k.toNat]? = some .filled → exec (.medFill tag ([slot, gen, k] ++ data)) s =
          .next (s.answered 0x36 tag .duplicate ([slot, gen, k] ++ num 1 r.awaited ++ [0]) s)) ∧
        (k.toNat ≤ 7 → r.blocks[k.toNat]? = some .released → exec (.medFill tag ([slot, gen, k] ++ data)) s =
          .next (s.answered 0x36 tag .superseded ([slot, gen, k] ++ num 1 r.awaited ++ [0]) s)) ∧
        (k.toNat ≤ 7 → r.blocks[k.toNat]? = some .awaited →
          exec (.medFill tag ([slot, gen, k] ++ data)) s = .next (State.settle s (s.answered 0x36 tag .ok
            ([slot, gen, k] ++ num 1 (r.awaited - 1) ++ [if r.awaited = 1 then 1 else 0])
            (s.fill i r k.toNat data))) ∧
          (∀ l, s.line ((8 * r.tag + r.first + k.toNat) / 8) = some l →
            (s.fill i r k.toNat data).block (8 * r.tag + r.first + k.toNat) = .valid ∧
            (s.fill i r k.toNat data).blockData (8 * r.tag + r.first + k.toNat) = data) ∧
          (r.awaited = 1 → (s.fill i r k.toNat data).fetch[i] = { gen := gen + 1, live := none }) ∧
          (r.awaited ≠ 1 → (s.fill i r k.toNat data).fetch[i] =
            { gen := gen, live := some { r with blocks := r.blocks.set k.toNat .filled } }) ∧
          ∀ j : Fin 8, j ≠ i → (s.fill i r k.toNat data).fetch[j] = s.fetch[j])

/-- MED_FILL_FAIL and the expiry of a fetch: every AWAITED block becomes INVALID, the record is retired with its slot's
generation one higher and its unread notice withdrawn, in the queue or held by a READ transaction; a failure sets a
waiting READ's failure point to the lowest block just made INVALID in its range, or leaves an earlier one; an expiry ends
it NOT_READY_RETRY and records FETCH_EXPIRED. -/
def Obligations.FetchesFailAndExpire : Prop :=
  ∀ (s : State) (i : Fin 8),
    (∀ tag slot gen : Byte, s.inReady = true → slot.toNat = i.val → s.handle i gen = none →
      exec (.medFillFail tag [slot, gen]) s = .next (s.answered 0x37 tag .late [] s)) ∧
    (∀ tag slot gen : Byte, s.inReady = true → 7 < slot.toNat →
      exec (.medFillFail tag [slot, gen]) s = .next (s.answered 0x37 tag .badField [] s)) ∧
    (∀ (tag slot gen : Byte) (r : FetchRec), s.inReady = true → slot.toNat = i.val → s.handle i gen = some r →
      exec (.medFillFail tag [slot, gen]) s = .next (State.settle s (s.answered 0x37 tag .ok
        ([slot, gen] ++ num 1 r.awaited) (s.failFetch i r))) ∧
      (s.failFetch i r).fetch[i] = { gen := gen + 1, live := none } ∧
      (∀ b ∈ r.awaitedLbas, (s.failFetch i r).block b = .invalid) ∧ (s.failFetch i r).faults = s.faults ∧
      (s.failFetch i r).mem = s.mem ∧
      (s.failFetch i r).link = { s.link with
        notices := s.link.notices.filter (fun n => !(decide (n.slot = i) && decide (n.gen = gen))),
        held := match s.link.held with
          | some (.notice n) => if n.slot = i ∧ n.gen = gen then some .withdrawn else some (.notice n)
          | h => h } ∧
      ∀ c m, s.usb.current = some (.read c) → m ∈ r.awaitedLbas → c.cursor ≤ m → m < c.first + c.count →
        (∀ b ∈ r.awaitedLbas, c.cursor ≤ b → b < c.first + c.count → m ≤ b) →
        (s.failFetch i r).usb.current = some (.read { c with failure := match c.failure with
          | some q => some (min q m)
          | none => some m })) ∧
    ∀ (r : FetchRec), s.fetch[i].live = some r → s.reaches r.expiry = true → ∃ t : State,
      exec (.fetchExpiry i) s = .next (State.settle s t) ∧ t.time = r.expiry ∧
      t.fetch[i] = { gen := s.fetch[i].gen + 1, live := none } ∧
      (∀ b ∈ r.awaitedLbas, t.block b = .invalid) ∧ t.mem = s.mem ∧
      (∀ n, n ∈ t.link.notices ↔ n ∈ s.link.notices ∧ ¬(n.slot = i ∧ n.gen = s.fetch[i].gen)) ∧
      (∀ n, s.link.held = some (.notice n) →
        t.link.held = if n.slot = i ∧ n.gen = s.fetch[i].gen then some .withdrawn else s.link.held) ∧
      t.faults.latest = some { kind := .fetchExpired i s.fetch[i].gen (8 * r.tag + r.first), time := r.expiry } ∧
      (∀ c, s.usb.current = some (.read c) → waitsOn c r = true → t.usb.current = none ∧
        t.usb.sense = some { kind := .read, status := .notReadyRetry, lba := c.cursor, count := c.cursor - c.first }) ∧
      (∀ c, s.usb.current = some (.read c) → waitsOn c r = false → t.usb.current = s.usb.current)

/-! ## Server commands -/

/-- The dispatch of a medium-touching command: NO_MEDIUM unless PRESENTED, then MEDIUM_CHANGED once; each status other
than GOOD enters the sense record. While DISCONNECTED, or with a command in progress, the port takes none (the model's
choice, log 8). -/
def Obligations.MediumCommandsAreDispatched : Prop :=
  ∀ (s : State) (c : Instr) (k : CmdKind) (lba : Nat),
    (c = .ready ∧ k = .ready ∧ lba = 0 ∨ c = .capacity ∧ k = .capacity ∧ lba = 0 ∨ c = .mode ∧ k = .mode ∧ lba = 0 ∨
      c = .eject ∧ k = .eject ∧ lba = 0 ∨ c = .sync ∧ k = .sync ∧ lba = 0 ∨
      (∃ (a : BitVec 32) (n : Nat), c = .read a n ∧ k = .read ∧ lba = a.toNat) ∨
      (∃ (a : BitVec 32) (n : Nat), c = .write a n ∧ k = .write ∧ lba = a.toNat)) →
    (s.usb.connected = false ∨ s.usb.current ≠ none → exec c s = .next s) ∧
    (s.usb.connected = true → s.usb.current = none → s.media.state ≠ .presented →
      exec c s = .next { s with usb := { s.usb with
        current := none, lastAnswer := some { kind := k, status := .noMedium, data := .none },
        sense := some { kind := k, status := .noMedium, lba := lba, count := 0 } } }) ∧
    (s.usb.connected = true → s.usb.current = none → s.media.state = .presented → s.usb.mediumChanged = true →
      exec c s = .next { s with usb := { s.usb with
        current := none, mediumChanged := false,
        lastAnswer := some { kind := k, status := .mediumChanged, data := .none },
        sense := some { kind := k, status := .mediumChanged, lba := lba, count := 0 } } })

/-- The commands that carry no blocks, once taken: their completion and the data it carries. -/
def Obligations.SimpleCommandsAreAnswered : Prop :=
  ∀ (s : State), s.usb.connected = true → s.usb.current = none →
    exec .inquire s = .next { s with usb := { s.usb with
      lastAnswer := some { kind := .inquire, status := .good,
                           data := .identity "NEMAURE" "SORVEL MEDIA" true } } } ∧
    exec .sense s = .next { s with usb := { s.usb with
      sense := none,
      lastAnswer := some { kind := .sense, status := .good, data := .sense s.usb.sense } } } ∧
    (∀ code, exec (.badCommand code) s = .next { s with usb := { s.usb with
      lastAnswer := some { kind := .other code, status := .badCommand, data := .none },
      sense := some { kind := .other code, status := .badCommand, lba := 0, count := 0 } } }) ∧
    (s.media.state = .presented → s.usb.mediumChanged = false →
      exec .ready s = .next { s with usb := { s.usb with
        lastAnswer := some { kind := .ready, status := .good, data := .none } } } ∧
      (∀ n, s.media.capacity = some n → exec .capacity s = .next { s with usb := { s.usb with
        lastAnswer := some { kind := .capacity, status := .good, data := .capacity n 512 } } }) ∧
      (∀ a, s.media.access = some a → exec .mode s = .next { s with usb := { s.usb with
        lastAnswer := some { kind := .mode, status := .good, data := .mode (decide (a = .ro)) } } }) ∧
      (s.usb.dirty ≠ [] → exec .eject s = .next (State.setFlag .media { s with
        media := { s.media with state := .ejecting },
        usb := { s.usb with lastAnswer := some { kind := .eject, status := .good, data := .none } } })) ∧
      (s.usb.dirty = [] → ∃ t : State, exec .eject s = .next t ∧ t.media = State.reset.media ∧ t.cache = [] ∧
        t.usb.lastAnswer = some { kind := .eject, status := .good, data := .none } ∧ t.usb.sense = s.usb.sense ∧
        t.usb.current = none ∧ Report.media ∈ t.link.flags ∧ t.mem = s.mem ∧ t.ports = s.ports))

/-- READ and WRITE at a medium: the checks on count and capacity, the protection check of a WRITE over its whole range,
and the beginning of a WRITE's intake. -/
def Obligations.TransfersAreChecked : Prop :=
  ∀ (s : State) (a : BitVec 32) (n : Nat), s.usb.connected = true → s.usb.current = none →
    s.media.state = .presented → s.usb.mediumChanged = false →
    (∀ c k, (c = Instr.read a n ∧ k = CmdKind.read) ∨ (c = Instr.write a n ∧ k = CmdKind.write) →
      (n = 0 → exec c s = .next { s with usb := { s.usb with
        lastAnswer := some { kind := k, status := .good, data := .none } } }) ∧
      (256 < n → exec c s = .next { s with usb := { s.usb with
        lastAnswer := some { kind := k, status := .badCommand, data := .none },
        sense := some { kind := k, status := .badCommand, lba := a.toNat, count := 0 } } }) ∧
      (0 < n → n ≤ 256 → s.media.capacity.getD 0 < a.toNat + n → exec c s = .next { s with usb := { s.usb with
        lastAnswer := some { kind := k, status := .outOfRange, data := .none },
        sense := some { kind := k, status := .outOfRange, lba := a.toNat, count := 0 } } })) ∧
    (0 < n → n ≤ 256 → a.toNat + n ≤ s.media.capacity.getD 0 →
      ((∃ k, k < n ∧ s.writable (a.toNat + k) = false) → exec (.write a n) s = .next { s with usb := { s.usb with
        lastAnswer := some { kind := .write, status := .writeProtected, data := .none },
        sense := some { kind := .write, status := .writeProtected, lba := a.toNat, count := 0 } } }) ∧
      ((∀ k, k < n → s.writable (a.toNat + k) = true) → exec (.write a n) s = .next { s with usb := { s.usb with
        current := some (.write { first := a.toNat, count := n, taken := 0, stall := none }) } }) ∧
      ((∀ b, a.toNat ≤ b → b < a.toNat + n → s.dataExtent b = none ∨ s.block b ≠ .invalid) →
        exec (.read a n) s = .next { s with usb := { s.usb with
          current := some (.read { first := a.toNat, count := n, cursor := a.toNat, failure := none,
                                   scan := .complete }) } }))

/-- A READ past its checks begins with a scan pass. A pass that meets one INVALID block whose line is absent, with
read-ahead 0, a FREE page, a free slot and room below F, allocates the line, makes the block PENDING, and makes the fetch
record and its notice; one whose first block is INVALID with no free slot, or with its line absent and no room below F,
issues nothing and leaves the scan PAUSED. The retry: after an event with a notice (a page that became FREE, a line that
stopped being held or dirty-or-pinned, F risen, a fetch slot freed) a PAUSED scan makes a pass; without one, or with no
command that waits, nothing follows. -/
def Obligations.ReadsIssueFetches : Prop :=
  (∀ (s : State) (a : BitVec 32) (n : Nat), s.usb.connected = true → s.usb.current = none →
    s.media.state = .presented → s.usb.mediumChanged = false → 0 < n → n ≤ 256 →
    a.toNat + n ≤ s.media.capacity.getD 0 →
    exec (.read a n) s = .next (State.scanPass { s with usb := { s.usb with
      current := some (.read { first := a.toNat, count := n, cursor := a.toNat, failure := none,
                               scan := .running }) } })) ∧
  (∀ (s : State) (a : BitVec 32) (e : Extent) (i : Fin 8) (p : Fin 128), s.usb.connected = true →
    s.usb.current = none → s.media.state = .presented → s.usb.mediumChanged = false →
    a.toNat + 1 ≤ s.media.capacity.getD 0 → s.dataExtent a.toNat = some e → s.line (a.toNat / 8) = none →
    s.freeSlot = some i → s.lowestFree = some p → s.heldCount + 1 ≤ s.floor → s.medCfg.readAhead = 0 →
    ∃ t : State, exec (.read a 1) s = .next t ∧ s.issuesOne a.toNat e i p t ∧
      t.usb.current = some (.read { first := a.toNat, count := 1, cursor := a.toNat, failure := none,
                                    scan := .complete })) ∧
  (∀ (s : State) (a : BitVec 32) (n : Nat), s.usb.connected = true → s.usb.current = none →
    s.media.state = .presented → s.usb.mediumChanged = false → 0 < n → n ≤ 256 →
    a.toNat + n ≤ s.media.capacity.getD 0 → s.dataExtent a.toNat ≠ none → s.block a.toNat = .invalid →
    s.freeSlot = none ∨ (s.line (a.toNat / 8) = none ∧ s.floor < s.heldCount + 1) →
    exec (.read a n) s = .next { s with usb := { s.usb with
      current := some (.read { first := a.toNat, count := n, cursor := a.toNat, failure := none,
                               scan := .paused }) } }) ∧
  (∀ before s : State, State.noticed before s = true ↔
    (∃ p : Fin 128, s.owners[p] = .free ∧ before.owners[p] ≠ .free) ∨
    (∃ l ∈ before.cache, ∃ x y, before.line l.tag = some x ∧ s.line l.tag = some y ∧
      ((x.held = true ∧ y.held = false) ∨ (x.dirtyOrPinned = true ∧ y.dirtyOrPinned = false))) ∨
    before.floor < s.floor ∨ ∃ i : Fin 8, before.fetch[i].live ≠ none ∧ s.fetch[i].live = none) ∧
  (∀ before s : State,
    (State.noticed before s = false ∨ s.usb.current = none ∨ (∃ d, s.usb.current = some (.sync d)) →
      State.settle before s = s) ∧
    ∀ c, s.usb.current = some (.read c) →
      (c.scan ≠ .paused → State.settle before s = s) ∧
      (c.scan = .paused → State.noticed before s = true → State.settle before s = s.scanPass)) ∧
  ∀ (s : State) (c : ReadCmd) (e : Extent) (i : Fin 8) (p : Fin 128), s.usb.current = some (.read c) →
    c.failure = none → c.cursor + 1 = c.first + c.count → s.dataExtent c.cursor = some e →
    s.line (c.cursor / 8) = none → s.freeSlot = some i → s.lowestFree = some p → s.heldCount + 1 ≤ s.floor →
    s.medCfg.readAhead = 0 →
    s.issuesOne c.cursor e i p s.scanPass ∧
      s.scanPass.usb.current = some (.read { c with scan := .complete })

/-- Delivery of the block at the cursor by its class and state: zeros, the slot's bytes, a wait with a scan pass or
without, or the end of the command. A parity error found in the block's rows marks them; a VALID block becomes INVALID
and the READ goes on with a scan pass, a DIRTY, DRAINING or REDIRTIED one is LOST with its DIRTY_LOST fault and ends the
READ. -/
def Obligations.DeliveryFollowsTheTable : Prop :=
  ∀ (s : State) (c : ReadCmd), s.usb.current = some (.read c) →
    (s.dataExtent c.cursor = none → ∃ t : State, exec .blockDelivery s = .next t ∧
      t.usb.sentBlock = some (c.cursor, List.replicate 512 0) ∧ t.cache = s.cache ∧ t.mem = s.mem ∧
      t.rows = s.rows ∧
      t.usb.current = if c.cursor + 1 = c.first + c.count then none
        else some (.read { c with cursor := c.cursor + 1 })) ∧
    (s.dataExtent c.cursor ≠ none → c.failure = some c.cursor →
      exec .blockDelivery s = .next { s with usb := { s.usb with
        current := none, lastAnswer := some { kind := .read, status := .mediumError, data := .none },
        sense := some { kind := .read, status := .mediumError, lba := c.cursor, count := c.cursor - c.first } } }) ∧
    (s.dataExtent c.cursor ≠ none → c.failure ≠ some c.cursor →
      (s.block c.cursor = .pending → exec .blockDelivery s = .next s) ∧
      (s.block c.cursor = .invalid → exec .blockDelivery s = .next (State.settle s s.scanPass)) ∧
      (s.block c.cursor = .lost → exec .blockDelivery s = .next { s with usb := { s.usb with
        current := none, lastAnswer := some { kind := .read, status := .mediumError, data := .none },
        sense := some { kind := .read, status := .mediumError, lba := c.cursor,
                        count := c.cursor - c.first } } }) ∧
      (s.block c.cursor = .valid ∨ (s.block c.cursor).isListed = true → ¬s.inError c.cursor → ∃ t : State,
        exec .blockDelivery s = .next t ∧ t.usb.sentBlock = some (c.cursor, s.blockData c.cursor) ∧
        t.block c.cursor = s.block c.cursor ∧ t.rows = s.rows ∧
        (t.cache.getLast?.map (·.tag)) = some (c.cursor / 8) ∧ t.mem = s.mem ∧ t.usb.dirty = s.usb.dirty ∧
        (c.cursor + 1 < c.first + c.count →
          t.usb.current = some (.read { c with cursor := c.cursor + 1 })) ∧
        (c.cursor + 1 = c.first + c.count → t.usb.current = none ∧
          t.usb.lastAnswer = some { kind := .read, status := .good, data := .none })) ∧
      (s.block c.cursor = .valid → s.inError c.cursor → ∃ u : State,
        exec .blockDelivery s = .next (State.settle s u.scanPass) ∧ u.block c.cursor = .invalid ∧
        (∀ b, b ≠ c.cursor → u.block b = s.block b) ∧ u.rows = s.rowsRead c.cursor ∧ u.mem = s.mem ∧
        u.usb = s.usb ∧ u.fetch = s.fetch ∧ u.faults = s.faults ∧ u.link = s.link) ∧
      ((s.block c.cursor).isListed = true → s.inError c.cursor →
        s.media.state ≠ .ejecting ∨ s.usb.dirty.filter (· ≠ c.cursor) ≠ [] → ∃ t : State,
        exec .blockDelivery s = .next t ∧ t.block c.cursor = .lost ∧
        (∀ b, b ≠ c.cursor → t.block b = s.block b) ∧ t.rows = s.rowsRead c.cursor ∧ t.mem = s.mem ∧
        t.usb.dirty = s.usb.dirty.filter (· ≠ c.cursor) ∧
        t.usb.drains = s.usb.drains.filter (·.lba ≠ c.cursor) ∧ t.usb.current = none ∧
        t.usb.lastAnswer = some { kind := .read, status := .mediumError, data := .none } ∧
        t.usb.sense = some { kind := .read, status := .mediumError, lba := c.cursor,
                             count := c.cursor - c.first } ∧
        t.faults.latest = some { kind := .dirtyLost c.cursor, time := s.time } ∧
        Report.fault ∈ t.link.flags))

/-- Intake of a WRITE block: taken, with the block's state and the dirty list as the table gives; stalled with its
deadline where its line is not available; tried again after an event with a notice, and taken then if it can be; ended
NOT_READY_RETRY at the deadline. A line is available where it is dirty or pinned, or the dirty-or-pinned lines with it are
at most F less 4 and the held ones at most F, and it is in the directory or can be allocated. -/
def Obligations.WritesAreTakenOrStall : Prop :=
  (∀ (s u : State) (lba : Nat), s.lineForWrite lba = some u ↔
    ((s.line (lba / 8)).any (·.dirtyOrPinned) = true ∨
      (s.dirtyOrPinnedCount + 1 + 4 ≤ s.floor ∧
        s.heldCount + (if (s.line (lba / 8)).any (·.held) = true then 0 else 1) ≤ s.floor)) ∧
    (s.line (lba / 8) ≠ none ∧ u = s ∨ s.line (lba / 8) = none ∧ s.allocate (lba / 8) = some u)) ∧
  ∀ (s : State) (w : WriteCmd) (data : List Byte), s.usb.current = some (.write w) → data.length = 512 →
    (w.stall = none → s.lineForWrite (w.first + w.taken) = none →
      exec (.writeBlock data) s = .next { s with usb := { s.usb with
        current := some (.write { w with
          stall := some { deadline := s.time + BitVec.ofNat 32 s.medCfg.fetchTimeout, data := data } }) } }) ∧
    (∀ st d, w.stall = some st → exec (.writeBlock d) s = .next s) ∧
    (∀ st, w.stall = some st → s.reaches st.deadline = true →
      exec .stallDeadline s = .next { s with time := st.deadline, usb := { s.usb with
        current := none, lastAnswer := some { kind := .write, status := .notReadyRetry, data := .none },
        sense := some { kind := .write, status := .notReadyRetry, lba := w.first + w.taken,
                        count := w.taken } } }) ∧
    (∀ u, w.stall = none → s.lineForWrite (w.first + w.taken) = some u → ∃ t : State,
      exec (.writeBlock data) s = .next t ∧ s.takesBlock w data u t) ∧
    ∀ before st,
      (w.stall = none → State.settle before s = s) ∧
      (w.stall = some st → s.lineForWrite (w.first + w.taken) = none → State.settle before s = s) ∧
      ∀ u, w.stall = some st → st.data = data → s.lineForWrite (w.first + w.taken) = some u →
        State.noticed before s = true → s.takesBlock w data u (State.settle before s)

/-- MED_DRAIN hands over the oldest DIRTY block under the next tag; one whose rows are in error is LOST with its fault, a
waiting SYNC ends MEDIUM_ERROR, and the search goes on. MED_CLEAN with the LBA and live tag confirms a drain: a block
rewritten since is DIRTY in its place and STALE; an OK that empties the list ends a waiting SYNC GOOD while no block is
LOST, and completes a soft eject, as a LOST block does that was the last of the list. A drain that expires leaves its block
DIRTY in its place. That LATE and STALE carry no field after the status is the model's choice (log 16), and so is that a
MED_CLEAN's counts are taken before a stalled WRITE tries again (log 21). -/
def Obligations.DrainsAreConfirmed : Prop :=
  ∀ (s : State) (tag : Byte),
    (s.inReady = true → 8 ≤ s.usb.drains.length → exec (.medDrain tag []) s =
      .next (s.answered 0x3B tag .busy (num 2 s.usb.dirty.length) s)) ∧
    (s.inReady = true → s.usb.drains.length < 8 → (∀ b ∈ s.usb.dirty, s.block b ≠ .dirty) →
      exec (.medDrain tag []) s = .next (s.answered 0x3B tag .notFound (num 2 s.usb.dirty.length) s)) ∧
    (∀ pre b post, s.inReady = true → s.usb.drains.length < 8 → s.usb.dirty = pre ++ b :: post →
      (∀ x ∈ pre, s.block x ≠ .dirty) → s.block b = .dirty →
      (∀ e u, ¬s.inError b → s.dataExtent b = some e →
        u = { State.setBlock b .draining s with usb := { s.usb with
          drains := s.usb.drains ++ [{ lba := b, tag := s.usb.nextTag,
                                       expiry := s.time + BitVec.ofNat 32 s.medCfg.fetchTimeout }],
          nextTag := if s.usb.nextTag = 0xFFFF then 1 else s.usb.nextTag + 1 } } →
        exec (.medDrain tag []) s = .next (s.answered 0x3B tag .ok
          (num 4 b ++ num 2 e.object ++ num 5 (e.base + (b - e.first)) ++ num 2 s.usb.nextTag.toNat ++
            num 4 (s.time + BitVec.ofNat 32 s.medCfg.fetchTimeout).toNat ++ num 2 s.usb.dirty.length ++
            s.blockData b) u) ∧ u.block b = .draining) ∧
      (s.inError b → (∀ x ∈ post, s.block x ≠ .dirty) →
        s.media.state ≠ .ejecting ∨ s.usb.dirty.filter (· ≠ b) ≠ [] → ∃ t : State,
        exec (.medDrain tag []) s = .next t ∧ s.losesBlock b t ∧
        t.usb.drains = s.usb.drains.filter (·.lba ≠ b) ∧
        t.link.replies = s.link.replies ++
          [mkReply 0x3B tag .notFound (num 2 (s.usb.dirty.filter (· ≠ b)).length)]) ∧
      (s.inError b → (∀ x ∈ post, s.block x ≠ .dirty) → s.media.state = .ejecting →
        s.usb.dirty.filter (· ≠ b) = [] → s.usb.current = none → ∃ t : State,
        exec (.medDrain tag []) s = .next t ∧ t.media = State.reset.media ∧ t.cache = [] ∧ t.usb.dirty = [] ∧
        t.usb.drains = [] ∧ (∀ i : Fin 8, t.fetch[i].live = none) ∧
        (∀ p : Fin 128, t.owners[p] = if s.owners[p] = .line then .free else s.owners[p]) ∧
        t.rows = s.rowsRead b ∧ t.mem = s.mem ∧ Report.media ∈ t.link.flags ∧ Report.fault ∈ t.link.flags ∧
        t.faults.latest = some { kind := .dirtyLost b, time := s.time } ∧
        t.link.replies = s.link.replies ++ [mkReply 0x3B tag .notFound (num 2 0)]) ∧
      ∀ mid c rest e, s.inError b → post = mid ++ c :: rest → (∀ x ∈ mid, s.block x ≠ .dirty) → c ≠ b →
        s.block c = .dirty → ¬s.inError c → s.dataExtent c = some e → ∃ t : State,
        exec (.medDrain tag []) s = .next t ∧ s.losesBlock b t ∧ t.block c = .draining ∧
        t.usb.drains = s.usb.drains.filter (·.lba ≠ b) ++
          [{ lba := c, tag := s.usb.nextTag, expiry := s.time + BitVec.ofNat 32 s.medCfg.fetchTimeout }] ∧
        t.link.replies = s.link.replies ++ [mkReply 0x3B tag .ok
          (num 4 c ++ num 2 e.object ++ num 5 (e.base + (c - e.first)) ++ num 2 s.usb.nextTag.toNat ++
            num 4 (s.time + BitVec.ofNat 32 s.medCfg.fetchTimeout).toNat ++
            num 2 (s.usb.dirty.filter (· ≠ b)).length ++ s.blockData c)]) ∧
    (∀ lba dt, s.inReady = true → lba < 2 ^ 32 → dt < 65536 →
      (∀ d ∈ s.usb.drains, d.lba ≠ lba ∨ d.tag.toNat ≠ dt) →
      exec (.medClean tag (num 4 lba ++ num 2 dt)) s = .next (s.answered 0x3C tag .late [] s)) ∧
    (∀ d, s.inReady = true → d ∈ s.usb.drains → d.lba < 2 ^ 32 → s.block d.lba = .redirtied →
      exec (.medClean tag (num 4 d.lba ++ num 2 d.tag.toNat)) s = .next (State.settle s (s.answered 0x3C tag .stale
        [] { State.setBlock d.lba .dirty s with
          usb := { s.usb with drains := s.usb.drains.filter (·.lba ≠ d.lba) } }))) ∧
    (∀ d u body, s.inReady = true → d ∈ s.usb.drains → d.lba < 2 ^ 32 → s.block d.lba = .draining →
      u = { State.setBlock d.lba .valid s with usb := { s.usb with
        drains := s.usb.drains.filter (·.lba ≠ d.lba), dirty := s.usb.dirty.filter (· ≠ d.lba) } } →
      body = num 4 d.lba ++ [2] ++ num 1 u.usb.drains.length ++ num 2 u.usb.dirty.length →
      (u.usb.dirty ≠ [] ∨
          (s.media.state ≠ .ejecting ∧ (0 < u.lostCount ∨ ∀ x, s.usb.current ≠ some (.sync x))) →
        exec (.medClean tag (num 4 d.lba ++ num 2 d.tag.toNat)) s =
          .next (State.settle s (s.answered 0x3C tag .ok body u))) ∧
      (∀ x, u.usb.dirty = [] → s.media.state ≠ .ejecting → u.lostCount = 0 → s.usb.current = some (.sync x) →
        exec (.medClean tag (num 4 d.lba ++ num 2 d.tag.toNat)) s = .next (s.answered 0x3C tag .ok body
          { u with usb := { u.usb with
            current := none, lastAnswer := some { kind := .sync, status := .good, data := .none } } })) ∧
      (u.usb.dirty = [] → s.media.state = .ejecting → s.usb.current = none → ∃ t : State,
        exec (.medClean tag (num 4 d.lba ++ num 2 d.tag.toNat)) s = .next (s.answered 0x3C tag .ok
          (num 4 d.lba ++ [0, 0, 0, 0]) t) ∧ t.media = State.reset.media ∧ t.cache = [] ∧ t.usb.dirty = [] ∧
        t.usb.drains = [] ∧ (∀ i : Fin 8, t.fetch[i].live = none) ∧
        (∀ p : Fin 128, t.owners[p] = if s.owners[p] = .line then .free else s.owners[p]) ∧
        Report.media ∈ t.link.flags ∧ t.faults = s.faults ∧ t.mem = s.mem ∧ t.rows = s.rows)) ∧
    ∀ d, s.usb.drains.find? (fun x => x.tag == d.tag) = some d → s.reaches d.expiry = true →
      exec (.drainExpiry d.tag) s = .next { State.setBlock d.lba .dirty s with
        time := d.expiry, usb := { s.usb with drains := s.usb.drains.filter (·.lba ≠ d.lba) } }

/-- SYNC answers at once with a LOST block or an empty list, and else waits with MEDIA pending; its deadline ends it
NOT_READY_RETRY (DrainsAreConfirmed says how a clean or a LOST block ends it). A USB reset is a disconnect and a connect;
that one while DISCONNECTED changes nothing is the model's choice (log 27). -/
def Obligations.SyncWaitsForTheList : Prop :=
  ∀ (s : State),
    (s.usb.connected = true → s.usb.current = none → s.media.state = .presented → s.usb.mediumChanged = false →
      (0 < s.lostCount → exec .sync s = .next { s with usb := { s.usb with
        lastAnswer := some { kind := .sync, status := .mediumError, data := .none },
        sense := some { kind := .sync, status := .mediumError, lba := 0, count := 0 } } }) ∧
      (s.lostCount = 0 → s.usb.dirty = [] → exec .sync s = .next { s with usb := { s.usb with
        lastAnswer := some { kind := .sync, status := .good, data := .none } } }) ∧
      (s.lostCount = 0 → s.usb.dirty ≠ [] → exec .sync s = .next (State.setFlag .media { s with usb := { s.usb with
        current := some (.sync (s.time + BitVec.ofNat 32 (1000 * s.medCfg.syncTimeout))) } }))) ∧
    (∀ d, s.usb.current = some (.sync d) → s.reaches d = true →
      exec .syncDeadline s = .next { s with time := d, usb := { s.usb with
        current := none, lastAnswer := some { kind := .sync, status := .notReadyRetry, data := .none },
        sense := some { kind := .sync, status := .notReadyRetry, lba := 0, count := 0 } } }) ∧
    (s.usb.connected = true → exec .usbReset s = .next { s with usb := { s.usb with
      current := none, sense := none, mediumChanged := true } }) ∧
    (s.usb.connected = false → exec .usbReset s = .next s)

/-! ## Power -/

/-- PWR_CONFIG is refused BUSY in an action and BAD_FIELD for an enumeration out of range, and else writes the clamped
settings and drives the outputs anew at their rest levels; PWR_ABORT is refused with no action in progress, and else ends
the action ABORTED. That the three levels and the three rest modes come in the order POWER, RESET, DIAG is the model's
choice (log 29). -/
def Obligations.PowerIsConfiguredAndAborted : Prop :=
  ∀ (s : State) (tag : Byte), s.inReady = true →
    (∀ payload r, parsePwrConfig payload = some r →
      (s.action.isSome = true → exec (.pwrConfig tag payload) s = .next (s.answered 0x40 tag .busy [] s)) ∧
      (s.action = none → (∃ x ∈ r.levels ++ r.rests ++ [r.policy], 1 < x) →
        exec (.pwrConfig tag payload) s = .next (s.answered 0x40 tag .badField [] s)) ∧
      ∀ (c : PowerCfg) (d : Nat → Nat) (o : Nat → OutputCfg), s.action = none →
        (∀ x ∈ r.levels ++ r.rests ++ [r.policy], x ≤ 1) → (∀ k, d k = r.durations.getD k 0) →
        (∀ k, o k = { active := if r.levels.getD k 0 = 0 then .low else .high,
                      rest := if r.rests.getD k 0 = 0 then .release else .driveInactive }) →
        c = { debounce := max 1 (min 255 (d 0)), press := max 50 (min 2000 (d 1)),
              onWait := max 500 (min 30000 (d 2)), softOff := max 5 (min 1800 (d 3)),
              maxHold := max 4000 (min 15000 (d 4)), resetPulse := max 20 (min 2000 (d 5)),
              diagPulse := max 20 (min 2000 (d 6)), dwell := max 1000 (min 60000 (d 7)),
              powerOut := o 0, resetOut := o 1, diagOut := o 2,
              restore := if r.policy = 0 then .stayOff else .powerOn, restoreDelay := min 255 r.delay } →
        ∃ t : State, exec (.pwrConfig tag payload) s = .next t ∧
          t = s.answered 0x40 tag .ok (encPowerCfg c) { s with power := { s.power with cfg := c } } ∧
          ∀ x : Output, t.outputLevel x = (match (outputCfg c x).rest, (outputCfg c x).active with
            | .release, _ => none
            | .driveInactive, .low => some true
            | .driveInactive, .high => some false)) ∧
    (s.action = none → exec (.pwrAbort tag []) s = .next (s.answered 0x42 tag .wrongState [] s)) ∧
    ∀ a p, s.power.last = some a → a.phase = some p → ∃ t : State, exec (.pwrAbort tag []) s = .next t ∧
      t.power.last = some { a with phase := none, result := some .aborted, ended := some s.time } ∧
      t.action = none ∧ Report.power ∈ t.link.flags ∧ t.power.pg = s.power.pg ∧ t.power.prior = s.power.prior ∧
      (p ≠ .resetPulse → t.power.mask = s.power.mask ∧ t.sup = s.sup) ∧
      (p = .resetPulse → t.power.mask = .tail (s.time + BitVec.ofNat 32 s.power.cfg.debounce) ∧
        (s.power.pg.level = true → (t.openEpoch.map (·.cause)) = some .resetAction) ∧
        (s.power.pg.level = false → t.sup = s.sup)) ∧
      t.faults = s.faults ∧ t.mem = s.mem ∧ t.restore = s.restore ∧
      t.link.replies = s.link.replies ++
        [mkReply 0x42 tag .ok (num 1 (actionCode a.kind) ++ num 1 (requesterCode a.requester) ++ num 1 (phaseCode p))]

/-- PWR_ACTION: BAD_FIELD for a kind or an escalate field out of range, BUSY during an action, WRONG_STATE for a RESET or
DIAG of a server that is off; an OFF_HARD preempts any action but another OFF_HARD; else LAST becomes the action, at the
first phase of its kind in the power state or ended ALREADY, PRIOR what LAST was, and an accepted action clears the
supervisor's attempts and a restore that waits. -/
def Obligations.PowerActionsFollowTheTable : Prop :=
  (∀ (s : State) (tag k e : Byte), s.inReady = true → 1 < e.toNat → exec (.pwrAction tag [k, e]) s =
    .next (s.answered 0x41 tag .badField [k, if s.power.pg.level then 1 else 0] s)) ∧
  ∀ (s : State) (tag : Byte) (e : Byte), s.inReady = true → e.toNat ≤ 1 →
    (∀ k : Byte, 5 < k.toNat → exec (.pwrAction tag [k, e]) s = .next (s.answered 0x41 tag .badField
      [k, if s.power.pg.level then 1 else 0] s)) ∧
    (∀ k : Byte, k = 0 ∨ k = 1 ∨ k = 3 ∨ k = 4 ∨ k = 5 → s.action.isSome = true →
      exec (.pwrAction tag [k, e]) s = .next (s.answered 0x41 tag .busy
        [k, if s.power.pg.level then 1 else 0] s)) ∧
    (∀ k : Byte, k = 3 ∨ k = 4 → s.action = none → s.power.pg.level = false →
      exec (.pwrAction tag [k, e]) s = .next (s.answered 0x41 tag .wrongState [k, 0] s)) ∧
    (∀ a, s.action = some a → a.kind = .offHard →
      exec (.pwrAction tag [2, e]) s = .next (s.answered 0x41 tag .busy
        [2, if s.power.pg.level then 1 else 0] s)) ∧
    (∀ a p, s.power.last = some a → a.phase = some p → a.kind ≠ .offHard → ∃ t : State,
      exec (.pwrAction tag [2, e]) s = .next t ∧
      t.power.prior = some { a with phase := none, result := some .aborted, ended := some s.time } ∧
      t.power.last = some (if s.power.pg.level = true
        then { kind := .offHard, escalate := decide (e.toNat = 1), requester := .link, start := s.time,
               phase := some .force, deadline := s.time + BitVec.ofNat 32 s.power.cfg.maxHold, escalated := false,
               result := none, ended := none, pressedAt := 0 }
        else { kind := .offHard, escalate := decide (e.toNat = 1), requester := .link, start := s.time,
               phase := none, deadline := 0, escalated := false, result := some .already, ended := some s.time,
               pressedAt := 0 }) ∧
      (p = .resetPulse → t.power.mask = .tail (s.time + BitVec.ofNat 32 s.power.cfg.debounce) ∧
        (s.power.pg.level = true → (t.openEpoch.map (·.cause)) = some .resetAction)) ∧
      (p ≠ .resetPulse → t.power.mask = s.power.mask ∧ t.sup.epochs = s.sup.epochs) ∧
      t.restore = (match s.restore with
        | .waiting _ => .cancelled
        | r => r) ∧
      t.sup.attempts = 0 ∧ Report.power ∈ t.link.flags ∧ t.faults = s.faults ∧ t.mem = s.mem ∧
      (t.link.replies.getLast?.map (·.status)) = some .ok) ∧
    (∀ (k : Byte) (kind : ActionKind) (p : Phase), s.action = none →
      (k = 0 ∧ kind = .on ∧ p = .pressOn ∧ s.power.pg.level = false) ∨
      (k = 1 ∧ kind = .offSoft ∧ p = .pressSoft ∧ s.power.pg.level = true) ∨
      (k = 2 ∧ kind = .offHard ∧ p = .force ∧ s.power.pg.level = true) ∨
      (k = 3 ∧ kind = .reset ∧ p = .resetPulse ∧ s.power.pg.level = true) ∨
      (k = 4 ∧ kind = .diag ∧ p = .diagPulse ∧ s.power.pg.level = true) ∨
      (k = 5 ∧ kind = .cycle ∧ p = .pressOn ∧ s.power.pg.level = false) ∨
      (k = 5 ∧ kind = .cycle ∧ p = .force ∧ s.power.pg.level = true) →
      ∃ t : State, exec (.pwrAction tag [k, e]) s = .next t ∧
        t.power.last = some { kind := kind, escalate := decide (e.toNat = 1), requester := .link, start := s.time,
                              phase := some p, deadline := s.time + BitVec.ofNat 32 (phaseDuration s.power.cfg p),
                              escalated := false, result := none, ended := none,
                              pressedAt := if p = .pressOn then s.time else 0 } ∧
        t.power.prior = s.power.last ∧ t.sup.attempts = 0 ∧
        t.sup.state = (if s.sup.state = .givenUp then .idle else s.sup.state) ∧
        t.restore = (match s.restore with
          | .waiting _ => .cancelled
          | r => r) ∧
        (p = .resetPulse → t.power.mask = .pulse ∧ t.power.episode = false ∧ t.usb.connected = false) ∧
        (p ≠ .resetPulse → t.power.mask = s.power.mask ∧ t.power.episode = s.power.episode) ∧
        t.faults = s.faults ∧ t.mem = s.mem ∧ t.sup.epochs = s.sup.epochs ∧ t.power.pg = s.power.pg ∧
        (t.link.replies.getLast?.map (·.status)) = some .ok) ∧
    ∀ (k : Byte) (kind : ActionKind), s.action = none →
      (k = 0 ∧ kind = .on ∧ s.power.pg.level = true) ∨ (k = 1 ∧ kind = .offSoft ∧ s.power.pg.level = false) ∨
      (k = 2 ∧ kind = .offHard ∧ s.power.pg.level = false) →
      ∃ t : State, exec (.pwrAction tag [k, e]) s = .next t ∧
        t.power.last = some { kind := kind, escalate := decide (e.toNat = 1), requester := .link, start := s.time,
                              phase := none, deadline := 0, escalated := false, result := some .already,
                              ended := some s.time, pressedAt := 0 } ∧
        t.power.prior = s.power.last ∧ t.sup.attempts = 0 ∧
        t.sup.state = (if s.sup.state = .givenUp then .idle else s.sup.state) ∧
        t.restore = (match s.restore with
          | .waiting _ => .cancelled
          | r => r) ∧
        Report.power ∈ t.link.flags ∧ t.faults = s.faults ∧ t.usb = s.usb ∧ t.mem = s.mem ∧ t.power.mask = s.power.mask

/-- A pin's change starts or stops its settling timer; an RSTS edge, masked or not, begins or ends a reset episode; the
mask clears at the end of its tail. -/
def Obligations.PinsSettleAndEpisodesFollow : Prop :=
  (∀ (s : State) (v : Bool), s.inReset = false →
    exec (.pinChange .pg v) s = .next { s with power := { s.power with pg := { s.power.pg with
      pin := v, settling := if v = s.power.pg.level then none
        else some (s.power.pg.settling.getD (s.time + BitVec.ofNat 32 s.power.cfg.debounce)) } } } ∧
    exec (.pinChange .rsts v) s = .next { s with power := { s.power with rsts := { s.power.rsts with
      pin := v, settling := if v = s.power.rsts.level then none
        else some (s.power.rsts.settling.getD (s.time + BitVec.ofNat 32 s.power.cfg.debounce)) } } }) ∧
  (∀ (s : State) (v : Bool), s.inReset = true →
    exec (.pinChange .pg v) s = .next { s with power := { s.power with pg := { s.power.pg with pin := v } } } ∧
    exec (.pinChange .rsts v) s =
      .next { s with power := { s.power with rsts := { s.power.rsts with pin := v } } }) ∧
  ∀ (s : State) (d : PartTime), s.reaches d = true →
    (s.power.rsts.settling = some d → s.power.rsts.pin = false → s.power.rsts.level = true →
      ∀ b, b = (s.power.pg.level && decide (s.power.mask = .clear)) →
      ∃ t : State, exec .rstsEdgeActive s = .next t ∧ t.time = d ∧
        t.power = { s.power with rsts := { pin := false, level := false, settling := none },
                                 episode := b || s.power.episode } ∧
        (b = true → Report.power ∈ t.link.flags ∧ t.usb.connected = false) ∧ t.sup = s.sup ∧ t.mem = s.mem) ∧
    (s.power.rsts.settling = some d → s.power.rsts.pin = true → s.power.rsts.level = false →
      ∀ b, b = (s.power.episode && decide (s.power.mask = .clear)) →
      ∃ t : State, exec .rstsEdgeInactive s = .next t ∧ t.time = d ∧
        t.power = { s.power with
          rsts := { pin := true, level := true, settling := none },
          episode := if b then false else s.power.episode,
          extResets := if b ∧ s.power.extResets < 65535 then s.power.extResets + 1 else s.power.extResets } ∧
        (b = true → Report.power ∈ t.link.flags ∧ (t.openEpoch.map (·.cause)) = some .resetExternal) ∧
        (b = false → t.sup = s.sup) ∧ t.mem = s.mem) ∧
    (s.power.mask = .tail d → exec .maskTailEnd s = .next (State.updateConnection
      { s with time := d, power := { s.power with mask := .clear } }))

/-- A taken rise of PG: the level, the action's end with its capture, the epoch with its cause, the media port; every
port's window and filter begin anew, and one that is ENABLED with a rate in effect sends the head of its queue; a restore
that waits is cancelled. -/
def Obligations.PowerRisesOpenAnEpoch : Prop :=
  ∀ (s : State) (d : PartTime), s.power.pg.settling = some d → s.power.pg.pin = true → s.power.pg.level = false →
    s.reaches d = true → ∃ t : State, exec .pgRise s = .next t ∧ t.time = d ∧
      t.power.pg = { pin := true, level := true, settling := none } ∧ Report.power ∈ t.link.flags ∧
      t.restore = (match s.restore with
        | .waiting _ => .cancelled
        | r => r) ∧
      t.usb.connected = (!t.serverInReset && s.medCfg.portEnable) ∧ t.faults = s.faults ∧ t.mem = s.mem ∧
      (∀ (i : PortId) (p : Port), p = { s.ports[i] with window := [], filter := .normal } →
        (p.enabled = false ∨ p.rate = none ∨ p.sending ≠ none ∨ p.queue = [] → t.ports[i] = p) ∧
        (p.enabled = true → p.rate ≠ none → t.ports[i] = p.begin_ d)) ∧
      (s.action = none → t.power.last = s.power.last ∧
        (t.openEpoch.map (·.cause)) = some .powerUpExternal ∧ t.power.latest = s.power.latest) ∧
      ∀ a, s.power.last = some a →
        (a.phase = some .pressOn ∨ a.phase = some .waitUp →
          t.power.last = some { a with phase := none, result := some .done, ended := some d } ∧
          (t.openEpoch.map (·.cause)) = some .onAction ∧ t.power.latest = some (d - a.pressedAt) ∧
          t.power.previous = s.power.latest) ∧
        (a.phase = some .dwell →
          t.power.last = some { a with phase := none, result := some .externalOn, ended := some d } ∧
          (t.openEpoch.map (·.cause)) = some .powerUpExternal ∧ t.power.latest = s.power.latest)

/-- A taken fall of PG: the level, the episode, the closing epoch with its end cause, with supervision disarmed and the
markers no longer spent, the action's end or its dwell, the POWER_LOST fault, and the media port disconnected. An ENABLED
port with gating on is gated: its rate windows are emptied and a BREAK under transmission is cut; its queue, its slot and
all else of every port stay. -/
def Obligations.PowerFallsCloseTheEpoch : Prop :=
  ∀ (s : State) (d : PartTime), s.power.pg.settling = some d → s.power.pg.pin = false → s.power.pg.level = true →
    s.reaches d = true → ∃ t : State, exec .pgFall s = .next t ∧ t.time = d ∧
      t.power.pg = { pin := false, level := false, settling := none } ∧ t.power.episode = false ∧
      t.openEpoch = none ∧ Report.power ∈ t.link.flags ∧ t.usb.connected = false ∧ t.mem = s.mem ∧
      t.restore = s.restore ∧
      (∀ i : PortId, t.ports[i] = if s.ports[i].enabled = true ∧ s.ports[i].cfg.gating = true
        then { s.ports[i] with
          ivCount := 0, ivMin := 65535, counting := false, cwCount := 0, cwErrors := 0,
          sending := match s.ports[i].sending with
            | some (.brk _) => none
            | x => x }
        else s.ports[i]) ∧
      (s.openEpoch = none → t.sup = s.sup ∧ t.markers = s.markers) ∧
      (∀ e, s.openEpoch = some e →
        (∃ k, t.sup.epochs.getLast? = some { e with
          endTime := some d, endCause := some k,
          status := if e.status = .pending then .endedUnsettled else e.status }) ∧
        t.sup = { s.sup with
          epochs := t.sup.epochs, bootTimer := none, holdTimer := none, ret := none,
          state := if s.sup.state = .givenUp then .givenUp else .idle } ∧
        ∀ m : Fin 16, t.markers[m] = { s.markers[m] with spent := false }) ∧
      (s.action = none → t.power.last = s.power.last ∧
        t.faults.latest = some { kind := .powerLost none, time := d } ∧
        ∀ e, s.openEpoch = some e → (t.sup.epochs.getLast?.bind (·.endCause)) = some .powerLost) ∧
      ∀ a, s.power.last = some a →
        (a.phase = some .pressSoft ∨ a.phase = some .waitDown ∨ (a.phase = some .force ∧ a.kind ≠ .cycle) →
          t.power.last = some { a with phase := none, result := some .done, ended := some d } ∧
          t.faults = s.faults ∧
          ∀ e, s.openEpoch = some e → (t.sup.epochs.getLast?.bind (·.endCause)) = some .powerOffAction) ∧
        (a.phase = some .force → a.kind = .cycle →
          t.power.last = some { a with
            phase := some .dwell, deadline := d + BitVec.ofNat 32 s.power.cfg.dwell } ∧
          t.faults = s.faults ∧
          ∀ e, s.openEpoch = some e → (t.sup.epochs.getLast?.bind (·.endCause)) = some .powerOffAction) ∧
        (a.phase = some .resetPulse ∨ a.phase = some .diagPulse →
          t.power.last = some { a with phase := none, result := some .powerLost, ended := some d } ∧
          t.faults.latest = some { kind := .powerLost (some (a.kind, a.requester)), time := d } ∧
          ∀ e, s.openEpoch = some e → (t.sup.epochs.getLast?.bind (·.endCause)) = some .powerLost)

/-- The move of an action at its phase's deadline: the next phase, or its end with a result and the fault that result
records. -/
def Obligations.PhasesMoveAtTheirDeadlines : Prop :=
  ∀ (s : State) (a : ActionRec) (p : Phase), s.power.last = some a → a.phase = some p →
    s.reaches a.deadline = true → ∃ t : State, exec .phaseDeadline s = .next t ∧ t.time = a.deadline ∧
      t.power.prior = s.power.prior ∧ t.power.pg = s.power.pg ∧ t.mem = s.mem ∧
      (∀ q, (p = .pressOn ∧ q = Phase.waitUp) ∨ (p = .pressSoft ∧ q = .waitDown) ∨ (p = .dwell ∧ q = .pressOn) ∨
          (p = .waitDown ∧ a.escalate = true ∧ q = .force) →
        t.power.last = some { a with
          phase := some q, deadline := a.deadline + BitVec.ofNat 32 (phaseDuration s.power.cfg q),
          escalated := a.escalated || decide (p = .waitDown),
          pressedAt := if q = .pressOn then a.deadline else a.pressedAt } ∧ t.faults = s.faults) ∧
      (∀ r, (p = .waitDown ∧ a.escalate = false ∧ r = ActResult.softTimeout) ∨
          ((p = .resetPulse ∨ p = .diagPulse) ∧ r = .done) ∨ (p = .waitUp ∧ r = .noPowerGood) ∨
          (p = .force ∧ r = .stuckOn) →
        t.power.last = some { a with phase := none, result := some r, ended := some a.deadline } ∧
        Report.power ∈ t.link.flags ∧
        (p = .waitUp → t.faults.latest = some { kind := .noPowerGood a.kind a.requester, time := a.deadline }) ∧
        (p = .force → t.faults.latest = some { kind := .stuckOn a.kind a.requester, time := a.deadline }) ∧
        (p ≠ .waitUp → p ≠ .force → t.faults = s.faults)) ∧
      (p = .resetPulse → t.power.mask = .tail (a.deadline + BitVec.ofNat 32 s.power.cfg.debounce) ∧
        (s.power.pg.level = true → (t.openEpoch.map (·.cause)) = some .resetAction))

/-! ## The page pool and buffer memory -/

/-- An upset alters the stored bytes of one row by its bit patterns and takes a SOUND row to UPSET; every other byte
and row is as before. That one during a part reset leaves nothing is the model's choice (log 32); that the command
carries the altered bits is its choice too (log 9). -/
def Obligations.UpsetsFallOnOneRow : Prop :=
  (∀ (s : State) (r : Fin 8192) (flips : List Byte), s.inReset = true →
    exec (.memoryUpset r flips) s = .next s) ∧
  ∀ (s : State) (r : Fin 8192) (flips : List Byte), s.inReset = false → flips.length ≤ 64 → ∃ t : State,
    exec (.memoryUpset r flips) s = .next t ∧ t = { s with mem := t.mem, rows := t.rows } ∧
    (∀ k, k < flips.length →
      readByte t.mem (64 * r.val + k) = readByte s.mem (64 * r.val + k) ^^^ flips.getD k 0) ∧
    (∀ a, a < 64 * r.val ∨ 64 * r.val + flips.length ≤ a → readByte t.mem a = readByte s.mem a) ∧
    rowState t.rows r.val = some ((rowState s.rows r.val).getD .upset) ∧
    ∀ q, q ≠ r.val → rowState t.rows q = rowState s.rows q

/-- In every state of the pool's invariant (each page FREE, of one history or of one line; quotas committed as enables and
clears leave them, at most 112 in all; drains and awaited blocks in the states their records give; held lines within F)
the premises of R62 hold, and the next step, whatever the command, completes in a state of the invariant: it ends in no
fault for want of a page. Where those premises hold and the histories hold fewer pages than the committed amounts, a
history that asks for a page is supplied: the lowest FREE page, or, with no page FREE, that of the least-recently-used
non-held line. -/
def Obligations.HistoryAlwaysFindsAPage : Prop :=
  (∀ s : State, s.PoolInv → s.poolOk ∧ ∃ t : State, step s = .next t ∧ t.PoolInv) ∧
  ∀ (s : State) (i : PortId), s.poolOk → s.historyPages < s.committedSum →
    ∃ (p : Fin 128) (t : State), s.supplyHistory i = some (p, t) ∧ t.owners[p] = .history i ∧
      (s.owners[p] = .free ∧ (∀ q : Fin 128, q < p → s.owners[q] ≠ .free) ∧ t.cache = s.cache ∧
          t.reclaims = s.reclaims ∨
        (∀ q : Fin 128, s.owners[q] ≠ .free) ∧
          ∃ older l newer, s.cache = older ++ l :: newer ∧ (∀ x ∈ older, x.held = true) ∧ l.held = false ∧
            l.page = p ∧ t.cache = s.cache.filter (fun x => x.tag != l.tag) ∧
            t.reclaims = if s.reclaims < 65535 then s.reclaims + 1 else s.reclaims) ∧
      (∀ q : Fin 128, q ≠ p → t.owners[q] = s.owners[q]) ∧ t.mem = s.mem ∧ t.rows = s.rows ∧ t.ports = s.ports

/-! ## Invariants -/

/-- Every step keeps buffer memory in its canonical form: addresses strictly rising, no listed zero. -/
def Obligations.MemoryStaysCanonical : Prop :=
  ∀ s t : State, s.memOk → step s = .next t → t.memOk

/-- Every step keeps the part's bounds: 8 replies with the reservation, 128 entries in a transmit queue and 32 bytes in
a window, 8 epoch records of 31 hits, 8 drains in flight. -/
def Obligations.BoundsAreKeptByEveryStep : Prop :=
  ∀ s t : State, s.repliesOk → s.portsOk → s.epochsOk → s.drainsOk → step s = .next t →
    t.repliesOk ∧ t.portsOk ∧ t.epochsOk ∧ t.drainsOk

/-- The state after reset meets the invariants. -/
def Obligations.ResetMeetsTheInvariants : Prop :=
  State.reset.memOk ∧ State.reset.repliesOk ∧ State.reset.portsOk ∧ State.reset.epochsOk ∧ State.reset.drainsOk ∧
    State.reset.poolOk ∧ State.reset.PoolInv
end

