-- ==== Sys2Proof/Laws/Words.lean ====
section
/-! SUPPORT. What the operations on vectors and counts answer. -/

namespace Sys2Proof

@[simp] theorem vupd_getElem {α : Type} {n : Nat} (v : Vector α n) (i : Fin n) (f : α → α) (j : Nat) (h : j < n) :
    (vupd v i f)[j] = if i.val = j then f v[j] else v[j] := by
  simp only [vupd, Vector.getElem_set]
  split
  · next e => subst e; rfl
  · rfl

theorem vupd_self {α : Type} {n : Nat} (v : Vector α n) (i : Fin n) (f : α → α) : (vupd v i f)[i] = f v[i] := by
  simp

theorem vupd_ne {α : Type} {n : Nat} (v : Vector α n) {i j : Fin n} (f : α → α) (h : j ≠ i) :
    (vupd v i f)[j] = v[j] := by
  simp [show i.val ≠ j.val from fun e => h (Fin.ext e.symm)]

@[simp] theorem vmap_getElem {α β : Type} {n : Nat} (v : Vector α n) (f : α → β) (j : Nat) (h : j < n) :
    (vmap v f)[j] = f v[j] := by
  simp [vmap]

@[simp] theorem vgen_getElem {α : Type} {n : Nat} (f : Nat → α) (j : Nat) (h : j < n) : (vgen n f)[j] = f j := by
  simp [vgen]

theorem satInc_le {cap n : Nat} (h : n ≤ cap) : satInc cap n ≤ cap := by
  unfold satInc; split <;> omega

theorem clamp_of_within {lo hi n : Nat} (h : lo ≤ n) (h' : n ≤ hi) : clamp lo hi n = n := by
  unfold clamp; omega

theorem clamp_range {lo hi n : Nat} (h : lo ≤ hi) : lo ≤ clamp lo hi n ∧ clamp lo hi n ≤ hi := by
  unfold clamp; omega

end Sys2Proof
end

