-- ==== Sys2Proof/Laws/Memory.lean ====
section
/-! SUPPORT. Buffer memory and its rows: the canonical form, and what a read finds after a write. -/

namespace Sys2Proof.Machine

/-! ## The canonical form -/

theorem Memory.wf_iff (m : Memory) :
    Memory.wf m = true ↔ m.Pairwise (fun a b => a.1 < b.1) ∧ ∀ c ∈ m, c.2 ≠ 0 := by
  simp [Memory.wf]

theorem Memory.wf_nil : Memory.wf [] = true := by decide

/-- The memory of the reset state has the form. -/
theorem reset_mem_wf : Memory.wf State.reset.mem = true := Memory.wf_nil

/-- The cells of stored bytes: each at its place in the range, none 0. -/
theorem cellsOf_mem {bs : List Byte} : ∀ {a : Nat} {c : Host.Cell}, c ∈ cellsOf a bs →
    a ≤ c.1 ∧ c.1 < a + bs.length ∧ c.2 ≠ 0 := by
  induction bs with
  | nil => intro a c h; simp [cellsOf] at h
  | cons b bs ih =>
    intro a c h
    have tail : c ∈ cellsOf (a + 1) bs → a ≤ c.1 ∧ c.1 < a + (b :: bs).length ∧ c.2 ≠ 0 := fun h => by
      have := ih h; simp only [List.length_cons]; exact ⟨by omega, by omega, this.2.2⟩
    unfold cellsOf at h
    split at h
    · exact tail h
    · next hb =>
      rcases List.mem_cons.1 h with rfl | h
      · exact ⟨Nat.le_refl _, by simp, hb⟩
      · exact tail h

theorem cellsOf_pairwise (bs : List Byte) : ∀ a : Nat, (cellsOf a bs).Pairwise fun x y => x.1 < y.1 := by
  induction bs with
  | nil => intro a; simp [cellsOf]
  | cons b bs ih =>
    intro a; unfold cellsOf; split
    · exact ih _
    · exact List.pairwise_cons.2 ⟨fun c h => by have := cellsOf_mem h; omega, ih _⟩

/-- A write keeps the canonical form. -/
theorem writeBytes_wf {m : Memory} (h : Memory.wf m = true) (a : Nat) (bs : List Byte) :
    Memory.wf (writeBytes m a bs) = true := by
  rw [Memory.wf_iff] at *
  obtain ⟨hp, hz⟩ := h
  have lo : ∀ c ∈ m.filter (fun c => decide (c.1 < a)), c.1 < a := fun c h => by
    simpa using (List.mem_filter.1 h).2
  have hi : ∀ c ∈ m.filter (fun c => decide (a + bs.length ≤ c.1)), a + bs.length ≤ c.1 := fun c h => by
    simpa using (List.mem_filter.1 h).2
  refine ⟨?_, ?_⟩
  · unfold writeBytes
    rw [List.pairwise_append, List.pairwise_append]
    refine ⟨⟨hp.filter _, cellsOf_pairwise bs a, ?_⟩, hp.filter _, ?_⟩
    · intro x hx y hy; have := lo x hx; have := cellsOf_mem hy; omega
    · intro x hx y hy
      have := hi y hy
      rcases List.mem_append.1 hx with h | h
      · have := lo x h; omega
      · have := cellsOf_mem h; omega
  · intro c hc
    unfold writeBytes at hc
    rcases List.mem_append.1 hc with h | h
    · rcases List.mem_append.1 h with h | h
      · exact hz c (List.mem_filter.1 h).1
      · exact (cellsOf_mem h).2.2
    · exact hz c (List.mem_filter.1 h).1

/-! ## Reads after writes -/

/-- The cell found at an address. -/
def cellAt (m : Memory) (a : Nat) : Option Host.Cell := m.find? fun c => c.1 == a

theorem readByte_eq (m : Memory) (a : Nat) : readByte m a = ((cellAt m a).map (·.2)).getD 0 := rfl

theorem cellAt_append (m n : Memory) (a : Nat) : cellAt (m ++ n) a = (cellAt m a).or (cellAt n a) :=
  List.find?_append

theorem cellAt_filter (m : Memory) (p : Nat → Bool) (a : Nat) :
    cellAt (m.filter fun c => p c.1) a = if p a then cellAt m a else none := by
  induction m with
  | nil => simp [cellAt]
  | cons c m ih =>
    unfold cellAt at *
    by_cases h : c.1 = a
    · subst h; by_cases hp : p c.1 <;> simp [hp] at ih ⊢
      exact ih
    · by_cases hp : p c.1 <;> simp [hp, h, ih]

theorem cellsOf_none {bs : List Byte} {a x : Nat} (h : x < a ∨ a + bs.length ≤ x) : cellAt (cellsOf a bs) x = none := by
  refine List.find?_eq_none.2 fun c hc => ?_
  have := cellsOf_mem hc
  simp; omega

theorem readByte_cellsOf (bs : List Byte) : ∀ a k : Nat, k < bs.length →
    readByte (cellsOf a bs) (a + k) = bs.getD k 0 := by
  induction bs with
  | nil => intro a k h; simp at h
  | cons b bs ih =>
    intro a k h
    cases k with
    | zero =>
      unfold cellsOf; split
      · next e => subst e; simp [readByte_eq, cellsOf_none (bs := bs) (a := a + 1) (x := a) (.inl (by omega))]
      · simp [readByte_eq, cellAt]
    | succ k =>
      have e : a + (k + 1) = a + 1 + k := by omega
      have := ih (a + 1) k (by simpa using h)
      unfold cellsOf; split
      · simpa [e] using this
      · rw [e]; simp only [List.getD_cons_succ, readByte_eq, cellAt] at this ⊢
        rw [List.find?_cons_of_neg (by simp; omega)]; exact this

/-- A read after a write: the bytes stored in their range, and what was there elsewhere. -/
theorem readByte_writeBytes (m : Memory) (a : Nat) (bs : List Byte) (x : Nat) :
    readByte (writeBytes m a bs) x = if a ≤ x ∧ x < a + bs.length then bs.getD (x - a) 0 else readByte m x := by
  have lo := cellAt_filter m (fun y => decide (y < a)) x
  have hi := cellAt_filter m (fun y => decide (a + bs.length ≤ y)) x
  rw [readByte_eq, writeBytes, cellAt_append, cellAt_append, lo, hi]
  by_cases h : a ≤ x ∧ x < a + bs.length
  · have := readByte_cellsOf bs a (x - a) (by omega)
    rw [show a + (x - a) = x by omega, readByte_eq] at this
    rw [if_pos h, if_neg (by simp; omega), if_neg (by simp; omega)]
    simpa using this
  · rw [if_neg h, cellsOf_none (by omega), readByte_eq]
    by_cases h1 : x < a
    · simp [h1, show ¬ a + bs.length ≤ x by omega]
    · simp [h1, show a + bs.length ≤ x by omega]

/-- A range read whole after it is written. -/
theorem readBytes_writeBytes (m : Memory) (a : Nat) (bs : List Byte) :
    readBytes (writeBytes m a bs) a bs.length = bs := by
  refine List.ext_getElem (by simp [readBytes]) fun k h h' => ?_
  simp [readBytes, readByte_writeBytes, h']

/-- A range that a write does not touch. -/
theorem readBytes_writeBytes_ne {m : Memory} {a : Nat} {bs : List Byte} {x n : Nat}
    (h : x + n ≤ a ∨ a + bs.length ≤ x) : readBytes (writeBytes m a bs) x n = readBytes m x n := by
  unfold readBytes
  refine List.map_congr_left fun k hk => ?_
  have := List.mem_range.1 hk
  rw [readByte_writeBytes, if_neg (by omega)]

/-! ## Rows -/

theorem rowState_cons (x : Nat × RowFault) (rs : Rows) (r : Nat) :
    rowState (x :: rs) r = if x.1 = r then some x.2 else rowState rs r := by
  by_cases h : x.1 = r <;> simp [rowState, h]

theorem rowState_filter (rs : Rows) (p : Nat → Bool) (r : Nat) :
    rowState (rs.filter fun x => p x.1) r = if p r then rowState rs r else none := by
  induction rs with
  | nil => simp [rowState]
  | cons c m ih =>
    by_cases h : c.1 = r
    · subst h; by_cases hp : p c.1
      · simp [hp, rowState_cons]
      · simpa [hp] using ih
    · by_cases hp : p c.1 <;> simp [hp, h, ih, rowState_cons]

/-- Rows written whole are SOUND, others keep their states. -/
theorem rowState_soundRows (rs : Rows) (r n q : Nat) :
    rowState (soundRows rs r n) q = if r ≤ q ∧ q < r + n then none else rowState rs q := by
  rw [soundRows, rowState_filter rs (fun y => decide (y < r ∨ r + n ≤ y))]
  by_cases h : r ≤ q ∧ q < r + n
  · rw [if_neg (by simp; omega), if_pos h]
  · rw [if_pos (by simp; omega), if_neg h]

/-- A read marks the touched rows that are not SOUND, and nothing else. -/
theorem rowState_markRows (rs : Rows) (touched : Nat → Bool) (q : Nat) :
    rowState (markRows rs touched) q =
      (rowState rs q).map fun f => if touched q then .marked else f := by
  induction rs with
  | nil => simp [rowState, markRows]
  | cons c m ih =>
    unfold markRows at *
    by_cases h : c.1 = q
    · subst h; by_cases ht : touched c.1 <;> simp [ht, rowState_cons]
    · by_cases ht : touched c.1 <;> simp [ht, h, ih, rowState_cons]

theorem rowsInError_sound (touched : Nat → Bool) : rowsInError [] touched = [] := rfl

theorem markRows_sound (touched : Nat → Bool) : markRows [] touched = [] := rfl

end Sys2Proof.Machine
end

