-- ==== Sys2Proof/Laws/State.lean ====
section
/-! SUPPORT. What each named update of the state leaves in each field. -/

namespace Sys2Proof.Machine

/-! ## State.modPort -/

@[simp] theorem State.modPort_pending (i : PortId) (f : Port → Port) (s : State) :
    (s.modPort i f).pending = s.pending := rfl
@[simp] theorem State.modPort_inReset (i : PortId) (f : Port → Port) (s : State) :
    (s.modPort i f).inReset = s.inReset := rfl
@[simp] theorem State.modPort_cause (i : PortId) (f : Port → Port) (s : State) : (s.modPort i f).cause = s.cause := rfl
@[simp] theorem State.modPort_time (i : PortId) (f : Port → Port) (s : State) : (s.modPort i f).time = s.time := rfl
@[simp] theorem State.modPort_start (i : PortId) (f : Port → Port) (s : State) : (s.modPort i f).start = s.start := rfl
@[simp] theorem State.modPort_restore (i : PortId) (f : Port → Port) (s : State) :
    (s.modPort i f).restore = s.restore := rfl
@[simp] theorem State.modPort_image (i : PortId) (f : Port → Port) (s : State) : (s.modPort i f).image = s.image := rfl
@[simp] theorem State.modPort_save (i : PortId) (f : Port → Port) (s : State) : (s.modPort i f).save = s.save := rfl
@[simp] theorem State.modPort_faults (i : PortId) (f : Port → Port) (s : State) :
    (s.modPort i f).faults = s.faults := rfl
@[simp] theorem State.modPort_ports (i : PortId) (f : Port → Port) (s : State) :
    (s.modPort i f).ports = vupd s.ports i f := rfl
@[simp] theorem State.modPort_t0 (i : PortId) (f : Port → Port) (s : State) : (s.modPort i f).t0 = s.t0 := rfl
@[simp] theorem State.modPort_t1 (i : PortId) (f : Port → Port) (s : State) : (s.modPort i f).t1 = s.t1 := rfl
@[simp] theorem State.modPort_markers (i : PortId) (f : Port → Port) (s : State) :
    (s.modPort i f).markers = s.markers := rfl
@[simp] theorem State.modPort_markReg (i : PortId) (f : Port → Port) (s : State) :
    (s.modPort i f).markReg = s.markReg := rfl
@[simp] theorem State.modPort_mem (i : PortId) (f : Port → Port) (s : State) : (s.modPort i f).mem = s.mem := rfl
@[simp] theorem State.modPort_rows (i : PortId) (f : Port → Port) (s : State) : (s.modPort i f).rows = s.rows := rfl
@[simp] theorem State.modPort_owners (i : PortId) (f : Port → Port) (s : State) :
    (s.modPort i f).owners = s.owners := rfl
@[simp] theorem State.modPort_committed (i : PortId) (f : Port → Port) (s : State) :
    (s.modPort i f).committed = s.committed := rfl
@[simp] theorem State.modPort_reclaims (i : PortId) (f : Port → Port) (s : State) :
    (s.modPort i f).reclaims = s.reclaims := rfl
@[simp] theorem State.modPort_media (i : PortId) (f : Port → Port) (s : State) : (s.modPort i f).media = s.media := rfl
@[simp] theorem State.modPort_cache (i : PortId) (f : Port → Port) (s : State) : (s.modPort i f).cache = s.cache := rfl
@[simp] theorem State.modPort_fetch (i : PortId) (f : Port → Port) (s : State) : (s.modPort i f).fetch = s.fetch := rfl
@[simp] theorem State.modPort_medCfg (i : PortId) (f : Port → Port) (s : State) :
    (s.modPort i f).medCfg = s.medCfg := rfl
@[simp] theorem State.modPort_usb (i : PortId) (f : Port → Port) (s : State) : (s.modPort i f).usb = s.usb := rfl
@[simp] theorem State.modPort_power (i : PortId) (f : Port → Port) (s : State) : (s.modPort i f).power = s.power := rfl
@[simp] theorem State.modPort_sup (i : PortId) (f : Port → Port) (s : State) : (s.modPort i f).sup = s.sup := rfl
@[simp] theorem State.modPort_link (i : PortId) (f : Port → Port) (s : State) : (s.modPort i f).link = s.link := rfl

/-! ## State.modPower -/

@[simp] theorem State.modPower_pending (f : PowerSeq → PowerSeq) (s : State) : (s.modPower f).pending = s.pending := rfl
@[simp] theorem State.modPower_inReset (f : PowerSeq → PowerSeq) (s : State) : (s.modPower f).inReset = s.inReset := rfl
@[simp] theorem State.modPower_cause (f : PowerSeq → PowerSeq) (s : State) : (s.modPower f).cause = s.cause := rfl
@[simp] theorem State.modPower_time (f : PowerSeq → PowerSeq) (s : State) : (s.modPower f).time = s.time := rfl
@[simp] theorem State.modPower_start (f : PowerSeq → PowerSeq) (s : State) : (s.modPower f).start = s.start := rfl
@[simp] theorem State.modPower_restore (f : PowerSeq → PowerSeq) (s : State) : (s.modPower f).restore = s.restore := rfl
@[simp] theorem State.modPower_image (f : PowerSeq → PowerSeq) (s : State) : (s.modPower f).image = s.image := rfl
@[simp] theorem State.modPower_save (f : PowerSeq → PowerSeq) (s : State) : (s.modPower f).save = s.save := rfl
@[simp] theorem State.modPower_faults (f : PowerSeq → PowerSeq) (s : State) : (s.modPower f).faults = s.faults := rfl
@[simp] theorem State.modPower_ports (f : PowerSeq → PowerSeq) (s : State) : (s.modPower f).ports = s.ports := rfl
@[simp] theorem State.modPower_t0 (f : PowerSeq → PowerSeq) (s : State) : (s.modPower f).t0 = s.t0 := rfl
@[simp] theorem State.modPower_t1 (f : PowerSeq → PowerSeq) (s : State) : (s.modPower f).t1 = s.t1 := rfl
@[simp] theorem State.modPower_markers (f : PowerSeq → PowerSeq) (s : State) : (s.modPower f).markers = s.markers := rfl
@[simp] theorem State.modPower_markReg (f : PowerSeq → PowerSeq) (s : State) : (s.modPower f).markReg = s.markReg := rfl
@[simp] theorem State.modPower_mem (f : PowerSeq → PowerSeq) (s : State) : (s.modPower f).mem = s.mem := rfl
@[simp] theorem State.modPower_rows (f : PowerSeq → PowerSeq) (s : State) : (s.modPower f).rows = s.rows := rfl
@[simp] theorem State.modPower_owners (f : PowerSeq → PowerSeq) (s : State) : (s.modPower f).owners = s.owners := rfl
@[simp] theorem State.modPower_committed (f : PowerSeq → PowerSeq) (s : State) :
    (s.modPower f).committed = s.committed := rfl
@[simp] theorem State.modPower_reclaims (f : PowerSeq → PowerSeq) (s : State) :
    (s.modPower f).reclaims = s.reclaims := rfl
@[simp] theorem State.modPower_media (f : PowerSeq → PowerSeq) (s : State) : (s.modPower f).media = s.media := rfl
@[simp] theorem State.modPower_cache (f : PowerSeq → PowerSeq) (s : State) : (s.modPower f).cache = s.cache := rfl
@[simp] theorem State.modPower_fetch (f : PowerSeq → PowerSeq) (s : State) : (s.modPower f).fetch = s.fetch := rfl
@[simp] theorem State.modPower_medCfg (f : PowerSeq → PowerSeq) (s : State) : (s.modPower f).medCfg = s.medCfg := rfl
@[simp] theorem State.modPower_usb (f : PowerSeq → PowerSeq) (s : State) : (s.modPower f).usb = s.usb := rfl
@[simp] theorem State.modPower_power (f : PowerSeq → PowerSeq) (s : State) :
    (s.modPower f).power = f s.power := rfl
@[simp] theorem State.modPower_sup (f : PowerSeq → PowerSeq) (s : State) : (s.modPower f).sup = s.sup := rfl
@[simp] theorem State.modPower_link (f : PowerSeq → PowerSeq) (s : State) : (s.modPower f).link = s.link := rfl

/-! ## State.modSup -/

@[simp] theorem State.modSup_pending (f : Supervisor → Supervisor) (s : State) : (s.modSup f).pending = s.pending := rfl
@[simp] theorem State.modSup_inReset (f : Supervisor → Supervisor) (s : State) : (s.modSup f).inReset = s.inReset := rfl
@[simp] theorem State.modSup_cause (f : Supervisor → Supervisor) (s : State) : (s.modSup f).cause = s.cause := rfl
@[simp] theorem State.modSup_time (f : Supervisor → Supervisor) (s : State) : (s.modSup f).time = s.time := rfl
@[simp] theorem State.modSup_start (f : Supervisor → Supervisor) (s : State) : (s.modSup f).start = s.start := rfl
@[simp] theorem State.modSup_restore (f : Supervisor → Supervisor) (s : State) : (s.modSup f).restore = s.restore := rfl
@[simp] theorem State.modSup_image (f : Supervisor → Supervisor) (s : State) : (s.modSup f).image = s.image := rfl
@[simp] theorem State.modSup_save (f : Supervisor → Supervisor) (s : State) : (s.modSup f).save = s.save := rfl
@[simp] theorem State.modSup_faults (f : Supervisor → Supervisor) (s : State) : (s.modSup f).faults = s.faults := rfl
@[simp] theorem State.modSup_ports (f : Supervisor → Supervisor) (s : State) : (s.modSup f).ports = s.ports := rfl
@[simp] theorem State.modSup_t0 (f : Supervisor → Supervisor) (s : State) : (s.modSup f).t0 = s.t0 := rfl
@[simp] theorem State.modSup_t1 (f : Supervisor → Supervisor) (s : State) : (s.modSup f).t1 = s.t1 := rfl
@[simp] theorem State.modSup_markers (f : Supervisor → Supervisor) (s : State) : (s.modSup f).markers = s.markers := rfl
@[simp] theorem State.modSup_markReg (f : Supervisor → Supervisor) (s : State) : (s.modSup f).markReg = s.markReg := rfl
@[simp] theorem State.modSup_mem (f : Supervisor → Supervisor) (s : State) : (s.modSup f).mem = s.mem := rfl
@[simp] theorem State.modSup_rows (f : Supervisor → Supervisor) (s : State) : (s.modSup f).rows = s.rows := rfl
@[simp] theorem State.modSup_owners (f : Supervisor → Supervisor) (s : State) : (s.modSup f).owners = s.owners := rfl
@[simp] theorem State.modSup_committed (f : Supervisor → Supervisor) (s : State) :
    (s.modSup f).committed = s.committed := rfl
@[simp] theorem State.modSup_reclaims (f : Supervisor → Supervisor) (s : State) :
    (s.modSup f).reclaims = s.reclaims := rfl
@[simp] theorem State.modSup_media (f : Supervisor → Supervisor) (s : State) : (s.modSup f).media = s.media := rfl
@[simp] theorem State.modSup_cache (f : Supervisor → Supervisor) (s : State) : (s.modSup f).cache = s.cache := rfl
@[simp] theorem State.modSup_fetch (f : Supervisor → Supervisor) (s : State) : (s.modSup f).fetch = s.fetch := rfl
@[simp] theorem State.modSup_medCfg (f : Supervisor → Supervisor) (s : State) : (s.modSup f).medCfg = s.medCfg := rfl
@[simp] theorem State.modSup_usb (f : Supervisor → Supervisor) (s : State) : (s.modSup f).usb = s.usb := rfl
@[simp] theorem State.modSup_power (f : Supervisor → Supervisor) (s : State) : (s.modSup f).power = s.power := rfl
@[simp] theorem State.modSup_sup (f : Supervisor → Supervisor) (s : State) :
    (s.modSup f).sup = f s.sup := rfl
@[simp] theorem State.modSup_link (f : Supervisor → Supervisor) (s : State) : (s.modSup f).link = s.link := rfl

/-! ## State.setOwner -/

@[simp] theorem State.setOwner_pending (p : Fin 128) (o : Owner) (s : State) :
    (s.setOwner p o).pending = s.pending := rfl
@[simp] theorem State.setOwner_inReset (p : Fin 128) (o : Owner) (s : State) :
    (s.setOwner p o).inReset = s.inReset := rfl
@[simp] theorem State.setOwner_cause (p : Fin 128) (o : Owner) (s : State) : (s.setOwner p o).cause = s.cause := rfl
@[simp] theorem State.setOwner_time (p : Fin 128) (o : Owner) (s : State) : (s.setOwner p o).time = s.time := rfl
@[simp] theorem State.setOwner_start (p : Fin 128) (o : Owner) (s : State) : (s.setOwner p o).start = s.start := rfl
@[simp] theorem State.setOwner_restore (p : Fin 128) (o : Owner) (s : State) :
    (s.setOwner p o).restore = s.restore := rfl
@[simp] theorem State.setOwner_image (p : Fin 128) (o : Owner) (s : State) : (s.setOwner p o).image = s.image := rfl
@[simp] theorem State.setOwner_save (p : Fin 128) (o : Owner) (s : State) : (s.setOwner p o).save = s.save := rfl
@[simp] theorem State.setOwner_faults (p : Fin 128) (o : Owner) (s : State) : (s.setOwner p o).faults = s.faults := rfl
@[simp] theorem State.setOwner_ports (p : Fin 128) (o : Owner) (s : State) : (s.setOwner p o).ports = s.ports := rfl
@[simp] theorem State.setOwner_t0 (p : Fin 128) (o : Owner) (s : State) : (s.setOwner p o).t0 = s.t0 := rfl
@[simp] theorem State.setOwner_t1 (p : Fin 128) (o : Owner) (s : State) : (s.setOwner p o).t1 = s.t1 := rfl
@[simp] theorem State.setOwner_markers (p : Fin 128) (o : Owner) (s : State) :
    (s.setOwner p o).markers = s.markers := rfl
@[simp] theorem State.setOwner_markReg (p : Fin 128) (o : Owner) (s : State) :
    (s.setOwner p o).markReg = s.markReg := rfl
@[simp] theorem State.setOwner_mem (p : Fin 128) (o : Owner) (s : State) : (s.setOwner p o).mem = s.mem := rfl
@[simp] theorem State.setOwner_rows (p : Fin 128) (o : Owner) (s : State) : (s.setOwner p o).rows = s.rows := rfl
@[simp] theorem State.setOwner_owners (p : Fin 128) (o : Owner) (s : State) :
    (s.setOwner p o).owners = vupd s.owners p fun _ => o := rfl
@[simp] theorem State.setOwner_committed (p : Fin 128) (o : Owner) (s : State) :
    (s.setOwner p o).committed = s.committed := rfl
@[simp] theorem State.setOwner_reclaims (p : Fin 128) (o : Owner) (s : State) :
    (s.setOwner p o).reclaims = s.reclaims := rfl
@[simp] theorem State.setOwner_media (p : Fin 128) (o : Owner) (s : State) : (s.setOwner p o).media = s.media := rfl
@[simp] theorem State.setOwner_cache (p : Fin 128) (o : Owner) (s : State) : (s.setOwner p o).cache = s.cache := rfl
@[simp] theorem State.setOwner_fetch (p : Fin 128) (o : Owner) (s : State) : (s.setOwner p o).fetch = s.fetch := rfl
@[simp] theorem State.setOwner_medCfg (p : Fin 128) (o : Owner) (s : State) : (s.setOwner p o).medCfg = s.medCfg := rfl
@[simp] theorem State.setOwner_usb (p : Fin 128) (o : Owner) (s : State) : (s.setOwner p o).usb = s.usb := rfl
@[simp] theorem State.setOwner_power (p : Fin 128) (o : Owner) (s : State) : (s.setOwner p o).power = s.power := rfl
@[simp] theorem State.setOwner_sup (p : Fin 128) (o : Owner) (s : State) : (s.setOwner p o).sup = s.sup := rfl
@[simp] theorem State.setOwner_link (p : Fin 128) (o : Owner) (s : State) : (s.setOwner p o).link = s.link := rfl

/-! ## State.modLine -/

@[simp] theorem State.modLine_pending (tag : Nat) (f : CacheLine → CacheLine) (s : State) :
    (s.modLine tag f).pending = s.pending := rfl
@[simp] theorem State.modLine_inReset (tag : Nat) (f : CacheLine → CacheLine) (s : State) :
    (s.modLine tag f).inReset = s.inReset := rfl
@[simp] theorem State.modLine_cause (tag : Nat) (f : CacheLine → CacheLine) (s : State) :
    (s.modLine tag f).cause = s.cause := rfl
@[simp] theorem State.modLine_time (tag : Nat) (f : CacheLine → CacheLine) (s : State) :
    (s.modLine tag f).time = s.time := rfl
@[simp] theorem State.modLine_start (tag : Nat) (f : CacheLine → CacheLine) (s : State) :
    (s.modLine tag f).start = s.start := rfl
@[simp] theorem State.modLine_restore (tag : Nat) (f : CacheLine → CacheLine) (s : State) :
    (s.modLine tag f).restore = s.restore := rfl
@[simp] theorem State.modLine_image (tag : Nat) (f : CacheLine → CacheLine) (s : State) :
    (s.modLine tag f).image = s.image := rfl
@[simp] theorem State.modLine_save (tag : Nat) (f : CacheLine → CacheLine) (s : State) :
    (s.modLine tag f).save = s.save := rfl
@[simp] theorem State.modLine_faults (tag : Nat) (f : CacheLine → CacheLine) (s : State) :
    (s.modLine tag f).faults = s.faults := rfl
@[simp] theorem State.modLine_ports (tag : Nat) (f : CacheLine → CacheLine) (s : State) :
    (s.modLine tag f).ports = s.ports := rfl
@[simp] theorem State.modLine_t0 (tag : Nat) (f : CacheLine → CacheLine) (s : State) :
    (s.modLine tag f).t0 = s.t0 := rfl
@[simp] theorem State.modLine_t1 (tag : Nat) (f : CacheLine → CacheLine) (s : State) :
    (s.modLine tag f).t1 = s.t1 := rfl
@[simp] theorem State.modLine_markers (tag : Nat) (f : CacheLine → CacheLine) (s : State) :
    (s.modLine tag f).markers = s.markers := rfl
@[simp] theorem State.modLine_markReg (tag : Nat) (f : CacheLine → CacheLine) (s : State) :
    (s.modLine tag f).markReg = s.markReg := rfl
@[simp] theorem State.modLine_mem (tag : Nat) (f : CacheLine → CacheLine) (s : State) :
    (s.modLine tag f).mem = s.mem := rfl
@[simp] theorem State.modLine_rows (tag : Nat) (f : CacheLine → CacheLine) (s : State) :
    (s.modLine tag f).rows = s.rows := rfl
@[simp] theorem State.modLine_owners (tag : Nat) (f : CacheLine → CacheLine) (s : State) :
    (s.modLine tag f).owners = s.owners := rfl
@[simp] theorem State.modLine_committed (tag : Nat) (f : CacheLine → CacheLine) (s : State) :
    (s.modLine tag f).committed = s.committed := rfl
@[simp] theorem State.modLine_reclaims (tag : Nat) (f : CacheLine → CacheLine) (s : State) :
    (s.modLine tag f).reclaims = s.reclaims := rfl
@[simp] theorem State.modLine_media (tag : Nat) (f : CacheLine → CacheLine) (s : State) :
    (s.modLine tag f).media = s.media := rfl
@[simp] theorem State.modLine_cache (tag : Nat) (f : CacheLine → CacheLine) (s : State) :
    (s.modLine tag f).cache = s.cache.map fun l => if l.tag == tag then f l else l := rfl
@[simp] theorem State.modLine_fetch (tag : Nat) (f : CacheLine → CacheLine) (s : State) :
    (s.modLine tag f).fetch = s.fetch := rfl
@[simp] theorem State.modLine_medCfg (tag : Nat) (f : CacheLine → CacheLine) (s : State) :
    (s.modLine tag f).medCfg = s.medCfg := rfl
@[simp] theorem State.modLine_usb (tag : Nat) (f : CacheLine → CacheLine) (s : State) :
    (s.modLine tag f).usb = s.usb := rfl
@[simp] theorem State.modLine_power (tag : Nat) (f : CacheLine → CacheLine) (s : State) :
    (s.modLine tag f).power = s.power := rfl
@[simp] theorem State.modLine_sup (tag : Nat) (f : CacheLine → CacheLine) (s : State) :
    (s.modLine tag f).sup = s.sup := rfl
@[simp] theorem State.modLine_link (tag : Nat) (f : CacheLine → CacheLine) (s : State) :
    (s.modLine tag f).link = s.link := rfl

/-! ## State.setBlock -/

@[simp] theorem State.setBlock_pending (lba : Nat) (b : BlockState) (s : State) :
    (s.setBlock lba b).pending = s.pending := rfl
@[simp] theorem State.setBlock_inReset (lba : Nat) (b : BlockState) (s : State) :
    (s.setBlock lba b).inReset = s.inReset := rfl
@[simp] theorem State.setBlock_cause (lba : Nat) (b : BlockState) (s : State) :
    (s.setBlock lba b).cause = s.cause := rfl
@[simp] theorem State.setBlock_time (lba : Nat) (b : BlockState) (s : State) : (s.setBlock lba b).time = s.time := rfl
@[simp] theorem State.setBlock_start (lba : Nat) (b : BlockState) (s : State) :
    (s.setBlock lba b).start = s.start := rfl
@[simp] theorem State.setBlock_restore (lba : Nat) (b : BlockState) (s : State) :
    (s.setBlock lba b).restore = s.restore := rfl
@[simp] theorem State.setBlock_image (lba : Nat) (b : BlockState) (s : State) :
    (s.setBlock lba b).image = s.image := rfl
@[simp] theorem State.setBlock_save (lba : Nat) (b : BlockState) (s : State) : (s.setBlock lba b).save = s.save := rfl
@[simp] theorem State.setBlock_faults (lba : Nat) (b : BlockState) (s : State) :
    (s.setBlock lba b).faults = s.faults := rfl
@[simp] theorem State.setBlock_ports (lba : Nat) (b : BlockState) (s : State) :
    (s.setBlock lba b).ports = s.ports := rfl
@[simp] theorem State.setBlock_t0 (lba : Nat) (b : BlockState) (s : State) : (s.setBlock lba b).t0 = s.t0 := rfl
@[simp] theorem State.setBlock_t1 (lba : Nat) (b : BlockState) (s : State) : (s.setBlock lba b).t1 = s.t1 := rfl
@[simp] theorem State.setBlock_markers (lba : Nat) (b : BlockState) (s : State) :
    (s.setBlock lba b).markers = s.markers := rfl
@[simp] theorem State.setBlock_markReg (lba : Nat) (b : BlockState) (s : State) :
    (s.setBlock lba b).markReg = s.markReg := rfl
@[simp] theorem State.setBlock_mem (lba : Nat) (b : BlockState) (s : State) : (s.setBlock lba b).mem = s.mem := rfl
@[simp] theorem State.setBlock_rows (lba : Nat) (b : BlockState) (s : State) : (s.setBlock lba b).rows = s.rows := rfl
@[simp] theorem State.setBlock_owners (lba : Nat) (b : BlockState) (s : State) :
    (s.setBlock lba b).owners = s.owners := rfl
@[simp] theorem State.setBlock_committed (lba : Nat) (b : BlockState) (s : State) :
    (s.setBlock lba b).committed = s.committed := rfl
@[simp] theorem State.setBlock_reclaims (lba : Nat) (b : BlockState) (s : State) :
    (s.setBlock lba b).reclaims = s.reclaims := rfl
@[simp] theorem State.setBlock_media (lba : Nat) (b : BlockState) (s : State) :
    (s.setBlock lba b).media = s.media := rfl
@[simp] theorem State.setBlock_fetch (lba : Nat) (b : BlockState) (s : State) :
    (s.setBlock lba b).fetch = s.fetch := rfl
@[simp] theorem State.setBlock_medCfg (lba : Nat) (b : BlockState) (s : State) :
    (s.setBlock lba b).medCfg = s.medCfg := rfl
@[simp] theorem State.setBlock_usb (lba : Nat) (b : BlockState) (s : State) : (s.setBlock lba b).usb = s.usb := rfl
@[simp] theorem State.setBlock_power (lba : Nat) (b : BlockState) (s : State) :
    (s.setBlock lba b).power = s.power := rfl
@[simp] theorem State.setBlock_sup (lba : Nat) (b : BlockState) (s : State) : (s.setBlock lba b).sup = s.sup := rfl
@[simp] theorem State.setBlock_link (lba : Nat) (b : BlockState) (s : State) : (s.setBlock lba b).link = s.link := rfl

/-! ## State.dropLine -/

@[simp] theorem State.dropLine_pending (tag : Nat) (s : State) : (s.dropLine tag).pending = s.pending := rfl
@[simp] theorem State.dropLine_inReset (tag : Nat) (s : State) : (s.dropLine tag).inReset = s.inReset := rfl
@[simp] theorem State.dropLine_cause (tag : Nat) (s : State) : (s.dropLine tag).cause = s.cause := rfl
@[simp] theorem State.dropLine_time (tag : Nat) (s : State) : (s.dropLine tag).time = s.time := rfl
@[simp] theorem State.dropLine_start (tag : Nat) (s : State) : (s.dropLine tag).start = s.start := rfl
@[simp] theorem State.dropLine_restore (tag : Nat) (s : State) : (s.dropLine tag).restore = s.restore := rfl
@[simp] theorem State.dropLine_image (tag : Nat) (s : State) : (s.dropLine tag).image = s.image := rfl
@[simp] theorem State.dropLine_save (tag : Nat) (s : State) : (s.dropLine tag).save = s.save := rfl
@[simp] theorem State.dropLine_faults (tag : Nat) (s : State) : (s.dropLine tag).faults = s.faults := rfl
@[simp] theorem State.dropLine_ports (tag : Nat) (s : State) : (s.dropLine tag).ports = s.ports := rfl
@[simp] theorem State.dropLine_t0 (tag : Nat) (s : State) : (s.dropLine tag).t0 = s.t0 := rfl
@[simp] theorem State.dropLine_t1 (tag : Nat) (s : State) : (s.dropLine tag).t1 = s.t1 := rfl
@[simp] theorem State.dropLine_markers (tag : Nat) (s : State) : (s.dropLine tag).markers = s.markers := rfl
@[simp] theorem State.dropLine_markReg (tag : Nat) (s : State) : (s.dropLine tag).markReg = s.markReg := rfl
@[simp] theorem State.dropLine_mem (tag : Nat) (s : State) : (s.dropLine tag).mem = s.mem := rfl
@[simp] theorem State.dropLine_rows (tag : Nat) (s : State) : (s.dropLine tag).rows = s.rows := rfl
@[simp] theorem State.dropLine_owners (tag : Nat) (s : State) : (s.dropLine tag).owners = s.owners := rfl
@[simp] theorem State.dropLine_committed (tag : Nat) (s : State) : (s.dropLine tag).committed = s.committed := rfl
@[simp] theorem State.dropLine_reclaims (tag : Nat) (s : State) : (s.dropLine tag).reclaims = s.reclaims := rfl
@[simp] theorem State.dropLine_media (tag : Nat) (s : State) : (s.dropLine tag).media = s.media := rfl
@[simp] theorem State.dropLine_cache (tag : Nat) (s : State) :
    (s.dropLine tag).cache = s.cache.filter fun l => l.tag != tag := rfl
@[simp] theorem State.dropLine_fetch (tag : Nat) (s : State) : (s.dropLine tag).fetch = s.fetch := rfl
@[simp] theorem State.dropLine_medCfg (tag : Nat) (s : State) : (s.dropLine tag).medCfg = s.medCfg := rfl
@[simp] theorem State.dropLine_usb (tag : Nat) (s : State) : (s.dropLine tag).usb = s.usb := rfl
@[simp] theorem State.dropLine_power (tag : Nat) (s : State) : (s.dropLine tag).power = s.power := rfl
@[simp] theorem State.dropLine_sup (tag : Nat) (s : State) : (s.dropLine tag).sup = s.sup := rfl
@[simp] theorem State.dropLine_link (tag : Nat) (s : State) : (s.dropLine tag).link = s.link := rfl

/-! ## State.setCurrent -/

@[simp] theorem State.setCurrent_pending (c : Current) (s : State) : (s.setCurrent c).pending = s.pending := rfl
@[simp] theorem State.setCurrent_inReset (c : Current) (s : State) : (s.setCurrent c).inReset = s.inReset := rfl
@[simp] theorem State.setCurrent_cause (c : Current) (s : State) : (s.setCurrent c).cause = s.cause := rfl
@[simp] theorem State.setCurrent_time (c : Current) (s : State) : (s.setCurrent c).time = s.time := rfl
@[simp] theorem State.setCurrent_start (c : Current) (s : State) : (s.setCurrent c).start = s.start := rfl
@[simp] theorem State.setCurrent_restore (c : Current) (s : State) : (s.setCurrent c).restore = s.restore := rfl
@[simp] theorem State.setCurrent_image (c : Current) (s : State) : (s.setCurrent c).image = s.image := rfl
@[simp] theorem State.setCurrent_save (c : Current) (s : State) : (s.setCurrent c).save = s.save := rfl
@[simp] theorem State.setCurrent_faults (c : Current) (s : State) : (s.setCurrent c).faults = s.faults := rfl
@[simp] theorem State.setCurrent_ports (c : Current) (s : State) : (s.setCurrent c).ports = s.ports := rfl
@[simp] theorem State.setCurrent_t0 (c : Current) (s : State) : (s.setCurrent c).t0 = s.t0 := rfl
@[simp] theorem State.setCurrent_t1 (c : Current) (s : State) : (s.setCurrent c).t1 = s.t1 := rfl
@[simp] theorem State.setCurrent_markers (c : Current) (s : State) : (s.setCurrent c).markers = s.markers := rfl
@[simp] theorem State.setCurrent_markReg (c : Current) (s : State) : (s.setCurrent c).markReg = s.markReg := rfl
@[simp] theorem State.setCurrent_mem (c : Current) (s : State) : (s.setCurrent c).mem = s.mem := rfl
@[simp] theorem State.setCurrent_rows (c : Current) (s : State) : (s.setCurrent c).rows = s.rows := rfl
@[simp] theorem State.setCurrent_owners (c : Current) (s : State) : (s.setCurrent c).owners = s.owners := rfl
@[simp] theorem State.setCurrent_committed (c : Current) (s : State) : (s.setCurrent c).committed = s.committed := rfl
@[simp] theorem State.setCurrent_reclaims (c : Current) (s : State) : (s.setCurrent c).reclaims = s.reclaims := rfl
@[simp] theorem State.setCurrent_media (c : Current) (s : State) : (s.setCurrent c).media = s.media := rfl
@[simp] theorem State.setCurrent_cache (c : Current) (s : State) : (s.setCurrent c).cache = s.cache := rfl
@[simp] theorem State.setCurrent_fetch (c : Current) (s : State) : (s.setCurrent c).fetch = s.fetch := rfl
@[simp] theorem State.setCurrent_medCfg (c : Current) (s : State) : (s.setCurrent c).medCfg = s.medCfg := rfl
@[simp] theorem State.setCurrent_usb (c : Current) (s : State) :
    (s.setCurrent c).usb = { s.usb with current := some c } := rfl
@[simp] theorem State.setCurrent_power (c : Current) (s : State) : (s.setCurrent c).power = s.power := rfl
@[simp] theorem State.setCurrent_sup (c : Current) (s : State) : (s.setCurrent c).sup = s.sup := rfl
@[simp] theorem State.setCurrent_link (c : Current) (s : State) : (s.setCurrent c).link = s.link := rfl

/-! ## State.removeDirty -/

@[simp] theorem State.removeDirty_pending (lba : Nat) (s : State) : (s.removeDirty lba).pending = s.pending := rfl
@[simp] theorem State.removeDirty_inReset (lba : Nat) (s : State) : (s.removeDirty lba).inReset = s.inReset := rfl
@[simp] theorem State.removeDirty_cause (lba : Nat) (s : State) : (s.removeDirty lba).cause = s.cause := rfl
@[simp] theorem State.removeDirty_time (lba : Nat) (s : State) : (s.removeDirty lba).time = s.time := rfl
@[simp] theorem State.removeDirty_start (lba : Nat) (s : State) : (s.removeDirty lba).start = s.start := rfl
@[simp] theorem State.removeDirty_restore (lba : Nat) (s : State) : (s.removeDirty lba).restore = s.restore := rfl
@[simp] theorem State.removeDirty_image (lba : Nat) (s : State) : (s.removeDirty lba).image = s.image := rfl
@[simp] theorem State.removeDirty_save (lba : Nat) (s : State) : (s.removeDirty lba).save = s.save := rfl
@[simp] theorem State.removeDirty_faults (lba : Nat) (s : State) : (s.removeDirty lba).faults = s.faults := rfl
@[simp] theorem State.removeDirty_ports (lba : Nat) (s : State) : (s.removeDirty lba).ports = s.ports := rfl
@[simp] theorem State.removeDirty_t0 (lba : Nat) (s : State) : (s.removeDirty lba).t0 = s.t0 := rfl
@[simp] theorem State.removeDirty_t1 (lba : Nat) (s : State) : (s.removeDirty lba).t1 = s.t1 := rfl
@[simp] theorem State.removeDirty_markers (lba : Nat) (s : State) : (s.removeDirty lba).markers = s.markers := rfl
@[simp] theorem State.removeDirty_markReg (lba : Nat) (s : State) : (s.removeDirty lba).markReg = s.markReg := rfl
@[simp] theorem State.removeDirty_mem (lba : Nat) (s : State) : (s.removeDirty lba).mem = s.mem := rfl
@[simp] theorem State.removeDirty_rows (lba : Nat) (s : State) : (s.removeDirty lba).rows = s.rows := rfl
@[simp] theorem State.removeDirty_owners (lba : Nat) (s : State) : (s.removeDirty lba).owners = s.owners := rfl
@[simp] theorem State.removeDirty_committed (lba : Nat) (s : State) : (s.removeDirty lba).committed = s.committed := rfl
@[simp] theorem State.removeDirty_reclaims (lba : Nat) (s : State) : (s.removeDirty lba).reclaims = s.reclaims := rfl
@[simp] theorem State.removeDirty_media (lba : Nat) (s : State) : (s.removeDirty lba).media = s.media := rfl
@[simp] theorem State.removeDirty_cache (lba : Nat) (s : State) : (s.removeDirty lba).cache = s.cache := rfl
@[simp] theorem State.removeDirty_fetch (lba : Nat) (s : State) : (s.removeDirty lba).fetch = s.fetch := rfl
@[simp] theorem State.removeDirty_medCfg (lba : Nat) (s : State) : (s.removeDirty lba).medCfg = s.medCfg := rfl
@[simp] theorem State.removeDirty_usb (lba : Nat) (s : State) :
    (s.removeDirty lba).usb = { s.usb with dirty := s.usb.dirty.filter (· ≠ lba) } := rfl
@[simp] theorem State.removeDirty_power (lba : Nat) (s : State) : (s.removeDirty lba).power = s.power := rfl
@[simp] theorem State.removeDirty_sup (lba : Nat) (s : State) : (s.removeDirty lba).sup = s.sup := rfl
@[simp] theorem State.removeDirty_link (lba : Nat) (s : State) : (s.removeDirty lba).link = s.link := rfl

/-! ## State.dropDrain -/

@[simp] theorem State.dropDrain_pending (lba : Nat) (s : State) : (s.dropDrain lba).pending = s.pending := rfl
@[simp] theorem State.dropDrain_inReset (lba : Nat) (s : State) : (s.dropDrain lba).inReset = s.inReset := rfl
@[simp] theorem State.dropDrain_cause (lba : Nat) (s : State) : (s.dropDrain lba).cause = s.cause := rfl
@[simp] theorem State.dropDrain_time (lba : Nat) (s : State) : (s.dropDrain lba).time = s.time := rfl
@[simp] theorem State.dropDrain_start (lba : Nat) (s : State) : (s.dropDrain lba).start = s.start := rfl
@[simp] theorem State.dropDrain_restore (lba : Nat) (s : State) : (s.dropDrain lba).restore = s.restore := rfl
@[simp] theorem State.dropDrain_image (lba : Nat) (s : State) : (s.dropDrain lba).image = s.image := rfl
@[simp] theorem State.dropDrain_save (lba : Nat) (s : State) : (s.dropDrain lba).save = s.save := rfl
@[simp] theorem State.dropDrain_faults (lba : Nat) (s : State) : (s.dropDrain lba).faults = s.faults := rfl
@[simp] theorem State.dropDrain_ports (lba : Nat) (s : State) : (s.dropDrain lba).ports = s.ports := rfl
@[simp] theorem State.dropDrain_t0 (lba : Nat) (s : State) : (s.dropDrain lba).t0 = s.t0 := rfl
@[simp] theorem State.dropDrain_t1 (lba : Nat) (s : State) : (s.dropDrain lba).t1 = s.t1 := rfl
@[simp] theorem State.dropDrain_markers (lba : Nat) (s : State) : (s.dropDrain lba).markers = s.markers := rfl
@[simp] theorem State.dropDrain_markReg (lba : Nat) (s : State) : (s.dropDrain lba).markReg = s.markReg := rfl
@[simp] theorem State.dropDrain_mem (lba : Nat) (s : State) : (s.dropDrain lba).mem = s.mem := rfl
@[simp] theorem State.dropDrain_rows (lba : Nat) (s : State) : (s.dropDrain lba).rows = s.rows := rfl
@[simp] theorem State.dropDrain_owners (lba : Nat) (s : State) : (s.dropDrain lba).owners = s.owners := rfl
@[simp] theorem State.dropDrain_committed (lba : Nat) (s : State) : (s.dropDrain lba).committed = s.committed := rfl
@[simp] theorem State.dropDrain_reclaims (lba : Nat) (s : State) : (s.dropDrain lba).reclaims = s.reclaims := rfl
@[simp] theorem State.dropDrain_media (lba : Nat) (s : State) : (s.dropDrain lba).media = s.media := rfl
@[simp] theorem State.dropDrain_cache (lba : Nat) (s : State) : (s.dropDrain lba).cache = s.cache := rfl
@[simp] theorem State.dropDrain_fetch (lba : Nat) (s : State) : (s.dropDrain lba).fetch = s.fetch := rfl
@[simp] theorem State.dropDrain_medCfg (lba : Nat) (s : State) : (s.dropDrain lba).medCfg = s.medCfg := rfl
@[simp] theorem State.dropDrain_usb (lba : Nat) (s : State) :
    (s.dropDrain lba).usb = { s.usb with drains := s.usb.drains.filter (·.lba ≠ lba) } := rfl
@[simp] theorem State.dropDrain_power (lba : Nat) (s : State) : (s.dropDrain lba).power = s.power := rfl
@[simp] theorem State.dropDrain_sup (lba : Nat) (s : State) : (s.dropDrain lba).sup = s.sup := rfl
@[simp] theorem State.dropDrain_link (lba : Nat) (s : State) : (s.dropDrain lba).link = s.link := rfl

/-! ## State.connect -/

@[simp] theorem State.connect_pending (s : State) : (s.connect).pending = s.pending := rfl
@[simp] theorem State.connect_inReset (s : State) : (s.connect).inReset = s.inReset := rfl
@[simp] theorem State.connect_cause (s : State) : (s.connect).cause = s.cause := rfl
@[simp] theorem State.connect_time (s : State) : (s.connect).time = s.time := rfl
@[simp] theorem State.connect_start (s : State) : (s.connect).start = s.start := rfl
@[simp] theorem State.connect_restore (s : State) : (s.connect).restore = s.restore := rfl
@[simp] theorem State.connect_image (s : State) : (s.connect).image = s.image := rfl
@[simp] theorem State.connect_save (s : State) : (s.connect).save = s.save := rfl
@[simp] theorem State.connect_faults (s : State) : (s.connect).faults = s.faults := rfl
@[simp] theorem State.connect_ports (s : State) : (s.connect).ports = s.ports := rfl
@[simp] theorem State.connect_t0 (s : State) : (s.connect).t0 = s.t0 := rfl
@[simp] theorem State.connect_t1 (s : State) : (s.connect).t1 = s.t1 := rfl
@[simp] theorem State.connect_markers (s : State) : (s.connect).markers = s.markers := rfl
@[simp] theorem State.connect_markReg (s : State) : (s.connect).markReg = s.markReg := rfl
@[simp] theorem State.connect_mem (s : State) : (s.connect).mem = s.mem := rfl
@[simp] theorem State.connect_rows (s : State) : (s.connect).rows = s.rows := rfl
@[simp] theorem State.connect_owners (s : State) : (s.connect).owners = s.owners := rfl
@[simp] theorem State.connect_committed (s : State) : (s.connect).committed = s.committed := rfl
@[simp] theorem State.connect_reclaims (s : State) : (s.connect).reclaims = s.reclaims := rfl
@[simp] theorem State.connect_media (s : State) : (s.connect).media = s.media := rfl
@[simp] theorem State.connect_cache (s : State) : (s.connect).cache = s.cache := rfl
@[simp] theorem State.connect_fetch (s : State) : (s.connect).fetch = s.fetch := rfl
@[simp] theorem State.connect_medCfg (s : State) : (s.connect).medCfg = s.medCfg := rfl
@[simp] theorem State.connect_usb (s : State) :
    (s.connect).usb = { s.usb with connected := true, mediumChanged := true, sense := none } := rfl
@[simp] theorem State.connect_power (s : State) : (s.connect).power = s.power := rfl
@[simp] theorem State.connect_sup (s : State) : (s.connect).sup = s.sup := rfl
@[simp] theorem State.connect_link (s : State) : (s.connect).link = s.link := rfl

/-! ## State.disconnect -/

@[simp] theorem State.disconnect_pending (s : State) : (s.disconnect).pending = s.pending := rfl
@[simp] theorem State.disconnect_inReset (s : State) : (s.disconnect).inReset = s.inReset := rfl
@[simp] theorem State.disconnect_cause (s : State) : (s.disconnect).cause = s.cause := rfl
@[simp] theorem State.disconnect_time (s : State) : (s.disconnect).time = s.time := rfl
@[simp] theorem State.disconnect_start (s : State) : (s.disconnect).start = s.start := rfl
@[simp] theorem State.disconnect_restore (s : State) : (s.disconnect).restore = s.restore := rfl
@[simp] theorem State.disconnect_image (s : State) : (s.disconnect).image = s.image := rfl
@[simp] theorem State.disconnect_save (s : State) : (s.disconnect).save = s.save := rfl
@[simp] theorem State.disconnect_faults (s : State) : (s.disconnect).faults = s.faults := rfl
@[simp] theorem State.disconnect_ports (s : State) : (s.disconnect).ports = s.ports := rfl
@[simp] theorem State.disconnect_t0 (s : State) : (s.disconnect).t0 = s.t0 := rfl
@[simp] theorem State.disconnect_t1 (s : State) : (s.disconnect).t1 = s.t1 := rfl
@[simp] theorem State.disconnect_markers (s : State) : (s.disconnect).markers = s.markers := rfl
@[simp] theorem State.disconnect_markReg (s : State) : (s.disconnect).markReg = s.markReg := rfl
@[simp] theorem State.disconnect_mem (s : State) : (s.disconnect).mem = s.mem := rfl
@[simp] theorem State.disconnect_rows (s : State) : (s.disconnect).rows = s.rows := rfl
@[simp] theorem State.disconnect_owners (s : State) : (s.disconnect).owners = s.owners := rfl
@[simp] theorem State.disconnect_committed (s : State) : (s.disconnect).committed = s.committed := rfl
@[simp] theorem State.disconnect_reclaims (s : State) : (s.disconnect).reclaims = s.reclaims := rfl
@[simp] theorem State.disconnect_media (s : State) : (s.disconnect).media = s.media := rfl
@[simp] theorem State.disconnect_cache (s : State) : (s.disconnect).cache = s.cache := rfl
@[simp] theorem State.disconnect_fetch (s : State) : (s.disconnect).fetch = s.fetch := rfl
@[simp] theorem State.disconnect_medCfg (s : State) : (s.disconnect).medCfg = s.medCfg := rfl
@[simp] theorem State.disconnect_usb (s : State) :
    (s.disconnect).usb = { s.usb with connected := false, current := none, sense := none } := rfl
@[simp] theorem State.disconnect_power (s : State) : (s.disconnect).power = s.power := rfl
@[simp] theorem State.disconnect_sup (s : State) : (s.disconnect).sup = s.sup := rfl
@[simp] theorem State.disconnect_link (s : State) : (s.disconnect).link = s.link := rfl

/-! ## State.clearFlag -/

@[simp] theorem State.clearFlag_pending (r : Report) (s : State) : (s.clearFlag r).pending = s.pending := rfl
@[simp] theorem State.clearFlag_inReset (r : Report) (s : State) : (s.clearFlag r).inReset = s.inReset := rfl
@[simp] theorem State.clearFlag_cause (r : Report) (s : State) : (s.clearFlag r).cause = s.cause := rfl
@[simp] theorem State.clearFlag_time (r : Report) (s : State) : (s.clearFlag r).time = s.time := rfl
@[simp] theorem State.clearFlag_start (r : Report) (s : State) : (s.clearFlag r).start = s.start := rfl
@[simp] theorem State.clearFlag_restore (r : Report) (s : State) : (s.clearFlag r).restore = s.restore := rfl
@[simp] theorem State.clearFlag_image (r : Report) (s : State) : (s.clearFlag r).image = s.image := rfl
@[simp] theorem State.clearFlag_save (r : Report) (s : State) : (s.clearFlag r).save = s.save := rfl
@[simp] theorem State.clearFlag_faults (r : Report) (s : State) : (s.clearFlag r).faults = s.faults := rfl
@[simp] theorem State.clearFlag_ports (r : Report) (s : State) : (s.clearFlag r).ports = s.ports := rfl
@[simp] theorem State.clearFlag_t0 (r : Report) (s : State) : (s.clearFlag r).t0 = s.t0 := rfl
@[simp] theorem State.clearFlag_t1 (r : Report) (s : State) : (s.clearFlag r).t1 = s.t1 := rfl
@[simp] theorem State.clearFlag_markers (r : Report) (s : State) : (s.clearFlag r).markers = s.markers := rfl
@[simp] theorem State.clearFlag_markReg (r : Report) (s : State) : (s.clearFlag r).markReg = s.markReg := rfl
@[simp] theorem State.clearFlag_mem (r : Report) (s : State) : (s.clearFlag r).mem = s.mem := rfl
@[simp] theorem State.clearFlag_rows (r : Report) (s : State) : (s.clearFlag r).rows = s.rows := rfl
@[simp] theorem State.clearFlag_owners (r : Report) (s : State) : (s.clearFlag r).owners = s.owners := rfl
@[simp] theorem State.clearFlag_committed (r : Report) (s : State) : (s.clearFlag r).committed = s.committed := rfl
@[simp] theorem State.clearFlag_reclaims (r : Report) (s : State) : (s.clearFlag r).reclaims = s.reclaims := rfl
@[simp] theorem State.clearFlag_media (r : Report) (s : State) : (s.clearFlag r).media = s.media := rfl
@[simp] theorem State.clearFlag_cache (r : Report) (s : State) : (s.clearFlag r).cache = s.cache := rfl
@[simp] theorem State.clearFlag_fetch (r : Report) (s : State) : (s.clearFlag r).fetch = s.fetch := rfl
@[simp] theorem State.clearFlag_medCfg (r : Report) (s : State) : (s.clearFlag r).medCfg = s.medCfg := rfl
@[simp] theorem State.clearFlag_usb (r : Report) (s : State) : (s.clearFlag r).usb = s.usb := rfl
@[simp] theorem State.clearFlag_power (r : Report) (s : State) : (s.clearFlag r).power = s.power := rfl
@[simp] theorem State.clearFlag_sup (r : Report) (s : State) : (s.clearFlag r).sup = s.sup := rfl
@[simp] theorem State.clearFlag_link (r : Report) (s : State) :
    (s.clearFlag r).link = { s.link with flags := s.link.flags.filter (· ≠ r) } := rfl

/-! ## State.pushReply -/

@[simp] theorem State.pushReply_pending (r : Reply) (s : State) : (s.pushReply r).pending = s.pending := rfl
@[simp] theorem State.pushReply_inReset (r : Reply) (s : State) : (s.pushReply r).inReset = s.inReset := rfl
@[simp] theorem State.pushReply_cause (r : Reply) (s : State) : (s.pushReply r).cause = s.cause := rfl
@[simp] theorem State.pushReply_time (r : Reply) (s : State) : (s.pushReply r).time = s.time := rfl
@[simp] theorem State.pushReply_start (r : Reply) (s : State) : (s.pushReply r).start = s.start := rfl
@[simp] theorem State.pushReply_restore (r : Reply) (s : State) : (s.pushReply r).restore = s.restore := rfl
@[simp] theorem State.pushReply_image (r : Reply) (s : State) : (s.pushReply r).image = s.image := rfl
@[simp] theorem State.pushReply_save (r : Reply) (s : State) : (s.pushReply r).save = s.save := rfl
@[simp] theorem State.pushReply_faults (r : Reply) (s : State) : (s.pushReply r).faults = s.faults := rfl
@[simp] theorem State.pushReply_ports (r : Reply) (s : State) : (s.pushReply r).ports = s.ports := rfl
@[simp] theorem State.pushReply_t0 (r : Reply) (s : State) : (s.pushReply r).t0 = s.t0 := rfl
@[simp] theorem State.pushReply_t1 (r : Reply) (s : State) : (s.pushReply r).t1 = s.t1 := rfl
@[simp] theorem State.pushReply_markers (r : Reply) (s : State) : (s.pushReply r).markers = s.markers := rfl
@[simp] theorem State.pushReply_markReg (r : Reply) (s : State) : (s.pushReply r).markReg = s.markReg := rfl
@[simp] theorem State.pushReply_mem (r : Reply) (s : State) : (s.pushReply r).mem = s.mem := rfl
@[simp] theorem State.pushReply_rows (r : Reply) (s : State) : (s.pushReply r).rows = s.rows := rfl
@[simp] theorem State.pushReply_owners (r : Reply) (s : State) : (s.pushReply r).owners = s.owners := rfl
@[simp] theorem State.pushReply_committed (r : Reply) (s : State) : (s.pushReply r).committed = s.committed := rfl
@[simp] theorem State.pushReply_reclaims (r : Reply) (s : State) : (s.pushReply r).reclaims = s.reclaims := rfl
@[simp] theorem State.pushReply_media (r : Reply) (s : State) : (s.pushReply r).media = s.media := rfl
@[simp] theorem State.pushReply_cache (r : Reply) (s : State) : (s.pushReply r).cache = s.cache := rfl
@[simp] theorem State.pushReply_fetch (r : Reply) (s : State) : (s.pushReply r).fetch = s.fetch := rfl
@[simp] theorem State.pushReply_medCfg (r : Reply) (s : State) : (s.pushReply r).medCfg = s.medCfg := rfl
@[simp] theorem State.pushReply_usb (r : Reply) (s : State) : (s.pushReply r).usb = s.usb := rfl
@[simp] theorem State.pushReply_power (r : Reply) (s : State) : (s.pushReply r).power = s.power := rfl
@[simp] theorem State.pushReply_sup (r : Reply) (s : State) : (s.pushReply r).sup = s.sup := rfl
@[simp] theorem State.pushReply_link (r : Reply) (s : State) :
    (s.pushReply r).link = { s.link with replies := s.link.replies ++ [r] } := rfl

/-! ## State.shiftStatus -/

@[simp] theorem State.shiftStatus_pending (s : State) : (s.shiftStatus).pending = s.pending := rfl
@[simp] theorem State.shiftStatus_inReset (s : State) : (s.shiftStatus).inReset = s.inReset := rfl
@[simp] theorem State.shiftStatus_cause (s : State) : (s.shiftStatus).cause = s.cause := rfl
@[simp] theorem State.shiftStatus_time (s : State) : (s.shiftStatus).time = s.time := rfl
@[simp] theorem State.shiftStatus_start (s : State) : (s.shiftStatus).start = s.start := rfl
@[simp] theorem State.shiftStatus_restore (s : State) : (s.shiftStatus).restore = s.restore := rfl
@[simp] theorem State.shiftStatus_image (s : State) : (s.shiftStatus).image = s.image := rfl
@[simp] theorem State.shiftStatus_save (s : State) : (s.shiftStatus).save = s.save := rfl
@[simp] theorem State.shiftStatus_faults (s : State) : (s.shiftStatus).faults = s.faults := rfl
@[simp] theorem State.shiftStatus_ports (s : State) : (s.shiftStatus).ports = s.ports := rfl
@[simp] theorem State.shiftStatus_t0 (s : State) : (s.shiftStatus).t0 = s.t0 := rfl
@[simp] theorem State.shiftStatus_t1 (s : State) : (s.shiftStatus).t1 = s.t1 := rfl
@[simp] theorem State.shiftStatus_markers (s : State) : (s.shiftStatus).markers = s.markers := rfl
@[simp] theorem State.shiftStatus_markReg (s : State) : (s.shiftStatus).markReg = s.markReg := rfl
@[simp] theorem State.shiftStatus_mem (s : State) : (s.shiftStatus).mem = s.mem := rfl
@[simp] theorem State.shiftStatus_rows (s : State) : (s.shiftStatus).rows = s.rows := rfl
@[simp] theorem State.shiftStatus_owners (s : State) : (s.shiftStatus).owners = s.owners := rfl
@[simp] theorem State.shiftStatus_committed (s : State) : (s.shiftStatus).committed = s.committed := rfl
@[simp] theorem State.shiftStatus_reclaims (s : State) : (s.shiftStatus).reclaims = s.reclaims := rfl
@[simp] theorem State.shiftStatus_media (s : State) : (s.shiftStatus).media = s.media := rfl
@[simp] theorem State.shiftStatus_cache (s : State) : (s.shiftStatus).cache = s.cache := rfl
@[simp] theorem State.shiftStatus_fetch (s : State) : (s.shiftStatus).fetch = s.fetch := rfl
@[simp] theorem State.shiftStatus_medCfg (s : State) : (s.shiftStatus).medCfg = s.medCfg := rfl
@[simp] theorem State.shiftStatus_usb (s : State) : (s.shiftStatus).usb = s.usb := rfl
@[simp] theorem State.shiftStatus_power (s : State) : (s.shiftStatus).power = s.power := rfl
@[simp] theorem State.shiftStatus_sup (s : State) : (s.shiftStatus).sup = s.sup := rfl
@[simp] theorem State.shiftStatus_link (s : State) :
    (s.shiftStatus).link = { s.link with statusOut := s.statusByte } := rfl

/-! ## State.hold -/

@[simp] theorem State.hold_pending (h : Held) (frame : List Byte) (s : State) :
    (s.hold h frame).pending = s.pending := rfl
@[simp] theorem State.hold_inReset (h : Held) (frame : List Byte) (s : State) :
    (s.hold h frame).inReset = s.inReset := rfl
@[simp] theorem State.hold_cause (h : Held) (frame : List Byte) (s : State) : (s.hold h frame).cause = s.cause := rfl
@[simp] theorem State.hold_time (h : Held) (frame : List Byte) (s : State) : (s.hold h frame).time = s.time := rfl
@[simp] theorem State.hold_start (h : Held) (frame : List Byte) (s : State) : (s.hold h frame).start = s.start := rfl
@[simp] theorem State.hold_restore (h : Held) (frame : List Byte) (s : State) :
    (s.hold h frame).restore = s.restore := rfl
@[simp] theorem State.hold_image (h : Held) (frame : List Byte) (s : State) : (s.hold h frame).image = s.image := rfl
@[simp] theorem State.hold_save (h : Held) (frame : List Byte) (s : State) : (s.hold h frame).save = s.save := rfl
@[simp] theorem State.hold_faults (h : Held) (frame : List Byte) (s : State) : (s.hold h frame).faults = s.faults := rfl
@[simp] theorem State.hold_ports (h : Held) (frame : List Byte) (s : State) : (s.hold h frame).ports = s.ports := rfl
@[simp] theorem State.hold_t0 (h : Held) (frame : List Byte) (s : State) : (s.hold h frame).t0 = s.t0 := rfl
@[simp] theorem State.hold_t1 (h : Held) (frame : List Byte) (s : State) : (s.hold h frame).t1 = s.t1 := rfl
@[simp] theorem State.hold_markers (h : Held) (frame : List Byte) (s : State) :
    (s.hold h frame).markers = s.markers := rfl
@[simp] theorem State.hold_markReg (h : Held) (frame : List Byte) (s : State) :
    (s.hold h frame).markReg = s.markReg := rfl
@[simp] theorem State.hold_mem (h : Held) (frame : List Byte) (s : State) : (s.hold h frame).mem = s.mem := rfl
@[simp] theorem State.hold_rows (h : Held) (frame : List Byte) (s : State) : (s.hold h frame).rows = s.rows := rfl
@[simp] theorem State.hold_owners (h : Held) (frame : List Byte) (s : State) : (s.hold h frame).owners = s.owners := rfl
@[simp] theorem State.hold_committed (h : Held) (frame : List Byte) (s : State) :
    (s.hold h frame).committed = s.committed := rfl
@[simp] theorem State.hold_reclaims (h : Held) (frame : List Byte) (s : State) :
    (s.hold h frame).reclaims = s.reclaims := rfl
@[simp] theorem State.hold_media (h : Held) (frame : List Byte) (s : State) : (s.hold h frame).media = s.media := rfl
@[simp] theorem State.hold_cache (h : Held) (frame : List Byte) (s : State) : (s.hold h frame).cache = s.cache := rfl
@[simp] theorem State.hold_fetch (h : Held) (frame : List Byte) (s : State) : (s.hold h frame).fetch = s.fetch := rfl
@[simp] theorem State.hold_medCfg (h : Held) (frame : List Byte) (s : State) : (s.hold h frame).medCfg = s.medCfg := rfl
@[simp] theorem State.hold_usb (h : Held) (frame : List Byte) (s : State) : (s.hold h frame).usb = s.usb := rfl
@[simp] theorem State.hold_power (h : Held) (frame : List Byte) (s : State) : (s.hold h frame).power = s.power := rfl
@[simp] theorem State.hold_sup (h : Held) (frame : List Byte) (s : State) : (s.hold h frame).sup = s.sup := rfl
@[simp] theorem State.hold_link (h : Held) (frame : List Byte) (s : State) :
    (s.hold h frame).link = { s.link with held := some h, outFrame := frame } := rfl

/-! ## State.retire -/

@[simp] theorem State.retire_pending (i : Fin 8) (s : State) : (s.retire i).pending = s.pending := rfl
@[simp] theorem State.retire_inReset (i : Fin 8) (s : State) : (s.retire i).inReset = s.inReset := rfl
@[simp] theorem State.retire_cause (i : Fin 8) (s : State) : (s.retire i).cause = s.cause := rfl
@[simp] theorem State.retire_time (i : Fin 8) (s : State) : (s.retire i).time = s.time := rfl
@[simp] theorem State.retire_start (i : Fin 8) (s : State) : (s.retire i).start = s.start := rfl
@[simp] theorem State.retire_restore (i : Fin 8) (s : State) : (s.retire i).restore = s.restore := rfl
@[simp] theorem State.retire_image (i : Fin 8) (s : State) : (s.retire i).image = s.image := rfl
@[simp] theorem State.retire_save (i : Fin 8) (s : State) : (s.retire i).save = s.save := rfl
@[simp] theorem State.retire_faults (i : Fin 8) (s : State) : (s.retire i).faults = s.faults := rfl
@[simp] theorem State.retire_ports (i : Fin 8) (s : State) : (s.retire i).ports = s.ports := rfl
@[simp] theorem State.retire_t0 (i : Fin 8) (s : State) : (s.retire i).t0 = s.t0 := rfl
@[simp] theorem State.retire_t1 (i : Fin 8) (s : State) : (s.retire i).t1 = s.t1 := rfl
@[simp] theorem State.retire_markers (i : Fin 8) (s : State) : (s.retire i).markers = s.markers := rfl
@[simp] theorem State.retire_markReg (i : Fin 8) (s : State) : (s.retire i).markReg = s.markReg := rfl
@[simp] theorem State.retire_mem (i : Fin 8) (s : State) : (s.retire i).mem = s.mem := rfl
@[simp] theorem State.retire_rows (i : Fin 8) (s : State) : (s.retire i).rows = s.rows := rfl
@[simp] theorem State.retire_owners (i : Fin 8) (s : State) : (s.retire i).owners = s.owners := rfl
@[simp] theorem State.retire_committed (i : Fin 8) (s : State) : (s.retire i).committed = s.committed := rfl
@[simp] theorem State.retire_reclaims (i : Fin 8) (s : State) : (s.retire i).reclaims = s.reclaims := rfl
@[simp] theorem State.retire_media (i : Fin 8) (s : State) : (s.retire i).media = s.media := rfl
@[simp] theorem State.retire_cache (i : Fin 8) (s : State) : (s.retire i).cache = s.cache := rfl
@[simp] theorem State.retire_fetch (i : Fin 8) (s : State) :
    (s.retire i).fetch = vupd s.fetch i fun f => { gen := f.gen + 1, live := none } := rfl
@[simp] theorem State.retire_medCfg (i : Fin 8) (s : State) : (s.retire i).medCfg = s.medCfg := rfl
@[simp] theorem State.retire_usb (i : Fin 8) (s : State) : (s.retire i).usb = s.usb := rfl
@[simp] theorem State.retire_power (i : Fin 8) (s : State) : (s.retire i).power = s.power := rfl
@[simp] theorem State.retire_sup (i : Fin 8) (s : State) : (s.retire i).sup = s.sup := rfl

/-! ## State.clearSpent -/

@[simp] theorem State.clearSpent_pending (s : State) : (s.clearSpent).pending = s.pending := rfl
@[simp] theorem State.clearSpent_inReset (s : State) : (s.clearSpent).inReset = s.inReset := rfl
@[simp] theorem State.clearSpent_cause (s : State) : (s.clearSpent).cause = s.cause := rfl
@[simp] theorem State.clearSpent_time (s : State) : (s.clearSpent).time = s.time := rfl
@[simp] theorem State.clearSpent_start (s : State) : (s.clearSpent).start = s.start := rfl
@[simp] theorem State.clearSpent_restore (s : State) : (s.clearSpent).restore = s.restore := rfl
@[simp] theorem State.clearSpent_image (s : State) : (s.clearSpent).image = s.image := rfl
@[simp] theorem State.clearSpent_save (s : State) : (s.clearSpent).save = s.save := rfl
@[simp] theorem State.clearSpent_faults (s : State) : (s.clearSpent).faults = s.faults := rfl
@[simp] theorem State.clearSpent_ports (s : State) : (s.clearSpent).ports = s.ports := rfl
@[simp] theorem State.clearSpent_t0 (s : State) : (s.clearSpent).t0 = s.t0 := rfl
@[simp] theorem State.clearSpent_t1 (s : State) : (s.clearSpent).t1 = s.t1 := rfl
@[simp] theorem State.clearSpent_markers (s : State) :
    (s.clearSpent).markers = vmap s.markers fun m => { m with spent := false } := rfl
@[simp] theorem State.clearSpent_markReg (s : State) : (s.clearSpent).markReg = s.markReg := rfl
@[simp] theorem State.clearSpent_mem (s : State) : (s.clearSpent).mem = s.mem := rfl
@[simp] theorem State.clearSpent_rows (s : State) : (s.clearSpent).rows = s.rows := rfl
@[simp] theorem State.clearSpent_owners (s : State) : (s.clearSpent).owners = s.owners := rfl
@[simp] theorem State.clearSpent_committed (s : State) : (s.clearSpent).committed = s.committed := rfl
@[simp] theorem State.clearSpent_reclaims (s : State) : (s.clearSpent).reclaims = s.reclaims := rfl
@[simp] theorem State.clearSpent_media (s : State) : (s.clearSpent).media = s.media := rfl
@[simp] theorem State.clearSpent_cache (s : State) : (s.clearSpent).cache = s.cache := rfl
@[simp] theorem State.clearSpent_fetch (s : State) : (s.clearSpent).fetch = s.fetch := rfl
@[simp] theorem State.clearSpent_medCfg (s : State) : (s.clearSpent).medCfg = s.medCfg := rfl
@[simp] theorem State.clearSpent_usb (s : State) : (s.clearSpent).usb = s.usb := rfl
@[simp] theorem State.clearSpent_power (s : State) : (s.clearSpent).power = s.power := rfl
@[simp] theorem State.clearSpent_sup (s : State) : (s.clearSpent).sup = s.sup := rfl
@[simp] theorem State.clearSpent_link (s : State) : (s.clearSpent).link = s.link := rfl

/-! ## State.disarm -/

@[simp] theorem State.disarm_pending (s : State) : (s.disarm).pending = s.pending := rfl
@[simp] theorem State.disarm_inReset (s : State) : (s.disarm).inReset = s.inReset := rfl
@[simp] theorem State.disarm_cause (s : State) : (s.disarm).cause = s.cause := rfl
@[simp] theorem State.disarm_time (s : State) : (s.disarm).time = s.time := rfl
@[simp] theorem State.disarm_start (s : State) : (s.disarm).start = s.start := rfl
@[simp] theorem State.disarm_restore (s : State) : (s.disarm).restore = s.restore := rfl
@[simp] theorem State.disarm_image (s : State) : (s.disarm).image = s.image := rfl
@[simp] theorem State.disarm_save (s : State) : (s.disarm).save = s.save := rfl
@[simp] theorem State.disarm_faults (s : State) : (s.disarm).faults = s.faults := rfl
@[simp] theorem State.disarm_ports (s : State) : (s.disarm).ports = s.ports := rfl
@[simp] theorem State.disarm_t0 (s : State) : (s.disarm).t0 = s.t0 := rfl
@[simp] theorem State.disarm_t1 (s : State) : (s.disarm).t1 = s.t1 := rfl
@[simp] theorem State.disarm_markers (s : State) : (s.disarm).markers = s.markers := rfl
@[simp] theorem State.disarm_markReg (s : State) : (s.disarm).markReg = s.markReg := rfl
@[simp] theorem State.disarm_mem (s : State) : (s.disarm).mem = s.mem := rfl
@[simp] theorem State.disarm_rows (s : State) : (s.disarm).rows = s.rows := rfl
@[simp] theorem State.disarm_owners (s : State) : (s.disarm).owners = s.owners := rfl
@[simp] theorem State.disarm_committed (s : State) : (s.disarm).committed = s.committed := rfl
@[simp] theorem State.disarm_reclaims (s : State) : (s.disarm).reclaims = s.reclaims := rfl
@[simp] theorem State.disarm_media (s : State) : (s.disarm).media = s.media := rfl
@[simp] theorem State.disarm_cache (s : State) : (s.disarm).cache = s.cache := rfl
@[simp] theorem State.disarm_fetch (s : State) : (s.disarm).fetch = s.fetch := rfl
@[simp] theorem State.disarm_medCfg (s : State) : (s.disarm).medCfg = s.medCfg := rfl
@[simp] theorem State.disarm_usb (s : State) : (s.disarm).usb = s.usb := rfl
@[simp] theorem State.disarm_power (s : State) : (s.disarm).power = s.power := rfl
@[simp] theorem State.disarm_link (s : State) : (s.disarm).link = s.link := rfl

/-! ## State.endBreaks -/

@[simp] theorem State.endBreaks_pending (s : State) : (s.endBreaks).pending = s.pending := rfl
@[simp] theorem State.endBreaks_inReset (s : State) : (s.endBreaks).inReset = s.inReset := rfl
@[simp] theorem State.endBreaks_cause (s : State) : (s.endBreaks).cause = s.cause := rfl
@[simp] theorem State.endBreaks_time (s : State) : (s.endBreaks).time = s.time := rfl
@[simp] theorem State.endBreaks_start (s : State) : (s.endBreaks).start = s.start := rfl
@[simp] theorem State.endBreaks_restore (s : State) : (s.endBreaks).restore = s.restore := rfl
@[simp] theorem State.endBreaks_image (s : State) : (s.endBreaks).image = s.image := rfl
@[simp] theorem State.endBreaks_save (s : State) : (s.endBreaks).save = s.save := rfl
@[simp] theorem State.endBreaks_faults (s : State) : (s.endBreaks).faults = s.faults := rfl
@[simp] theorem State.endBreaks_ports (s : State) :
    (s.endBreaks).ports = vmap s.ports (Port.endBreak s.time) := rfl
@[simp] theorem State.endBreaks_t0 (s : State) : (s.endBreaks).t0 = s.t0 := rfl
@[simp] theorem State.endBreaks_t1 (s : State) : (s.endBreaks).t1 = s.t1 := rfl
@[simp] theorem State.endBreaks_markers (s : State) : (s.endBreaks).markers = s.markers := rfl
@[simp] theorem State.endBreaks_markReg (s : State) : (s.endBreaks).markReg = s.markReg := rfl
@[simp] theorem State.endBreaks_mem (s : State) : (s.endBreaks).mem = s.mem := rfl
@[simp] theorem State.endBreaks_rows (s : State) : (s.endBreaks).rows = s.rows := rfl
@[simp] theorem State.endBreaks_owners (s : State) : (s.endBreaks).owners = s.owners := rfl
@[simp] theorem State.endBreaks_committed (s : State) : (s.endBreaks).committed = s.committed := rfl
@[simp] theorem State.endBreaks_reclaims (s : State) : (s.endBreaks).reclaims = s.reclaims := rfl
@[simp] theorem State.endBreaks_media (s : State) : (s.endBreaks).media = s.media := rfl
@[simp] theorem State.endBreaks_cache (s : State) : (s.endBreaks).cache = s.cache := rfl
@[simp] theorem State.endBreaks_fetch (s : State) : (s.endBreaks).fetch = s.fetch := rfl
@[simp] theorem State.endBreaks_medCfg (s : State) : (s.endBreaks).medCfg = s.medCfg := rfl
@[simp] theorem State.endBreaks_usb (s : State) : (s.endBreaks).usb = s.usb := rfl
@[simp] theorem State.endBreaks_power (s : State) : (s.endBreaks).power = s.power := rfl
@[simp] theorem State.endBreaks_sup (s : State) : (s.endBreaks).sup = s.sup := rfl
@[simp] theorem State.endBreaks_link (s : State) : (s.endBreaks).link = s.link := rfl

/-! ## State.upset -/

@[simp] theorem State.upset_pending (row : Fin 8192) (flips : List Byte) (s : State) :
    (s.upset row flips).pending = s.pending := rfl
@[simp] theorem State.upset_inReset (row : Fin 8192) (flips : List Byte) (s : State) :
    (s.upset row flips).inReset = s.inReset := rfl
@[simp] theorem State.upset_cause (row : Fin 8192) (flips : List Byte) (s : State) :
    (s.upset row flips).cause = s.cause := rfl
@[simp] theorem State.upset_time (row : Fin 8192) (flips : List Byte) (s : State) :
    (s.upset row flips).time = s.time := rfl
@[simp] theorem State.upset_start (row : Fin 8192) (flips : List Byte) (s : State) :
    (s.upset row flips).start = s.start := rfl
@[simp] theorem State.upset_restore (row : Fin 8192) (flips : List Byte) (s : State) :
    (s.upset row flips).restore = s.restore := rfl
@[simp] theorem State.upset_image (row : Fin 8192) (flips : List Byte) (s : State) :
    (s.upset row flips).image = s.image := rfl
@[simp] theorem State.upset_save (row : Fin 8192) (flips : List Byte) (s : State) :
    (s.upset row flips).save = s.save := rfl
@[simp] theorem State.upset_faults (row : Fin 8192) (flips : List Byte) (s : State) :
    (s.upset row flips).faults = s.faults := rfl
@[simp] theorem State.upset_ports (row : Fin 8192) (flips : List Byte) (s : State) :
    (s.upset row flips).ports = s.ports := rfl
@[simp] theorem State.upset_t0 (row : Fin 8192) (flips : List Byte) (s : State) : (s.upset row flips).t0 = s.t0 := rfl
@[simp] theorem State.upset_t1 (row : Fin 8192) (flips : List Byte) (s : State) : (s.upset row flips).t1 = s.t1 := rfl
@[simp] theorem State.upset_markers (row : Fin 8192) (flips : List Byte) (s : State) :
    (s.upset row flips).markers = s.markers := rfl
@[simp] theorem State.upset_markReg (row : Fin 8192) (flips : List Byte) (s : State) :
    (s.upset row flips).markReg = s.markReg := rfl
@[simp] theorem State.upset_rows (row : Fin 8192) (flips : List Byte) (s : State) :
    (s.upset row flips).rows = upsetRow s.rows row.val := rfl
@[simp] theorem State.upset_owners (row : Fin 8192) (flips : List Byte) (s : State) :
    (s.upset row flips).owners = s.owners := rfl
@[simp] theorem State.upset_committed (row : Fin 8192) (flips : List Byte) (s : State) :
    (s.upset row flips).committed = s.committed := rfl
@[simp] theorem State.upset_reclaims (row : Fin 8192) (flips : List Byte) (s : State) :
    (s.upset row flips).reclaims = s.reclaims := rfl
@[simp] theorem State.upset_media (row : Fin 8192) (flips : List Byte) (s : State) :
    (s.upset row flips).media = s.media := rfl
@[simp] theorem State.upset_cache (row : Fin 8192) (flips : List Byte) (s : State) :
    (s.upset row flips).cache = s.cache := rfl
@[simp] theorem State.upset_fetch (row : Fin 8192) (flips : List Byte) (s : State) :
    (s.upset row flips).fetch = s.fetch := rfl
@[simp] theorem State.upset_medCfg (row : Fin 8192) (flips : List Byte) (s : State) :
    (s.upset row flips).medCfg = s.medCfg := rfl
@[simp] theorem State.upset_usb (row : Fin 8192) (flips : List Byte) (s : State) :
    (s.upset row flips).usb = s.usb := rfl
@[simp] theorem State.upset_power (row : Fin 8192) (flips : List Byte) (s : State) :
    (s.upset row flips).power = s.power := rfl
@[simp] theorem State.upset_sup (row : Fin 8192) (flips : List Byte) (s : State) :
    (s.upset row flips).sup = s.sup := rfl
@[simp] theorem State.upset_link (row : Fin 8192) (flips : List Byte) (s : State) :
    (s.upset row flips).link = s.link := rfl

/-! ## State.pushAction -/

@[simp] theorem State.pushAction_pending (a : ActionRec) (s : State) : (s.pushAction a).pending = s.pending := rfl
@[simp] theorem State.pushAction_inReset (a : ActionRec) (s : State) : (s.pushAction a).inReset = s.inReset := rfl
@[simp] theorem State.pushAction_cause (a : ActionRec) (s : State) : (s.pushAction a).cause = s.cause := rfl
@[simp] theorem State.pushAction_time (a : ActionRec) (s : State) : (s.pushAction a).time = s.time := rfl
@[simp] theorem State.pushAction_start (a : ActionRec) (s : State) : (s.pushAction a).start = s.start := rfl
@[simp] theorem State.pushAction_restore (a : ActionRec) (s : State) : (s.pushAction a).restore = s.restore := rfl
@[simp] theorem State.pushAction_image (a : ActionRec) (s : State) : (s.pushAction a).image = s.image := rfl
@[simp] theorem State.pushAction_save (a : ActionRec) (s : State) : (s.pushAction a).save = s.save := rfl
@[simp] theorem State.pushAction_faults (a : ActionRec) (s : State) : (s.pushAction a).faults = s.faults := rfl
@[simp] theorem State.pushAction_ports (a : ActionRec) (s : State) : (s.pushAction a).ports = s.ports := rfl
@[simp] theorem State.pushAction_t0 (a : ActionRec) (s : State) : (s.pushAction a).t0 = s.t0 := rfl
@[simp] theorem State.pushAction_t1 (a : ActionRec) (s : State) : (s.pushAction a).t1 = s.t1 := rfl
@[simp] theorem State.pushAction_markers (a : ActionRec) (s : State) : (s.pushAction a).markers = s.markers := rfl
@[simp] theorem State.pushAction_markReg (a : ActionRec) (s : State) : (s.pushAction a).markReg = s.markReg := rfl
@[simp] theorem State.pushAction_mem (a : ActionRec) (s : State) : (s.pushAction a).mem = s.mem := rfl
@[simp] theorem State.pushAction_rows (a : ActionRec) (s : State) : (s.pushAction a).rows = s.rows := rfl
@[simp] theorem State.pushAction_owners (a : ActionRec) (s : State) : (s.pushAction a).owners = s.owners := rfl
@[simp] theorem State.pushAction_committed (a : ActionRec) (s : State) : (s.pushAction a).committed = s.committed := rfl
@[simp] theorem State.pushAction_reclaims (a : ActionRec) (s : State) : (s.pushAction a).reclaims = s.reclaims := rfl
@[simp] theorem State.pushAction_media (a : ActionRec) (s : State) : (s.pushAction a).media = s.media := rfl
@[simp] theorem State.pushAction_cache (a : ActionRec) (s : State) : (s.pushAction a).cache = s.cache := rfl
@[simp] theorem State.pushAction_fetch (a : ActionRec) (s : State) : (s.pushAction a).fetch = s.fetch := rfl
@[simp] theorem State.pushAction_medCfg (a : ActionRec) (s : State) : (s.pushAction a).medCfg = s.medCfg := rfl
@[simp] theorem State.pushAction_usb (a : ActionRec) (s : State) : (s.pushAction a).usb = s.usb := rfl
@[simp] theorem State.pushAction_power (a : ActionRec) (s : State) :
    (s.pushAction a).power = { s.power with last := some a, prior := s.power.last } := rfl
@[simp] theorem State.pushAction_sup (a : ActionRec) (s : State) : (s.pushAction a).sup = s.sup := rfl
@[simp] theorem State.pushAction_link (a : ActionRec) (s : State) : (s.pushAction a).link = s.link := rfl

/-! ## State.setFlag -/

/-- All that a flag's setting can do: the flags alone change. -/
theorem State.setFlag_eq (r : Report) (s : State) :
    s.setFlag r = { s with link := { s.link with
      flags := if r ∈ s.link.flags then s.link.flags else r :: s.link.flags } } := by
  unfold State.setFlag; split <;> rfl

@[simp] theorem State.setFlag_pending (r : Report) (s : State) :
    (s.setFlag r).pending = s.pending := by rw [State.setFlag_eq]
@[simp] theorem State.setFlag_inReset (r : Report) (s : State) :
    (s.setFlag r).inReset = s.inReset := by rw [State.setFlag_eq]
@[simp] theorem State.setFlag_cause (r : Report) (s : State) : (s.setFlag r).cause = s.cause := by rw [State.setFlag_eq]
@[simp] theorem State.setFlag_time (r : Report) (s : State) : (s.setFlag r).time = s.time := by rw [State.setFlag_eq]
@[simp] theorem State.setFlag_start (r : Report) (s : State) : (s.setFlag r).start = s.start := by rw [State.setFlag_eq]
@[simp] theorem State.setFlag_restore (r : Report) (s : State) :
    (s.setFlag r).restore = s.restore := by rw [State.setFlag_eq]
@[simp] theorem State.setFlag_image (r : Report) (s : State) : (s.setFlag r).image = s.image := by rw [State.setFlag_eq]
@[simp] theorem State.setFlag_save (r : Report) (s : State) : (s.setFlag r).save = s.save := by rw [State.setFlag_eq]
@[simp] theorem State.setFlag_faults (r : Report) (s : State) :
    (s.setFlag r).faults = s.faults := by rw [State.setFlag_eq]
@[simp] theorem State.setFlag_ports (r : Report) (s : State) : (s.setFlag r).ports = s.ports := by rw [State.setFlag_eq]
@[simp] theorem State.setFlag_t0 (r : Report) (s : State) : (s.setFlag r).t0 = s.t0 := by rw [State.setFlag_eq]
@[simp] theorem State.setFlag_t1 (r : Report) (s : State) : (s.setFlag r).t1 = s.t1 := by rw [State.setFlag_eq]
@[simp] theorem State.setFlag_markers (r : Report) (s : State) :
    (s.setFlag r).markers = s.markers := by rw [State.setFlag_eq]
@[simp] theorem State.setFlag_markReg (r : Report) (s : State) :
    (s.setFlag r).markReg = s.markReg := by rw [State.setFlag_eq]
@[simp] theorem State.setFlag_mem (r : Report) (s : State) : (s.setFlag r).mem = s.mem := by rw [State.setFlag_eq]
@[simp] theorem State.setFlag_rows (r : Report) (s : State) : (s.setFlag r).rows = s.rows := by rw [State.setFlag_eq]
@[simp] theorem State.setFlag_owners (r : Report) (s : State) :
    (s.setFlag r).owners = s.owners := by rw [State.setFlag_eq]
@[simp] theorem State.setFlag_committed (r : Report) (s : State) :
    (s.setFlag r).committed = s.committed := by rw [State.setFlag_eq]
@[simp] theorem State.setFlag_reclaims (r : Report) (s : State) :
    (s.setFlag r).reclaims = s.reclaims := by rw [State.setFlag_eq]
@[simp] theorem State.setFlag_media (r : Report) (s : State) : (s.setFlag r).media = s.media := by rw [State.setFlag_eq]
@[simp] theorem State.setFlag_cache (r : Report) (s : State) : (s.setFlag r).cache = s.cache := by rw [State.setFlag_eq]
@[simp] theorem State.setFlag_fetch (r : Report) (s : State) : (s.setFlag r).fetch = s.fetch := by rw [State.setFlag_eq]
@[simp] theorem State.setFlag_medCfg (r : Report) (s : State) :
    (s.setFlag r).medCfg = s.medCfg := by rw [State.setFlag_eq]
@[simp] theorem State.setFlag_usb (r : Report) (s : State) : (s.setFlag r).usb = s.usb := by rw [State.setFlag_eq]
@[simp] theorem State.setFlag_power (r : Report) (s : State) : (s.setFlag r).power = s.power := by rw [State.setFlag_eq]
@[simp] theorem State.setFlag_sup (r : Report) (s : State) : (s.setFlag r).sup = s.sup := by rw [State.setFlag_eq]
@[simp] theorem State.setFlag_link_replies (r : Report) (s : State) : (s.setFlag r).link.replies = s.link.replies := by
  rw [State.setFlag_eq]
@[simp] theorem State.setFlag_link_notices (r : Report) (s : State) : (s.setFlag r).link.notices = s.link.notices := by
  rw [State.setFlag_eq]
@[simp] theorem State.setFlag_link_held (r : Report) (s : State) : (s.setFlag r).link.held = s.link.held := by
  rw [State.setFlag_eq]
@[simp] theorem State.setFlag_link_outFrame (r : Report) (s : State) :
    (s.setFlag r).link.outFrame = s.link.outFrame := by
  rw [State.setFlag_eq]
@[simp] theorem State.setFlag_link_statusOut (r : Report) (s : State) :
    (s.setFlag r).link.statusOut = s.link.statusOut := by
  rw [State.setFlag_eq]
@[simp] theorem State.mem_setFlag (r q : Report) (s : State) :
    q ∈ (s.setFlag r).link.flags ↔ q = r ∨ q ∈ s.link.flags := by
  rw [State.setFlag_eq]; dsimp only; split
  · next h => exact ⟨.inr, fun x => x.elim (fun e => e ▸ h) id⟩
  · simp

theorem State.setFlag_frame (r : Report) (s : State) : ∃ l, s.setFlag r = { s with link := l } :=
  ⟨_, State.setFlag_eq r s⟩

/-! ## State.recordFault -/

/-- All that a recorded fault can do: the fault record and the pending flags change. -/
theorem State.recordFault_eq (k : FaultKind) (s : State) :
    s.recordFault k = { s with
      faults := { first := s.faults.first.or (some { kind := k, time := s.time }),
                  latest := some { kind := k, time := s.time }, count := satInc 65535 s.faults.count },
      link := { s.link with
        flags := if .fault ∈ s.link.flags then s.link.flags else .fault :: s.link.flags } } := by
  unfold State.recordFault; rw [State.setFlag_eq]

@[simp] theorem State.recordFault_pending (k : FaultKind) (s : State) : (s.recordFault k).pending = s.pending := by
  rw [State.recordFault_eq]
@[simp] theorem State.recordFault_inReset (k : FaultKind) (s : State) : (s.recordFault k).inReset = s.inReset := by
  rw [State.recordFault_eq]
@[simp] theorem State.recordFault_cause (k : FaultKind) (s : State) : (s.recordFault k).cause = s.cause := by
  rw [State.recordFault_eq]
@[simp] theorem State.recordFault_time (k : FaultKind) (s : State) : (s.recordFault k).time = s.time := by
  rw [State.recordFault_eq]
@[simp] theorem State.recordFault_start (k : FaultKind) (s : State) : (s.recordFault k).start = s.start := by
  rw [State.recordFault_eq]
@[simp] theorem State.recordFault_restore (k : FaultKind) (s : State) : (s.recordFault k).restore = s.restore := by
  rw [State.recordFault_eq]
@[simp] theorem State.recordFault_image (k : FaultKind) (s : State) : (s.recordFault k).image = s.image := by
  rw [State.recordFault_eq]
@[simp] theorem State.recordFault_save (k : FaultKind) (s : State) : (s.recordFault k).save = s.save := by
  rw [State.recordFault_eq]
@[simp] theorem State.recordFault_ports (k : FaultKind) (s : State) : (s.recordFault k).ports = s.ports := by
  rw [State.recordFault_eq]
@[simp] theorem State.recordFault_t0 (k : FaultKind) (s : State) : (s.recordFault k).t0 = s.t0 := by
  rw [State.recordFault_eq]
@[simp] theorem State.recordFault_t1 (k : FaultKind) (s : State) : (s.recordFault k).t1 = s.t1 := by
  rw [State.recordFault_eq]
@[simp] theorem State.recordFault_markers (k : FaultKind) (s : State) : (s.recordFault k).markers = s.markers := by
  rw [State.recordFault_eq]
@[simp] theorem State.recordFault_markReg (k : FaultKind) (s : State) : (s.recordFault k).markReg = s.markReg := by
  rw [State.recordFault_eq]
@[simp] theorem State.recordFault_mem (k : FaultKind) (s : State) : (s.recordFault k).mem = s.mem := by
  rw [State.recordFault_eq]
@[simp] theorem State.recordFault_rows (k : FaultKind) (s : State) : (s.recordFault k).rows = s.rows := by
  rw [State.recordFault_eq]
@[simp] theorem State.recordFault_owners (k : FaultKind) (s : State) : (s.recordFault k).owners = s.owners := by
  rw [State.recordFault_eq]
@[simp] theorem State.recordFault_committed (k : FaultKind) (s : State) :
    (s.recordFault k).committed = s.committed := by
  rw [State.recordFault_eq]
@[simp] theorem State.recordFault_reclaims (k : FaultKind) (s : State) : (s.recordFault k).reclaims = s.reclaims := by
  rw [State.recordFault_eq]
@[simp] theorem State.recordFault_media (k : FaultKind) (s : State) : (s.recordFault k).media = s.media := by
  rw [State.recordFault_eq]
@[simp] theorem State.recordFault_cache (k : FaultKind) (s : State) : (s.recordFault k).cache = s.cache := by
  rw [State.recordFault_eq]
@[simp] theorem State.recordFault_fetch (k : FaultKind) (s : State) : (s.recordFault k).fetch = s.fetch := by
  rw [State.recordFault_eq]
@[simp] theorem State.recordFault_medCfg (k : FaultKind) (s : State) : (s.recordFault k).medCfg = s.medCfg := by
  rw [State.recordFault_eq]
@[simp] theorem State.recordFault_usb (k : FaultKind) (s : State) : (s.recordFault k).usb = s.usb := by
  rw [State.recordFault_eq]
@[simp] theorem State.recordFault_power (k : FaultKind) (s : State) : (s.recordFault k).power = s.power := by
  rw [State.recordFault_eq]
@[simp] theorem State.recordFault_sup (k : FaultKind) (s : State) : (s.recordFault k).sup = s.sup := by
  rw [State.recordFault_eq]
@[simp] theorem State.mem_recordFault (k : FaultKind) (q : Report) (s : State) :
    q ∈ (s.recordFault k).link.flags ↔ q = .fault ∨ q ∈ s.link.flags := by
  unfold State.recordFault; simp
@[simp] theorem State.recordFault_link_replies (k : FaultKind) (s : State) :
    (s.recordFault k).link.replies = s.link.replies := by
  rw [State.recordFault_eq]
@[simp] theorem State.recordFault_link_notices (k : FaultKind) (s : State) :
    (s.recordFault k).link.notices = s.link.notices := by
  rw [State.recordFault_eq]
@[simp] theorem State.recordFault_link_held (k : FaultKind) (s : State) :
    (s.recordFault k).link.held = s.link.held := by
  rw [State.recordFault_eq]
@[simp] theorem State.recordFault_link_outFrame (k : FaultKind) (s : State) :
    (s.recordFault k).link.outFrame = s.link.outFrame := by
  rw [State.recordFault_eq]
@[simp] theorem State.recordFault_link_statusOut (k : FaultKind) (s : State) :
    (s.recordFault k).link.statusOut = s.link.statusOut := by
  rw [State.recordFault_eq]

theorem State.recordFault_frame (k : FaultKind) (s : State) :
    ∃ f l, s.recordFault k = { s with faults := f, link := l } := ⟨_, _, State.recordFault_eq k s⟩

end Sys2Proof.Machine
end

