-- ==== Sys2Proof/Laws/Pool.lean ====
section
/-! SUPPORT. What the shared operations over deadlines, pages and cache lines answer. -/

namespace Sys2Proof.Machine

/-! ## Deadlines -/

theorem State.atDeadline_none (take : State → State) (s : State) : s.atDeadline none take = s := rfl

theorem State.atDeadline_due {d : PartTime} {s : State} (h : s.reaches d = true) (take : State → State) :
    s.atDeadline (some d) take = take { s with time := d } := by simp [State.atDeadline, h]

theorem State.atDeadline_early {d : PartTime} {s : State} (h : s.reaches d = false) (take : State → State) :
    s.atDeadline (some d) take = s := by simp [State.atDeadline, h]

/-- All that a timed event can do: nothing, or its effect at the moment of a deadline that part time reaches. -/
theorem State.atDeadline_cases (d : Option PartTime) (take : State → State) (s : State) :
    s.atDeadline d take = s ∨
      ∃ x, d = some x ∧ s.reaches x = true ∧ s.atDeadline d take = take { s with time := x } := by
  cases d with
  | none => exact .inl rfl
  | some x =>
    by_cases h : s.reaches x = true
    · exact .inr ⟨x, rfl, h, State.atDeadline_due h take⟩
    · exact .inl (State.atDeadline_early (by simpa using h) take)

/-! ## Pages (R58 to R64) -/

theorem State.lowestFree_some {s : State} {p : Fin 128} (h : s.lowestFree = some p) : s.owners[p] = .free := by
  simpa using List.find?_some h

theorem State.lowestFree_none {s : State} : s.lowestFree = none ↔ ∀ p : Fin 128, s.owners[p] ≠ .free := by
  simp [State.lowestFree, List.find?_eq_none]

theorem State.victim_some {s : State} {l : CacheLine} (h : s.victim = some l) : l ∈ s.cache ∧ l.held = false :=
  ⟨List.mem_of_find?_eq_some h, by simpa using List.find?_some h⟩

/-- All that supplying a history can do: a FREE page, or the page of the least-recently-used non-held line. -/
theorem State.supplyHistory_cases {i : PortId} {s t : State} {p : Fin 128} (h : s.supplyHistory i = some (p, t)) :
    (s.lowestFree = some p ∧ t = s.setOwner p (.history i)) ∨
      ∃ l, s.lowestFree = none ∧ s.victim = some l ∧ p = l.page ∧
        t = { (s.dropLine l.tag).setOwner l.page (.history i) with reclaims := satInc 65535 s.reclaims } := by
  unfold State.supplyHistory at h
  split at h
  · next q hq => cases h; exact .inl ⟨hq, rfl⟩
  · next hq =>
    split at h
    · next l hl => cases h; exact .inr ⟨l, hq, hl, rfl, rfl⟩
    · cases h

theorem State.supplyHistory_none {i : PortId} {s : State} :
    s.supplyHistory i = none ↔ s.lowestFree = none ∧ s.victim = none := by
  unfold State.supplyHistory
  cases s.lowestFree <;> cases s.victim <;> simp

/-- What a supply to a history leaves: only owners, lines and the reclaim count change. -/
theorem State.supplyHistory_frame {i : PortId} {s t : State} {p : Fin 128} (h : s.supplyHistory i = some (p, t)) :
    t = { s with owners := t.owners, cache := t.cache, reclaims := t.reclaims } := by
  rcases State.supplyHistory_cases h with ⟨-, rfl⟩ | ⟨l, -, -, -, rfl⟩ <;> rfl

/-- All that supplying the cache can do. -/
theorem State.supplyLine_cases {s t : State} {p : Fin 128} (h : s.supplyLine = some (p, t)) :
    (s.lowestFree = some p ∧ t = s.setOwner p .line) ∨
      ∃ l, s.lowestFree = none ∧ s.victim = some l ∧ p = l.page ∧ t = s.dropLine l.tag := by
  unfold State.supplyLine at h
  split at h
  · next q hq => cases h; exact .inl ⟨hq, rfl⟩
  · next hq =>
    split at h
    · next l hl => cases h; exact .inr ⟨l, hq, hl, rfl, rfl⟩
    · cases h

/-- All that an allocation can do: a supplied page, and a line of INVALID blocks at the most-recent end. -/
theorem State.allocate_cases {tag : Nat} {s t : State} (h : s.allocate tag = some t) :
    ∃ p u, s.supplyLine = some (p, u) ∧ t = { u with
      cache := u.cache ++ [{ tag := tag, page := p, blocks := Vector.replicate 8 .invalid, pinned := false }] } := by
  unfold State.allocate at h
  split at h
  · next p u hu => cases h; exact ⟨p, u, hu, rfl⟩
  · cases h

theorem State.allocate_none {tag : Nat} {s : State} :
    s.allocate tag = none ↔ s.lowestFree = none ∧ s.victim = none := by
  unfold State.allocate State.supplyLine
  cases s.lowestFree <;> cases s.victim <;> simp

/-- What an allocation leaves: only owners and lines change. -/
theorem State.allocate_frame {tag : Nat} {s t : State} (h : s.allocate tag = some t) :
    t = { s with owners := t.owners, cache := t.cache } := by
  obtain ⟨p, u, hu, rfl⟩ := State.allocate_cases h
  rcases State.supplyLine_cases hu with ⟨-, rfl⟩ | ⟨l, -, -, -, rfl⟩ <;> rfl

/-- What a release leaves: only owners and lines change. -/
theorem State.releaseIfEmpty_frame (tag : Nat) (s : State) :
    s.releaseIfEmpty tag =
      { s with owners := (s.releaseIfEmpty tag).owners, cache := (s.releaseIfEmpty tag).cache } := by
  unfold State.releaseIfEmpty
  split
  · split <;> rfl
  · rfl

/-! ## Lines and blocks (R89 to R93) -/

theorem State.line_tag {s : State} {tag : Nat} {l : CacheLine} (h : s.line tag = some l) : l.tag = tag := by
  simpa using List.find?_some h

theorem find_map_line (f : CacheLine → CacheLine) (hf : ∀ l, (f l).tag = l.tag) (tag t : Nat)
    (c : List CacheLine) :
    (c.map fun l => if l.tag == tag then f l else l).find? (fun l => l.tag == t) =
      (c.find? fun l => l.tag == t).map fun l => if l.tag == tag then f l else l := by
  induction c with
  | nil => rfl
  | cons x c ih =>
    have hx : (if x.tag == tag then f x else x).tag = x.tag := by split <;> simp [hf]
    simp only [List.map_cons, List.find?_cons, hx]
    split
    · rfl
    · exact ih

/-- A line changed in its place: the lookup of every tag. -/
theorem State.line_modLine {f : CacheLine → CacheLine} (hf : ∀ l, (f l).tag = l.tag) (tag t : Nat) (s : State) :
    (s.modLine tag f).line t = if t = tag then (s.line t).map f else s.line t := by
  unfold State.line; rw [State.modLine_cache, find_map_line f hf]
  cases h : s.cache.find? fun l => l.tag == t with
  | none => simp
  | some l =>
    have : l.tag = t := by simpa using List.find?_some h
    by_cases e : t = tag <;> simp [e, this]

theorem idxOf_inj {a b : Nat} (ht : tagOf a = tagOf b) (hi : idxOf a = idxOf b) : a = b := by
  have := congrArg Fin.val hi
  unfold tagOf at ht; simp only [idxOf] at this; omega

/-- A block's state after one block is set: the new state where its line is present, every other as before. -/
theorem State.block_setBlock (lba b : Nat) (x : BlockState) (s : State) :
    (s.setBlock lba x).block b = if b = lba ∧ (s.line (tagOf lba)).isSome then x else s.block b := by
  unfold State.block State.setBlock
  rw [State.line_modLine (by intro l; rfl)]
  by_cases ht : tagOf b = tagOf lba
  · rw [if_pos ht, ht]
    cases s.line (tagOf lba) with
    | none => simp
    | some l =>
      by_cases e : b = lba
      · subst e; simp
      · have : (idxOf lba).val ≠ (idxOf b).val := fun h => e (idxOf_inj ht (Fin.ext h.symm))
        simp [e, this]
  · rw [if_neg ht, if_neg]
    rintro ⟨rfl, -⟩; exact ht rfl

theorem State.line_setBlock_isSome (lba t : Nat) (x : BlockState) (s : State) :
    ((s.setBlock lba x).line t).isSome = (s.line t).isSome := by
  unfold State.setBlock; rw [State.line_modLine (by intro l; rfl)]; split <;> simp

/-- The pages of the lines, and so the places of their blocks, stay as a block is set. -/
theorem State.page_setBlock (lba t : Nat) (x : BlockState) (s : State) :
    ((s.setBlock lba x).line t).map (·.page) = (s.line t).map (·.page) := by
  unfold State.setBlock; rw [State.line_modLine (by intro l; rfl)]; split
  · cases s.line t <;> rfl
  · rfl

/-- All that a touch can do: the line moves to the most-recent end. -/
theorem State.touch_eq (tag : Nat) (s : State) :
    s.touch tag = { s with cache :=
      ((s.line tag).map fun l => s.cache.filter (fun x => x.tag != tag) ++ [l]).getD s.cache } := by
  unfold State.touch; split <;> simp [*]

theorem find_filter_ne (tag t : Nat) (c : List CacheLine) :
    (c.filter fun x => x.tag != tag).find? (fun l => l.tag == t) =
      if t = tag then none else c.find? fun l => l.tag == t := by
  induction c with
  | nil => simp
  | cons x c ih =>
    by_cases hx : x.tag = tag
    · rw [List.filter_cons_of_neg (by simp [hx]), ih]
      by_cases e : t = tag
      · simp [e]
      · rw [if_neg e, if_neg e, List.find?_cons_of_neg (by simp [hx]; exact fun h => e h.symm)]
    · rw [List.filter_cons_of_pos (by simp [hx])]
      by_cases hxt : x.tag = t
      · have : ¬ t = tag := fun e => hx (hxt.trans e)
        simp [hxt, this]
      · rw [List.find?_cons_of_neg (by simp [hxt]), List.find?_cons_of_neg (by simp [hxt]), ih]

/-- The lookup of every tag is as before a touch. -/
theorem State.line_touch (tag t : Nat) (s : State) : (s.touch tag).line t = s.line t := by
  rw [State.touch_eq]; unfold State.line
  cases h : s.cache.find? fun l => l.tag == tag with
  | none => simp
  | some l =>
    have hl : l.tag = tag := by simpa using List.find?_some h
    rw [Option.map_some, Option.getD_some, List.find?_append, find_filter_ne]
    by_cases e : t = tag
    · subst e; rw [if_pos rfl, h, List.find?_cons_of_pos (by simp [hl])]; rfl
    · rw [if_neg e, List.find?_cons_of_neg (by simp [hl]; exact fun x => e x.symm)]; simp

theorem State.block_touch (tag b : Nat) (s : State) : (s.touch tag).block b = s.block b := by
  unfold State.block; rw [State.line_touch]

/-- A line that leaves the directory is found no more; the others are. -/
theorem State.line_dropLine (tag t : Nat) (s : State) :
    (s.dropLine tag).line t = if t = tag then none else s.line t := by
  unfold State.line; rw [State.dropLine_cache, find_filter_ne]

/-- A slot written whole is read back whole. -/
theorem State.blockData_writeSlot {lba : Nat} {data : List Byte} {s : State} (hd : data.length = 512)
    (hl : (s.line (tagOf lba)).isSome) : (s.writeSlot lba data).blockData lba = data := by
  obtain ⟨l, hl⟩ := Option.isSome_iff_exists.1 hl
  have e : s.writeSlot lba data = { s with
      mem := writeBytes s.mem (slotAddr l lba) data,
      rows := soundRows s.rows (rowOf l.page (8 * (lba % 8))) 8 } := by unfold State.writeSlot; rw [hl]
  have hl' : (s.writeSlot lba data).line (tagOf lba) = some l := by rw [e]; exact hl
  unfold State.blockData; rw [hl', e]; dsimp only
  rw [blockBytes, ← hd]; exact readBytes_writeBytes _ _ _

/-- What a slot's write leaves: only buffer memory and its rows change. -/
theorem State.writeSlot_frame (lba : Nat) (data : List Byte) (s : State) :
    s.writeSlot lba data =
      { s with mem := (s.writeSlot lba data).mem, rows := (s.writeSlot lba data).rows } := by
  unfold State.writeSlot; split <;> rfl

/-- A slot's write keeps the canonical form. -/
theorem State.writeSlot_wf {lba : Nat} {data : List Byte} {s : State} (h : Memory.wf s.mem = true) :
    Memory.wf (s.writeSlot lba data).mem = true := by
  unfold State.writeSlot; split
  · exact writeBytes_wf h _ _
  · exact h

/-- All that a read of a block's rows can do: the rows that are not SOUND become MARKED. -/
theorem State.readRows_frame (lba : Nat) (s : State) :
    (s.readRows lba).2 = { s with rows := (s.readRows lba).2.rows } := by
  unfold State.readRows; split <;> rfl

theorem State.readRows_sound {s : State} (h : s.rows = []) (lba : Nat) : s.readRows lba = (false, s) := by
  unfold State.readRows; split
  · simp only [h, rowsInError_sound, markRows_sound, List.isEmpty_nil, Bool.not_true, Prod.mk.injEq, true_and]
    cases s; simp_all
  · rfl

end Sys2Proof.Machine
end

