-- ==== Sys2Proof/Laws/Frames.lean ====
section
/-! SUPPORT. What the shared operations of the media chapters can change: each answers
the state before with the named fields changed, and no other. -/

namespace Sys2Proof.Machine

/-! ## Media -/

theorem State.complete_frame (k : CmdKind) (st : CmdStatus) (lba n : Nat) (d : AnswerData) (s : State) :
    ∃ u, s.complete k st lba n d = { s with usb := u } := ⟨_, rfl⟩

/-- The end of the command in progress leaves the dirty list and the drains. -/
theorem State.endCurrent_frame (st : CmdStatus) (s : State) :
    ∃ c a e, s.endCurrent st = { s with usb := { s.usb with current := c, lastAnswer := a, sense := e } } := by
  unfold State.endCurrent
  split
  · exact ⟨_, _, _, rfl⟩
  · exact ⟨_, _, _, rfl⟩
  · exact ⟨_, _, _, rfl⟩
  · exact ⟨s.usb.current, s.usb.lastAnswer, s.usb.sense, rfl⟩

theorem State.endCurrent_current (st : CmdStatus) (s : State) : (s.endCurrent st).usb.current = none := by
  unfold State.endCurrent
  split <;> first | rfl | assumption

theorem State.updateConnection_frame (s : State) : ∃ u, s.updateConnection = { s with usb := u } := by
  unfold State.updateConnection
  split
  · exact ⟨s.usb, rfl⟩
  · split <;> exact ⟨_, rfl⟩

theorem State.settleRunBlock_frame (i : Fin 8) (r : FetchRec) (k : Nat) (b : RunBlock) (s : State) :
    ∃ f l, s.settleRunBlock i r k b = { s with fetch := f, link := l } := by
  unfold State.settleRunBlock; dsimp only; split
  · exact ⟨_, _, rfl⟩
  · exact ⟨_, s.link, rfl⟩

theorem State.releaseAwait_frame (lba : Nat) (s : State) :
    ∃ f l, s.releaseAwait lba = { s with fetch := f, link := l } := by
  unfold State.releaseAwait
  split
  · split
    · exact s.settleRunBlock_frame _ _ _ _
    · exact ⟨s.fetch, s.link, rfl⟩
  · exact ⟨s.fetch, s.link, rfl⟩

theorem State.invalidate_frame (lbas : List Nat) : ∀ s : State, ∃ c, s.invalidate lbas = { s with cache := c } := by
  unfold State.invalidate
  induction lbas with
  | nil => intro s; exact ⟨s.cache, rfl⟩
  | cons b bs ih => intro s; obtain ⟨c, h⟩ := ih (s.setBlock b .invalid); exact ⟨c, by rw [List.foldl_cons, h]; rfl⟩

theorem retireAll_frame (is : List (Fin 8)) : ∀ s : State, ∃ f l,
    is.foldl (fun (s : State) i => if s.fetch[i].live.isSome then s.retire i else s) s =
      { s with fetch := f, link := l } := by
  induction is with
  | nil => intro s; exact ⟨s.fetch, s.link, rfl⟩
  | cons i is ih =>
    intro s
    rw [List.foldl_cons]
    split
    · obtain ⟨f, l, h⟩ := ih (s.retire i); exact ⟨f, l, by rw [h]; rfl⟩
    · exact ih s

/-- The cancel of every fetch: fetch records, notices, and the command that waited. -/
theorem State.cancelFetches_frame (s : State) :
    ∃ f l u, s.cancelFetches = { s with fetch := f, link := l, usb := u } := by
  unfold State.cancelFetches
  split
  · obtain ⟨c, a, e, h⟩ := s.endCurrent_frame .noMedium
    obtain ⟨f, l, h'⟩ := retireAll_frame (List.finRange 8) (s.endCurrent .noMedium)
    exact ⟨f, l, { s.usb with current := c, lastAnswer := a, sense := e }, by rw [h', h]⟩
  · obtain ⟨f, l, h'⟩ := retireAll_frame (List.finRange 8) s
    exact ⟨f, l, s.usb, by rw [h']⟩

/-- The end of an attachment: fetches, lines, page owners, the dirty list and the attachment record. -/
theorem State.endAttachment_frame (s : State) : ∃ f l u o, s.endAttachment =
    { s with fetch := f, link := l, usb := u, owners := o, cache := [], media := resetAttachment } := by
  obtain ⟨f, l, u, h⟩ := s.cancelFetches_frame
  unfold State.endAttachment; dsimp only; rw [State.setFlag_eq, h]
  exact ⟨_, _, _, _, rfl⟩

theorem State.completeEject_frame (s : State) : ∃ f l u o c m, s.completeEject =
    { s with fetch := f, link := l, usb := u, owners := o, cache := c, media := m } := by
  unfold State.completeEject
  split
  · obtain ⟨f, l, u, o, h⟩ := s.endAttachment_frame; exact ⟨f, l, u, o, _, _, h⟩
  · exact ⟨s.fetch, s.link, s.usb, s.owners, s.cache, s.media, rfl⟩

theorem State.softEject_frame (s : State) : ∃ f l u o c m, s.softEject =
    { s with fetch := f, link := l, usb := u, owners := o, cache := c, media := m } := by
  unfold State.softEject
  obtain ⟨c, a, e, h⟩ := State.endCurrent_frame .noMedium { s with media := { s.media with state := .ejecting } }
  rw [State.setFlag_eq, h]
  obtain ⟨f, l, u, o, c, m, h⟩ := State.completeEject_frame _
  rw [h]; exact ⟨f, l, u, o, c, m, rfl⟩

theorem State.forceEject_frame (s : State) : ∃ f l u o fa, s.forceEject =
    { s with fetch := f, link := l, usb := u, owners := o, faults := fa, cache := [], media := resetAttachment } := by
  unfold State.forceEject
  obtain ⟨c, a, e, h⟩ := s.endCurrent_frame .noMedium
  dsimp only; rw [h]
  split
  · obtain ⟨f, l, u, o, h⟩ := State.endAttachment_frame _
    rw [h]; exact ⟨f, l, u, o, s.faults, rfl⟩
  · rw [State.recordFault_eq]
    obtain ⟨f, l, u, o, h⟩ := State.endAttachment_frame _
    rw [h]; exact ⟨f, l, u, o, _, rfl⟩

theorem State.appendDirty_frame (lba : Nat) (s : State) : ∃ l, s.appendDirty lba =
    { s with usb := { s.usb with dirty := s.usb.dirty ++ [lba] }, link := l } := by
  unfold State.appendDirty; dsimp only; split
  · rw [State.setFlag_eq]; exact ⟨_, rfl⟩
  · exact ⟨s.link, rfl⟩

theorem State.loseBlock_frame (lba : Nat) (s : State) : ∃ f l u o c m fa, s.loseBlock lba =
    { s with fetch := f, link := l, usb := u, owners := o, cache := c, media := m, faults := fa } := by
  unfold State.loseBlock; dsimp only
  obtain ⟨fa, l, h⟩ : ∃ fa l,
    State.recordFault (.dirtyLost lba) (((s.setBlock lba .lost).removeDirty lba).dropDrain lba) =
      { ((s.setBlock lba .lost).removeDirty lba).dropDrain lba with faults := fa, link := l } :=
      ⟨_, _, State.recordFault_eq _ _⟩
  rw [h]
  split
  · obtain ⟨c, a, e, h⟩ := State.endCurrent_frame .mediumError _
    rw [h]
    obtain ⟨f, l, u, o, c, m, h⟩ := State.completeEject_frame _
    rw [h]; exact ⟨f, l, u, o, c, m, _, rfl⟩
  · obtain ⟨f, l, u, o, c, m, h⟩ := State.completeEject_frame _
    rw [h]; exact ⟨f, l, u, o, c, m, _, rfl⟩

theorem State.afterClean_frame (s : State) : ∃ f l u o c m, s.afterClean =
    { s with fetch := f, link := l, usb := u, owners := o, cache := c, media := m } := by
  unfold State.afterClean
  split
  · obtain ⟨c, a, e, h⟩ := s.endCurrent_frame .good
    rw [h]
    obtain ⟨f, l, u, o, c, m, h⟩ := State.completeEject_frame _
    rw [h]; exact ⟨f, l, u, o, c, m, rfl⟩
  · exact s.completeEject_frame

theorem pendAll_frame (b : Nat) (ks : List Nat) : ∀ s : State, ∃ c,
    ks.foldl (fun (s : State) k => s.setBlock (b + k) .pending) s = { s with cache := c } := by
  induction ks with
  | nil => intro s; exact ⟨s.cache, rfl⟩
  | cons k ks ih => intro s; obtain ⟨c, h⟩ := ih (s.setBlock (b + k) .pending); exact ⟨c, by rw [List.foldl_cons, h]; rfl⟩

/-- A run's issue: lines, page owners, the fetch record and its notice. -/
theorem State.issueRun_frame {e : Extent} {b n : Nat} {s t : State} (h : s.issueRun e b n = some t) :
    ∃ o c f l, t = { s with owners := o, cache := c, fetch := f, link := l } := by
  unfold State.issueRun at h
  split at h
  · cases h
  · split at h
    · split at h
      · cases h
      · next s' hs =>
        cases h
        have : ∃ o c, s' = { s with owners := o, cache := c } := by
          split at hs
          · cases hs; exact ⟨s.owners, s.cache, rfl⟩
          · exact ⟨_, _, State.allocate_frame hs⟩
        obtain ⟨o, c, rfl⟩ := this
        obtain ⟨c', h'⟩ := pendAll_frame b (List.range n) { s with owners := o, cache := c }
        dsimp only; rw [h']; exact ⟨o, c', _, _, rfl⟩
    · cases h

theorem scanFrom_frame (c : ReadCmd) (fuel : Nat) : ∀ (b : Nat) (s : State), ∃ o k f l,
    (scanFrom c fuel b s).1 = { s with owners := o, cache := k, fetch := f, link := l } := by
  induction fuel with
  | zero => intro b s; exact ⟨s.owners, s.cache, s.fetch, s.link, rfl⟩
  | succ n ih =>
    intro b s
    unfold scanFrom
    split
    · exact ⟨s.owners, s.cache, s.fetch, s.link, rfl⟩
    · split
      · exact ih _ _
      · split
        · split
          · exact ⟨s.owners, s.cache, s.fetch, s.link, rfl⟩
          · next t ht =>
            obtain ⟨o, k, f, l, rfl⟩ := State.issueRun_frame ht
            obtain ⟨o, k, f, l, h⟩ := ih (State.runEnd c _ b s + 1) _
            exact ⟨o, k, f, l, by rw [h]⟩
        · exact ih _ _

/-- A scan pass: lines, page owners, fetch records, notices, and the READ's scan state. -/
theorem State.scanPass_frame (s : State) : ∃ o k f l c, s.scanPass =
    { s with owners := o, cache := k, fetch := f, link := l, usb := { s.usb with current := c } } := by
  unfold State.scanPass
  split
  · next c _ =>
    obtain ⟨o, k, f, l, h⟩ := scanFrom_frame c (c.stop - c.cursor) c.cursor s
    dsimp only; rw [h]; exact ⟨o, k, f, l, _, rfl⟩
  · exact ⟨s.owners, s.cache, s.fetch, s.link, s.usb.current, rfl⟩

theorem State.lineForWrite_frame {lba : Nat} {s t : State} (h : s.lineForWrite lba = some t) :
    ∃ o c, t = { s with owners := o, cache := c } := by
  unfold State.lineForWrite at h
  split at h
  · split at h
    · cases h; exact ⟨s.owners, s.cache, rfl⟩
    · exact ⟨_, _, State.allocate_frame h⟩
  · cases h

/-- A block's intake: its line and data, the fetch that awaited it, and the dirty list. -/
theorem State.takeBlock_frame {lba : Nat} {data : List Byte} {s t : State} (h : s.takeBlock lba data = some t) :
    ∃ o c m r f l d, t = { s with
      owners := o, cache := c, mem := m, rows := r, fetch := f, link := l, usb := { s.usb with dirty := d } } := by
  unfold State.takeBlock at h
  cases hl : s.lineForWrite lba with
  | none => rw [hl] at h; cases h
  | some u =>
    obtain ⟨o, c, rfl⟩ := State.lineForWrite_frame hl
    rw [hl, Option.map_some, Option.some.injEq] at h
    subst h
    dsimp only
    generalize State.block lba { s with owners := o, cache := c } = old
    have ht : ∃ c' m r, (((State.writeSlot lba data { s with owners := o, cache := c }).setBlock lba
        (writtenState old)).touch (tagOf lba)) = { s with owners := o, cache := c', mem := m, rows := r } := by
      rw [State.touch_eq, State.writeSlot_frame]; exact ⟨_, _, _, rfl⟩
    obtain ⟨c', m, r, ht⟩ := ht
    rw [ht]
    have hu : ∃ f l, (if old = .pending then
        State.releaseAwait lba { s with owners := o, cache := c', mem := m, rows := r }
        else { s with owners := o, cache := c', mem := m, rows := r }) =
        { s with owners := o, cache := c', mem := m, rows := r, fetch := f, link := l } := by
      split
      · exact State.releaseAwait_frame lba _
      · exact ⟨s.fetch, s.link, rfl⟩
    obtain ⟨f, l, hu⟩ := hu
    rw [hu]
    split
    · exact ⟨o, c', m, r, f, l, s.usb.dirty, rfl⟩
    · obtain ⟨l', ha⟩ := State.appendDirty_frame lba
        { s with owners := o, cache := c', mem := m, rows := r, fetch := f, link := l }
      rw [ha]; exact ⟨o, c', m, r, f, l', _, rfl⟩

theorem State.offerBlock_frame (w : WriteCmd) (data : List Byte) (s : State) : ∃ o c m r f l u,
    s.offerBlock w data =
      { s with owners := o, cache := c, mem := m, rows := r, fetch := f, link := l, usb := u } := by
  unfold State.offerBlock
  split
  · next t ht =>
    obtain ⟨o, c, m, r, f, l, d, rfl⟩ := State.takeBlock_frame ht
    split <;> exact ⟨o, c, m, r, f, l, _, rfl⟩
  · split
    · exact ⟨s.owners, s.cache, s.mem, s.rows, s.fetch, s.link, s.usb, rfl⟩
    · exact ⟨s.owners, s.cache, s.mem, s.rows, s.fetch, s.link, _, rfl⟩

theorem State.retry_frame (s : State) : ∃ o c m r f l u,
    s.retry = { s with owners := o, cache := c, mem := m, rows := r, fetch := f, link := l, usb := u } := by
  unfold State.retry
  split
  · split
    · obtain ⟨o, k, f, l, c, h⟩ := s.scanPass_frame; exact ⟨o, k, s.mem, s.rows, f, l, _, h⟩
    · exact ⟨s.owners, s.cache, s.mem, s.rows, s.fetch, s.link, s.usb, rfl⟩
  · split
    · exact s.offerBlock_frame _ _
    · exact ⟨s.owners, s.cache, s.mem, s.rows, s.fetch, s.link, s.usb, rfl⟩
  · exact ⟨s.owners, s.cache, s.mem, s.rows, s.fetch, s.link, s.usb, rfl⟩

/-- The retry that follows a notice happens, or nothing does. -/
theorem State.settle_cases (before s : State) :
    (State.noticed before s = true ∧ State.settle before s = s.retry) ∨
      (State.noticed before s = false ∧ State.settle before s = s) := by
  unfold State.settle
  cases h : State.noticed before s <;> simp

end Sys2Proof.Machine
end

