-- ==== Sys2Proof/Laws/Supervision.lean ====
section
/-! SUPPORT. What the shared operations of the epoch, power and supervision chapters can change. -/

namespace Sys2Proof.Machine

/-! ## Epochs -/

theorem modNewest_length (f : EpochRec → EpochRec) (es : List EpochRec) : (modNewest f es).length = es.length := by
  induction es with
  | nil => rfl
  | cons e es ih => cases es with
    | nil => rfl
    | cons e' es => simpa [modNewest] using ih

/-- The newest record is changed by `f`, the others stay. -/
theorem modNewest_append (f : EpochRec → EpochRec) (es : List EpochRec) (e : EpochRec) :
    modNewest f (es ++ [e]) = es ++ [f e] := by
  induction es with
  | nil => rfl
  | cons x es ih => cases es with
    | nil => rfl
    | cons y es => simpa [modNewest] using ih

theorem State.modOpen_frame (f : EpochRec → EpochRec) (s : State) :
    ∃ e, s.modOpen f = { s with sup := { s.sup with epochs := e } } := by
  unfold State.modOpen; split
  · exact ⟨_, rfl⟩
  · exact ⟨s.sup.epochs, rfl⟩

theorem State.settlePending_frame (b : BootStatus) (s : State) :
    ∃ e, s.settlePending b = { s with sup := { s.sup with epochs := e } } := s.modOpen_frame _

theorem State.closeRecord_frame (c : EndCause) (s : State) :
    ∃ e m, s.closeRecord c = { s with sup := { s.sup with epochs := e }, markers := m } := by
  unfold State.closeRecord; split
  · obtain ⟨e, h⟩ := s.modOpen_frame _
    rw [h]; exact ⟨e, _, rfl⟩
  · exact ⟨s.sup.epochs, s.markers, rfl⟩

theorem State.closeEpoch_frame (c : EndCause) (s : State) :
    ∃ u m, s.closeEpoch c = { s with sup := u, markers := m } := by
  unfold State.closeEpoch; split
  · obtain ⟨e, m, h⟩ := s.closeRecord_frame c
    rw [h]; exact ⟨_, m, rfl⟩
  · exact ⟨s.sup, s.markers, rfl⟩

theorem State.arm_frame (c : EpochCause) (s : State) : ∃ u, s.arm c = { s with sup := u } := by
  unfold State.arm; split <;> exact ⟨_, rfl⟩

/-- An epoch start: the epoch table and the supervisor, the matcher's windows and filters, the spent flags. -/
theorem State.startEpoch_frame (c : EpochCause) (s : State) :
    ∃ u p m, s.startEpoch c = { s with sup := u, ports := p, markers := m } := by
  unfold State.startEpoch; dsimp only
  obtain ⟨e, m, h⟩ := s.closeRecord_frame .superseded
  rw [h]
  obtain ⟨u, h⟩ := State.arm_frame c _
  rw [h]; exact ⟨u, _, _, rfl⟩

/-- A fall's close: the supervisor's data, the markers and the ports, and the connection. -/
theorem State.fallClose_frame (c : EndCause) (s : State) :
    ∃ u m p v, s.fallClose c = { s with sup := u, markers := m, ports := p, usb := v } := by
  unfold State.fallClose
  obtain ⟨u, m, h⟩ := s.closeEpoch_frame c
  rw [h]
  obtain ⟨v, h⟩ := State.updateConnection_frame (State.gateAll { s with sup := u, markers := m })
  rw [h]; exact ⟨u, m, _, v, rfl⟩

/-- Where power-good did not fall within a piece of work, no close follows it. -/
theorem State.closeFall_of_same {before s : State} (h : s.pgHigh = before.pgHigh) : State.closeFall before s = s := by
  unfold State.closeFall
  rw [h, if_neg (by simp)]

theorem State.closeFall_frame (before s : State) :
    ∃ u m p v, State.closeFall before s = { s with sup := u, markers := m, ports := p, usb := v } := by
  unfold State.closeFall; split
  · exact s.fallClose_frame _
  · exact ⟨s.sup, s.markers, s.ports, s.usb, rfl⟩

/-! ## Actions -/

theorem State.setMask_frame (s : State) : ∃ p l, s.setMask = { s with power := p, link := l } := by
  unfold State.setMask; dsimp only; split
  · rw [State.setFlag_eq]; exact ⟨_, _, rfl⟩
  · exact ⟨_, s.link, rfl⟩

theorem State.enterPhase_frame (p : Phase) (s : State) :
    ∃ w l u, s.enterPhase p = { s with power := w, link := l, usb := u } := by
  unfold State.enterPhase; dsimp only; split
  · obtain ⟨w, l, h⟩ := State.setMask_frame _
    rw [h]
    obtain ⟨u, h⟩ := State.updateConnection_frame _
    rw [h]; exact ⟨w, l, u, rfl⟩
  · obtain ⟨u, h⟩ := State.updateConnection_frame _
    rw [h]; exact ⟨_, s.link, u, rfl⟩

theorem State.alreadyAction_frame (k : ActionKind) (esc : Bool) (r : Requester) (s : State) :
    ∃ w l, s.alreadyAction k esc r = { s with power := w, link := l } := by
  unfold State.alreadyAction; rw [State.setFlag_eq]; exact ⟨_, _, rfl⟩

/-- An action accepted or not: the sequencer, POWER's flag, and the media port's connection. -/
theorem State.accept_frame (k : ActionKind) (esc : Bool) (r : Requester) (o : ReqOutcome) (s : State) :
    ∃ w l u, s.accept k esc r o = { s with power := w, link := l, usb := u } := by
  cases o with
  | begun p =>
    obtain ⟨w, l, u, h⟩ := State.enterPhase_frame p (s.pushAction (s.newAction k esc r))
    exact ⟨w, l, u, h⟩
  | already => obtain ⟨w, l, h⟩ := s.alreadyAction_frame k esc r; exact ⟨w, l, s.usb, h⟩
  | busy => exact ⟨s.power, s.link, s.usb, rfl⟩
  | wrongState => exact ⟨s.power, s.link, s.usb, rfl⟩

theorem State.requestAction_frame (k : ActionKind) (esc : Bool) (r : Requester) (s : State) :
    ∃ w l u, s.requestAction k esc r = { s with power := w, link := l, usb := u } := s.accept_frame k esc r _

theorem State.releaseReset_frame (s : State) :
    ∃ w u p m, s.releaseReset = { s with power := w, sup := u, ports := p, markers := m } := by
  unfold State.releaseReset; dsimp only; split
  · obtain ⟨u, p, m, h⟩ := State.startEpoch_frame .resetAction _
    rw [h]; exact ⟨_, u, p, m, rfl⟩
  · exact ⟨_, s.sup, s.ports, s.markers, rfl⟩

/-- An action's end: the sequencer, flags and faults, the connection, and what the release of RESET_OUT brings. -/
theorem State.endAction_frame (r : ActResult) (s : State) : ∃ w l fa u v p m, s.endAction r =
    { s with power := w, link := l, faults := fa, usb := u, sup := v, ports := p, markers := m } := by
  unfold State.endAction
  split
  · exact ⟨s.power, s.link, s.faults, s.usb, s.sup, s.ports, s.markers, rfl⟩
  · next a _ =>
    dsimp only
    generalize hp : s.modPower _ = x
    have hx : ∃ w, x = { s with power := w } := ⟨_, hp.symm⟩
    obtain ⟨w, rfl⟩ := hx
    have key : ∀ y : State, (∃ l fa, y = { s with power := w, link := l, faults := fa }) → ∃ w l fa u v p m,
        State.updateConnection (if a.phase = some .resetPulse then y.releaseReset else y) =
          { s with power := w, link := l, faults := fa, usb := u, sup := v, ports := p, markers := m } := by
      rintro y ⟨l, fa, rfl⟩
      split
      · obtain ⟨w, u, p, m, h⟩ := State.releaseReset_frame _
        rw [h]
        obtain ⟨v, h⟩ := State.updateConnection_frame _
        rw [h]; exact ⟨w, l, fa, v, u, p, m, rfl⟩
      · obtain ⟨v, h⟩ := State.updateConnection_frame _
        rw [h]; exact ⟨w, l, fa, v, s.sup, s.ports, s.markers, rfl⟩
    obtain ⟨l, hl⟩ := State.setFlag_frame .power { s with power := w }
    rw [hl]
    cases resultFault a r with
    | some k => exact key _ ⟨_, _, State.recordFault_eq k _⟩
    | none => exact key _ ⟨_, s.faults, rfl⟩

/-- With PG low the release of RESET_OUT opens no epoch. -/
theorem State.releaseReset_off {s : State} (h : s.pgHigh = false) : ∃ w, s.releaseReset = { s with power := w } := by
  unfold State.releaseReset; dsimp only
  rw [if_neg (by rw [show State.pgHigh (s.modPower _) = s.pgHigh from rfl, h]; decide)]
  exact ⟨_, rfl⟩

/-- With PG low an action's end touches neither the supervisor nor the matcher. -/
theorem State.endAction_off_frame (r : ActResult) {s : State} (h : s.pgHigh = false) :
    ∃ w l fa u, s.endAction r = { s with power := w, link := l, faults := fa, usb := u } := by
  unfold State.endAction
  split
  · exact ⟨s.power, s.link, s.faults, s.usb, rfl⟩
  · next a _ =>
    dsimp only
    generalize hp : s.modPower _ = x
    have hx : ∃ w, x = { s with power := w } ∧ w.pg = s.power.pg := ⟨_, hp.symm, rfl⟩
    obtain ⟨w, rfl, hg⟩ := hx
    have key : ∀ y : State, (∃ l fa, y = { s with power := w, link := l, faults := fa }) → ∃ w l fa u,
        State.updateConnection (if a.phase = some .resetPulse then y.releaseReset else y) =
          { s with power := w, link := l, faults := fa, usb := u } := by
      rintro y ⟨l, fa, rfl⟩
      split
      · obtain ⟨w, hw⟩ := State.releaseReset_off (s := { s with power := w, link := l, faults := fa })
          (by rw [← h]; exact congrArg SenseIn.level hg)
        rw [hw]
        obtain ⟨v, hv⟩ := State.updateConnection_frame _
        rw [hv]; exact ⟨w, l, fa, v, rfl⟩
      · obtain ⟨v, hv⟩ := State.updateConnection_frame _
        rw [hv]; exact ⟨w, l, fa, v, rfl⟩
    obtain ⟨l, hl⟩ := State.setFlag_frame .power { s with power := w }
    rw [hl]
    cases resultFault a r with
    | some k => exact key _ ⟨_, _, State.recordFault_eq k _⟩
    | none => exact key _ ⟨_, s.faults, rfl⟩

theorem State.endAtFall_frame {s : State} (h : s.pgHigh = false) :
    ∃ w l fa u, s.endAtFall = { s with power := w, link := l, faults := fa, usb := u } := by
  have lost : ∀ k, ∃ w l fa u, (s.endAction .powerLost).recordFault k =
      { s with power := w, link := l, faults := fa, usb := u } := fun k => by
    obtain ⟨w, l, fa, u, e⟩ := State.endAction_off_frame .powerLost h
    rw [e, State.recordFault_eq]; exact ⟨_, _, _, _, rfl⟩
  unfold State.endAtFall
  split
  · rw [State.recordFault_eq]; exact ⟨s.power, _, _, s.usb, rfl⟩
  · split
    · exact State.endAction_off_frame .done h
    · exact State.endAction_off_frame .done h
    · split
      · obtain ⟨w, l, u, e⟩ := s.enterPhase_frame .dwell
        exact ⟨w, l, s.faults, u, e⟩
      · exact State.endAction_off_frame .done h
    · exact lost _
    · exact lost _
    · exact ⟨s.power, s.link, s.faults, s.usb, rfl⟩

/-- With no fall of PG due at this moment a request meets the sequencer as it stands. -/
theorem State.asFallLeft_of_none {s : State} (h : settlesTo false s.power.pg ≠ some s.time) : s.asFallLeft = s :=
  if_neg h

/-- The sequencer's part of a fall: the sequencer itself, flags and faults, and the connection. -/
theorem State.fallAction_frame {s : State} (h : s.power.pg.pin = false) :
    ∃ w l fa u, s.fallAction = { s with power := w, link := l, faults := fa, usb := u } := by
  unfold State.fallAction
  generalize hx : State.modPower _ (s.takeEdge .pg) = x
  have hx' : ∃ w, x = { s with power := w } ∧ w.pg.level = false := ⟨_, hx.symm, h⟩
  obtain ⟨w, rfl, hl⟩ := hx'
  obtain ⟨w, l, fa, u, e⟩ := State.endAtFall_frame (s := { s with power := w }) hl
  rw [e, State.setFlag_eq]; exact ⟨w, _, fa, u, rfl⟩

/-- The sequencer at a fall that settles now; where none settles, nothing. -/
theorem State.asFallLeft_frame (s : State) :
    ∃ w l fa u, s.asFallLeft = { s with power := w, link := l, faults := fa, usb := u } := by
  unfold State.asFallLeft; split
  · next h =>
    apply State.fallAction_frame
    unfold settlesTo at h; split at h
    · next c => exact c.1
    · cases h
  · exact ⟨s.power, s.link, s.faults, s.usb, rfl⟩

theorem State.linkAccepted_frame (s : State) : ∃ u r, s.linkAccepted = { s with sup := u, restore := r } := by
  unfold State.linkAccepted; dsimp only; split
  · exact ⟨_, _, rfl⟩
  · exact ⟨_, s.restore, rfl⟩

theorem State.takeRestore_frame (s : State) : ∃ w l u, s.takeRestore =
    { s with power := w, link := l, usb := u, restore := .requested } := by
  unfold State.takeRestore
  obtain ⟨w, l, u, h⟩ := s.requestAction_frame .on false .restore
  rw [h]; exact ⟨w, l, u, rfl⟩

/-! ## Supervision -/

theorem State.setPolicy_frame (p : BootPolicy) (s : State) : ∃ u, s.setPolicy p = { s with sup := u } := by
  unfold State.setPolicy; dsimp only
  obtain ⟨e, h⟩ := s.settlePending_frame .unsupervised
  rw [h]; exact ⟨_, rfl⟩

theorem State.escalated_frame (t : Trigger) (a : SupAction) (o : EscOutcome) (n : Nat) (s : State) :
    ∃ u l, s.escalated t a o n = { s with sup := u, link := l } := by
  unfold State.escalated; rw [State.setFlag_eq]; exact ⟨_, _, rfl⟩

theorem State.supBegun_frame (s : State) : ∃ u, s.supBegun = { s with sup := u } := by
  unfold State.supBegun
  obtain ⟨e, h⟩ := s.settlePending_frame .failed
  rw [h]; exact ⟨_, rfl⟩

theorem State.giveUp_frame (a : SupAction) (s : State) :
    ∃ u l fa, s.giveUp a = { s with sup := u, link := l, faults := fa } := by
  unfold State.giveUp
  obtain ⟨e, h⟩ := s.settlePending_frame .failed
  rw [h, State.recordFault_eq]; exact ⟨_, _, _, rfl⟩

/-- A supervisor's request: the sequencer and the connection, the supervisor, flags and faults. -/
theorem State.supRequest_frame (t : Trigger) (a : SupAction) (k : ActionKind) (refused : State → State)
    (hr : ∀ s : State, ∃ u, refused s = { s with sup := u }) (s : State) : ∃ w l u v fa,
    s.supRequest t a k refused = { s with power := w, link := l, usb := u, sup := v, faults := fa } := by
  obtain ⟨w, l, fa, u, hf⟩ := s.asFallLeft_frame
  have skip : ∃ w l u v fa, (refused s.asFallLeft).escalated t a .skipped s.openNumber =
      { s with power := w, link := l, usb := u, sup := v, faults := fa } := by
    obtain ⟨v, h⟩ := hr s.asFallLeft
    rw [h, hf]
    obtain ⟨v, l, h⟩ := State.escalated_frame t a .skipped s.openNumber _
    rw [h]; exact ⟨w, l, u, v, fa, rfl⟩
  unfold State.supRequest; dsimp only
  split
  · split
    · rw [hf]
      obtain ⟨w, l, u, h⟩ := State.requestAction_frame k false .supervisor _
      rw [h]
      obtain ⟨v, h⟩ := State.supBegun_frame _
      rw [h]
      obtain ⟨v, l, h⟩ := State.escalated_frame t a .taken s.openNumber _
      rw [h]; exact ⟨w, l, u, v, fa, rfl⟩
    · exact skip
    · exact skip
    · exact skip
  · obtain ⟨v, l, fa, h⟩ := s.giveUp_frame a
    rw [h]
    obtain ⟨v, l, h⟩ := State.escalated_frame t a .givenUp s.openNumber _
    rw [h]; exact ⟨s.power, l, s.usb, v, fa, rfl⟩

theorem State.bootExpired_frame (s : State) : ∃ w l u v fa,
    s.bootExpired = { s with power := w, link := l, usb := u, sup := v, faults := fa } := by
  have notify : ∃ w l u v fa, State.escalated .bootTimeout s.sup.policy.timeoutAction .taken s.openNumber
      ((s.settlePending .failed).modSup fun u => { u with state := .idle, bootTimer := none }) =
      { s with power := w, link := l, usb := u, sup := v, faults := fa } := by
    obtain ⟨e, h⟩ := s.settlePending_frame .failed
    rw [h]
    obtain ⟨v, l, h⟩ := State.escalated_frame .bootTimeout s.sup.policy.timeoutAction .taken s.openNumber _
    rw [h]; exact ⟨s.power, l, s.usb, v, s.faults, rfl⟩
  unfold State.bootExpired
  dsimp only
  split
  · exact State.supRequest_frame _ _ _ _ (fun s => ⟨_, rfl⟩) s
  · exact State.supRequest_frame _ _ _ _ (fun s => ⟨_, rfl⟩) s
  · exact notify
  · exact notify

theorem State.holdExpired_frame (s : State) : ∃ w l u v fa,
    s.holdExpired = { s with power := w, link := l, usb := u, sup := v, faults := fa } := by
  unfold State.holdExpired
  dsimp only
  split
  · obtain ⟨v, l, h⟩ := State.escalated_frame .faultHoldoff s.sup.policy.faultAction .taken s.openNumber s.returnSup
    rw [h]; exact ⟨s.power, l, s.usb, v, s.faults, rfl⟩
  · obtain ⟨w, l, fa, u, hf⟩ := s.asFallLeft_frame
    rw [hf]
    obtain ⟨w, l, u, h⟩ := State.requestAction_frame .diag false .supervisor
      { s with power := w, link := l, faults := fa, usb := u }
    replace h : _ = { s with power := w, link := l, faults := fa, usb := u } := h
    rw [h]
    obtain ⟨v, l, h⟩ := State.escalated_frame .faultHoldoff s.sup.policy.faultAction _ s.openNumber
      (State.returnSup { s with power := w, link := l, faults := fa, usb := u })
    rw [h]; exact ⟨w, l, u, v, fa, rfl⟩
  · exact State.supRequest_frame _ _ _ _ (fun s => ⟨_, rfl⟩) s
  · exact State.supRequest_frame _ _ _ _ (fun s => ⟨_, rfl⟩) s

theorem State.beginHoldOff_frame (r : ReturnState) (s : State) : ∃ w l u v fa,
    s.beginHoldOff r = { s with power := w, link := l, usb := u, sup := v, faults := fa } := by
  unfold State.beginHoldOff; dsimp only
  obtain ⟨l, h⟩ := State.setFlag_frame .boot (s.modSup fun u =>
    { u with state := .holdoff, ret := some r, bootTimer := none,
             holdTimer := some (s.after (1000 * u.policy.holdOff)) })
  rw [h]
  split
  · obtain ⟨w, l, u, v, fa, h⟩ := State.holdExpired_frame _
    rw [h]; exact ⟨w, l, u, v, fa, rfl⟩
  · exact ⟨s.power, _, s.usb, _, s.faults, rfl⟩

theorem State.satisfy_frame (s : State) : ∃ v f l u o c m, s.satisfy =
    { s with sup := v, fetch := f, link := l, usb := u, owners := o, cache := c, media := m } := by
  unfold State.satisfy; dsimp only
  obtain ⟨e, h⟩ := s.modOpen_frame fun e => { e with status := .ok }
  rw [h]
  obtain ⟨l, h⟩ := State.setFlag_frame .boot _
  rw [h]
  split
  · obtain ⟨f, l, u, o, c, m, h⟩ := State.softEject_frame _
    rw [h]; exact ⟨_, f, l, u, o, c, m, rfl⟩
  · exact ⟨_, s.fetch, _, s.usb, s.owners, s.cache, s.media, rfl⟩

/-- A hit handed to the supervisor: never buffer memory, a port, a marker or a page of a history. -/
theorem State.supHit_frame (r : Role) (port : PortId) (s : State) : ∃ w v f l u o c m fa, s.supHit r port =
    { s with power := w, sup := v, fetch := f, link := l, usb := u, owners := o, cache := c, media := m,
             faults := fa } := by
  have none : ∃ w v f l u o c m fa, s =
    { s with power := w, sup := v, fetch := f, link := l, usb := u, owners := o, cache := c, media := m,
             faults := fa } := ⟨s.power, s.sup, s.fetch, s.link, s.usb, s.owners, s.cache, s.media, s.faults, rfl⟩
  have sat : ∃ w v f l u o c m fa, s.satisfy =
    { s with power := w, sup := v, fetch := f, link := l, usb := u, owners := o, cache := c, media := m,
             faults := fa } := by
    obtain ⟨v, f, l, u, o, c, m, h⟩ := s.satisfy_frame; exact ⟨s.power, v, f, l, u, o, c, m, s.faults, h⟩
  have hold : ∀ r, ∃ w v f l u o c m fa, s.beginHoldOff r =
    { s with power := w, sup := v, fetch := f, link := l, usb := u, owners := o, cache := c, media := m,
             faults := fa } := fun r => by
    obtain ⟨w, l, u, v, fa, h⟩ := s.beginHoldOff_frame r
    exact ⟨w, v, s.fetch, l, u, s.owners, s.cache, s.media, fa, h⟩
  unfold State.supHit
  split
  · split
    · exact sat
    · exact sat
    · exact ⟨s.power, _, s.fetch, s.link, s.usb, s.owners, s.cache, s.media, s.faults, rfl⟩
    · exact hold _
    · split
      · exact hold _
      · exact none
    · exact none
  · exact none

end Sys2Proof.Machine
end

