-- ==== Sys2Proof/Laws/Capture.lean ====
section
/-! SUPPORT. What the shared operations of the console and matcher chapters can change. -/

namespace Sys2Proof.Machine

/-! ## Transmission -/

/-- All that a text's move can do. -/
theorem Port.moveText_cases (p : Port) : p.moveText = p ∨
    ∃ x, p.slot = some x ∧ x.text.length ≤ p.free ∧
      p.moveText = { p with queue := p.queue ++ x.text.map .byte, slot := none } := by
  unfold Port.moveText
  split
  · next x hx => split
                 · next h => exact .inr ⟨x, hx, h, rfl⟩
                 · exact .inl rfl
  · exact .inl rfl

/-- A text's move keeps to the queue's 128 entries. -/
theorem Port.moveText_queue {p : Port} (h : p.queue.length ≤ 128) : p.moveText.queue.length ≤ 128 := by
  rcases p.moveText_cases with e | ⟨x, -, hl, e⟩ <;> rw [e]
  · exact h
  · simp only [Port.free, queueCap] at hl
    simp only [List.length_append, List.length_map]; omega

/-- All that a transmission's beginning can do. -/
theorem Port.begin_cases (now : PartTime) (p : Port) : p.begin_ now = p ∨
    ∃ e rest, p.sending = none ∧ p.queue = e :: rest ∧
      p.begin_ now = Port.moveText { p with queue := rest, sending := some (e.start now) } := by
  unfold Port.begin_
  split
  · next e rest hs hq => exact .inr ⟨e, rest, hs, hq, rfl⟩
  · exact .inl rfl

theorem Port.begin_queue {p : Port} (now : PartTime) (h : p.queue.length ≤ 128) :
    (p.begin_ now).queue.length ≤ 128 := by
  rcases p.begin_cases now with e | ⟨e, rest, -, hq, he⟩
  · rw [e]; exact h
  · rw [he]; refine Port.moveText_queue ?_
    rw [hq] at h; exact Nat.le_of_succ_le h

/-- All that a chance to transmit can do. -/
theorem State.kick_cases (i : PortId) (s : State) :
    s.kick i = s ∨ s.kick i = s.modPort i (Port.begin_ s.time) := by
  unfold State.kick; split
  · exact .inr rfl
  · exact .inl rfl

/-- All that the end of a BREAK's duration can do. -/
theorem Port.endBreak_cases (now : PartTime) (p : Port) :
    (p.sending = some (.brk now) ∧ p.endBreak now = { p with sending := some .mark }) ∨
      (p.sending ≠ some (.brk now) ∧ p.endBreak now = p) := by
  unfold Port.endBreak
  have h : breakEnd p.sending = some now ↔ p.sending = some (.brk now) := by
    unfold breakEnd; split <;> simp_all
  by_cases e : p.sending = some (.brk now)
  · rw [if_pos (h.2 e)]; exact .inl ⟨e, rfl⟩
  · rw [if_neg (fun x => e (h.1 x))]; exact .inr ⟨e, rfl⟩

theorem State.kick_frame (i : PortId) (s : State) : ∃ p, s.kick i = { s with ports := p } := by
  rcases s.kick_cases i with h | h <;> rw [h]
  · exact ⟨s.ports, rfl⟩
  · exact ⟨_, rfl⟩

theorem kickAll_frame (is : List PortId) : ∀ s : State, ∃ p,
    is.foldl (fun (s : State) i => s.kick i) s = { s with ports := p } := by
  induction is with
  | nil => intro s; exact ⟨s.ports, rfl⟩
  | cons i is ih =>
    intro s
    obtain ⟨p, h⟩ := s.kick_frame i
    rw [List.foldl_cons, h]
    obtain ⟨p, h⟩ := ih { s with ports := p }
    exact ⟨p, by rw [h]⟩

theorem State.kickAll_frame (s : State) : ∃ p, s.kickAll = { s with ports := p } :=
  Machine.kickAll_frame (List.finRange 4) s

theorem State.sent_frame (i : PortId) (s : State) : ∃ p, s.sent i = { s with ports := p } := by
  obtain ⟨p, h⟩ := State.kick_frame i (s.modPort i fun p => { p with sending := none })
  exact ⟨p, h⟩

/-! ## Enabling and disabling -/

theorem State.disablePort_frame (i : PortId) (s : State) : ∃ l, s.disablePort i =
    { s with ports := vupd s.ports i Port.disable, link := l } := ⟨_, rfl⟩

/-- An enable: NO_SPACE with nothing changed, or the ports, the commitment, and a page from the pool. -/
theorem State.enablePort_frame {i : PortId} {s t : State} {st : Status} (h : s.enablePort i = some (st, t)) :
    (st = .noSpace ∧ t = s) ∨ (st = .ok ∧ ∃ p c o k r, t =
      { s with ports := p, committed := c, owners := o, cache := k, reclaims := r }) := by
  unfold State.enablePort at h
  dsimp only at h
  split at h
  · split at h
    · split at h
      · next pg u hu =>
        rw [Option.some.injEq, Prod.mk.injEq] at h
        obtain ⟨rfl, rfl⟩ := h
        have hu := State.supplyHistory_frame hu
        obtain ⟨p, h⟩ := State.kick_frame i (u.modPort i fun p => { p.enable with pages := [firstPage pg p.w] })
        rw [h, hu]
        exact .inr ⟨rfl, p, _, u.owners, u.cache, u.reclaims, rfl⟩
      · cases h
    · rw [Option.some.injEq, Prod.mk.injEq] at h
      exact .inl ⟨h.1.symm, h.2.symm⟩
  · rw [Option.some.injEq, Prod.mk.injEq] at h
    obtain ⟨rfl, rfl⟩ := h
    obtain ⟨p, h⟩ := State.kick_frame i (s.modPort i Port.enable)
    exact .inr ⟨rfl, p, s.committed, s.owners, s.cache, s.reclaims, h⟩

/-! ## Rate measurement -/

theorem State.countChar_frame (i : PortId) (bad : Bool) (s : State) :
    ∃ p l, s.countChar i bad = { s with ports := p, link := l } := by
  unfold State.countChar; dsimp only
  split
  · generalize s.ports[i].cwErrors + _ = n
    split
    · exact ⟨_, s.link, rfl⟩
    · split
      · rw [State.setFlag_eq]; exact ⟨_, _, rfl⟩
      · exact ⟨_, s.link, rfl⟩
  · exact ⟨s.ports, s.link, rfl⟩

/-! ## Capture -/

/-- The page of the next byte: the port's list, and what the pool's supply changes. -/
theorem State.pageForByte_frame {i : PortId} {s t : State} (h : s.pageForByte i = some t) :
    ∃ p o c r, t = { s with ports := p, owners := o, cache := c, reclaims := r } := by
  have supplied : ∀ (f : Fin 128 → Port → Port),
      (s.supplyHistory i).map (fun x => x.2.modPort i (f x.1)) = some t →
      ∃ p o c r, t = { s with ports := p, owners := o, cache := c, reclaims := r } := fun f h => by
    cases hs : s.supplyHistory i with
    | none => rw [hs] at h; cases h
    | some x =>
      rw [hs, Option.map_some, Option.some.injEq] at h
      subst h
      have hx := State.supplyHistory_frame (p := x.1) (t := x.2) hs
      rw [hx]; exact ⟨_, _, _, _, rfl⟩
  unfold State.pageForByte at h
  dsimp only at h
  split at h
  · split at h
    · cases h; exact ⟨_, s.owners, s.cache, s.reclaims, rfl⟩
    · split at h
      · exact supplied (fun pg p => { p with pages := p.pages ++ [s.freshPage pg p.w] }) h
      · cases h; exact ⟨_, s.owners, s.cache, s.reclaims, rfl⟩
  · exact supplied (fun pg p => { p with pages := [s.freshPage pg p.w] }) h

theorem State.storeByte_frame (i : PortId) (b : Byte) (s : State) :
    ∃ m r, s.storeByte i b = { s with mem := m, rows := r } := by
  unfold State.storeByte; dsimp only; split
  · exact ⟨_, _, rfl⟩
  · exact ⟨s.mem, s.rows, rfl⟩

theorem State.storeByte_wf {i : PortId} {b : Byte} {s : State} (h : Memory.wf s.mem = true) :
    Memory.wf (s.storeByte i b).mem = true := by
  unfold State.storeByte; dsimp only; split
  · exact writeBytes_wf h _ _
  · exact h

theorem State.advanceW_frame (i : PortId) (s : State) : ∃ p l, s.advanceW i = { s with ports := p, link := l } := by
  unfold State.advanceW; dsimp only
  generalize (Option.map _ _).getD false = fired
  cases fired
  · exact ⟨_, s.link, rfl⟩
  · rw [if_pos rfl]; rw [State.setFlag_eq]; exact ⟨_, _, rfl⟩

/-- A capture: the ports, what the pool's supply changes, the byte's row and memory, and CON_DATA's flag. -/
theorem State.capture_frame {i : PortId} {b : Byte} {s t : State} (h : s.capture i b = some t) : ∃ p o c r m rs l,
    t = { s with ports := p, owners := o, cache := c, reclaims := r, mem := m, rows := rs, link := l } := by
  unfold State.capture at h
  cases hp : s.pageForByte i with
  | none => rw [hp] at h; cases h
  | some u =>
    obtain ⟨p, o, c, r, rfl⟩ := State.pageForByte_frame hp
    rw [hp, Option.map_some, Option.some.injEq] at h
    subst h
    obtain ⟨m, rs, h⟩ := State.storeByte_frame i b { s with ports := p, owners := o, cache := c, reclaims := r }
    rw [h]
    obtain ⟨p, l, h⟩ := State.advanceW_frame i
      { s with ports := p, owners := o, cache := c, reclaims := r, mem := m, rows := rs }
    rw [h]; exact ⟨p, o, c, r, m, rs, l, rfl⟩

/-! ## The matcher -/

theorem pushWindow_length {w : List Byte} (h : w.length ≤ 32) (b : Byte) : (pushWindow w b).length ≤ 32 := by
  unfold pushWindow
  split
  · simp only [List.length_append, List.length_singleton]; omega
  · simp only [List.length_append, List.length_tail, List.length_singleton]; omega

theorem State.offerText_frame (i : PortId) (x : InjText) (s : State) :
    ∃ p, (s.offerText i x).2 = { s with ports := p } := by
  unfold State.offerText; split
  · exact ⟨s.ports, rfl⟩
  · obtain ⟨p, h⟩ := State.kick_frame i _
    dsimp only; rw [h]; exact ⟨p, rfl⟩

theorem State.appendHit_frame (h : HitRec) (s : State) :
    ∃ e, (s.appendHit h).2 = { s with sup := { s.sup with epochs := e } } := by
  unfold State.appendHit; split
  · split
    · exact s.modOpen_frame _
    · exact ⟨s.sup.epochs, rfl⟩
  · exact ⟨s.sup.epochs, rfl⟩

theorem State.reportHit_frame (h : HitRec) (a : Bool) (s : State) :
    ∃ m l, s.reportHit h a = { s with markReg := m, link := l } := by
  unfold State.reportHit; rw [State.setFlag_eq]; exact ⟨_, _, rfl⟩

/-- The fields that a marker hit may change. -/
structure HitChange where
  ports   : Vector Port 4
  markers : Vector Marker 16
  markReg : MarkReg
  power   : PowerSeq
  sup     : Supervisor
  fetch   : Vector FetchSlot 8
  link    : Link
  usb     : ServerPort
  owners  : Vector Owner 128
  cache   : List CacheLine
  media   : Attachment
  faults  : FaultRecord

/-- The state with those fields changed. -/
def State.withHit (s : State) (c : HitChange) : State :=
  { s with ports := c.ports, markers := c.markers, markReg := c.markReg, power := c.power, sup := c.sup,
           fetch := c.fetch, link := c.link, usb := c.usb, owners := c.owners, cache := c.cache, media := c.media,
           faults := c.faults }

/-- The fields as they are. -/
def State.hitSelf (s : State) : HitChange :=
  { ports := s.ports, markers := s.markers, markReg := s.markReg, power := s.power, sup := s.sup, fetch := s.fetch,
    link := s.link, usb := s.usb, owners := s.owners, cache := s.cache, media := s.media, faults := s.faults }

theorem State.withHit_self (s : State) : s.withHit s.hitSelf = s := rfl

theorem State.withHit_withHit (s : State) (c d : HitChange) : (s.withHit c).withHit d = s.withHit d := rfl

theorem State.supHit_withHit (r : Role) (port : PortId) (s : State) : ∃ c, s.supHit r port = s.withHit c := by
  obtain ⟨w, v, f, l, u, o, c, m, fa, h⟩ := s.supHit_frame r port
  exact ⟨{ s.hitSelf with power := w, sup := v, fetch := f, link := l, usb := u, owners := o, cache := c, media := m,
                          faults := fa }, h⟩

/-- A hit changes no other field: buffer memory, rows, commitments and part time stay. -/
theorem State.hit_withHit (port : PortId) (pos : Nat) (s : State) (m : Fin 16) :
    ∃ c, s.hit port pos m = s.withHit c := by
  unfold State.hit; dsimp only
  generalize hk : ({ s with markers := _ } : State) = k
  have hk' : ∃ c, k = s.withHit c := ⟨{ s.hitSelf with markers := _ }, hk.symm⟩
  obtain ⟨c, rfl⟩ := hk'
  generalize ho : (if s.markers[m].cfg.role = .inject then
    (s.withHit c).offerText port { marker := m, text := s.markers[m].cfg.inject } else (true, s.withHit c)) = o
  have ho' : ∃ c, o.2 = s.withHit c := by
    rw [← ho]; split
    · obtain ⟨p, h⟩ := State.offerText_frame port { marker := m, text := s.markers[m].cfg.inject } (s.withHit c)
      exact ⟨{ c with ports := p }, h⟩
    · exact ⟨c, rfl⟩
  obtain ⟨d, ho'⟩ := ho'
  generalize ({ marker := m, port := port, pos := pos, time := _, role := _, dropped := _ } : HitRec) = hr
  have ha : ∃ c, (State.appendHit hr o.2).2 = s.withHit c := by
    obtain ⟨e, h⟩ := State.appendHit_frame hr o.2
    rw [h, ho']; exact ⟨{ d with sup := _ }, rfl⟩
  obtain ⟨e, ha⟩ := ha
  rw [ha]
  have hb : ∃ c, (if s.markers[m].cfg.report then State.reportHit hr (State.appendHit hr o.2).1 (s.withHit e)
      else s.withHit e) = s.withHit c := by
    split
    · obtain ⟨mr, l, h⟩ := State.reportHit_frame hr (State.appendHit hr o.2).1 (s.withHit e)
      exact ⟨{ e with markReg := mr, link := l }, h⟩
    · exact ⟨e, rfl⟩
  obtain ⟨f, hb⟩ := hb
  rw [hb]
  have sup : ∀ r, ∃ c, (s.withHit f).supHit r port = s.withHit c := fun r => by
    obtain ⟨c, h⟩ := State.supHit_withHit r port (s.withHit f)
    exact ⟨c, h⟩
  split
  · exact sup _
  · exact sup _
  · exact sup _
  · exact ⟨f, rfl⟩
  · exact ⟨f, rfl⟩

theorem hits_withHit (port : PortId) (pos : Nat) (ms : List (Fin 16)) : ∀ s : State,
    ∃ c, ms.foldl (State.hit port pos) s = s.withHit c := by
  induction ms with
  | nil => intro s; exact ⟨s.hitSelf, rfl⟩
  | cons m ms ih =>
    intro s
    obtain ⟨c, h⟩ := s.hit_withHit port pos m
    obtain ⟨d, h'⟩ := ih (s.withHit c)
    exact ⟨d, by rw [List.foldl_cons, h, h']; rfl⟩

/-- The matcher's path of a byte changes no other field. -/
theorem State.matchByte_withHit (port : PortId) (pos : Nat) (b : Byte) (s : State) :
    ∃ c, s.matchByte port pos b = s.withHit c := by
  unfold State.matchByte; dsimp only
  generalize (if s.ports[port].cfg.escape = true then _ else _ : Bool × FilterState) = f
  split
  · split
    · exact ⟨{ s.hitSelf with ports := _ }, rfl⟩
    · obtain ⟨c, h⟩ := hits_withHit port pos _ (State.modPort port _ (s.modPort port _))
      rw [h]; exact ⟨c, rfl⟩
  · exact ⟨{ s.hitSelf with ports := _ }, rfl⟩

end Sys2Proof.Machine
end

