-- ==== Sys2Proof/Laws/Fall.lean ====
section
/-! SUPPORT. A power-good fall: what the sequencer's part and the close leave, and what a request finds after it. -/

namespace Sys2Proof.Machine

/-! ## The connection -/

/-- With PG low the media port is disconnected; one that was so is left as it is. -/
theorem State.updateConnection_off {s : State} (h : s.pgHigh = false) :
    (s.updateConnection).usb.connected = false ∧ (s.usb.connected = false → s.updateConnection = s) := by
  have : s.shouldConnect = false := by unfold State.shouldConnect; simp_all [State.pgHigh]
  unfold State.updateConnection
  rw [this]
  split
  · next h => exact ⟨h.symm, fun _ => rfl⟩
  · next h => exact ⟨rfl, fun g => absurd g.symm h⟩

/-- The connection does not look at supervision, flags, markers or ports. -/
theorem State.updateConnection_congr (s : State) (u : Supervisor) (l : Link) (m : Vector Marker 16) (p : Vector Port 4) :
    State.updateConnection { s with sup := u, link := l, markers := m, ports := p } =
      { s.updateConnection with sup := u, link := l, markers := m, ports := p } := by
  unfold State.updateConnection
  simp only [show State.shouldConnect { s with sup := u, link := l, markers := m, ports := p } = s.shouldConnect from rfl]
  split
  · rfl
  · split <;> rfl

theorem State.updateConnection_power (s : State) : (s.updateConnection).power = s.power := by
  obtain ⟨u, h⟩ := State.updateConnection_frame s
  rw [h]

/-! ## The sequencer's part -/

theorem State.enterPhase_pg (p : Phase) (s : State) : (s.enterPhase p).power.pg = s.power.pg := by
  unfold State.enterPhase; dsimp only
  rw [State.updateConnection_power]
  split
  · unfold State.setMask; dsimp only; split
    · rw [State.setFlag_power]; rfl
    · rfl
  · rfl

theorem State.endAction_off_pg (r : ActResult) {s : State} (h : s.pgHigh = false) :
    (s.endAction r).power.pg = s.power.pg := by
  unfold State.endAction
  split
  · rfl
  · dsimp only
    rw [State.updateConnection_power]
    have key : ∀ y : State, y.power.pg = s.power.pg → ∀ c : Prop, [Decidable c] →
        (if c then y.releaseReset else y).power.pg = s.power.pg := by
      intro y hy c _
      split
      · unfold State.releaseReset; dsimp only
        rw [if_neg (by
          have : y.pgHigh = s.pgHigh := congrArg SenseIn.level hy
          rw [show State.pgHigh (y.modPower _) = y.pgHigh from rfl, this, h]; decide)]
        exact hy
      · exact hy
    apply key
    split
    · rw [State.recordFault_power, State.setFlag_power]; rfl
    · rw [State.setFlag_power]; rfl

theorem State.endAtFall_pg {s : State} (h : s.pgHigh = false) : s.endAtFall.power.pg = s.power.pg := by
  unfold State.endAtFall
  split
  · rw [State.recordFault_power]
  · split <;> try split
    all_goals first
      | exact State.endAction_off_pg _ h
      | exact State.enterPhase_pg _ _
      | rfl
      | (rw [State.recordFault_power]; exact State.endAction_off_pg _ h)

/-- After the sequencer's part of a fall PG is settled low. -/
theorem State.fallAction_pg {s : State} (h : s.power.pg.pin = false) :
    s.fallAction.power.pg = { pin := false, level := false, settling := none } := by
  unfold State.fallAction
  rw [State.setFlag_power, State.endAtFall_pg (by exact h)]
  show ({ pin := s.power.pg.pin, level := s.power.pg.pin, settling := none } : SenseIn) = _
  rw [h]

/-- Where a fall of PG settles at this moment a request meets the sequencer after it. -/
theorem State.asFallLeft_of_due {s : State} (h : settlesTo false s.power.pg = some s.time) :
    s.asFallLeft = s.fallAction := if_pos h

/-- What the sequencer answers with PG low (R146): DIAG and RESET are refused; CYCLE begins unless an action runs. -/
theorem State.answerTo_off {s : State} (h : s.pgHigh = false) :
    (s.answerTo .diag = .busy ∨ s.answerTo .diag = .wrongState) ∧
    (s.answerTo .reset = .busy ∨ s.answerTo .reset = .wrongState) ∧
    (s.action.isSome = true → s.answerTo .cycle = .busy) ∧
    (s.action = none → s.answerTo .cycle = .begun .pressOn) := by
  refine ⟨?_, ?_, ?_, ?_⟩ <;> unfold State.answerTo <;> cases s.action <;> simp [h, actionTable]

/-! ## The close -/

/-- A close by a fall, with an epoch open (R160, R165). -/
theorem State.closeEpoch_open {s : State} (h : s.openEpoch.isSome = true) (c : EndCause) :
    s.closeEpoch c = { s with
      markers := s.clearSpent.markers,
      sup := { s.sup with
        epochs := modNewest (fun e => { e with
          endTime := some s.time, endCause := some c,
          status := if e.status = .pending then .endedUnsettled else e.status }) s.sup.epochs,
        bootTimer := none, holdTimer := none, ret := none,
        state := if s.sup.state = .givenUp then .givenUp else .idle } } := by
  unfold State.closeEpoch State.closeRecord State.modOpen
  simp only [h, if_true]; rfl

/-- Nothing that is a notice to the cache happened. -/
theorem State.settle_same {before s : State} (ho : s.owners = before.owners) (hc : s.cache = before.cache)
    (hm : s.committed = before.committed) (hf : s.fetch = before.fetch) : State.settle before s = s := by
  have hl : ∀ g, s.line g = before.line g := fun g => by unfold State.line; rw [hc]
  have hn : State.noticed before s = State.noticed before before := by
    unfold State.noticed State.floor State.committedSum
    rw [ho, hm, hf]; simp only [hl]
  have : State.noticed before before = false := by
    unfold State.noticed
    simp only [Bool.or_eq_false_iff, List.any_eq_false]
    refine ⟨⟨⟨fun p _ => by simp, fun l _ => ?_⟩, by simp⟩, fun i _ => by cases before.fetch[i].live <;> simp⟩
    unfold lineFreed
    cases before.line l.tag <;> simp
  unfold State.settle
  rw [hn, this]; rfl

end Sys2Proof.Machine
end

