-- ==== Sys2Proof/Laws/Link.lean ====
section
/-! SUPPORT. What taking a request, and the outbound arbiter, can do. -/

namespace Sys2Proof.Machine

/-! ## Requests -/

/-- All that the taking of a frame can do: nothing more than the status byte while IN_READY is 0. -/
theorem State.whenReady_cases (take : State → State) (s : State) :
    (s.inReady = true ∧ s.whenReady take = take s.shiftStatus) ∨
      (s.inReady = false ∧ s.whenReady take = s.shiftStatus) := by
  cases h : s.inReady <;> simp [State.whenReady, h]

theorem State.request_ignored {α : Type} {s : State} (hr : s.inReady = false) (kind tag : Byte) (fields : Option α)
    (h : Handler α) : s.request kind tag fields h = s.shiftStatus := by
  simp [State.request, State.whenReady, hr]

theorem State.request_badLength {α : Type} {s : State} (hr : s.inReady = true) (kind tag : Byte) (h : Handler α) :
    s.request kind tag none h = s.shiftStatus.pushReply (mkReply kind tag .badLength []) := by
  simp [State.request, State.whenReady, hr]

theorem State.request_taken {α : Type} {s : State} (hr : s.inReady = true) (kind tag : Byte) (a : α)
    (h : Handler α) :
    s.request kind tag (some a) h =
      (h a s.shiftStatus).1.pushReply (mkReply kind tag (h a s.shiftStatus).2.1 (h a s.shiftStatus).2.2) := by
  simp [State.request, State.whenReady, hr]

/-- A handler that answers a status alone changes nothing. -/
theorem alone_state (st : Status) (s : State) : (alone st s).1 = s := rfl

theorem State.requestOpt_ignored {α : Type} {s : State} (hr : s.inReady = false) (kind tag : Byte)
    (fields : Option α) (h : α → State → Option (State × Status × List Byte)) :
    s.requestOpt kind tag fields h = some s.shiftStatus := by
  simp [State.requestOpt, hr]

theorem State.requestOpt_badLength {α : Type} {s : State} (hr : s.inReady = true) (kind tag : Byte)
    (h : α → State → Option (State × Status × List Byte)) :
    s.requestOpt kind tag none h = some (s.shiftStatus.pushReply (mkReply kind tag .badLength [])) := by
  simp [State.requestOpt, hr]

theorem State.requestOpt_taken {α : Type} {s : State} (hr : s.inReady = true) (kind tag : Byte) (a : α)
    (h : α → State → Option (State × Status × List Byte)) :
    s.requestOpt kind tag (some a) h =
      (h a s.shiftStatus).map fun r => r.1.pushReply (mkReply kind tag r.2.1 r.2.2) := by
  simp [State.requestOpt, hr]

theorem portOf_val (i : PortId) : portOf i.val = some i := by simp [portOf]

theorem portOf_above {n : Nat} (h : 3 < n) : portOf n = none := by
  simp [portOf, show ¬ n < 4 by omega]

theorem onPort_val (i : PortId) (h : PortId → State → State × Status × List Byte) (s : State) :
    onPort i.val h s = h i s := by simp [onPort, portOf_val]

theorem onPort_above {n : Nat} (hn : 3 < n) (h : PortId → State → State × Status × List Byte) (s : State) :
    onPort n h s = (s, .badField, []) := by simp [onPort, portOf_above hn, alone]

/-- What shifting the status byte out leaves of the values that the rules derive. -/
@[simp] theorem State.statusByte_shiftStatus (s : State) : s.shiftStatus.statusByte = s.statusByte := rfl
@[simp] theorem State.inReady_shiftStatus (s : State) : s.shiftStatus.inReady = s.inReady := rfl
@[simp] theorem State.slotsUsed_shiftStatus (s : State) : s.shiftStatus.slotsUsed = s.slotsUsed := rfl
@[simp] theorem State.slotsUsed_pushReply (r : Reply) (s : State) :
    (s.pushReply r).slotsUsed = s.slotsUsed + 1 := by
  unfold State.slotsUsed; rw [State.pushReply_link, State.pushReply_save, List.length_append, List.length_singleton,
    Nat.add_right_comm]

/-- A part that takes frames has a free slot. -/
theorem State.slotsUsed_of_inReady {s : State} (h : s.inReady = true) : s.slotsUsed < 8 := by
  simp only [State.inReady, Bool.and_eq_true, decide_eq_true_eq] at h; exact h.2

/-! ## Fields and integers -/

theorem num_length (k : Nat) : ∀ n, (num k n).length = k := by
  induction k with
  | zero => intro n; rfl
  | succ k ih => intro n; simp [num, ih]

theorem opt_length {k : Nat} {o : Option (List Byte)} (h : ∀ b ∈ o, b.length = k) : (opt k o).length = k + 1 := by
  cases o with
  | none => simp [opt]
  | some b => simp [opt, h b rfl]

/-- An integer of a reply or a payload is read back. -/
theorem leNat_num (k : Nat) : ∀ n, n < 256 ^ k → leNat (num k n) = n := by
  induction k with
  | zero => intro n h; simp at h; subst h; rfl
  | succ k ih =>
    intro n h
    have : n / 256 < 256 ^ k := by rw [Nat.div_lt_iff_lt_mul (by decide)]; rwa [Nat.pow_succ] at h
    simp only [num, leNat, ih _ this, BitVec.toNat_ofNat]; omega

/-! ## The outbound arbiter -/

/-- All that the arbiter's choice can do: the link, and the MARK register's count. -/
theorem State.choose_frame (s : State) : ∃ l m, s.choose = { s with link := l, markReg := m } := by
  unfold State.choose
  split
  · exact ⟨_, s.markReg, rfl⟩
  · split
    · exact ⟨_, s.markReg, rfl⟩
    · split
      · exact ⟨_, s.markReg, rfl⟩
      · split
        · unfold State.chooseReport; dsimp only; split
          · exact ⟨_, _, rfl⟩
          · exact ⟨_, s.markReg, rfl⟩
        · exact ⟨_, s.markReg, rfl⟩

/-- The choice adds no reply and no notice. -/
theorem State.choose_queues (s : State) :
    s.choose.link.replies = s.link.replies ∧ s.choose.link.notices = s.link.notices := by
  unfold State.choose
  repeat' split
  all_goals first
    | exact ⟨rfl, rfl⟩
    | (unfold State.chooseReport; dsimp only; split <;> exact ⟨rfl, rfl⟩)

/-- A retirement withdraws a held notice of its handle, and leaves whatever else a READ transaction holds (R183). -/
theorem Held.withdraw_cases (slot : Fin 8) (gen : BitVec 8) (h : Held) :
    (∃ n, h = .notice n ∧ n.names slot gen = true ∧ h.withdraw slot gen = .withdrawn) ∨
      (h.withdraw slot gen = h ∧ ∀ n, h = .notice n → n.names slot gen = false) := by
  cases h with
  | notice n => cases e : n.names slot gen <;> simp [Held.withdraw, e]
  | _ => simp [Held.withdraw]

theorem State.readOutComplete_frame (h : Held) (s : State) : ∃ l, s.readOutComplete h = { s with link := l } := by
  cases h <;> exact ⟨_, rfl⟩

theorem State.readOutCut_frame (h : Held) (s : State) :
    ∃ l m, s.readOutCut h = { s with link := l, markReg := m } := by
  cases h with
  | report r n => unfold State.readOutCut; dsimp only; rw [State.setFlag_eq]; exact ⟨_, _, rfl⟩
  | _ => exact ⟨s.link, s.markReg, rfl⟩

end Sys2Proof.Machine
end

