-- ==== Sys2Proof/Laws/Time.lean ====
section
/-! SUPPORT. What a step does: the command in front, or what time brings. -/

namespace Sys2Proof.Machine

theorem step_front {c : Instr} {rest : List Instr} {s : State} (h : s.pending = c :: rest) :
    step s = exec c { s with pending := rest } := by unfold step; rw [h]

theorem step_empty {s : State} (h : s.pending = []) : step s = .next s.tick := by unfold step; rw [h]

/-- All that the passing of time can do: nothing through a part reset, one due event, or one millisecond. -/
theorem State.tick_cases (s : State) :
    (s.inReset = true ∧ s.tick = s) ∨
      (∃ e es, s.inReset = false ∧ s.endBreaks.dueEvents = e :: es ∧
        s.tick = { s.endBreaks with pending := s.pending ++ [e] }) ∨
      (s.inReset = false ∧ s.endBreaks.dueEvents = [] ∧ s.tick = { s.endBreaks with time := s.time + 1 }) := by
  unfold State.tick
  cases hr : s.inReset
  · rw [if_neg (by simp)]
    dsimp only
    split
    · next e es he => exact .inr (.inl ⟨e, es, rfl, he, rfl⟩)
    · next he => exact .inr (.inr ⟨rfl, he, rfl⟩)
  · exact .inl ⟨rfl, by simp⟩

/-- A tick changes the queue of commands, part time, and the ports' transmitters. -/
theorem State.tick_frame (s : State) : ∃ q n p, s.tick = { s with pending := q, time := n, ports := p } := by
  rcases s.tick_cases with ⟨-, h⟩ | ⟨e, es, -, -, h⟩ | ⟨-, -, h⟩ <;> rw [h]
  · exact ⟨s.pending, s.time, s.ports, rfl⟩
  · exact ⟨_, s.time, _, rfl⟩
  · exact ⟨s.pending, _, _, rfl⟩

/-- An event is due where its deadline is the present moment. -/
theorem mem_dueAt {now : PartTime} {d : Option PartTime} {e x : Instr} : x ∈ dueAt now d e ↔ d = some now ∧ x = e := by
  unfold dueAt; split <;> simp_all

end Sys2Proof.Machine
end

