-- ==== Sys2Proof/Laws/PoolInv.lean ====
section
/-! SUPPORT. What the pool's invariant counts, and what leaves it as it was. -/

namespace Sys2Proof.Machine

/-! ## Counting -/

theorem toList4 {α : Type} (v : Vector α 4) : v.toList = [v[0], v[1], v[2], v[3]] := by
  apply List.ext_getElem
  · simp
  · intro n h1 h2
    simp at h1
    have : n = 0 ∨ n = 1 ∨ n = 2 ∨ n = 3 := by omega
    rcases this with rfl | rfl | rfl | rfl <;> simp

theorem toList_finRange {α : Type} {n : Nat} (v : Vector α n) : v.toList = (List.finRange n).map fun p => v[p] := by
  apply List.ext_getElem
  · simp
  · intro k h1 h2; simp

theorem count_owner (v : Vector Owner 128) (o : Owner) :
    v.toList.count o = ((List.finRange 128).filter fun p => decide (v[p] = o)).length := by
  rw [toList_finRange, List.count, List.countP_map, List.countP_eq_length_filter]
  congr 1

theorem owner_total (l : List Owner) : l.length = l.count .free + l.count .line +
    (l.count (.history 0) + l.count (.history 1) + l.count (.history 2) + l.count (.history 3)) := by
  induction l with
  | nil => rfl
  | cons a l ih =>
    simp only [List.count_cons, List.length_cons]
    rcases a with _ | i | _
    · simp; omega
    · have : i = 0 ∨ i = 1 ∨ i = 2 ∨ i = 3 := by revert i; decide
      rcases this with rfl | rfl | rfl | rfl <;> simp <;> omega
    · simp; omega

theorem count_pages {v : Vector Owner 128} {o : Owner} {ps : List (Fin 128)} (hn : ps.Nodup)
    (h : ∀ p : Fin 128, v[p] = o ↔ p ∈ ps) : v.toList.count o = ps.length := by
  rw [count_owner]
  apply List.Perm.length_eq
  rw [List.perm_ext_iff_of_nodup ((List.nodup_finRange 128).filter _) hn]
  intro p; simp [← h p]

theorem State.LayoutInv.count {s : State} (h : s.LayoutInv) : s.historyPages + s.cache.length + s.freePages = 128 :=
    by
  have h1 := owner_total s.owners.toList
  rw [count_pages h.lines h.line, count_pages (h.hists 0) (fun p => h.hist p 0), count_pages (h.hists 1)
      (fun p => h.hist p 1),
    count_pages (h.hists 2) (fun p => h.hist p 2), count_pages (h.hists 3) (fun p => h.hist p 3)] at h1
  unfold State.historyPages State.freePages
  rw [toList4]
  simp only [List.length_map, Vector.length_toList] at h1
  simp only [List.map_cons, List.map_nil, List.sum_cons, List.sum_nil]
  simp at h1 ⊢
  omega

theorem State.PoolInv.poolOk {s : State} (h : s.PoolInv) : s.poolOk := ⟨h.layout.count, h.quota.sum, h.held⟩

/-- The fields of a port that the pool's invariant speaks of. -/
def Port.pool (p : Port) : Nat × List PageRec × Bool := (p.cfg.quota, p.pages, p.enabled)

theorem Port.quotaOk_congr {p q : Port} {c : Nat} (h : p.pool = q.pool) : p.quotaOk c ↔ q.quotaOk c := by
  unfold Port.pool at h; simp only [Prod.mk.injEq] at h
  obtain ⟨h1, h2, h3⟩ := h
  unfold Port.quotaOk; rw [h1, h2, h3]

theorem Port.pages_of_pool {p q : Port} (h : p.pool = q.pool) : p.pages = q.pages := by
  unfold Port.pool at h; simp only [Prod.mk.injEq] at h; exact h.2.1

/-- The fields that the pool's invariant speaks of are as before. -/
structure State.samePool (s t : State) : Prop where
  ports : ∀ i : PortId, t.ports[i].pool = s.ports[i].pool
  owners : t.owners = s.owners
  committed : t.committed = s.committed
  cache : t.cache = s.cache
  fetch : t.fetch = s.fetch
  drains : t.usb.drains = s.usb.drains
  image : t.image = s.image
  save : t.save = s.save

theorem State.QuotaInv.congr {s t : State} (h : s.QuotaInv) (hp : ∀ i : PortId, t.ports[i].pool = s.ports[i].pool)
    (hc : t.committed = s.committed) (hi : t.image = s.image) (hs : t.save = s.save) : t.QuotaInv where
  port i := by rw [Port.quotaOk_congr (hp i), hc]; exact h.port i
  sum := by unfold State.committedSum; rw [hc]; exact h.sum
  image := by rw [hi]; exact h.image
  save := by rw [hs]; exact h.save

theorem State.LayoutInv.congr {s t : State} (h : s.LayoutInv) (hp : ∀ i : PortId, t.ports[i].pages = s.ports[i].pages)
    (ho : t.owners = s.owners) (ht : t.cache.map (·.tag) = s.cache.map (·.tag)) (hg : t.cache.map
        (·.page) = s.cache.map (·.page)) : t.LayoutInv where
  tags := by rw [ht]; exact h.tags
  lines := by rw [hg]; exact h.lines
  hists i := by rw [hp]; exact h.hists i
  line p := by rw [ho, hg]; exact h.line p
  hist p i := by rw [ho, hp]; exact h.hist p i

theorem State.block_congr {s t : State} (h : t.cache = s.cache) (b : Nat) : t.block b = s.block b := by
  unfold State.block State.line; rw [h]

theorem State.BlockInv.congr {s t : State} (h : s.BlockInv) (hd : t.usb.drains = s.usb.drains) (hb : ∀ b,
    t.block b = s.block b)
    (hf : t.fetch = s.fetch) : t.BlockInv where
  drain d hd' := by rw [hb]; exact h.drain d (hd ▸ hd')
  await i r hr b hb' := by rw [hb]; exact h.await i r (hf ▸ hr) b hb'
  apart i j r q hr hq := h.apart i j r q (hf ▸ hr) (hf ▸ hq)

theorem State.heldInv_congr {s t : State} (h : s.heldInv) (hc : t.heldCount ≤ s.heldCount) (hm :
    t.committed = s.committed) : t.heldInv := by
  unfold State.heldInv State.floor State.committedSum at *; rw [hm]; omega

/-- A change outside the pool keeps its invariant. -/
theorem State.PoolInv.congr {s t : State} (h : s.PoolInv) (e : s.samePool t) : t.PoolInv where
  quota := h.quota.congr e.ports e.committed e.image e.save
  layout := h.layout.congr (fun i => Port.pages_of_pool (e.ports i)) e.owners (by rw [e.cache]) (by rw [e.cache])
  blocks := h.blocks.congr e.drains (State.block_congr e.cache) e.fetch
  held := State.heldInv_congr h.held (by unfold State.heldCount; rw [e.cache]) e.committed

theorem State.samePool_of {s t : State} (hp : t.ports = s.ports) (ho : t.owners = s.owners) (hc :
    t.committed = s.committed)
    (hl : t.cache = s.cache) (hf : t.fetch = s.fetch) (hd : t.usb.drains = s.usb.drains) (hi : t.image = s.image)
        (hs : t.save = s.save) : s.samePool t :=
  ⟨fun i => by rw [hp], ho, hc, hl, hf, hd, hi, hs⟩

theorem State.samePool.trans {s t u : State} (h : s.samePool t) (k : t.samePool u) : s.samePool u :=
  ⟨fun i => (k.ports i).trans (h.ports i), k.owners.trans h.owners, k.committed.trans h.committed,
      k.cache.trans h.cache,
   k.fetch.trans h.fetch, k.drains.trans h.drains, k.image.trans h.image, k.save.trans h.save⟩

theorem State.samePool.rfl' (s : State) : s.samePool s := State.samePool_of rfl rfl rfl rfl rfl rfl rfl rfl

theorem State.modPort_samePool (i : PortId) (f : Port → Port) (s : State) (hf :
    (f s.ports[i]).pool = s.ports[i].pool) : s.samePool (s.modPort i f) := by
  refine ⟨?_, rfl, rfl, rfl, rfl, rfl, rfl, rfl⟩
  intro j; simp only [State.modPort_ports]
  by_cases e : j = i
  · subst e; rw [vupd_self]; exact hf
  · rw [vupd_ne _ _ e]

/-! ## Cache ops: counts -/

/-- The count of a class of lines as one line is changed. -/
theorem countP_map_line (f : CacheLine → CacheLine) (q : CacheLine → Bool) (t : Nat) : ∀ c : List CacheLine,
    (c.map (·.tag)).Nodup →
    (c.map fun l => if l.tag == t then f l else l).countP q + (match c.find?
        (fun l => l.tag == t) with | some l => if q l then 1 else 0 | none => 0)
     = c.countP q + (match c.find? (fun l => l.tag == t) with | some l => if q (f l) then 1 else 0 | none => 0) := by
  intro c
  induction c with
  | nil => simp
  | cons a c ih =>
    intro hn
    simp only [List.map_cons, List.nodup_cons] at hn
    by_cases ha : a.tag = t
    · have hno : c.find? (fun l => l.tag == t) = none := by
        rw [List.find?_eq_none]; intro x hx hxt
        exact hn.1 (List.mem_map.2 ⟨x, hx, by simp at hxt; rw [hxt, ha]⟩)
      have hm : (c.map fun l => if l.tag == t then f l else l) = c := by
        conv_rhs => rw [← List.map_id c]
        apply List.map_congr_left
        intro x hx
        rw [List.find?_eq_none] at hno
        rw [if_neg (hno x hx)]; rfl
      rw [List.find?_cons_of_pos (by simp [ha])]
      simp only [List.map_cons, List.countP_cons, hm, ha, beq_self_eq_true, if_true]
      omega
    · rw [List.find?_cons_of_neg (by simp [ha])]
      simp only [List.map_cons, List.countP_cons]
      have hneg : ¬ ((a.tag == t) = true) := by simp [ha]
      simp only [hneg]
      have := ih hn.2
      simp only [Bool.false_eq_true, if_false] at this ⊢
      omega

/-- A line changed adds at most itself to the held count, and nothing where it is held only if it was. -/
theorem State.modLine_held (f : CacheLine → CacheLine) (t : Nat) {s : State} (hn : (s.cache.map (·.tag)).Nodup) :
    (s.modLine t f).heldCount ≤ s.heldCount + notYet (·.held) (s.line t) ∧
    ((∀ l, s.line t = some l → (f l).held = true → l.held = true) → (s.modLine t f).heldCount ≤ s.heldCount) := by
  have := countP_map_line f (·.held) t s.cache hn
  unfold State.heldCount
  rw [State.modLine_cache]
  have e : s.line t = s.cache.find? (fun l => l.tag == t) := rfl
  rw [e]
  revert this
  cases s.cache.find? (fun l => l.tag == t) with
  | none => intro this; simp only at this; refine ⟨by omega, fun _ => by omega⟩
  | some l =>
    dsimp only; intro this
    unfold notYet
    constructor
    · dsimp only; split at this <;> split at this <;> (try split) <;> (simp_all; try omega)
    · intro h
      have := h l rfl
      by_cases h1 : (f l).held = true
      · rw [if_pos h1, if_pos (this h1)] at *; omega
      · rw [if_neg h1] at *; omega

theorem State.modLine_tags (f : CacheLine → CacheLine) (t : Nat) (hf : ∀ l, (f l).tag = l.tag) (s : State) :
    (s.modLine t f).cache.map (·.tag) = s.cache.map (·.tag) := by
  rw [State.modLine_cache, List.map_map]
  apply List.map_congr_left
  intro l _
  simp only [Function.comp]
  split <;> simp [hf]

theorem State.modLine_pages (f : CacheLine → CacheLine) (t : Nat) (hf : ∀ l, (f l).page = l.page) (s : State) :
    (s.modLine t f).cache.map (·.page) = s.cache.map (·.page) := by
  rw [State.modLine_cache, List.map_map]
  apply List.map_congr_left
  intro l _
  simp only [Function.comp]
  split <;> simp [hf]

theorem State.LayoutInv.modLine {s : State} (h : s.LayoutInv) {f : CacheLine → CacheLine} (t : Nat) (hf : ∀ l,
    (f l).tag = l.tag) (hg : ∀ l, (f l).page = l.page) :
    (s.modLine t f).LayoutInv := h.congr (fun _ => rfl) rfl (s.modLine_tags f t hf) (s.modLine_pages f t hg)

theorem State.LayoutInv.setBlock {s : State} (h : s.LayoutInv) (lba : Nat) (x : BlockState) :
    (s.setBlock lba x).LayoutInv :=
  h.modLine (f := fun l => { l with blocks := vupd l.blocks (idxOf lba) fun _ => x }) _ (fun _ => rfl) (fun _ => rfl)

theorem State.setBlock_held {s : State} (hn : (s.cache.map (·.tag)).Nodup) (lba : Nat) (x : BlockState) :
    (s.setBlock lba x).heldCount ≤ s.heldCount + notYet (·.held) (s.line (tagOf lba)) :=
  (State.modLine_held (fun l => { l with blocks := vupd l.blocks (idxOf lba) fun _ => x }) (tagOf lba) hn).1

/-- A block that makes its line held. -/
def BlockState.holds (b : BlockState) : Bool := b.isUnclean || decide (b = .pending)

theorem held_of_block {l : CacheLine} {i : Fin 8} (h : l.blocks[i].holds = true) : l.held = true := by
  unfold CacheLine.held
  rw [Bool.or_eq_true]; right
  rw [List.any_eq_true]
  exact ⟨l.blocks[i], by simp, h⟩

theorem State.setBlock_held_le {s : State} (hn : (s.cache.map (·.tag)).Nodup) (lba : Nat) (x : BlockState)
    (hx : x.holds = false ∨ (s.block lba).holds = true) : (s.setBlock lba x).heldCount ≤ s.heldCount := by
  rcases hx with hx | hx
  · apply (State.modLine_held (fun l => { l with blocks := vupd l.blocks (idxOf lba) fun _ => x }) (tagOf lba) hn).2
    intro l hl h
    unfold CacheLine.held at h ⊢
    dsimp only at h
    rw [Bool.or_eq_true] at h ⊢
    rcases h with h | h
    · exact .inl h
    · right
      rw [List.any_eq_true] at h ⊢
      obtain ⟨b, hb, hh⟩ := h
      rw [Vector.mem_toList_iff, Vector.mem_iff_getElem] at hb
      obtain ⟨k, hk, rfl⟩ := hb
      rw [vupd_getElem] at hh
      split at hh
      · unfold BlockState.holds at hx; rw [hx] at hh; cases hh
      · exact ⟨l.blocks[k], by simp, hh⟩
  · have := State.setBlock_held hn lba x
    have e : notYet (·.held) (s.line (tagOf lba)) = 0 := by
      unfold State.block at hx
      cases hl : s.line (tagOf lba) with
      | none => rw [hl] at hx; simp [BlockState.holds, BlockState.isUnclean] at hx
      | some l => rw [hl] at hx; unfold notYet; dsimp only; rw [if_pos (held_of_block hx)]
    omega

theorem State.BlockInv.setBlock {s : State} (h : s.BlockInv) (lba : Nat) (x : BlockState)
    (hd : ∀ d ∈ s.usb.drains, d.lba = lba → x = .draining ∨ x = .redirtied)
    (ha : s.block lba = .pending → x = .pending ) : (s.setBlock lba x).BlockInv where
  drain d hd' := by
    rw [State.block_setBlock]; split
    · next e => exact hd d hd' e.1
    · exact h.drain d hd'
  await i r hr b hb := by
    have := h.await i r hr b hb
    rw [State.block_setBlock]; split
    · next e => exact ha (e.1 ▸ this)
    · exact this
  apart := h.apart

theorem State.QuotaInv.of_frame {s t : State} (h : s.QuotaInv) (hp : t.ports = s.ports) (hc :
    t.committed = s.committed) (hi : t.image = s.image) (hs : t.save = s.save) : t.QuotaInv :=
  h.congr (fun i => by rw [hp]) hc hi hs

end Sys2Proof.Machine
end

