-- ==== Sys2Proof/Laws/PoolLines.lean ====
section
/-! SUPPORT. The pool's invariant through the lines of the cache: touched, dropped, released and allocated. -/

namespace Sys2Proof.Machine

theorem State.BlockInv.mono {s t : State} (h : s.BlockInv) (hd : t.usb.drains = s.usb.drains)
    (hb : ∀ b, (s.block b).holds = true → t.block b = s.block b) (hf : t.fetch = s.fetch) : t.BlockInv where
  drain d hd' := by
    have := h.drain d (hd ▸ hd')
    rw [hb _ (by rcases this with e | e <;> rw [e] <;> rfl)]; exact this
  await i r hr b hb' := by
    have := h.await i r (hf ▸ hr) b hb'
    rw [hb _ (by rw [this]; rfl)]; exact this
  apart i j r q hr hq := h.apart i j r q (hf ▸ hr) (hf ▸ hq)

theorem State.LayoutInv.line_of_mem {s : State} (h : s.LayoutInv) {l : CacheLine} (hl : l ∈ s.cache) :
    s.line l.tag = some l := by
  unfold State.line
  cases e : s.cache.find? (fun x => x.tag == l.tag) with
  | none => rw [List.find?_eq_none] at e; exact absurd (show (l.tag == l.tag) = true by simp) (e l hl)
  | some x =>
    have h1 := List.mem_of_find?_eq_some e
    have h2 : x.tag = l.tag := by simpa using List.find?_some e
    rw [List.inj_on_of_nodup_map h.tags h1 hl h2]

theorem State.line_mem {s : State} {tag : Nat} {l : CacheLine} (h : s.line tag = some l) :
    l ∈ s.cache := List.mem_of_find?_eq_some h

theorem perm_touch {c : List CacheLine} (hn : (c.map (·.tag)).Nodup) {l : CacheLine} (hl : l ∈ c) :
    (c.filter (fun x => x.tag != l.tag) ++ [l]).Perm c := by
  have hc : c.Nodup := List.Nodup.of_map _ hn
  rw [List.perm_ext_iff_of_nodup]
  · intro x
    simp only [List.mem_append, List.mem_filter, List.mem_singleton, bne_iff_ne]
    constructor
    · rintro (⟨h, -⟩ | rfl)
      · exact h
      · exact hl
    · intro h
      by_cases e : x.tag = l.tag
      · right; exact List.inj_on_of_nodup_map hn h hl e
      · exact .inl ⟨h, e⟩
  · rw [List.nodup_append]
    refine ⟨hc.filter _, by simp, ?_⟩
    intro a ha b hb e
    simp only [List.mem_filter, bne_iff_ne, List.mem_singleton] at ha hb
    subst hb e; exact ha.2 rfl
  · exact hc

theorem State.LayoutInv.perm {s t : State} (h : s.LayoutInv) (hp : ∀ i : PortId, t.ports[i].pages = s.ports[i].pages)
    (ho : t.owners = s.owners) (hc : t.cache.Perm s.cache) : t.LayoutInv where
  tags := ((hc.map _).nodup_iff).2 h.tags
  lines := ((hc.map _).nodup_iff).2 h.lines
  hists i := by rw [hp]; exact h.hists i
  line p := by rw [ho, (hc.map _).mem_iff]; exact h.line p
  hist p i := by rw [ho, hp]; exact h.hist p i

theorem State.touch_perm {s : State} (h : s.LayoutInv) (tag : Nat) : (s.touch tag).cache.Perm s.cache := by
  unfold State.touch
  split
  · next l hl =>
    have ht := State.line_tag hl
    have := perm_touch h.tags (State.line_mem hl)
    rw [ht] at this; exact this
  · exact List.Perm.refl _

theorem State.touch_frame (tag : Nat) (s : State) : s.touch tag = { s with cache := (s.touch tag).cache } := by
  unfold State.touch; split <;> rfl

theorem State.LayoutInv.touch {s : State} (h : s.LayoutInv) (tag : Nat) : (s.touch tag).LayoutInv := by
  apply h.perm _ _ (State.touch_perm h tag)
  · intro i; rw [State.touch_frame]
  · rw [State.touch_frame]

theorem State.touch_held {s : State} (h : s.LayoutInv) (tag : Nat) : (s.touch tag).heldCount = s.heldCount := by
  unfold State.heldCount; exact (State.touch_perm h tag).countP_eq _

/-! ## Dropping a line -/

theorem mem_drop_pages {s : State} (h : s.LayoutInv) {l : CacheLine} (hl : l ∈ s.cache) (p : Fin 128) :
    p ∈ (s.cache.filter fun x => x.tag != l.tag).map (·.page) ↔ p ∈ s.cache.map (·.page) ∧ p ≠ l.page := by
  simp only [List.mem_map, List.mem_filter, bne_iff_ne]
  constructor
  · rintro ⟨x, ⟨hx, ht⟩, rfl⟩
    refine ⟨⟨x, hx, rfl⟩, fun e => ht ?_⟩
    rw [List.inj_on_of_nodup_map h.lines hx hl e]
  · rintro ⟨⟨x, hx, rfl⟩, hp⟩
    exact ⟨x, ⟨hx, fun e => hp (by rw [List.inj_on_of_nodup_map h.tags hx hl e])⟩, rfl⟩

theorem filter_tags {c : List CacheLine} (h : (c.map (·.tag)).Nodup) (q) : ((c.filter q).map (·.tag)).Nodup :=
  h.sublist (List.filter_sublist.map _)

theorem filter_pages {c : List CacheLine} (h : (c.map (·.page)).Nodup) (q) : ((c.filter q).map (·.page)).Nodup :=
  h.sublist (List.filter_sublist.map _)

theorem State.LayoutInv.owner_line {s : State} (h : s.LayoutInv) {l : CacheLine} (hl : l ∈ s.cache) :
    s.owners[l.page] = .line :=
  (h.line l.page).2 (List.mem_map.2 ⟨l, hl, rfl⟩)

theorem setOwner_get (p q : Fin 128) (o : Owner) (s : State) : (s.setOwner p o).owners[q] = if q = p then o else
    s.owners[q] := by
  unfold State.setOwner
  dsimp only
  by_cases e : q = p
  · subst e; rw [vupd_self, if_pos rfl]
  · rw [vupd_ne _ _ e, if_neg e]

/-- A line freed. -/
theorem State.LayoutInv.drop_free {s : State} (h : s.LayoutInv) {l : CacheLine} (hl : l ∈ s.cache) :
    ((s.dropLine l.tag).setOwner l.page .free).LayoutInv where
  tags := filter_tags h.tags _
  lines := filter_pages h.lines _
  hists := h.hists
  line p := by
    rw [setOwner_get]
    show _ ↔ p ∈ (s.cache.filter fun x => x.tag != l.tag).map (·.page)
    rw [mem_drop_pages h hl]
    split
    · next e => simp [e]
    · next e => simp only [e, ne_eq, not_false_eq_true, and_true]; exact h.line p
  hist p i := by
    rw [setOwner_get]
    show _ ↔ p ∈ s.ports[i].pages.map (·.page)
    split
    · next e =>
      subst e
      rw [← h.hist, h.owner_line hl]; simp
    · exact h.hist p i

theorem State.dropLine_held_le (tag : Nat) (s : State) : (s.dropLine tag).heldCount ≤ s.heldCount := by
  unfold State.heldCount State.dropLine; exact List.filter_sublist.countP_le

theorem State.block_dropLine (tag b : Nat) (s : State) : (s.dropLine tag).block b = if tagOf b = tag then .invalid
    else s.block b := by
  unfold State.block; rw [State.line_dropLine]
  by_cases e : tagOf b = tag
  · rw [if_pos e, if_pos e]
  · rw [if_neg e, if_neg e]

theorem State.block_setOwner (p : Fin 128) (o : Owner) (b : Nat) (s : State) :
    (s.setOwner p o).block b = s.block b := State.block_congr rfl b

theorem block_not_holds {l : CacheLine} (h : l.held = false) (i : Fin 8) : l.blocks[i].holds = false := by
  cases e : l.blocks[i].holds with
  | false => rfl
  | true => rw [held_of_block e] at h; cases h

/-- Blocks that hold survive the drop of a non-held line. -/
theorem State.block_drop_victim {s : State} (h : s.LayoutInv) {l : CacheLine} (hl : l ∈ s.cache) (hh :
    l.held = false) (b : Nat)
    (hb : (s.block b).holds = true) : (s.dropLine l.tag).block b = s.block b := by
  rw [State.block_dropLine, if_neg]
  intro e
  have hline := h.line_of_mem hl
  rw [← e] at hline
  unfold State.block at hb
  rw [hline] at hb
  rw [block_not_holds hh] at hb; cases hb

theorem releaseIfEmpty_cases (tag : Nat) (s : State) : s.releaseIfEmpty tag = s ∨
    ∃ l, s.line tag = some l ∧ l.pinned = false ∧ l.empty = true ∧ s.releaseIfEmpty tag =
        (s.dropLine l.tag).setOwner l.page .free := by
  unfold State.releaseIfEmpty
  split
  · next l hl =>
    split
    · next h =>
      right
      simp only [Bool.and_eq_true, Bool.not_eq_true'] at h
      exact ⟨l, hl, h.1, h.2, by rw [State.line_tag hl]⟩
    · exact .inl rfl
  · exact .inl rfl

theorem empty_block {l : CacheLine} (h : l.empty = true) (i : Fin 8) : l.blocks[i] = .invalid := by
  unfold CacheLine.empty at h
  rw [List.all_eq_true] at h
  simpa using h l.blocks[i] (by simp)

theorem State.block_releaseIfEmpty (tag b : Nat) (s : State) : (s.releaseIfEmpty tag).block b = s.block b := by
  rcases releaseIfEmpty_cases tag s with h | ⟨l, hl, -, he, h⟩ <;> rw [h]
  rw [State.block_setOwner, State.block_dropLine]
  split
  · next e =>
    have ht := State.line_tag hl
    unfold State.block
    rw [e, ht, hl]; exact (empty_block he _).symm
  · rfl

theorem State.PoolInv.releaseIfEmpty {s : State} (h : s.PoolInv) (tag : Nat) : (s.releaseIfEmpty tag).PoolInv := by
  have hf := State.releaseIfEmpty_frame tag s
  refine ⟨?_, ?_, ?_, ?_⟩
  · rw [hf]; exact h.quota.of_frame rfl rfl rfl rfl
  · rcases releaseIfEmpty_cases tag s with e | ⟨l, hl, -, -, e⟩ <;> rw [e]
    · exact h.layout
    · exact h.layout.drop_free (State.line_mem hl)
  · apply h.blocks.congr
    · rw [hf]
    · exact fun b => State.block_releaseIfEmpty tag b s
    · rw [hf]
  · apply State.heldInv_congr h.held
    · rcases releaseIfEmpty_cases tag s with e | ⟨l, hl, -, -, e⟩ <;> rw [e]
      exact State.dropLine_held_le _ _
    · rw [hf]

/-! ## Allocation -/

theorem State.lowestFree_notMem {s : State} (h : s.LayoutInv) {p : Fin 128} (hp : s.lowestFree = some p) :
    p ∉ s.cache.map (·.page) ∧ ∀ i : PortId, p ∉ s.ports[i].pages.map (·.page) := by
  have hf := State.lowestFree_some hp
  refine ⟨fun e => ?_, fun i e => ?_⟩
  · rw [(h.line p).2 e] at hf; cases hf
  · rw [(h.hist p i).2 e] at hf; cases hf

/-- The line record that an allocation makes (R94). -/
def newLine (tag : Nat) (p : Fin 128) : CacheLine :=
    { tag := tag, page := p, blocks := Vector.replicate 8 .invalid, pinned := false }

theorem allocate_cases' {tag : Nat} {s t : State} (h : s.allocate tag = some t) :
    (∃ p, s.lowestFree = some p ∧ t = { s.setOwner p .line with cache := s.cache ++ [newLine tag p] }) ∨
    (∃ l ∈ s.cache, l.held = false ∧ t =
        { s with cache := (s.cache.filter fun x => x.tag != l.tag) ++ [newLine tag l.page] }) := by
  obtain ⟨p, u, hu, rfl⟩ := State.allocate_cases h
  rcases State.supplyLine_cases hu with ⟨hp, rfl⟩ | ⟨l, -, hv, rfl, rfl⟩
  · exact .inl ⟨p, hp, rfl⟩
  · obtain ⟨h1, h2⟩ := State.victim_some hv
    exact .inr ⟨l, h1, h2, rfl⟩

theorem State.tag_notMem {s : State} {tag : Nat} (h : s.line tag = none) : tag ∉ s.cache.map (·.tag) := by
  unfold State.line at h; rw [List.find?_eq_none] at h
  intro e; obtain ⟨l, hl, rfl⟩ := List.mem_map.1 e
  exact h l hl (by simp)

theorem State.LayoutInv.allocate {s t : State} (h : s.LayoutInv) {tag : Nat} (hn : s.line tag = none) (ha :
    s.allocate tag = some t) : t.LayoutInv := by
  have htag := State.tag_notMem hn
  rcases allocate_cases' ha with ⟨p, hp, rfl⟩ | ⟨l, hl, -, rfl⟩
  · obtain ⟨h1, h2⟩ := State.lowestFree_notMem h hp
    refine ⟨?_, ?_, h.hists, ?_, ?_⟩
    · show (List.map (·.tag) (s.cache ++ [newLine tag p])).Nodup
      rw [List.map_append, List.nodup_append]
      refine ⟨h.tags, by simp, ?_⟩
      intro a hm b hb; simp [newLine] at hb; subst hb; intro e; exact htag (e ▸ hm)
    · show (List.map (·.page) (s.cache ++ [newLine tag p])).Nodup
      rw [List.map_append, List.nodup_append]
      refine ⟨h.lines, by simp, ?_⟩
      intro a hm b hb; simp [newLine] at hb; subst hb; intro e; exact h1 (e ▸ hm)
    · intro q
      show (s.setOwner p .line).owners[q] = _ ↔ q ∈ List.map (·.page) (s.cache ++ [newLine tag p])
      rw [setOwner_get, List.map_append, List.mem_append]
      simp only [List.map_cons, List.map_nil, List.mem_singleton, newLine]
      split
      · next e => simp [e]
      · next e => simp only [e, or_false]; exact h.line q
    · intro q i
      show (s.setOwner p .line).owners[q] = _ ↔ q ∈ s.ports[i].pages.map (·.page)
      rw [setOwner_get]
      split
      · next e => subst e; constructor
                  · intro x; cases x
                  · intro x; exact absurd x (h2 i)
      · exact h.hist q i
  · refine ⟨?_, ?_, h.hists, ?_, h.hist⟩
    · show (List.map (·.tag) ((s.cache.filter fun x => x.tag != l.tag) ++ [newLine tag l.page])).Nodup
      rw [List.map_append, List.nodup_append]
      refine ⟨filter_tags h.tags _, by simp, ?_⟩
      intro a hm b hb; simp [newLine] at hb; subst hb; intro e
      obtain ⟨x, hx, hxa⟩ := List.mem_map.1 hm
      exact htag (List.mem_map.2 ⟨x, List.mem_of_mem_filter hx, hxa.trans e⟩)
    · show (List.map (·.page) ((s.cache.filter fun x => x.tag != l.tag) ++ [newLine tag l.page])).Nodup
      rw [List.map_append, List.nodup_append]
      refine ⟨filter_pages h.lines _, by simp, ?_⟩
      intro a hm b hb; simp [newLine] at hb; subst hb; intro e
      exact ((mem_drop_pages h hl _).1 hm).2 e
    · intro q
      show s.owners[q] = _ ↔ q ∈ List.map (·.page) ((s.cache.filter fun x => x.tag != l.tag) ++ [newLine tag l.page])
      rw [List.map_append, List.mem_append, mem_drop_pages h hl, h.line q]
      simp only [List.map_cons, List.map_nil, List.mem_singleton, newLine]
      constructor
      · intro x; by_cases e : q = l.page
        · exact .inr e
        · exact .inl ⟨x, e⟩
      · rintro (⟨x, -⟩ | rfl)
        · exact x
        · exact List.mem_map.2 ⟨l, hl, rfl⟩

theorem newLine_held (tag p) : (newLine tag p).held = false := by
  unfold CacheLine.held newLine; simp [BlockState.isUnclean]

theorem newLine_block (tag p) (i : Fin 8) : (newLine tag p).blocks[i] = .invalid := by
  simp [newLine]

theorem State.allocate_held {s t : State} {tag : Nat} (ha : s.allocate tag = some t) : t.heldCount ≤ s.heldCount := by
  rcases allocate_cases' ha with ⟨p, hp, rfl⟩ | ⟨l, hl, -, rfl⟩
  · unfold State.heldCount; simp [List.countP_append, newLine_held]
  · unfold State.heldCount; simp only [List.countP_append, List.countP_singleton, newLine_held]
    have := (List.filter_sublist (p := fun x : CacheLine => x.tag != l.tag) (l := s.cache)).countP_le (p := (·.held))
    simpa using this

theorem find_append_new {c : List CacheLine} {tag : Nat} {p : Fin 128} (t : Nat) (h : tag ∉ c.map (·.tag)) :
    (c ++ [newLine tag p]).find? (fun l => l.tag == t) = if t = tag then some
        (newLine tag p) else c.find? fun l => l.tag == t := by
  rw [List.find?_append]
  split
  · next e =>
    subst e
    have : c.find? (fun l => l.tag == t) = none := by
      rw [List.find?_eq_none]; intro x hx; simp; exact fun e => h (List.mem_map.2 ⟨x, hx, e⟩)
    rw [this]; simp [newLine]
  · next e =>
    have : [newLine tag p].find? (fun l => l.tag == t) = none := by
      rw [List.find?_cons_of_neg (by simp [newLine]; exact fun x => e x.symm)]; rfl
    rw [this, Option.or_none]

/-- An allocation: the new line's blocks are INVALID, a block that holds stays, others may become INVALID. -/
theorem State.allocate_block {s t : State} (h : s.LayoutInv) {tag : Nat} (hn : s.line tag = none) (ha :
    s.allocate tag = some t) :
    (∀ b, (s.block b).holds = true → t.block b = s.block b) ∧ (∀ b, tagOf b = tag → t.block b = .invalid) ∧
    (t.line tag).map (·.held) = some false ∧ (∀ b, t.block b = s.block b ∨ t.block b = .invalid) := by
  have htag := State.tag_notMem hn
  rcases allocate_cases' ha with ⟨p, hp, rfl⟩ | ⟨l, hl, hh, rfl⟩
  · have hline : ∀ t, State.line t { s.setOwner p .line with cache := s.cache ++ [newLine tag p] } = if t = tag then
        some (newLine tag p) else s.line t := by
      intro t; exact find_append_new t htag
    have hblock : ∀ b, State.block b { s.setOwner p .line with cache := s.cache ++ [newLine tag p] } = if tagOf b =
        tag then .invalid else s.block b := by
      intro b; unfold State.block; rw [hline]
      by_cases e : tagOf b = tag
      · rw [if_pos e, if_pos e]; exact newLine_block _ _ _
      · rw [if_neg e, if_neg e]
    refine ⟨?_, ?_, ?_, ?_⟩
    · intro b hb
      rw [hblock, if_neg]
      intro e; unfold State.block at hb; rw [e, hn] at hb; simp [BlockState.holds, BlockState.isUnclean] at hb
    · intro b hb; rw [hblock, if_pos hb]
    · rw [hline, if_pos rfl]; simp [newLine_held]
    · intro b; rw [hblock]; split
      · exact .inr rfl
      · exact .inl rfl
  · have hnot : tag ∉ (s.cache.filter fun x => x.tag != l.tag).map (·.tag) := by
      intro e; obtain ⟨x, hx, rfl⟩ := List.mem_map.1 e
      exact htag (List.mem_map.2 ⟨x, List.mem_of_mem_filter hx, rfl⟩)
    have hline : ∀ t, State.line t
        { s with cache := (s.cache.filter fun x => x.tag != l.tag) ++ [newLine tag l.page] } = if t = tag then some
        (newLine tag l.page) else (s.dropLine l.tag).line t := by
      intro t; exact find_append_new t hnot
    have hblock : ∀ b, State.block b
        { s with cache := (s.cache.filter fun x => x.tag != l.tag) ++ [newLine tag l.page] } = if tagOf b = tag then
        .invalid else (s.dropLine l.tag).block b := by
      intro b; unfold State.block; rw [hline]
      by_cases e : tagOf b = tag
      · rw [if_pos e, if_pos e]; exact newLine_block _ _ _
      · rw [if_neg e, if_neg e]
    refine ⟨?_, ?_, ?_, ?_⟩
    · intro b hb
      rw [hblock, if_neg]
      · exact State.block_drop_victim h hl hh b hb
      · intro e; unfold State.block at hb; rw [e, hn] at hb; simp [BlockState.holds, BlockState.isUnclean] at hb
    · intro b hb; rw [hblock, if_pos hb]
    · rw [hline, if_pos rfl]; simp [newLine_held]
    · intro b; rw [hblock, State.block_dropLine]; split
      · exact .inr rfl
      · split
        · exact .inr rfl
        · exact .inl rfl

theorem State.PoolInv.allocate {s t : State} (h : s.PoolInv) {tag : Nat} (hn : s.line tag = none) (ha :
    s.allocate tag = some t) : t.PoolInv := by
  have hf := State.allocate_frame ha
  refine ⟨?_, h.layout.allocate hn ha, ?_, ?_⟩
  · rw [hf]; exact h.quota.of_frame rfl rfl rfl rfl
  · apply h.blocks.mono
    · rw [hf]
    · exact (State.allocate_block h.layout hn ha).1
    · rw [hf]
  · exact State.heldInv_congr h.held (State.allocate_held ha) (by rw [hf])

end Sys2Proof.Machine
end

