-- ==== Sys2Proof/Laws/PoolFetch.lean ====
section
/-! SUPPORT. The pool's invariant through fetches, fills, a WRITE's blocks, scan passes and notices. -/

namespace Sys2Proof.Machine

theorem mem_awaitedLbas {r : FetchRec} {x : Nat} : x ∈ r.awaitedLbas ↔ ∃ k, r.blocks[k]? = some .awaited ∧
    x = r.lba k := by
  unfold FetchRec.awaitedLbas
  simp only [List.mem_filterMap, List.mem_range]
  constructor
  · rintro ⟨k, -, h⟩
    split at h
    · next e => cases h; exact ⟨k, e, rfl⟩
    · cases h
  · rintro ⟨k, h, rfl⟩
    refine ⟨k, ?_, by rw [if_pos h]⟩
    obtain ⟨hk, -⟩ := List.getElem?_eq_some_iff.1 h
    exact hk

theorem lba_inj {r : FetchRec} {j k : Nat} (h : r.lba j = r.lba k) : j = k := by unfold FetchRec.lba at h; omega

theorem retire_fetch_ne {i j : Fin 8} (h : j ≠ i) (s : State) : (s.retire i).fetch[j] = s.fetch[j] := by
  unfold State.retire; dsimp only; rw [vupd_ne _ _ h]

theorem retire_fetch_self (i : Fin 8) (s : State) : (s.retire i).fetch[i].live = none := by
  unfold State.retire; dsimp only; rw [vupd_self]

theorem State.BlockInv.stop {s t : State} (h : s.BlockInv) (i : Fin 8) (hn : t.fetch[i].live = none)
    (ho : ∀ j : Fin 8, j ≠ i → t.fetch[j] = s.fetch[j])
    (hb : ∀ x, (s.block x).holds = true → (∀ r, s.fetch[i].live = some r → x ∉ r.awaitedLbas) → t.block x = s.block x)
    (hd : t.usb.drains = s.usb.drains) : t.BlockInv where
  drain d hd' := by
    have := h.drain d (hd ▸ hd')
    rw [hb]
    · exact this
    · rcases this with e | e <;> rw [e] <;> rfl
    · intro r hr hx; have := h.await i r hr _ hx; rcases this ▸ h.drain d (hd ▸ hd') with e | e <;> cases e
  await j q hq x hx := by
    by_cases e : j = i
    · subst e; rw [hn] at hq; cases hq
    · rw [ho j e] at hq
      have := h.await j q hq x hx
      rw [hb]
      · exact this
      · rw [this]; rfl
      · intro r hr hx'; exact e (h.apart j i q r hq hr x hx hx')
  apart j k q r hq hr x hx hx' := by
    by_cases e : j = i
    · subst e; rw [hn] at hq; cases hq
    · by_cases e' : k = i
      · subst e'; rw [hn] at hr; cases hr
      · rw [ho j e] at hq; rw [ho k e'] at hr; exact h.apart j k q r hq hr x hx hx'

theorem mem_awaited_set {r : FetchRec} {k : Nat} {b : RunBlock} (hb : b ≠ .awaited) {x : Nat}
    (h : x ∈ ({ r with blocks := r.blocks.set k b } : FetchRec).awaitedLbas) : x ∈ r.awaitedLbas ∧ x ≠ r.lba k := by
  obtain ⟨j, hj, rfl⟩ := mem_awaitedLbas.1 h
  dsimp only at hj
  rw [List.getElem?_set] at hj
  split at hj
  · next e => split at hj
              · exact absurd (Option.some.inj hj) hb
              · cases hj
  · next e => exact ⟨mem_awaitedLbas.2 ⟨j, hj, rfl⟩, fun x => e (lba_inj (r := r) x).symm⟩

theorem State.BlockInv.settleRun {s t : State} (h : s.BlockInv) {i : Fin 8} {r : FetchRec} {k : Nat} {b : RunBlock}
    (hl : s.fetch[i].live = some r) (hk : r.blocks[k]? = some .awaited) (hb : b ≠ .awaited)
    (htb : ∀ x, x ≠ r.lba k → (s.block x).holds = true → t.block x = s.block x) (htf : t.fetch = s.fetch)
    (htd : t.usb.drains = s.usb.drains) : (t.settleRunBlock i r k b).BlockInv := by
  have hin : r.lba k ∈ r.awaitedLbas := mem_awaitedLbas.2 ⟨k, hk, rfl⟩
  unfold State.settleRunBlock; dsimp only
  split
  · next h0 =>
    apply h.stop i
    · exact retire_fetch_self i t
    · intro j hj; rw [retire_fetch_ne hj, htf]
    · intro x hx hn
      exact htb x (fun e => hn r hl (e ▸ hin)) hx
    · exact htd
  · have hself : ∀ (f : FetchSlot → FetchSlot), (vupd t.fetch i f)[i] = f s.fetch[i] := fun f =>
        by rw [vupd_self, htf]
    have hne : ∀ (f : FetchSlot → FetchSlot) (j : Fin 8), j ≠ i → (vupd t.fetch i f)[j] = s.fetch[j] := fun f j hj =>
        by rw [vupd_ne _ _ hj, htf]
    have hsub : ∀ (j : Fin 8) q, ((vupd t.fetch i fun f =>
        { f with live := some { r with blocks := r.blocks.set k b } })[j]).live = some q →
       ∃ q', s.fetch[j].live = some q' ∧ ∀ x ∈ q.awaitedLbas, x ∈ q'.awaitedLbas ∧ x ≠ r.lba k := by
      intro j q hq
      by_cases e : j = i
      · subst e; rw [hself] at hq; dsimp only at hq; cases hq
        exact ⟨r, hl, fun x hx => mem_awaited_set hb hx⟩
      · rw [hne _ j e] at hq
        exact ⟨q, hq, fun x hx => ⟨hx, fun ex => e (h.apart j i q r hq hl x hx (ex ▸ hin))⟩⟩
    refine ⟨?_, ?_, ?_⟩
    · intro d hd
      have := h.drain d (htd ▸ hd)
      have e : t.block d.lba = s.block d.lba := by
        apply htb
        · intro e
          have h2 := h.await i r hl _ hin
          rw [← e] at h2
          rcases this with x | x <;> rw [h2] at x <;> cases x
        · rcases this with e | e <;> rw [e] <;> rfl
      show t.block d.lba = _ ∨ t.block d.lba = _
      rw [e]; exact this
    · intro j q hq x hx
      obtain ⟨q', hq', hs⟩ := hsub j q hq
      have := h.await j q' hq' x (hs x hx).1
      show t.block x = _
      rw [htb x (hs x hx).2 (by rw [this]; rfl)]; exact this
    · intro j l q q2 hq hq2 x hx hx2
      obtain ⟨q', hq', hs⟩ := hsub j q hq
      obtain ⟨q2', hq2', hs2⟩ := hsub l q2 hq2
      exact h.apart j l q' q2' hq' hq2' x (hs x hx).1 (hs2 x hx2).1

/-- A write of other data into a block. -/
theorem State.BlockInv.releaseAwait {s t : State} (h : s.BlockInv) (lba : Nat)
    (htb : ∀ x, x ≠ lba → (s.block x).holds = true → t.block x = s.block x) (htf : t.fetch = s.fetch)
    (htd : t.usb.drains = s.usb.drains) (hp : s.block lba = .pending) : (t.releaseAwait lba).BlockInv := by
  unfold State.releaseAwait
  cases ha : t.awaiter lba with
  | none =>
    dsimp only
    unfold State.awaiter at ha
    rw [List.find?_eq_none] at ha
    have hno : ∀ (i : Fin 8) r, s.fetch[i].live = some r → lba ∉ r.awaitedLbas := by
      intro i r hr hx
      have := ha i (List.mem_finRange i)
      rw [htf, hr] at this
      exact this (by simpa using hx)
    refine ⟨?_, ?_, ?_⟩
    · intro d hd
      have := h.drain d (htd ▸ hd)
      rw [htb]
      · exact this
      · intro e; rw [e, hp] at this; rcases this with x | x <;> cases x
      · rcases this with e | e <;> rw [e] <;> rfl
    · intro i r hr x hx
      rw [htf] at hr
      have := h.await i r hr x hx
      rw [htb _ (fun e => hno i r hr (e ▸ hx)) (by rw [this]; rfl)]; exact this
    · intro i j r q hr hq; rw [htf] at hr hq; exact h.apart i j r q hr hq
  | some i =>
    dsimp only
    unfold State.awaiter at ha
    have := List.find?_some ha
    cases hl : t.fetch[i].live with
    | none => rw [hl] at this; simp at this
    | some r =>
      rw [hl] at this
      simp only [decide_eq_true_eq] at this
      obtain ⟨k, hk, he⟩ := mem_awaitedLbas.1 this
      have hk' : lba - r.lba 0 = k := by rw [he]; unfold FetchRec.lba; omega
      dsimp only; rw [hk']
      apply h.settleRun (by rw [← htf]; exact hl) hk (by decide) ?_ htf htd
      intro x hx; rw [← he] at hx; exact htb x hx

/-! ## Lists of blocks set -/

theorem State.setAll {P : State → Prop} (x : BlockState) (f : Nat → Nat) (ks : List Nat) : ∀ s : State, P s →
   (∀ s k, k ∈ ks → P s → P (s.setBlock (f k) x)) → P (ks.foldl (fun s k => s.setBlock (f k) x) s) := by
  induction ks with
  | nil => intro s h _; exact h
  | cons k ks ih =>
    intro s h hs
    rw [List.foldl_cons]
    exact ih _ (hs s k (List.mem_cons_self ..) h) (fun s k hk => hs s k (List.mem_cons_of_mem _ hk))

theorem State.invalidate_facts (lbas : List Nat) {s : State} (h : s.LayoutInv) : (s.invalidate lbas).LayoutInv ∧
    (s.invalidate lbas).heldCount ≤ s.heldCount ∧
    ∀ x, x ∉ lbas → (s.invalidate lbas).block x = s.block x := by
  have := State.setAll (P := fun t => t.LayoutInv ∧ t.heldCount ≤ s.heldCount ∧ ∀ x, x ∉ lbas →
      t.block x = s.block x) .invalid id lbas s
    ⟨h, le_refl _, fun _ _ => rfl⟩ (by
      rintro t k hk ⟨h1, h2, h3⟩
      refine ⟨h1.setBlock _ _, le_trans (State.setBlock_held_le h1.tags _ _ (.inl rfl)) h2, ?_⟩
      intro x hx
      rw [State.block_setBlock, if_neg, h3 x hx]
      rintro ⟨rfl, -⟩; exact hx hk)
  exact this

theorem State.PoolInv.stopFetch {s : State} (h : s.PoolInv) {i : Fin 8} {r : FetchRec} (hl :
    s.fetch[i].live = some r) :
    ((s.invalidate r.awaitedLbas).retire i).PoolInv := by
  obtain ⟨h1, h2, h3⟩ := State.invalidate_facts r.awaitedLbas h.layout
  obtain ⟨c, hc⟩ := State.invalidate_frame r.awaitedLbas s
  refine ⟨?_, ?_, ?_, ?_⟩
  · rw [hc]; exact h.quota.of_frame rfl rfl rfl rfl
  · exact h1.congr (fun _ => rfl) rfl rfl rfl
  · apply h.blocks.stop i
    · exact retire_fetch_self i _
    · intro j hj; rw [retire_fetch_ne hj, hc]
    · intro x _ hx
      exact h3 x (hx r hl)
    · rw [hc]; rfl
  · exact State.heldInv_congr h.held h2 (by rw [hc]; rfl)

theorem State.writeSlot_samePool (lba : Nat) (d : List Byte) (s : State) : s.samePool (s.writeSlot lba d) := by
  have := State.writeSlot_frame lba d s
  rw [this]; exact State.samePool_of rfl rfl rfl rfl rfl rfl rfl rfl

theorem State.settleRunBlock_parts (i : Fin 8) (r : FetchRec) (k : Nat) (b : RunBlock) (s : State) :
    (s.settleRunBlock i r k b).ports = s.ports ∧ (s.settleRunBlock i r k b).owners = s.owners ∧
        (s.settleRunBlock i r k b).committed = s.committed
    ∧ (s.settleRunBlock i r k b).cache = s.cache ∧ (s.settleRunBlock i r k b).usb = s.usb ∧
        (s.settleRunBlock i r k b).image = s.image ∧ (s.settleRunBlock i r k b).save = s.save := by
  obtain ⟨f, l, h⟩ := State.settleRunBlock_frame i r k b s
  rw [h]; exact ⟨rfl, rfl, rfl, rfl, rfl, rfl, rfl⟩

theorem State.releaseAwait_parts (lba : Nat) (s : State) :
    (s.releaseAwait lba).ports = s.ports ∧ (s.releaseAwait lba).owners = s.owners ∧
        (s.releaseAwait lba).committed = s.committed
    ∧ (s.releaseAwait lba).cache = s.cache ∧ (s.releaseAwait lba).usb = s.usb ∧
        (s.releaseAwait lba).image = s.image ∧ (s.releaseAwait lba).save = s.save := by
  obtain ⟨f, l, h⟩ := State.releaseAwait_frame lba s
  rw [h]; exact ⟨rfl, rfl, rfl, rfl, rfl, rfl, rfl⟩

/-- A state with the same ports, owners, cache, commitments, image and save as one with layout etc. -/
theorem State.PoolInv.mk' {s t : State} (hq : s.QuotaInv) (hl : s.LayoutInv) (hh : s.heldInv) (hb : t.BlockInv)
    (hp : t.ports = s.ports) (ho : t.owners = s.owners) (hc : t.committed = s.committed) (hcc : t.cache = s.cache)
    (hi : t.image = s.image) (hs : t.save = s.save) : t.PoolInv where
  quota := hq.of_frame hp hc hi hs
  layout := hl.congr (fun i => by rw [hp]) ho (by rw [hcc]) (by rw [hcc])
  blocks := hb
  held := State.heldInv_congr hh (by unfold State.heldCount; rw [hcc]) hc

theorem State.PoolInv.setBlock {s : State} (h : s.PoolInv) (lba : Nat) (x : BlockState)
    (hx : x.holds = false ∨ (s.block lba).holds = true)
    (hd : ∀ d ∈ s.usb.drains, d.lba = lba → x = .draining ∨ x = .redirtied)
    (ha : s.block lba = .pending → x = .pending ) : (s.setBlock lba x).PoolInv where
  quota := h.quota.of_frame rfl rfl rfl rfl
  layout := h.layout.setBlock _ _
  blocks := h.blocks.setBlock _ _ hd ha
  held := State.heldInv_congr h.held (State.setBlock_held_le h.layout.tags _ _ hx) rfl

theorem State.PoolInv.fill {s : State} (h : s.PoolInv) {i : Fin 8} {r : FetchRec} {k : Nat} (data : List Byte)
    (hl : s.fetch[i].live = some r) (hk : r.blocks[k]? = some .awaited) : (s.fill i r k data).PoolInv := by
  have h1 := h.congr (State.writeSlot_samePool (r.lba k) data s)
  have hf : (s.writeSlot (r.lba k) data).fetch = s.fetch := (State.writeSlot_samePool (r.lba k) data s).fetch
  unfold State.fill
  obtain ⟨p1, p2, p3, p4, p5, p6, p7⟩ := State.settleRunBlock_parts i r k .filled ((s.writeSlot
      (r.lba k) data).setBlock (r.lba k) .valid)
  refine State.PoolInv.mk' (s := (s.writeSlot (r.lba k) data).setBlock (r.lba k) .valid)
      (h1.quota.of_frame rfl rfl rfl rfl) (h1.layout.setBlock _ _)
    (State.heldInv_congr h1.held (State.setBlock_held_le h1.layout.tags _ _ (.inl rfl)) rfl) ?_ p1 p2 p3 p4 p6 p7
  apply h1.blocks.settleRun (by rw [hf]; exact hl) hk (by decide)
  · intro x hx _; rw [State.block_setBlock, if_neg (fun e => hx e.1)]
  · rfl
  · rfl

theorem unclean_holds {b : BlockState} (h : b.isUnclean = true) : b.holds = true := by
  unfold BlockState.holds; simp [h]

/-- MED_PUT's block, in a state whose line is present. -/
theorem State.PoolInv.place {s : State} (h : s.PoolInv) (lba : Nat) (data : List Byte) (hc :
    (s.block lba).isUnclean = false) : (s.place lba data).PoolInv := by
  have e := State.writeSlot_samePool lba data s
  have h1 := h.congr e
  have hb : ∀ x, (s.writeSlot lba data).block x = s.block x := State.block_congr e.cache
  have hd : ∀ d ∈ s.usb.drains, d.lba ≠ lba := by
    intro d hd e; have := h.blocks.drain d hd; rw [e] at this; rcases this with x | x <;> rw [x] at hc <;> cases hc
  unfold State.place; dsimp only
  split
  · next hp =>
    obtain ⟨p1, p2, p3, p4, p5, p6, p7⟩ := State.releaseAwait_parts lba ((s.writeSlot lba data).setBlock lba .valid)
    refine State.PoolInv.mk' (s := (s.writeSlot lba data).setBlock lba .valid) (h1.quota.of_frame rfl rfl rfl rfl)
        (h1.layout.setBlock _ _)
      (State.heldInv_congr h1.held (State.setBlock_held_le h1.layout.tags _ _ (.inl rfl)) rfl) ?_ p1 p2 p3 p4 p6 p7
    apply h1.blocks.releaseAwait lba
    · intro x hx _; rw [State.block_setBlock, if_neg (fun e => hx e.1)]
    · rfl
    · rfl
    · rw [hb]; exact hp
  · next hp =>
    apply h1.setBlock _ _ (.inl rfl)
    · intro d hd2 e2; rw [e.drains] at hd2; exact absurd e2 (hd d hd2)
    · intro x; rw [hb] at x; exact absurd x hp

theorem State.PoolInv.touch {s : State} (h : s.PoolInv) (tag : Nat) : (s.touch tag).PoolInv where
  quota := by rw [State.touch_frame]; exact h.quota.of_frame rfl rfl rfl rfl
  layout := h.layout.touch tag
  blocks := h.blocks.congr
      (by rw [State.touch_frame]) (fun b => State.block_touch tag b s) (by rw [State.touch_frame])
  held := State.heldInv_congr h.held (le_of_eq (State.touch_held h.layout tag)) (by rw [State.touch_frame])

theorem notYet_none (q : CacheLine → Bool) : notYet q none = 1 := rfl

theorem notYet_le (q : CacheLine → Bool) (o : Option CacheLine) : notYet q o ≤ 1 := by
  unfold notYet; split <;> (try split) <;> omega

theorem dop_held {l : CacheLine} (h : l.dirtyOrPinned = true) : l.held = true := by
  unfold CacheLine.dirtyOrPinned at h; unfold CacheLine.held
  rw [Bool.or_eq_true] at h ⊢
  rcases h with h | h
  · exact .inl h
  · right; rw [List.any_eq_true] at h ⊢
    obtain ⟨b, hb, hh⟩ := h; exact ⟨b, hb, by simp [hh]⟩

theorem State.line_isSome_of_cache {s t : State} (h : t.cache = s.cache) (tag : Nat) : (t.line tag).isSome =
    (s.line tag).isSome := by
  unfold State.line; rw [h]

theorem State.floor_congr {s t : State} (h : t.committed = s.committed) : t.floor = s.floor := by
  unfold State.floor State.committedSum; rw [h]

/-- The line of a block, present or allocated. -/
theorem State.lineFor {s u : State} (h : s.PoolInv) (tag : Nat)
    (hu : (if (s.line tag).isSome then some s else s.allocate tag) = some u) :
    u.PoolInv ∧ (u.line tag).isSome ∧ u.fetch = s.fetch ∧ u.usb = s.usb ∧ u.committed = s.committed ∧
        u.heldCount ≤ s.heldCount ∧
    notYet (·.held) (u.line tag) = notYet (·.held) (s.line tag) ∧ (∀ b, tagOf b = tag → u.block b = s.block b) ∧
    (∀ b, (s.block b).holds = true → u.block b = s.block b) := by
  split at hu
  · next hs => cases hu; exact ⟨h, hs, rfl, rfl, rfl, le_refl _, rfl, fun _ _ => rfl, fun _ _ => rfl⟩
  · next hs =>
    have hn : s.line tag = none := by simpa using hs
    have hf := State.allocate_frame hu
    obtain ⟨b1, b2, b3, b4⟩ := State.allocate_block h.layout hn hu
    refine ⟨h.allocate hn hu, ?_, by rw [hf], by rw [hf], by rw [hf], State.allocate_held hu, ?_, ?_, b1⟩
    · cases e : u.line tag with
      | none => rw [e] at b3; cases b3
      | some l => rfl
    · cases e : u.line tag with
      | none => rw [e] at b3; cases b3
      | some l => rw [e] at b3; simp only [Option.map_some, Option.some.injEq] at b3; rw [hn]; unfold notYet; simp [b3]
    · intro b hb; rw [b2 b hb]; unfold State.block; rw [hb, hn]

theorem State.writeTest_held {tag : Nat} {s : State} (h : s.writeTest tag = true) (hh : s.heldInv) :
    s.heldCount + notYet (·.held) (s.line tag) ≤ s.floor := by
  unfold State.writeTest at h
  rw [Bool.or_eq_true] at h
  rcases h with h | h
  · have : notYet (·.dirtyOrPinned) (s.line tag) = 0 := by simpa using h
    cases e : s.line tag with
    | none => rw [e] at this; cases this
    | some l =>
      rw [e] at this; unfold notYet at this ⊢; dsimp only at this ⊢
      split at this
      · next hd => rw [if_pos (dop_held hd)]; exact hh
      · cases this
  · simp only [Bool.and_eq_true, decide_eq_true_eq] at h; exact h.2

theorem State.PoolInv.takeBlock {s t : State} (h : s.PoolInv) {lba : Nat} {data : List Byte} (ht :
    s.takeBlock lba data = some t) : t.PoolInv := by
  unfold State.takeBlock at ht
  cases hu : s.lineForWrite lba with
  | none => rw [hu] at ht; cases ht
  | some u =>
    rw [hu] at ht
    simp only [Option.map_some, Option.some.injEq] at ht
    unfold State.lineForWrite at hu
    split at hu
    · next hw =>
      have hroom := State.writeTest_held hw h.held
      obtain ⟨hu1, hl, hf, hd, hc, hle, hny, -, hholds⟩ := State.lineFor h _ hu
      have e := State.writeSlot_samePool lba data u
      have h1 := hu1.congr e
      have hb : ∀ x, (u.writeSlot lba data).block x = u.block x := State.block_congr e.cache
      have hheld : ((u.writeSlot lba data).setBlock lba (writtenState (u.block lba))).heldInv := by
        unfold State.heldInv
        have a := State.setBlock_held h1.layout.tags lba (writtenState (u.block lba))
        have b : (u.writeSlot lba data).heldCount = u.heldCount := by unfold State.heldCount; rw [e.cache]
        have c : (u.writeSlot lba data).line (tagOf lba) = u.line (tagOf lba) := by unfold State.line; rw [e.cache]
        rw [b, c, hny] at a
        have f1 : ((u.writeSlot lba data).setBlock lba (writtenState (u.block lba))).floor = s.floor :=
            State.floor_congr
            (by rw [show ((u.writeSlot lba data).setBlock lba (writtenState (u.block lba))).committed = (u.writeSlot lba data).committed from rfl, e.committed, hc])
        rw [f1]; omega
      have hlay := (h1.layout.setBlock lba (writtenState (u.block lba)))
      -- the touched state
      have htb : ∀ x, x ≠ lba → (((u.writeSlot lba data).setBlock lba (writtenState (u.block lba))).touch
          (tagOf lba)).block x = u.block x := by
        intro x hx; rw [State.block_touch, State.block_setBlock, if_neg (fun e => hx e.1), hb]
      have hq : ((u.writeSlot lba data).setBlock lba (writtenState (u.block lba))).QuotaInv := h1.quota.of_frame rfl
          rfl rfl rfl
      -- after release
      have hrel : ∀ v : State, v = (if u.block lba = .pending then (((u.writeSlot lba data).setBlock lba
          (writtenState (u.block lba))).touch (tagOf lba)).releaseAwait lba else
          (((u.writeSlot lba data).setBlock lba (writtenState (u.block lba))).touch (tagOf lba))) → v.PoolInv := by
        rintro v rfl
        have hlay2 := hlay.touch (tagOf lba)
        have hheld2 : (((u.writeSlot lba data).setBlock lba (writtenState (u.block lba))).touch
            (tagOf lba)).heldInv :=
          State.heldInv_congr hheld (le_of_eq (State.touch_held hlay _)) (by rw [State.touch_frame])
        have hq2 : (((u.writeSlot lba data).setBlock lba (writtenState (u.block lba))).touch
            (tagOf lba)).QuotaInv := by
          rw [State.touch_frame]; exact hq.of_frame rfl rfl rfl rfl
        have hfe : (((u.writeSlot lba data).setBlock lba (writtenState (u.block lba))).touch
            (tagOf lba)).fetch = u.fetch := by
          rw [State.touch_frame]; exact e.fetch
        have hdr : (((u.writeSlot lba data).setBlock lba (writtenState (u.block lba))).touch
            (tagOf lba)).usb.drains = u.usb.drains := by
          rw [State.touch_frame]; exact e.drains
        split
        · next hp =>
          obtain ⟨p1, p2, p3, p4, p5, p6, p7⟩ := State.releaseAwait_parts lba (((u.writeSlot lba data).setBlock lba
              (writtenState (u.block lba))).touch (tagOf lba))
          refine State.PoolInv.mk' hq2 hlay2 hheld2 ?_ p1 p2 p3 p4 p6 p7
          exact hu1.blocks.releaseAwait lba (fun x hx _ => htb x hx) hfe hdr hp
        · next hp =>
          refine ⟨hq2, hlay2, ?_, hheld2⟩
          refine ⟨?_, ?_, ?_⟩
          · intro d hd'
            rw [hdr] at hd'
            have := hu1.blocks.drain d hd'
            by_cases ed : d.lba = lba
            · right
              rw [ed] at this ⊢
              rw [State.block_touch, State.block_setBlock]
              rcases this with x | x <;> rw [x] <;> split
              · rfl
              · next hn => exact absurd ⟨rfl, by have := (State.line_isSome_of_cache e.cache (tagOf lba)); rw [this]; exact hl⟩ hn
              · rfl
              · next hn => exact absurd ⟨rfl, by have := (State.line_isSome_of_cache e.cache (tagOf lba)); rw [this]; exact hl⟩ hn
            · rw [htb _ ed]; exact this
          · intro i r hr x hx
            rw [hfe] at hr
            have := hu1.blocks.await i r hr x hx
            rw [htb x (fun e => hp (e ▸ this))]; exact this
          · intro i j r q hr hq'; rw [hfe] at hr hq'; exact hu1.blocks.apart i j r q hr hq'
      split at ht
      · rw [← ht]; exact hrel _ rfl
      · rw [← ht]
        obtain ⟨l, he⟩ := State.appendDirty_frame lba (if u.block lba = .pending then
            (((u.writeSlot lba data).setBlock lba (writtenState (u.block lba))).touch
            (tagOf lba)).releaseAwait lba else (((u.writeSlot lba data).setBlock lba (writtenState
            (u.block lba))).touch (tagOf lba)))
        rw [he]
        exact (hrel _ rfl).congr (State.samePool_of rfl rfl rfl rfl rfl rfl rfl rfl)
    · cases hu

theorem State.setCurrent_samePool (c : Current) (s : State) : s.samePool
    (s.setCurrent c) := State.samePool_of rfl rfl rfl rfl rfl rfl rfl rfl

theorem State.complete_samePool (k : CmdKind) (st : CmdStatus) (lba n : Nat) (d : AnswerData) (s : State) :
    s.samePool (s.complete k st lba n d) :=
  State.samePool_of rfl rfl rfl rfl rfl rfl rfl rfl

theorem State.endCurrent_samePool (st : CmdStatus) (s : State) : s.samePool (s.endCurrent st) := by
  obtain ⟨c, a, e, h⟩ := State.endCurrent_frame st s
  rw [h]; exact State.samePool_of rfl rfl rfl rfl rfl rfl rfl rfl

theorem State.PoolInv.offerBlock {s : State} (h : s.PoolInv) (w : WriteCmd) (data : List Byte) :
    (s.offerBlock w data).PoolInv := by
  unfold State.offerBlock
  split
  · next t ht =>
    have := h.takeBlock ht
    split
    · exact this.congr (State.complete_samePool ..)
    · exact this.congr (State.setCurrent_samePool ..)
  · split
    · exact h
    · exact h.congr (State.setCurrent_samePool ..)

/-- Blocks of one line made PENDING. -/
theorem pendAll_facts (b : Nat) (ks : List Nat) : ∀ {s : State}, s.LayoutInv → (s.line (tagOf b)).isSome → (∀ k ∈ ks,
    tagOf (b + k) = tagOf b) →
    let t := ks.foldl (fun s k => s.setBlock (b + k) .pending) s
    t.LayoutInv ∧ t.heldCount ≤ s.heldCount + notYet (·.held) (s.line (tagOf b)) ∧
    (∀ x, t.block x = if ∃ k ∈ ks, x = b + k then .pending else s.block x) := by
  induction ks with
  | nil => intro s h _ _; exact ⟨h, Nat.le_add_right _ _, by simp⟩
  | cons k ks ih =>
    intro s h hl ht
    have h1 := h.setBlock (b + k) .pending
    have htk := ht k (List.mem_cons_self ..)
    have hl1 : ((s.setBlock (b + k) .pending).line (tagOf b)).isSome := by rw [State.line_setBlock_isSome]; exact hl
    obtain ⟨a1, a2, a3⟩ := ih h1 hl1 (fun k hk => ht k (List.mem_cons_of_mem _ hk))
    simp only [List.foldl_cons]
    refine ⟨a1, ?_, ?_⟩
    · have hb := State.setBlock_held h.tags (b + k) .pending
      rw [htk] at hb
      have hz : notYet (·.held) ((s.setBlock (b + k) .pending).line (tagOf b)) = 0 := by
        have hx : (s.setBlock (b + k) .pending).block (b + k) = .pending := by
          rw [State.block_setBlock, if_pos ⟨rfl, by rw [htk]; exact hl⟩]
        unfold State.block at hx
        rw [htk] at hx
        obtain ⟨l, hl'⟩ := Option.isSome_iff_exists.1 hl1
        rw [hl'] at hx ⊢
        unfold notYet; dsimp only at hx ⊢
        rw [if_pos (held_of_block (i := idxOf (b + k)) (by rw [hx]; rfl))]
      omega
    · intro x
      rw [a3, State.block_setBlock]
      by_cases e1 : ∃ k' ∈ ks, x = b + k'
      · rw [if_pos e1, if_pos]
        obtain ⟨k', hk', e⟩ := e1; exact ⟨k', List.mem_cons_of_mem _ hk', e⟩
      · rw [if_neg e1]
        by_cases e2 : x = b + k
        · rw [if_pos ⟨e2, by rw [htk]; exact hl⟩, if_pos ⟨k, List.mem_cons_self .., e2⟩]
        · rw [if_neg (fun e => e2 e.1), if_neg]
          rintro ⟨k', hk', e⟩
          rcases List.mem_cons.1 hk' with rfl | hk'
          · exact e2 e
          · exact e1 ⟨k', hk', e⟩

theorem State.fetchTest_held {tag : Nat} {s : State} (h : s.fetchTest tag = true) (hh : s.heldInv) :
    s.heldCount + notYet (·.held) (s.line tag) ≤ s.floor := by
  unfold State.fetchTest at h
  rw [Bool.or_eq_true] at h
  have := notYet_le (·.held) (s.line tag)
  rcases h with h | h
  · have e : notYet (·.held) (s.line tag) = 0 := by simpa using h
    unfold State.heldInv at hh; omega
  · have e : s.heldCount + 1 ≤ s.floor := by simpa using h
    omega

theorem State.freeSlot_some {s : State} {i : Fin 8} (h : s.freeSlot = some i) : s.fetch[i].live = none := by
  simpa using List.find?_some h

theorem State.PoolInv.issueRun {s t : State} (h : s.PoolInv) {e : Extent} {b n : Nat} (ht : s.issueRun e b n = some t)
    (hb : ∀ k, k < n → tagOf (b + k) = tagOf b ∧ s.block (b + k) = .invalid) : t.PoolInv ∧ t.usb = s.usb ∧
        t.media = s.media ∧
    ∀ x, (∀ k, k < n → x ≠ b + k) → t.block x = s.block x ∨ t.block x = .invalid := by
  have hframe := State.issueRun_frame ht
  unfold State.issueRun at ht
  cases hi : s.freeSlot with
  | none => rw [hi] at ht; cases ht
  | some i =>
    rw [hi] at ht; dsimp only at ht
    split at ht
    · next hw =>
      have hroom := State.fetchTest_held hw h.held
      cases hu : (if (s.line (tagOf b)).isSome then some s else s.allocate (tagOf b)) with
      | none => rw [hu] at ht; cases ht
      | some u =>
        rw [hu] at ht
        obtain ⟨hu1, hl, hf, hd, hc, hle, hny, hsame, hholds⟩ := State.lineFor h _ hu
        have hweak : ∀ x, u.block x = s.block x ∨ u.block x = .invalid := by
          split at hu
          · cases hu; exact fun _ => .inl rfl
          · next hs => exact (State.allocate_block h.layout (by simpa using hs) hu).2.2.2
        obtain ⟨a1, a2, a3⟩ := pendAll_facts b (List.range n) hu1.layout hl (fun k hk => (hb k
            (List.mem_range.1 hk)).1)
        obtain ⟨c', hc'⟩ := pendAll_frame b (List.range n) u
        dsimp only at ht a1 a2 a3
        generalize hv : (List.range n).foldl (fun s k => s.setBlock (b + k) .pending) u = v at *
        have hvf : v.fetch = s.fetch := by rw [hc']; exact hf
        have hvd : v.usb = s.usb := by rw [hc']; exact hd
        simp only [Option.some.injEq] at ht
        obtain ⟨rr, hrec⟩ : ∃ rr : FetchRec, rr = FetchRec.mk (tagOf b) (b % 8) e.object (e.offset b)
            (List.replicate n .awaited) s.time (s.after s.medCfg.fetchTimeout) := ⟨_, rfl⟩
        rw [← hrec] at ht
        have hrb : ∀ x, x ∈ rr.awaitedLbas → ∃ k, k < n ∧ x = b + k := by
          intro x hx
          obtain ⟨k, hk, rfl⟩ := mem_awaitedLbas.1 hx
          rw [hrec] at hk ⊢
          dsimp only at hk
          rw [List.getElem?_replicate] at hk
          split at hk
          · next hkn => exact ⟨k, hkn, by unfold FetchRec.lba tagOf; dsimp only; omega⟩
          · cases hk
        have hnot : ∀ (j : Fin 8) q, s.fetch[j].live = some q → ∀ x ∈ q.awaitedLbas, ¬ ∃ k ∈ List.range n,
            x = b + k := by
          rintro j q hq x hx ⟨k, hk, rfl⟩
          have := h.blocks.await j q hq _ hx
          rw [(hb k (List.mem_range.1 hk)).2] at this; cases this
        have hcases : ∀ (j : Fin 8) q, (vupd v.fetch i fun f => { f with live := some rr })[j].live = some q →
            (j = i ∧ q = rr) ∨ (j ≠ i ∧ s.fetch[j].live = some q) := by
          intro j q hq
          by_cases ej : j = i
          · subst ej; rw [vupd_self] at hq; cases hq; exact .inl ⟨rfl, rfl⟩
          · rw [vupd_ne _ _ ej, hvf] at hq; exact .inr ⟨ej, hq⟩
        have hquota : v.QuotaInv := by rw [hc']; exact hu1.quota.of_frame rfl rfl rfl rfl
        have hheld : v.heldInv := by
          unfold State.heldInv
          rw [State.floor_congr (s := s) (by rw [hc']; exact hc)]
          rw [hny] at a2; omega
        have hblk : ∀ x, t.block x = v.block x := by intro x; rw [← ht]; rfl
        refine ⟨?_, ?_, ?_, ?_⟩
        · rw [← ht]
          refine State.PoolInv.mk' (s := v) hquota a1 hheld ?_ rfl rfl rfl rfl rfl rfl
          refine ⟨?_, ?_, ?_⟩
          · intro d hd'
            have hd2 : d ∈ s.usb.drains := by rw [← hvd]; exact hd'
            have := h.blocks.drain d hd2
            show v.block d.lba = _ ∨ v.block d.lba = _
            rw [a3, if_neg]
            · rw [hholds _ (by rcases this with x | x <;> rw [x] <;> rfl)]; exact this
            · rintro ⟨k, hk, e⟩
              rw [e, (hb k (List.mem_range.1 hk)).2] at this; rcases this with x | x <;> cases x
          · intro j q hq x hx
            show v.block x = _
            rcases hcases j q hq with ⟨-, rfl⟩ | ⟨-, hq'⟩
            · rw [a3, if_pos]
              obtain ⟨k, hk, e⟩ := hrb x hx; exact ⟨k, List.mem_range.2 hk, e⟩
            · rw [a3, if_neg (hnot j q hq' x hx)]
              have := h.blocks.await j q hq' x hx
              rw [hholds _ (by rw [this]; rfl)]; exact this
          · intro j l q q2 hq hq2 x hx hx2
            rcases hcases j q hq with ⟨rfl, rfl⟩ | ⟨-, hq'⟩ <;> rcases hcases l q2 hq2 with ⟨rfl, rfl⟩ | ⟨-, hq2'⟩
            · rfl
            · obtain ⟨k, hk, e⟩ := hrb x hx; exact absurd ⟨k, List.mem_range.2 hk, e⟩ (hnot l q2 hq2' x hx2)
            · obtain ⟨k, hk, e⟩ := hrb x hx2; exact absurd ⟨k, List.mem_range.2 hk, e⟩ (hnot j q hq' x hx)
            · exact h.blocks.apart j l q q2 hq' hq2' x hx hx2
        · rw [← ht]; exact hvd
        · obtain ⟨o, c, f, l, hf⟩ := hframe; rw [hf]
        · intro x hx
          rw [hblk, a3, if_neg (by rintro ⟨k, hk, e⟩; exact hx k (List.mem_range.1 hk) e)]
          exact hweak x
    · cases ht

theorem growRun_spec (ok : Nat → Bool) : ∀ n b, b ≤ growRun ok n b ∧ ∀ x, b < x → x ≤ growRun ok n b →
    ok x = true := by
  intro n
  induction n with
  | zero => intro b; unfold growRun; exact ⟨le_refl _, fun x h1 h2 => by omega⟩
  | succ n ih =>
    intro b
    unfold growRun
    split
    · next h =>
      obtain ⟨h1, h2⟩ := ih (b + 1)
      refine ⟨by omega, fun x hx hx2 => ?_⟩
      by_cases e : x = b + 1
      · rw [e]; exact h
      · exact h2 x (by omega) hx2
    · exact ⟨le_refl _, fun x h1 h2 => by omega⟩

theorem State.runEnd_spec (c : ReadCmd) (e : Extent) (b : Nat) (s : State) : b ≤ s.runEnd c e b ∧ ∀ x, b < x →
    x ≤ s.runEnd c e b → s.extends_ e x = true := by
  unfold State.runEnd; dsimp only
  obtain ⟨h1, h2⟩ := growRun_spec (fun n => decide (n < c.stop) && s.extends_ e n) 7 b
  generalize growRun (fun n => decide (n < c.stop) && s.extends_ e n) 7 b = e1 at *
  have h2' : ∀ x, b < x → x ≤ e1 → s.extends_ e x = true := fun x hx hx2 => by
    have := h2 x hx hx2; rw [Bool.and_eq_true] at this; exact this.2
  split
  · obtain ⟨h3, h4⟩ := growRun_spec (s.extends_ e ·) s.medCfg.readAhead e1
    refine ⟨by omega, fun x hx hx2 => ?_⟩
    by_cases ex : x ≤ e1
    · exact h2' x hx ex
    · exact h4 x (by omega) hx2
  · exact ⟨h1, h2'⟩

theorem same_tag (b m : Nat) (h : ∀ x, b < x → x ≤ b + m → x % 8 ≠ 0) : ∀ k, k ≤ m → tagOf (b + k) = tagOf b := by
  intro k
  induction k with
  | zero => intro _; rfl
  | succ k ih =>
    intro hk
    have := h (b + (k + 1)) (by omega) (by omega)
    have := ih (by omega)
    unfold tagOf at *; omega

theorem State.PoolInv.scanFrom (c : ReadCmd) (fuel : Nat) : ∀ (b : Nat) {s : State}, s.PoolInv →
    (scanFrom c fuel b s).1.PoolInv ∧ (Sys2Proof.Machine.scanFrom c fuel b s).1.usb = s.usb := by
  induction fuel with
  | zero => intro b s h; exact ⟨h, rfl⟩
  | succ fuel ih =>
    intro b s h
    unfold Sys2Proof.Machine.scanFrom
    split
    · exact ⟨h, rfl⟩
    · split
      · exact ih _ h
      · next e he =>
        split
        · next hb =>
          split
          · exact ⟨h, rfl⟩
          · next t ht =>
            obtain ⟨r1, r2⟩ := s.runEnd_spec c e b
            have hx : ∀ x, b < x → x ≤ b + (s.runEnd c e b - b) → x % 8 ≠ 0 ∧ s.block x = .invalid := by
              intro x h1 h2
              have := r2 x h1 (by omega)
              unfold State.extends_ at this
              simp only [Bool.and_eq_true, decide_eq_true_eq] at this
              exact ⟨this.1.1, this.2⟩
            obtain ⟨p1, p2, -, -⟩ := h.issueRun ht (by
              intro k hk
              refine ⟨same_tag b (s.runEnd c e b - b) (fun x h1 h2 => (hx x h1 h2).1) k (by omega), ?_⟩
              by_cases ek : k = 0
              · subst ek; exact hb
              · exact (hx (b + k) (by omega) (by omega)).2)
            obtain ⟨q1, q2⟩ := ih (s.runEnd c e b + 1) p1
            exact ⟨q1, by rw [q2, p2]⟩
        · exact ih _ h

theorem State.PoolInv.scanPass {s : State} (h : s.PoolInv) : s.scanPass.PoolInv := by
  unfold State.scanPass
  split
  · next c _ =>
    dsimp only
    exact (State.PoolInv.scanFrom c _ _ h).1.congr (State.setCurrent_samePool ..)
  · exact h

theorem State.PoolInv.retry {s : State} (h : s.PoolInv) : s.retry.PoolInv := by
  unfold State.retry
  split
  · split
    · exact h.scanPass
    · exact h
  · split
    · exact h.offerBlock _ _
    · exact h
  · exact h

theorem State.PoolInv.settle {s : State} (before : State) (h : s.PoolInv) : (State.settle before s).PoolInv := by
  rcases State.settle_cases before s with ⟨-, e⟩ | ⟨-, e⟩ <;> rw [e]
  · exact h.retry
  · exact h

end Sys2Proof.Machine
end

