-- ==== Sys2Proof/Laws/PoolMedia.lean ====
section
/-! SUPPORT. The pool's invariant through the end of an attachment, write-back, delivery, pins and extents. -/

namespace Sys2Proof.Machine

theorem State.setFlag_samePool (r : Report) (s : State) : s.samePool (s.setFlag r) := by
  obtain ⟨l, h⟩ := State.setFlag_frame r s; rw [h]; exact State.samePool_of rfl rfl rfl rfl rfl rfl rfl rfl

theorem State.recordFault_samePool (k : FaultKind) (s : State) : s.samePool (s.recordFault k) := by
  unfold State.recordFault
  obtain ⟨l, h⟩ := State.setFlag_frame .fault
      { s with faults := { first := s.faults.first.or (some { kind := k, time := s.time }), latest := some { kind := k, time := s.time }, count := satInc 65535 s.faults.count } }
  rw [h]; exact State.samePool_of rfl rfl rfl rfl rfl rfl rfl rfl

theorem State.updateConnection_samePool (s : State) : s.samePool s.updateConnection := by
  unfold State.updateConnection; split
  · exact State.samePool.rfl' s
  · split <;> exact State.samePool_of rfl rfl rfl rfl rfl rfl rfl rfl

theorem State.readRows_samePool (lba : Nat) (s : State) : s.samePool (s.readRows lba).2 := by
  rw [State.readRows_frame]; exact State.samePool_of rfl rfl rfl rfl rfl rfl rfl rfl

/-! ## Attachment ends -/

theorem retireAll_live (is : List (Fin 8)) : ∀ s : State, ∀ j : Fin 8, (j ∈ is ∨ s.fetch[j].live = none) →
    (is.foldl (fun (s : State) i => if s.fetch[i].live.isSome then s.retire i else s) s).fetch[j].live = none := by
  induction is with
  | nil => intro s j h; rcases h with h | h
           · cases h
           · exact h
  | cons i is ih =>
    intro s j h
    rw [List.foldl_cons]
    apply ih
    by_cases hj : j ∈ is
    · exact .inl hj
    · right
      by_cases e : j = i
      · subst e
        split
        · exact retire_fetch_self j s
        · next hn => simpa using hn
      · rcases h with h | h
        · rcases List.mem_cons.1 h with h | h
          · exact absurd h e
          · exact absurd h hj
        · split
          · rw [retire_fetch_ne e]; exact h
          · exact h

theorem State.cancelFetches_live (s : State) (j : Fin 8) : s.cancelFetches.fetch[j].live = none := by
  unfold State.cancelFetches; exact retireAll_live _ _ j (.inl (List.mem_finRange j))

theorem State.PoolInv.endAttachment {s : State} (h : s.PoolInv) : s.endAttachment.PoolInv := by
  unfold State.endAttachment; dsimp only
  have hlive := State.cancelFetches_live s
  obtain ⟨f, l, u, hc⟩ := s.cancelFetches_frame
  rw [hc] at hlive ⊢
  apply State.PoolInv.congr _ (State.setFlag_samePool _ _)
  refine ⟨h.quota.of_frame rfl rfl rfl rfl, ⟨List.nodup_nil, List.nodup_nil, h.layout.hists, ?_, ?_⟩, ⟨?_, ?_, ?_⟩,
      ?_⟩
  · intro p
    show (vmap s.owners fun o => if o = .line then .free else o)[p.val] = _ ↔ _
    rw [vmap_getElem]; split
    · simp
    · next hn => simp; exact hn
  · intro p i
    show (vmap s.owners fun o => if o = .line then .free else o)[p.val] = _ ↔ _
    rw [vmap_getElem]
    have := h.layout.hist p i
    rw [← this]
    split
    · next e => constructor
                · intro x; cases x
                · intro x; rw [show s.owners[p] = s.owners[p.val] from rfl, e] at x; cases x
    · rfl
  · intro d hd; cases hd
  · intro i r hr; rw [show (_ : State).fetch = f from rfl] at hr; rw [hlive i] at hr; cases hr
  · intro i j r q hr; rw [show (_ : State).fetch = f from rfl] at hr; rw [hlive i] at hr; cases hr
  · exact Nat.zero_le _

theorem State.PoolInv.completeEject {s : State} (h : s.PoolInv) : s.completeEject.PoolInv := by
  unfold State.completeEject; split
  · exact h.endAttachment
  · exact h

theorem State.PoolInv.softEject {s : State} (h : s.PoolInv) : s.softEject.PoolInv := by
  unfold State.softEject
  apply State.PoolInv.completeEject
  apply State.PoolInv.congr _ (State.setFlag_samePool _ _)
  apply State.PoolInv.congr _ (State.endCurrent_samePool _ _)
  exact h.congr (State.samePool_of rfl rfl rfl rfl rfl rfl rfl rfl)

theorem State.PoolInv.forceEject {s : State} (h : s.PoolInv) : s.forceEject.PoolInv := by
  unfold State.forceEject; dsimp only
  apply State.PoolInv.endAttachment
  have := h.congr (State.endCurrent_samePool .noMedium s)
  split
  · exact this
  · exact this.congr (State.recordFault_samePool _ _)

/-! ## The dirty list -/

theorem State.PoolInv.dropDrain {s t : State} (lba : Nat) (hq : s.QuotaInv) (hl : s.LayoutInv) (hh : s.heldInv)
    (hd : ∀ d ∈ s.usb.drains, d.lba ≠ lba → s.block d.lba = .draining ∨ s.block d.lba = .redirtied)
    (ha : ∀ (i : Fin 8) r, s.fetch[i].live = some r → ∀ b ∈ r.awaitedLbas, s.block b = .pending)
    (hap : ∀ (i j : Fin 8) r q, s.fetch[i].live = some r → s.fetch[j].live = some q → ∀ b ∈ r.awaitedLbas,
        b ∈ q.awaitedLbas → i = j)
    (ht : t = s.dropDrain lba) : t.PoolInv := by
  subst ht
  refine ⟨hq.of_frame rfl rfl rfl rfl, hl.congr (fun _ => rfl) rfl rfl rfl, ⟨?_, ha, hap⟩, hh⟩
  intro d hd'
  unfold State.dropDrain at hd'
  simp only [List.mem_filter, decide_eq_true_eq] at hd'
  exact hd d hd'.1 hd'.2

/-- A block leaves the drains as its state changes. -/
theorem State.PoolInv.setDrop {s : State} (h : s.PoolInv) (lba : Nat) (x : BlockState) (hx : x.holds = false ∨
    (s.block lba).holds = true)
    (hp : s.block lba ≠ .pending) : ((s.setBlock lba x).dropDrain lba).PoolInv := by
  have hb : ∀ y, y ≠ lba → (s.setBlock lba x).block y = s.block y := fun y hy =>
      by rw [State.block_setBlock, if_neg (fun e => hy e.1)]
  apply State.PoolInv.dropDrain (s := s.setBlock lba x) lba (h.quota.of_frame rfl rfl rfl rfl) (h.layout.setBlock _ _)
    (State.heldInv_congr h.held (State.setBlock_held_le h.layout.tags _ _ hx) rfl) _ _ h.blocks.apart rfl
  · intro d hd hne; rw [hb _ hne]; exact h.blocks.drain d hd
  · intro i r hr b hb'
    have := h.blocks.await i r hr b hb'
    rw [hb _ (fun e => hp (e ▸ this))]; exact this

theorem State.removeDirty_samePool (lba : Nat) (s : State) : s.samePool
    (s.removeDirty lba) := State.samePool_of rfl rfl rfl rfl rfl rfl rfl rfl

theorem listed_holds {b : BlockState} (h : b.isListed = true) : b.holds = true := by cases b <;> first | rfl | cases h

theorem listed_pending {b : BlockState} (h : b.isListed = true) : b ≠ .pending := by intro e; rw [e] at h; cases h

theorem State.PoolInv.loseBlock {s : State} (h : s.PoolInv) {lba : Nat} (hb : (s.block lba).isListed = true) :
    (s.loseBlock lba).PoolInv := by
  unfold State.loseBlock; dsimp only
  apply State.PoolInv.completeEject
  have h1 : (((s.setBlock lba .lost).removeDirty lba).dropDrain lba).PoolInv :=
    (h.setDrop lba .lost (.inr (listed_holds hb)) (listed_pending hb)).congr
        (State.samePool_of rfl rfl rfl rfl rfl rfl rfl rfl)
  have h2 := h1.congr (State.recordFault_samePool (.dirtyLost lba) _)
  split
  · exact h2.congr (State.endCurrent_samePool _ _)
  · exact h2

theorem State.PoolInv.afterClean {s : State} (h : s.PoolInv) : s.afterClean.PoolInv := by
  unfold State.afterClean
  apply State.PoolInv.completeEject
  split
  · exact h.congr (State.endCurrent_samePool _ _)
  · exact h

theorem State.PoolInv.clean {s : State} (h : s.PoolInv) {d : DrainRec} (hd : d ∈ s.usb.drains) :
    (s.clean d.lba).2.PoolInv := by
  have hb := h.blocks.drain d hd
  unfold State.clean
  have hp : s.block d.lba ≠ .pending := by rcases hb with e | e <;> rw [e] <;> decide
  have hh : (s.block d.lba).holds = true := by rcases hb with e | e <;> rw [e] <;> rfl
  split
  · exact h.setDrop _ _ (.inr hh) hp
  · apply State.PoolInv.afterClean
    exact (h.setDrop d.lba .valid (.inl rfl) hp).congr (State.samePool_of rfl rfl rfl rfl rfl rfl rfl rfl)

theorem State.PoolInv.expireDrain {s : State} (h : s.PoolInv) {d : DrainRec} (hd : d ∈ s.usb.drains) :
    (s.expireDrain d).PoolInv := by
  have hb := h.blocks.drain d hd
  exact h.setDrop _ _ (.inr
      (by rcases hb with e | e <;> rw [e] <;> rfl)) (by rcases hb with e | e <;> rw [e] <;> decide)

theorem State.PoolInv.beginDrain {s : State} (h : s.PoolInv) {b : Nat} (hb : s.block b = .dirty) :
    (s.beginDrain b).PoolInv := by
  have hline : (s.line (tagOf b)).isSome := by
    cases e : s.line (tagOf b) with
    | none => unfold State.block at hb; rw [e] at hb; cases hb
    | some l => rfl
  have h1 := h.setBlock b .draining (.inr (by rw [hb]; rfl)) (fun _ _ _ => .inl rfl) (by rw [hb]; intro x; cases x)
  unfold State.beginDrain; dsimp only
  refine ⟨h1.quota.of_frame rfl rfl rfl rfl, h1.layout.congr (fun _ => rfl) rfl rfl rfl, ⟨?_, h1.blocks.await,
      h1.blocks.apart⟩, h1.held⟩
  intro d hd
  simp only [List.mem_append, List.mem_singleton] at hd
  rcases hd with hd | rfl
  · exact h1.blocks.drain d hd
  · left; show (s.setBlock b .draining).block b = _
    rw [State.block_setBlock, if_pos ⟨rfl, hline⟩]

theorem State.PoolInv.drainFrom (bs : List Nat) : ∀ {s : State}, s.PoolInv → (drainFrom bs s).1.PoolInv ∧ ∀ b,
    (drainFrom bs s).2 = some b → (drainFrom bs s).1.block b = .dirty := by
  induction bs with
  | nil => intro s h; exact ⟨h, fun b e => by cases e⟩
  | cons b bs ih =>
    intro s h
    unfold Sys2Proof.Machine.drainFrom
    have e := State.readRows_samePool b s
    have hb : ∀ x, (s.readRows b).2.block x = s.block x := State.block_congr e.cache
    split
    · next hd =>
      split
      · exact ih ((h.congr e).loseBlock (by rw [hb, hd]; rfl))
      · refine ⟨h.congr e, ?_⟩
        intro x hx; cases hx; rw [hb]; exact hd
    · exact ih h

/-! ## Fetches -/

theorem State.retire_parts (i : Fin 8) (s : State) : (s.retire i).usb = s.usb := rfl

theorem State.lowerFailure_samePool (l : List Nat) (s : State) : s.samePool (s.lowerFailure l) := by
  unfold State.lowerFailure; split
  · exact State.setCurrent_samePool ..
  · exact State.samePool.rfl' s

theorem State.lowerFailure_retire (l : List Nat) (i : Fin 8) (s : State) : (s.retire i).samePool
    ((s.lowerFailure l).retire i) := by
  unfold State.lowerFailure; split
  · exact State.samePool_of rfl rfl rfl rfl rfl rfl rfl rfl
  · exact State.samePool.rfl' _

theorem State.PoolInv.failFetch {s : State} (h : s.PoolInv) {i : Fin 8} {r : FetchRec} (hl :
    s.fetch[i].live = some r) : (s.failFetch i r).PoolInv := by
  unfold State.failFetch
  exact ((h.stopFetch hl).congr (State.lowerFailure_retire _ _ _)).releaseIfEmpty _

theorem State.PoolInv.expireFetch {s : State} (h : s.PoolInv) (i : Fin 8) : (s.expireFetch i).PoolInv := by
  unfold State.expireFetch
  split
  · exact h
  · next r hl =>
    dsimp only
    have h1 := h.stopFetch hl
    apply State.PoolInv.releaseIfEmpty
    apply State.PoolInv.congr _ (State.recordFault_samePool _ _)
    split
    · exact h1.congr (State.endCurrent_samePool _ _)
    · exact h1

/-! ## Delivery -/

theorem State.PoolInv.sendBlock {s : State} (h : s.PoolInv) (c : ReadCmd) (d : List Byte) :
    (s.sendBlock c d).PoolInv := by
  unfold State.sendBlock; dsimp only
  have h1 : ({ s with usb := { s.usb with sentBlock := some (c.cursor, d) } } : State).PoolInv := h.congr
      (State.samePool_of rfl rfl rfl rfl rfl rfl rfl rfl)
  split
  · exact h1.congr (State.complete_samePool ..)
  · exact h1.congr (State.setCurrent_samePool ..)

theorem State.PoolInv.invalidateValid {s : State} (h : s.PoolInv) {b : Nat} (hb : s.block b = .valid) :
    (s.setBlock b .invalid).PoolInv := by
  apply h.setBlock _ _ (.inl rfl)
  · intro d hd e; have := h.blocks.drain d hd; rw [e, hb] at this; rcases this with x | x <;> cases x
  · intro x; rw [hb] at x; cases x

theorem State.PoolInv.deliver {s : State} (h : s.PoolInv) (c : ReadCmd) : (s.deliver c).PoolInv := by
  have e := State.readRows_samePool c.cursor s
  have hb : ∀ x, (s.readRows c.cursor).2.block x = s.block x := State.block_congr e.cache
  have h1 := h.congr e
  have hlist : (s.block c.cursor).isListed = true → (s.deliverListed c).PoolInv := by
    intro hl
    unfold State.deliverListed; dsimp only
    split
    · exact (h1.loseBlock (by rw [hb]; exact hl)).congr (State.endCurrent_samePool _ _)
    · exact (h1.touch _).sendBlock _ _
  unfold State.deliver
  split
  · exact h.sendBlock _ _
  · split
    · exact h.congr (State.endCurrent_samePool _ _)
    · split
      · next hv =>
        unfold State.deliverValid; dsimp only
        split
        · exact ((h1.invalidateValid (by rw [hb]; exact hv)).releaseIfEmpty _).scanPass
        · exact (h1.touch _).sendBlock _ _
      · next hv => exact hlist (by rw [hv]; rfl)
      · next hv => exact hlist (by rw [hv]; rfl)
      · next hv => exact hlist (by rw [hv]; rfl)
      · exact h.congr (State.endCurrent_samePool _ _)
      · exact h
      · exact h.scanPass

/-! ## Pins -/

theorem State.setPin_blocks (t : Nat) (v : Bool) (s : State) (b : Nat) : (s.setPin t v).block b = s.block b := by
  unfold State.setPin State.block
  rw [State.line_modLine (by intro l; rfl)]
  by_cases e : tagOf b = t
  · rw [if_pos e]; cases s.line (tagOf b) <;> rfl
  · rw [if_neg e]

theorem State.PoolInv.setPin {s : State} (h : s.PoolInv) (t : Nat) (v : Bool) (hv : v = false ∨ s.heldCount + notYet
    (·.held) (s.line t) ≤ s.floor) : (s.setPin t v).PoolInv where
  quota := h.quota.of_frame rfl rfl rfl rfl
  layout := h.layout.modLine t (fun _ => rfl) (fun _ => rfl)
  blocks := h.blocks.congr rfl (State.setPin_blocks t v s) rfl
  held := by
    have := State.modLine_held (fun l => { l with pinned := v }) t h.layout.tags
    rcases hv with rfl | hv
    · refine State.heldInv_congr (s := s) h.held ?_ rfl
      apply this.2
      intro l _ hl
      unfold CacheLine.held at hl ⊢
      simp only [Bool.false_or] at hl
      rw [hl]; simp
    · unfold State.heldInv
      have f1 : (s.setPin t v).floor = s.floor := rfl
      rw [f1]; have := this.1; unfold State.setPin; omega

theorem State.PoolInv.medPin {s : State} (h : s.PoolInv) (t : Nat) : (medPin t s).1.PoolInv := by
  unfold Sys2Proof.Machine.medPin
  split
  · split
    · exact h
    · split
      · split
        · exact h
        · split
          · next hp =>
            unfold State.pinTest at hp
            simp only [Bool.and_eq_true, decide_eq_true_eq] at hp
            exact h.setPin _ _ (.inr hp.2)
          · exact h
      · next hn =>
        split
        · next hp =>
          unfold State.pinTest at hp
          simp only [Bool.and_eq_true, decide_eq_true_eq] at hp
          split
          · next u hu =>
            obtain ⟨h1, h2, h3, h4, h5, h6, h7, -, -⟩ := State.lineFor (u := u) h t (by rw [hn]; simpa using hu)
            apply h1.setPin _ _ (.inr _)
            rw [h7, State.floor_congr h5]; omega
          · exact h
        · exact h
  · exact h

theorem State.PoolInv.medUnpin {s : State} (h : s.PoolInv) (t : Nat) : (medUnpin t s).1.PoolInv := by
  unfold Sys2Proof.Machine.medUnpin
  split
  · exact h
  · split
    · split
      · exact (h.setPin _ _ (.inl rfl)).releaseIfEmpty _
      · exact h
    · exact h

/-! ## Extents -/

theorem dropBlocks_block (e : Extent) (l : CacheLine) (i : Fin 8) : (dropBlocks e l).blocks[i] = l.blocks[i] ∨
    (l.blocks[i] = .valid ∧ (dropBlocks e l).blocks[i] = .invalid) := by
  unfold dropBlocks
  show (vgen 8 _)[i.val] = _ ∨ _ ∧ (vgen 8 _)[i.val] = _
  rw [vgen_getElem]
  have hi : (⟨i.val % 8, Nat.mod_lt _ (by decide)⟩ : Fin 8) = i := by apply Fin.ext; simp
  simp only [hi]
  split
  · next h => simp only [Bool.and_eq_true, decide_eq_true_eq] at h; exact .inr ⟨h.2, rfl⟩
  · exact .inl rfl

theorem State.PoolInv.removeExtent {s : State} (h : s.PoolInv) (i : Fin 32) (e : Extent) :
    (s.removeExtent i e).PoolInv := by
  unfold State.removeExtent; dsimp only
  have hline : ∀ t, State.line t { s with cache := s.cache.map (dropBlocks e) } = (s.line t).map (dropBlocks e) := by
    intro t; unfold State.line; rw [List.find?_map]; rfl
  have h1 : ({ s with cache := s.cache.map (dropBlocks e) } : State).PoolInv := by
    refine ⟨h.quota.of_frame rfl rfl rfl rfl, h.layout.congr (fun _ => rfl) rfl
        (by simp [dropBlocks, Function.comp_def]) (by simp [dropBlocks, Function.comp_def]), ?_, ?_⟩
    · refine State.BlockInv.mono (s := s) h.blocks rfl ?_ rfl
      intro b hb
      unfold State.block at hb ⊢
      rw [hline]
      cases hl : s.line (tagOf b) with
      | none => rfl
      | some l =>
        rw [hl] at hb
        rcases dropBlocks_block e l (idxOf b) with x | ⟨x, -⟩
        · exact x
        · dsimp only at hb; rw [x] at hb; cases hb
    · refine State.heldInv_congr (s := s) h.held ?_ rfl
      unfold State.heldCount
      dsimp only
      rw [List.countP_map]
      apply List.countP_mono_left
      intro l _ hl
      simp only [Function.comp] at hl
      unfold CacheLine.held at hl ⊢
      rw [Bool.or_eq_true] at hl ⊢
      rcases hl with hl | hl
      · exact .inl hl
      · right
        rw [List.any_eq_true] at hl ⊢
        obtain ⟨b, hb, hh⟩ := hl
        rw [Vector.mem_toList_iff, Vector.mem_iff_getElem] at hb
        obtain ⟨k, hk, rfl⟩ := hb
        rcases dropBlocks_block e l ⟨k, hk⟩ with x | ⟨-, x⟩
        · refine ⟨l.blocks[k], by simp, ?_⟩
          have x' : (dropBlocks e l).blocks[k] = l.blocks[k] := x
          rw [x'] at hh; exact hh
        · have x' : (dropBlocks e l).blocks[k] = .invalid := x
          rw [x'] at hh; cases hh
  have h2 : ∀ ts : List Nat, ∀ u : State, u.PoolInv → (ts.foldl (fun s t => s.releaseIfEmpty t) u).PoolInv := by
    intro ts; induction ts with
    | nil => intro u h; exact h
    | cons t ts ih => intro u h; exact ih _ (h.releaseIfEmpty t)
  exact (h2 _ _ h1).congr (State.samePool_of rfl rfl rfl rfl rfl rfl rfl rfl)

end Sys2Proof.Machine
end

