-- ==== Sys2Proof/Laws/PoolPorts.lean ====
section
/-! SUPPORT. The pool's invariant through the console ports, the matcher, power and supervision. -/

namespace Sys2Proof.Machine

theorem State.samePool.of_usb {s t : State} (h : s.samePool t) : t.usb.drains = s.usb.drains := h.drains

/-- Changes outside the pool. -/
theorem State.mapPorts_samePool (f : Port → Port) (hf : ∀ p, (f p).pool = p.pool) (s : State) : s.samePool
    { s with ports := vmap s.ports f } := by
  refine ⟨?_, rfl, rfl, rfl, rfl, rfl, rfl, rfl⟩
  intro i
  show ((vmap s.ports f)[i.val]).pool = _
  rw [vmap_getElem]; exact hf _

theorem Port.moveText_pool (p : Port) : p.moveText.pool = p.pool := by
  rcases p.moveText_cases with e | ⟨x, -, -, e⟩
  · rw [e]
  · rw [e]; rfl

theorem Port.begin_pool (now : PartTime) (p : Port) : (p.begin_ now).pool = p.pool := by
  unfold Port.begin_; split
  · rw [Port.moveText_pool]; rfl
  · rfl

theorem Port.cutBreak_pool (p : Port) : p.cutBreak.pool = p.pool := by unfold Port.cutBreak; split <;> rfl

theorem Port.gateBegin_pool (p : Port) : p.gateBegin.pool = p.pool := by
  unfold Port.gateBegin; split
  · exact p.cutBreak_pool
  · rfl

theorem Port.unlock_pool (p : Port) : p.unlock.pool = p.pool := p.cutBreak_pool

theorem Port.endBreak_pool (now : PartTime) (p : Port) : (p.endBreak now).pool = p.pool := by
  unfold Port.endBreak; split <;> rfl

theorem Port.interval_pool (iv : Nat) (p : Port) : (p.interval iv).pool = p.pool := by
  unfold Port.interval; dsimp only; split
  · rfl
  · split <;> rfl

theorem State.kick_samePool (i : PortId) (s : State) : s.samePool (s.kick i) := by
  unfold State.kick; split
  · exact State.modPort_samePool _ _ _ (Port.begin_pool _ _)
  · exact State.samePool.rfl' s

theorem State.kickAll_samePool (s : State) : s.samePool s.kickAll := by
  unfold State.kickAll
  have : ∀ (l : List PortId) (t : State), s.samePool t → s.samePool (l.foldl (fun s i => s.kick i) t) := by
    intro l; induction l with
    | nil => intro t h; exact h
    | cons i l ih => intro t h; exact ih _ (h.trans (t.kick_samePool i))
  exact this _ _ (State.samePool.rfl' s)

theorem State.endBreaks_samePool (s : State) : s.samePool s.endBreaks := State.mapPorts_samePool _
    (Port.endBreak_pool s.time) s

theorem State.gateAll_samePool (s : State) : s.samePool s.gateAll := State.mapPorts_samePool _ Port.gateBegin_pool s

theorem State.sent_samePool (i : PortId) (s : State) : s.samePool (s.sent i) :=
  (State.modPort_samePool i (fun p => { p with sending := none }) s rfl).trans (State.kick_samePool _ _)

theorem State.clearFlag_samePool (r : Report) (s : State) : s.samePool (s.clearFlag r) := State.samePool_of rfl rfl
    rfl rfl rfl rfl rfl rfl

theorem State.time_samePool (d : PartTime) (s : State) : s.samePool { s with time := d } := State.samePool_of rfl rfl
    rfl rfl rfl rfl rfl rfl

theorem State.pending_samePool (q : List Instr) (s : State) : s.samePool
    { s with pending := q } := State.samePool_of rfl rfl rfl rfl rfl rfl rfl rfl

theorem State.shiftStatus_samePool (s : State) : s.samePool s.shiftStatus := State.samePool_of rfl rfl rfl rfl rfl
    rfl rfl rfl

theorem State.pushReply_samePool (r : Reply) (s : State) : s.samePool (s.pushReply r) := State.samePool_of rfl rfl
    rfl rfl rfl rfl rfl rfl

theorem State.modPower_samePool (f : PowerSeq → PowerSeq) (s : State) : s.samePool
    (s.modPower f) := State.samePool_of rfl rfl rfl rfl rfl rfl rfl rfl

theorem State.modSup_samePool (f : Supervisor → Supervisor) (s : State) : s.samePool
    (s.modSup f) := State.samePool_of rfl rfl rfl rfl rfl rfl rfl rfl

theorem State.sup_samePool (v : Supervisor) (s : State) : s.samePool { s with sup := v } := State.samePool_of rfl rfl
    rfl rfl rfl rfl rfl rfl

theorem State.modOpen_samePool (f : EpochRec → EpochRec) (s : State) : s.samePool (s.modOpen f) := by
  unfold State.modOpen; split
  · exact State.sup_samePool _ s
  · exact State.samePool.rfl' s

theorem State.settlePending_samePool (b : BootStatus) (s : State) : s.samePool
    (s.settlePending b) := s.modOpen_samePool _

theorem State.clearSpent_samePool (s : State) : s.samePool s.clearSpent := State.samePool_of rfl rfl rfl rfl rfl rfl
    rfl rfl

theorem State.closeRecord_samePool (c : EndCause) (s : State) : s.samePool (s.closeRecord c) := by
  unfold State.closeRecord; split
  · exact (s.modOpen_samePool _).trans (State.clearSpent_samePool _)
  · exact State.samePool.rfl' s

theorem State.disarm_samePool (s : State) : s.samePool s.disarm := State.sup_samePool _ s

theorem State.closeEpoch_samePool (c : EndCause) (s : State) : s.samePool (s.closeEpoch c) := by
  unfold State.closeEpoch; split
  · exact (s.closeRecord_samePool c).trans (State.disarm_samePool _)
  · exact State.samePool.rfl' s

theorem State.arm_samePool (c : EpochCause) (s : State) : s.samePool (s.arm c) := by
  unfold State.arm; split <;> exact State.sup_samePool _ s

theorem State.clearMatcher_samePool (s : State) : s.samePool s.clearMatcher :=
  (State.mapPorts_samePool (fun p => { p with window := [], filter := .normal }) (fun _ => rfl) s).trans
      (State.clearSpent_samePool _)

theorem State.startEpoch_samePool (c : EpochCause) (s : State) : s.samePool (s.startEpoch c) := by
  unfold State.startEpoch; dsimp only
  exact (((s.closeRecord_samePool .superseded).trans (State.sup_samePool _ _)).trans
      (State.clearMatcher_samePool _)).trans (State.arm_samePool _ _)

theorem State.setMask_samePool (s : State) : s.samePool s.setMask := by
  unfold State.setMask; dsimp only; split
  · exact (s.modPower_samePool _).trans (State.setFlag_samePool _ _)
  · exact s.modPower_samePool _

theorem State.enterPhase_samePool (p : Phase) (s : State) : s.samePool (s.enterPhase p) := by
  unfold State.enterPhase; dsimp only
  refine State.samePool.trans ?_ (State.updateConnection_samePool _)
  split
  · exact (s.modPower_samePool _).trans (State.setMask_samePool _)
  · exact s.modPower_samePool _

theorem State.pushAction_samePool (a : ActionRec) (s : State) : s.samePool (s.pushAction a) := s.modPower_samePool _

theorem State.beginAction_samePool (k : ActionKind) (e : Bool) (r : Requester) (p : Phase) (s : State) : s.samePool
    (s.beginAction k e r p) :=
  (s.pushAction_samePool _).trans (State.enterPhase_samePool _ _)

theorem State.alreadyAction_samePool (k : ActionKind) (e : Bool) (r : Requester) (s : State) : s.samePool
    (s.alreadyAction k e r) :=
  (s.pushAction_samePool _).trans (State.setFlag_samePool _ _)

theorem State.accept_samePool (k : ActionKind) (e : Bool) (r : Requester) (o : ReqOutcome) (s : State) : s.samePool
    (s.accept k e r o) := by
  cases o with
  | begun p => exact s.beginAction_samePool k e r p
  | already => exact s.alreadyAction_samePool k e r
  | busy => exact State.samePool.rfl' s
  | wrongState => exact State.samePool.rfl' s

theorem State.requestAction_samePool (k : ActionKind) (e : Bool) (r : Requester) (s : State) : s.samePool
    (s.requestAction k e r) := s.accept_samePool k e r _

theorem State.releaseReset_samePool (s : State) : s.samePool s.releaseReset := by
  unfold State.releaseReset; dsimp only; split
  · exact (s.modPower_samePool _).trans (State.startEpoch_samePool _ _)
  · exact s.modPower_samePool _

theorem State.endAction_samePool (r : ActResult) (s : State) : s.samePool (s.endAction r) := by
  unfold State.endAction; split
  · exact State.samePool.rfl' s
  · next a _ =>
    dsimp only
    have h1 := fun (x : ActionRec) => (s.modPower_samePool fun p => { p with last := some x }).trans
        (State.setFlag_samePool .power _)
    refine State.samePool.trans ?_ (State.updateConnection_samePool _)
    split <;> split
    · exact ((h1 _).trans (State.recordFault_samePool _ _)).trans (State.releaseReset_samePool _)
    · exact (h1 _).trans (State.releaseReset_samePool _)
    · exact (h1 _).trans (State.recordFault_samePool _ _)
    · exact h1 _

theorem State.releaseSup_samePool (s : State) : s.samePool s.releaseSup := State.sup_samePool _ s

theorem State.restore_samePool (r : RestoreState) (s : State) : s.samePool
    { s with restore := r } := State.samePool_of rfl rfl rfl rfl rfl rfl rfl rfl

theorem State.linkAccepted_samePool (s : State) : s.samePool s.linkAccepted := by
  unfold State.linkAccepted; dsimp only; split
  · exact s.releaseSup_samePool.trans (State.restore_samePool _ _)
  · exact s.releaseSup_samePool

theorem State.takeRestore_samePool (s : State) : s.samePool s.takeRestore :=
  (s.requestAction_samePool _ _ _).trans (State.restore_samePool _ _)

theorem State.setPolicy_samePool (p : BootPolicy) (s : State) : s.samePool (s.setPolicy p) :=
  ((s.settlePending_samePool _).trans (State.disarm_samePool _)).trans (State.sup_samePool _ _)

theorem State.escalated_samePool (t : Trigger) (a : SupAction) (o : EscOutcome) (n : Nat) (s : State) : s.samePool
    (s.escalated t a o n) :=
  (s.sup_samePool _).trans (State.setFlag_samePool _ _)

theorem State.supBegun_samePool (s : State) : s.samePool s.supBegun := (s.settlePending_samePool _).trans
    (State.modSup_samePool _ _)

theorem State.giveUp_samePool (a : SupAction) (s : State) : s.samePool (s.giveUp a) :=
  ((s.settlePending_samePool _).trans (State.modSup_samePool _ _)).trans (State.recordFault_samePool _ _)

theorem State.returnSup_samePool (s : State) : s.samePool s.returnSup := s.modSup_samePool _

theorem State.endAtFall_samePool (s : State) : s.samePool s.endAtFall := by
  unfold State.endAtFall; split
  · exact s.recordFault_samePool _
  · split
    · exact s.endAction_samePool _
    · exact s.endAction_samePool _
    · split
      · exact s.enterPhase_samePool _
      · exact s.endAction_samePool _
    · exact (s.endAction_samePool _).trans (State.recordFault_samePool _ _)
    · exact (s.endAction_samePool _).trans (State.recordFault_samePool _ _)
    · exact State.samePool.rfl' s

theorem State.fallAction_samePool (s : State) : s.samePool s.fallAction := by
  refine State.samePool.trans ?_ (State.setFlag_samePool .power _)
  refine State.samePool.trans ?_ (State.endAtFall_samePool _)
  exact State.samePool_of rfl rfl rfl rfl rfl rfl rfl rfl

theorem State.asFallLeft_samePool (s : State) : s.samePool s.asFallLeft := by
  unfold State.asFallLeft; split
  · exact s.fallAction_samePool
  · exact State.samePool.rfl' s

theorem State.closeFall_samePool (before s : State) : s.samePool (State.closeFall before s) := by
  unfold State.closeFall; split
  · exact ((s.closeEpoch_samePool _).trans (State.gateAll_samePool _)).trans (State.updateConnection_samePool _)
  · exact State.samePool.rfl' s

theorem State.supRequest_samePool (t : Trigger) (a : SupAction) (k : ActionKind) (f : State → State) (hf : ∀ s :
    State, s.samePool (f s)) (s : State) :
    s.samePool (s.supRequest t a k f) := by
  unfold State.supRequest; dsimp only; split
  · split
    · exact ((s.asFallLeft_samePool.trans (State.requestAction_samePool _ _ _ _)).trans
        (State.supBegun_samePool _)).trans (State.escalated_samePool _ _ _ _ _)
    all_goals exact (s.asFallLeft_samePool.trans (hf _)).trans (State.escalated_samePool _ _ _ _ _)
  · exact (s.giveUp_samePool a).trans (State.escalated_samePool _ _ _ _ _)

theorem State.bootExpired_samePool (s : State) : s.samePool s.bootExpired := by
  unfold State.bootExpired; dsimp only; split
  · exact s.supRequest_samePool _ _ _ _ fun s => s.modSup_samePool _
  · exact s.supRequest_samePool _ _ _ _ fun s => s.modSup_samePool _
  all_goals exact ((s.settlePending_samePool _).trans (State.modSup_samePool _ _)).trans (State.escalated_samePool _ _ _ _ _)

theorem State.holdExpired_samePool (s : State) : s.samePool s.holdExpired := by
  unfold State.holdExpired; dsimp only; split
  · exact s.returnSup_samePool.trans (State.escalated_samePool _ _ _ _ _)
  · exact ((s.asFallLeft_samePool.trans (State.requestAction_samePool _ _ _ _)).trans
      (State.returnSup_samePool _)).trans (State.escalated_samePool _ _ _ _ _)
  · exact s.supRequest_samePool _ _ _ _ fun s => s.returnSup_samePool
  · exact s.supRequest_samePool _ _ _ _ fun s => s.returnSup_samePool

theorem State.beginHoldOff_samePool (r : ReturnState) (s : State) : s.samePool (s.beginHoldOff r) := by
  unfold State.beginHoldOff; dsimp only
  have h := fun f => (s.modSup_samePool f).trans (State.setFlag_samePool .boot _)
  split
  · exact (h _).trans (State.holdExpired_samePool _)
  · exact h _

theorem State.PoolInv.satisfy {s : State} (h : s.PoolInv) : s.satisfy.PoolInv := by
  unfold State.satisfy; dsimp only
  have h1 := h.congr (((s.modOpen_samePool fun e => { e with status := .ok }).trans (State.modSup_samePool (fun u =>
    { u with state := .satisfied, attempts := 0, bootTimer := none,
             ret := if u.state = .holdoff then some .satisfied else u.ret
                 }) _)).trans (State.setFlag_samePool .boot _))
  split
  · exact h1.softEject
  · exact h1

theorem State.PoolInv.supHit {s : State} (h : s.PoolInv) (r : Role) (port : PortId) : (s.supHit r port).PoolInv := by
  unfold State.supHit; split
  · split
    · exact h.satisfy
    · exact h.satisfy
    · exact h.congr (s.modSup_samePool _)
    · exact h.congr (s.beginHoldOff_samePool _)
    · split
      · exact h.congr (s.beginHoldOff_samePool _)
      · exact h
    · exact h
  · exact h

theorem State.offerText_samePool (i : PortId) (t : InjText) (s : State) : s.samePool (s.offerText i t).2 := by
  unfold State.offerText; split
  · exact State.samePool.rfl' s
  · exact (State.modPort_samePool i _ s (by rw [Port.moveText_pool]; rfl)).trans (State.kick_samePool _ _)

theorem State.appendHit_samePool (h : HitRec) (s : State) : s.samePool (s.appendHit h).2 := by
  unfold State.appendHit; split
  · split
    · exact s.modOpen_samePool _
    · exact State.samePool.rfl' s
  · exact State.samePool.rfl' s

theorem State.reportHit_samePool (h : HitRec) (a : Bool) (s : State) : s.samePool (s.reportHit h a) := by
  unfold State.reportHit
  refine State.samePool.trans ?_ (State.setFlag_samePool _ _)
  exact State.samePool_of rfl rfl rfl rfl rfl rfl rfl rfl

theorem State.markers_samePool (m : Vector Marker 16) (s : State) : s.samePool
    { s with markers := m } := State.samePool_of rfl rfl rfl rfl rfl rfl rfl rfl

theorem State.PoolInv.hit {s : State} (h : s.PoolInv) (port : PortId) (pos : Nat) (m : Fin 16) :
    (s.hit port pos m).PoolInv := by
  unfold State.hit; dsimp only
  have h1 := h.congr (s.markers_samePool (vupd s.markers m fun k =>
      { k with hits := satInc 65535 k.hits, spent := k.spent || s.markers[m].cfg.once }))
  generalize ({ s with markers := _ } : State) = k at h1 ⊢
  have h2 : (if s.markers[m].cfg.role = .inject then k.offerText port
      { marker := m, text := s.markers[m].cfg.inject } else (true, k)).2.PoolInv := by
    split
    · exact h1.congr (State.offerText_samePool _ _ _)
    · exact h1
  generalize (if s.markers[m].cfg.role = .inject then _ else _ : Bool × State) = o at h2 ⊢
  have h3 : ∀ x, (State.appendHit x o.2).2.PoolInv := fun x => h2.congr (State.appendHit_samePool _ _)
  generalize ({ marker := m, port := port, pos := pos, time := _, role := _, dropped := _ } : HitRec) = x
  have h4 : (if s.markers[m].cfg.report then (State.appendHit x o.2).2.reportHit x (State.appendHit x o.2).1 else
      (State.appendHit x o.2).2).PoolInv := by
    split
    · exact (h3 x).congr (State.reportHit_samePool _ _ _)
    · exact h3 x
  split
  · exact h4.supHit _ _
  · exact h4.supHit _ _
  · exact h4.supHit _ _
  · exact h4
  · exact h4

theorem State.PoolInv.matchByte {s : State} (h : s.PoolInv) (port : PortId) (pos : Nat) (b : Byte) :
    (s.matchByte port pos b).PoolInv := by
  unfold State.matchByte; dsimp only
  generalize (if s.ports[port].cfg.escape = true then _ else _ : Bool × FilterState) = f
  have h1 := h.congr (State.modPort_samePool port (fun p => { p with filter := f.2 }) s rfl)
  have hits : ∀ (ms : List (Fin 16)) (t : State), t.PoolInv → (ms.foldl (State.hit port pos) t).PoolInv := by
    intro ms; induction ms with
    | nil => intro t h; exact h
    | cons m ms ih => intro t h; exact ih _ (h.hit port pos m)
  split
  · split
    · exact h1
    · apply hits
      exact h1.congr (State.modPort_samePool port _ _ rfl)
  · exact h1

theorem State.countChar_samePool (i : PortId) (bad : Bool) (s : State) : s.samePool (s.countChar i bad) := by
  unfold State.countChar; dsimp only; generalize s.ports[i].cwErrors + _ = errors; split
  · split
    · exact State.modPort_samePool i _ s rfl
    · split
      · refine State.samePool.trans ?_ (State.setFlag_samePool _ _)
        refine State.samePool.trans ?_ (State.modPort_samePool i _ _ (Port.unlock_pool _))
        exact State.modPort_samePool i _ s rfl
      · exact State.modPort_samePool i _ s rfl
  · exact State.samePool.rfl' s

theorem committed_vupd (i : PortId) (f : Nat → Nat) (v : Vector Nat 4) :
    (vupd v i f).toList.sum + v[i] = v.toList.sum + f v[i] := by
  rw [toList4, toList4]
  have : i = 0 ∨ i = 1 ∨ i = 2 ∨ i = 3 := by revert i; decide
  rcases this with rfl | rfl | rfl | rfl <;> simp [vupd] <;> omega

theorem State.QuotaInv.pages_le {s : State} (h : s.QuotaInv) : s.historyPages ≤ s.committedSum := by
  unfold State.historyPages State.committedSum
  rw [toList4, toList4]
  have h0 := (h.port 0).2.1
  have h1 := (h.port 1).2.1
  have h2 := (h.port 2).2.1
  have h3 := (h.port 3).2.1
  simp at h0 h1 h2 h3 ⊢
  omega

theorem State.QuotaInv.pages_lt {s : State} (h : s.QuotaInv) {i : PortId} (hi :
    s.ports[i].pages.length < s.committed[i]) : s.historyPages < s.committedSum := by
  unfold State.historyPages State.committedSum
  rw [toList4, toList4]
  have h0 := (h.port 0).2.1
  have h1 := (h.port 1).2.1
  have h2 := (h.port 2).2.1
  have h3 := (h.port 3).2.1
  have : i = 0 ∨ i = 1 ∨ i = 2 ∨ i = 3 := by clear hi; revert i; decide
  rcases this with rfl | rfl | rfl | rfl <;> simp at h0 h1 h2 h3 hi ⊢ <;> omega

theorem State.supply_isSome {s : State} (h : s.LayoutInv) (hr : s.historyPages + s.heldCount < 128) (i : PortId) :
    ∃ p t, s.supplyHistory i = some (p, t) := by
  cases e : s.supplyHistory i with
  | some x => exact ⟨x.1, x.2, rfl⟩
  | none =>
    exfalso
    obtain ⟨h1, h2⟩ := State.supplyHistory_none.1 e
    have hf : s.freePages = 0 := by
      unfold State.freePages
      rw [count_owner, List.length_eq_zero_iff, List.filter_eq_nil_iff]
      intro p _; simpa using State.lowestFree_none.1 h1 p
    have hv : s.heldCount = s.cache.length := by
      unfold State.heldCount
      rw [List.countP_eq_length]
      unfold State.victim at h2
      rw [List.find?_eq_none] at h2
      intro l hl; simpa using h2 l hl
    have := h.count
    omega

/-- The layout when port `i` takes the supplied page at its list's end. -/
theorem State.LayoutInv.supply {s t u : State} (h : s.LayoutInv) {i : PortId} {p : Fin 128} (hs :
    s.supplyHistory i = some (p, t))
    (hp : u.ports[i].pages.map (·.page) = s.ports[i].pages.map (·.page) ++ [p])
    (hne : ∀ j : PortId, j ≠ i → u.ports[j].pages = s.ports[j].pages) (ho : u.owners = t.owners) (hc :
        u.cache = t.cache) : u.LayoutInv := by
  have hsome : ∃ q : List CacheLine, t.cache = q ∧ (q.map (·.tag)).Nodup ∧ (q.map (·.page)).Nodup ∧
      (∀ x, t.owners[x] = if x = p then .history i else s.owners[x]) ∧ (∀ x, x ∈ q.map (·.page) ↔ x ∈ s.cache.map
          (·.page) ∧ x ≠ p) ∧
      ∀ j : PortId, p ∉ s.ports[j].pages.map (·.page) := by
    rcases State.supplyHistory_cases hs with ⟨hf, rfl⟩ | ⟨l, -, hv, rfl, rfl⟩
    · obtain ⟨h1, h2⟩ := State.lowestFree_notMem h hf
      refine ⟨_, rfl, h.tags, h.lines, fun x => setOwner_get _ _ _ _, ?_, h2⟩
      intro x
      show x ∈ s.cache.map (·.page) ↔ _
      exact ⟨fun hx => ⟨hx, fun e => h1 (e ▸ hx)⟩, fun hx => hx.1⟩
    · obtain ⟨h1, -⟩ := State.victim_some hv
      refine ⟨_, rfl, filter_tags h.tags _, filter_pages h.lines _, fun x => setOwner_get _ _ _ _,
          mem_drop_pages h h1, ?_⟩
      intro j e
      have := (h.hist l.page j).2 e
      rw [h.owner_line h1] at this; cases this
  obtain ⟨q, hq, h1, h2, h3, h4, h5⟩ := hsome
  rw [hq] at hc
  refine ⟨by rw [hc]; exact h1, by rw [hc]; exact h2, ?_, ?_, ?_⟩
  · intro j
    by_cases e : j = i
    · subst e; rw [hp, List.nodup_append]
      refine ⟨h.hists j, by simp, ?_⟩
      intro a ha b hb; simp at hb; subst hb; intro e; exact h5 j (e ▸ ha)
    · rw [hne j e]; exact h.hists j
  · intro x
    rw [ho, h3, hc, h4]
    split
    · next e => subst e; simp
    · next e => rw [h.line x]; simp [e]
  · intro x j
    rw [ho, h3]
    by_cases e : j = i
    · subst e; rw [hp, List.mem_append, List.mem_singleton, ← h.hist x j]
      split
      · next e => simp [e]
      · next e => simp [e]
    · rw [hne j e, ← h.hist x j]
      split
      · next ex =>
        subst ex
        have := h5 j
        rw [← h.hist] at this
        constructor
        · intro y; cases y; exact absurd rfl e
        · intro y; exact absurd y this
      · exact Iff.rfl

theorem State.supplyHistory_blocks {s t : State} (h : s.LayoutInv) {i : PortId} {p : Fin 128} (hs :
    s.supplyHistory i = some (p, t)) :
    (∀ b, (s.block b).holds = true → t.block b = s.block b) ∧ t.heldCount ≤ s.heldCount := by
  rcases State.supplyHistory_cases hs with ⟨hf, rfl⟩ | ⟨l, -, hv, rfl, rfl⟩
  · exact ⟨fun b _ => State.block_setOwner _ _ _ _, le_refl _⟩
  · obtain ⟨h1, h2⟩ := State.victim_some hv
    refine ⟨fun b hb => ?_, State.dropLine_held_le _ s⟩
    exact (State.block_congr (s := s.dropLine l.tag) rfl b).trans (State.block_drop_victim h h1 h2 b hb)

/-- A port takes a page from the pool. -/
theorem State.PoolInv.supply {s t : State} (hl : s.LayoutInv) (hb : s.BlockInv) (hh : s.heldInv) {i : PortId}
    {p : Fin 128} (hs : s.supplyHistory i = some (p, t)) (f : Port → Port)
    (hq : (t.modPort i f).QuotaInv)
    (hp : (f s.ports[i]).pages.map (·.page) = s.ports[i].pages.map (·.page) ++ [p]) : (t.modPort i f).PoolInv := by
  have hfr := State.supplyHistory_frame hs
  have hports : t.ports = s.ports := by rw [hfr]
  obtain ⟨h1, h2⟩ := State.supplyHistory_blocks hl hs
  refine ⟨hq, ?_, ?_, ?_⟩
  · apply hl.supply hs
    · rw [State.modPort_ports, vupd_self, hports]; exact hp
    · intro j hj; rw [State.modPort_ports, vupd_ne _ _ hj, hports]
    · rfl
    · rfl
  · refine State.BlockInv.mono (s := s) hb ?_ ?_ ?_
    · rw [State.modPort_usb, hfr]
    · intro b hb; rw [← h1 b hb]; exact State.block_congr rfl b
    · rw [State.modPort_fetch, hfr]
  · refine State.heldInv_congr (s := s) hh h2 ?_
    rw [State.modPort_committed, hfr]

theorem State.LayoutInv.pages_perm {s t : State} (h : s.LayoutInv) (hp : ∀ i : PortId, (t.ports[i].pages.map
    (·.page)).Perm (s.ports[i].pages.map (·.page)))
    (ho : t.owners = s.owners) (hc : t.cache = s.cache) : t.LayoutInv where
  tags := by rw [hc]; exact h.tags
  lines := by rw [hc]; exact h.lines
  hists i := (hp i).nodup_iff.2 (h.hists i)
  line p := by rw [ho, hc]; exact h.line p
  hist p i := by rw [ho, (hp i).mem_iff]; exact h.hist p i

/-- A port changed with its pages at most rearranged. -/
theorem State.PoolInv.modPort {s : State} (h : s.PoolInv) (i : PortId) (f : Port → Port) (hp :
    ((f s.ports[i]).pages.map (·.page)).Perm (s.ports[i].pages.map (·.page)))
    (hq : (f s.ports[i]).quotaOk s.committed[i]) : (s.modPort i f).PoolInv where
  quota := by
    refine ⟨?_, h.quota.sum, h.quota.image, h.quota.save⟩
    intro j
    rw [State.modPort_ports, State.modPort_committed]
    by_cases e : j = i
    · subst e; rw [vupd_self]; exact hq
    · rw [vupd_ne _ _ e]; exact h.quota.port j
  layout := by
    refine State.LayoutInv.pages_perm (s := s) h.layout ?_ rfl rfl
    intro j
    rw [State.modPort_ports]
    by_cases e : j = i
    · subst e; rw [vupd_self]; exact hp
    · rw [vupd_ne _ _ e]
  blocks := h.blocks.congr rfl (State.block_congr rfl) rfl
  held := h.held

theorem length_of_perm {ps qs : List PageRec} (h : (ps.map (·.page)).Perm (qs.map (·.page))) :
    ps.length = qs.length := by
  simpa using h.length_eq

theorem Port.quotaOk_perm {p q : Port} {c : Nat} (h : p.quotaOk c) (hp : (q.pages.map (·.page)).Perm (p.pages.map
    (·.page))) (hc : q.cfg.quota = p.cfg.quota)
    (he : q.enabled = p.enabled ∨ q.enabled = false ∨ p.pages ≠ []) : q.quotaOk c := by
  have hl := length_of_perm hp
  obtain ⟨h1, h2, h3, h4⟩ := h
  refine ⟨by omega, by omega, ?_, ?_⟩
  · intro e
    have e' : p.pages = [] := by rw [← List.length_eq_zero_iff]; rw [e] at hl; simpa using hl.symm
    refine ⟨(h3 e').1, ?_⟩
    rcases he with he | he | he
    · rw [he]; exact (h3 e').2
    · exact he
    · exact absurd e' he
  · intro e
    rw [hc]; apply h4
    intro e'; apply e; rw [← List.length_eq_zero_iff, hl, e']; rfl

/-- CON_ENABLE always answers, and keeps the invariant. -/
theorem State.PoolInv.enablePort {s : State} (h : s.PoolInv) (i : PortId) : ∃ st t, s.enablePort i = some (st, t) ∧
    t.PoolInv := by
  unfold State.enablePort; dsimp only
  by_cases hp : s.ports[i].pages = []
  · rw [if_pos hp]
    by_cases hg : s.grants s.ports[i].cfg.quota = true
    · rw [if_pos hg]
      unfold State.grants at hg
      simp only [Bool.and_eq_true, decide_eq_true_eq] at hg
      obtain ⟨⟨g1, g2⟩, -⟩ := hg
      have hc0 := ((h.quota.port i).2.2.1 hp).1
      have hq1 := (h.quota.port i).1
      have hsum : ({ s with committed := vupd s.committed i fun _ => s.ports[i].cfg.quota } :
          State).committedSum = s.committedSum + s.ports[i].cfg.quota := by
        have := committed_vupd i (fun _ => s.ports[i].cfg.quota) s.committed
        unfold State.committedSum; dsimp only at this ⊢; omega
      generalize hu : ({ s with committed := vupd s.committed i fun _ => s.ports[i].cfg.quota } : State) = u at hsum ⊢
      have up : u.ports = s.ports := by rw [← hu]
      have uc : u.committed = vupd s.committed i fun _ => s.ports[i].cfg.quota := by rw [← hu]
      have ul : u.LayoutInv := by rw [← hu]; exact h.layout.congr (fun _ => rfl) rfl rfl rfl
      have ub : u.BlockInv := by rw [← hu]; exact h.blocks.congr rfl (State.block_congr rfl) rfl
      have uh : u.heldInv := by
        unfold State.heldInv State.floor at *
        rw [hsum]; have : u.heldCount = s.heldCount := by rw [← hu]; rfl
        rw [this]; omega
      have ui : u.image = s.image := by rw [← hu]
      have us : u.save = s.save := by rw [← hu]
      have uhp : u.historyPages ≤ s.committedSum := by
        have := h.quota.pages_le; unfold State.historyPages at *; rw [up]; exact this
      obtain ⟨p, t, ht⟩ := State.supply_isSome ul
          (by unfold State.heldInv State.floor at uh; rw [hsum] at uh; unfold pageCount at uh; omega) i
      rw [ht]
      refine ⟨_, _, rfl, ?_⟩
      apply State.PoolInv.congr _ (State.kick_samePool _ _)
      have hfr := State.supplyHistory_frame ht
      have tp : t.ports = s.ports := by rw [hfr]; exact up
      apply State.PoolInv.supply ul ub uh ht
      · refine ⟨?_, ?_, ?_, ?_⟩
        · intro j
          rw [State.modPort_ports, State.modPort_committed, tp]
          have tc : t.committed = u.committed := by rw [hfr]
          rw [tc, uc]
          by_cases e : j = i
          · subst e; rw [vupd_self, vupd_self]
            refine ⟨hq1, hq1, ?_, fun _ => rfl⟩
            intro e; dsimp only at e; cases e
          · rw [vupd_ne _ _ e, vupd_ne _ _ e]; exact h.quota.port j
        · show (t.modPort i _).committed.toList.sum ≤ 112
          rw [State.modPort_committed]
          have : t.committed.toList.sum = u.committedSum := by rw [hfr]; rfl
          rw [this, hsum]; exact g1
        · have : t.image = s.image := by rw [hfr]; exact ui
          rw [State.modPort_image, this]; exact h.quota.image
        · have : t.save = s.save := by rw [hfr]; exact us
          rw [State.modPort_save, this]; exact h.quota.save
      · rw [up, hp]; rfl
    · rw [if_neg hg]; exact ⟨_, _, rfl, h⟩
  · rw [if_neg hp]
    refine ⟨_, _, rfl, ?_⟩
    apply State.PoolInv.congr _ (State.kick_samePool _ _)
    exact h.modPort i Port.enable (List.Perm.refl _) (Port.quotaOk_perm (h.quota.port i) (List.Perm.refl _) rfl (.inr
        (.inr hp)))

theorem State.PoolInv.disablePort {s : State} (h : s.PoolInv) (i : PortId) : (s.disablePort i).PoolInv := by
  unfold State.disablePort
  apply State.PoolInv.congr _ (State.clearFlag_samePool _ _)
  apply State.PoolInv.congr _ (State.clearFlag_samePool _ _)
  exact h.modPort i Port.disable (List.Perm.refl _) (Port.quotaOk_perm (h.quota.port i) (List.Perm.refl _) rfl (.inr
      (.inl rfl)))

/-! ## Clearing -/

theorem freeAll_facts (ps : List PageRec) : ∀ s : State, ps.foldl (fun s r => s.setOwner r.page .free) s =
    { s with owners := (ps.foldl (fun s r => s.setOwner r.page .free) s).owners } ∧
    ∀ q : Fin 128, (ps.foldl (fun s r => s.setOwner r.page .free) s).owners[q] = if q ∈ ps.map
        (·.page) then .free else s.owners[q] := by
  induction ps with
  | nil => intro s; exact ⟨rfl, fun q => by simp⟩
  | cons r ps ih =>
    intro s
    obtain ⟨h1, h2⟩ := ih (s.setOwner r.page .free)
    refine ⟨?_, ?_⟩
    · rw [List.foldl_cons, h1]; rfl
    · intro q
      rw [List.foldl_cons, h2, setOwner_get]
      simp only [List.map_cons, List.mem_cons]
      by_cases e1 : q ∈ ps.map (·.page) <;> by_cases e2 : q = r.page <;> simp [e1, e2]

theorem State.PoolInv.clearPort {s : State} (h : s.PoolInv) (i : PortId) (he : s.ports[i].enabled = false) :
    (s.clearPort i).PoolInv := by
  unfold State.clearPort
  split
  · exact h
  · dsimp only
    obtain ⟨h1, h2⟩ := freeAll_facts s.ports[i].pages s
    generalize List.foldl (fun (s : State) r => s.setOwner r.page .free) s s.ports[i].pages = u at h1 h2 ⊢
    have up : u.ports = s.ports := by rw [h1]
    have uc : u.committed = s.committed := by rw [h1]
    have ucc : u.cache = s.cache := by rw [h1]
    have hsum : (vupd u.committed i fun _ => 0).toList.sum ≤ s.committedSum := by
      have := committed_vupd i (fun _ => 0) s.committed
      rw [uc]; unfold State.committedSum; omega
    refine ⟨⟨?_, ?_, ?_, ?_⟩, ⟨?_, ?_, ?_, ?_, ?_⟩, ?_, ?_⟩
    · intro j
      dsimp only
      by_cases e : j = i
      · subst e; rw [vupd_self, vupd_self, up]
        exact ⟨(h.quota.port j).1, le_refl _, fun _ => ⟨rfl, he⟩, fun x => absurd rfl x⟩
      · rw [vupd_ne _ _ e, vupd_ne _ _ e, up, uc]; exact h.quota.port j
    · exact le_trans hsum h.quota.sum
    · rw [show u.image = s.image by rw [h1]]; exact h.quota.image
    · rw [show u.save = s.save by rw [h1]]; exact h.quota.save
    · rw [ucc]; exact h.layout.tags
    · rw [ucc]; exact h.layout.lines
    · intro j
      dsimp only
      by_cases e : j = i
      · subst e; rw [vupd_self]; exact List.nodup_nil
      · rw [vupd_ne _ _ e, up]; exact h.layout.hists j
    · intro q
      dsimp only
      rw [h2, ucc, ← h.layout.line q]
      split
      · next e =>
        rw [← h.layout.hist] at e
        rw [e]; simp
      · exact Iff.rfl
    · intro q j
      dsimp only
      rw [h2]
      by_cases e : j = i
      · subst e; rw [vupd_self]
        split
        · simp
        · next e2 => rw [h.layout.hist]; simp only [List.map_nil, List.not_mem_nil, iff_false]; exact e2
      · rw [vupd_ne _ _ e, up, ← h.layout.hist q j]
        split
        · next e2 =>
          rw [← h.layout.hist] at e2
          rw [e2]; simp only [reduceCtorEq, Owner.history.injEq, false_iff]; exact fun x => e x.symm
        · exact Iff.rfl
    · refine State.BlockInv.congr (s := s) h.blocks ?_ ?_ ?_
      · rw [h1]
      · exact State.block_congr ucc
      · rw [h1]
    · have := h.held
      unfold State.heldInv State.floor State.heldCount at *
      dsimp only
      rw [ucc]
      change _ ≤ pageCount - (vupd u.committed i fun _ => 0).toList.sum
      omega

/-! ## Capture -/

theorem State.storeByte_samePool (i : PortId) (b : Byte) (s : State) : s.samePool (s.storeByte i b) := by
  unfold State.storeByte; dsimp only; split
  · exact State.samePool_of rfl rfl rfl rfl rfl rfl rfl rfl
  · exact State.samePool.rfl' s

theorem State.advanceW_samePool (i : PortId) (s : State) : s.samePool (s.advanceW i) := by
  unfold State.advanceW; dsimp only
  generalize (Option.map _ _).getD false = fired
  cases fired
  · exact State.modPort_samePool i _ s rfl
  · refine State.samePool.trans ?_ (State.setFlag_samePool _ _)
    exact State.modPort_samePool i _ s rfl

theorem State.PoolInv.pageForByte {s : State} (h : s.PoolInv) (i : PortId) (hn : s.ports[i].pages ≠ []) : ∃ t,
    s.pageForByte i = some t ∧ t.PoolInv := by
  unfold State.pageForByte; dsimp only
  have hq := h.quota.port i
  obtain ⟨r, hr⟩ := (⟨_, List.getLast?_eq_some_getLast hn⟩ : ∃ r, s.ports[i].pages.getLast? = some r)
  rw [hr]; dsimp only
  split
  · refine ⟨_, rfl, ?_⟩
    have hperm : ((s.ports[i].pages.dropLast ++ [s.stampPage r]).map (·.page)).Perm (s.ports[i].pages.map
        (·.page)) := by
      have e : s.ports[i].pages = s.ports[i].pages.dropLast ++ [r] := by
        rw [List.getLast?_eq_some_getLast hn] at hr
        cases hr; exact (List.dropLast_append_getLast hn).symm
      conv_rhs => rw [e]
      have : (s.stampPage r).page = r.page := by unfold State.stampPage; split <;> rfl
      simp only [List.map_append, List.map_cons, List.map_nil, this]
      exact List.Perm.refl _
    exact h.modPort i _ hperm (Port.quotaOk_perm hq hperm rfl (.inl rfl))
  · split
    · next hlt =>
      have hc := hq.2.2.2 hn
      have hlt2 := h.quota.pages_lt (i := i) (by omega)
      have hs := h.quota.sum
      obtain ⟨p, t, ht⟩ := State.supply_isSome h.layout
          (by have := h.held; unfold State.heldInv State.floor pageCount at this; omega) i
      rw [ht]
      refine ⟨_, rfl, ?_⟩
      have hfr := State.supplyHistory_frame ht
      have tp : t.ports = s.ports := by rw [hfr]
      have tc : t.committed = s.committed := by rw [hfr]
      apply State.PoolInv.supply h.layout h.blocks h.held ht
      · refine ⟨?_, ?_, ?_, ?_⟩
        · intro j
          rw [State.modPort_ports, State.modPort_committed, tp, tc]
          by_cases e : j = i
          · subst e; rw [vupd_self]
            refine ⟨hq.1, ?_, ?_, fun _ => hc⟩
            · dsimp only; simp only [List.length_append, List.length_singleton]; omega
            · intro e; dsimp only at e; simp at e
          · rw [vupd_ne _ _ e]; exact h.quota.port j
        · show (t.modPort i _).committed.toList.sum ≤ 112
          rw [State.modPort_committed, tc]; exact hs
        · rw [State.modPort_image, show t.image = s.image by rw [hfr]]; exact h.quota.image
        · rw [State.modPort_save, show t.save = s.save by rw [hfr]]; exact h.quota.save
      · simp [State.freshPage]
    · refine ⟨_, rfl, ?_⟩
      cases hp : s.ports[i].pages with
      | nil => exact absurd hp hn
      | cons o rest =>
        have hperm : ((rest ++ [s.freshPage o.page s.ports[i].w]).map (·.page)).Perm (s.ports[i].pages.map
            (·.page)) := by
          rw [hp]
          simp only [List.map_append, List.map_cons, List.map_nil]
          have : (s.freshPage o.page s.ports[i].w).page = o.page := rfl
          rw [this]
          exact List.perm_append_singleton _ _
        apply h.modPort i
        · rw [hp]; dsimp only; rw [hp] at hperm; exact hperm
        · refine Port.quotaOk_perm hq ?_ ?_ ?_
          · rw [hp]; dsimp only; rw [hp] at hperm; exact hperm
          · rw [hp]
          · left; rw [hp]

theorem State.PoolInv.receive {s : State} (h : s.PoolInv) (i : PortId) (x : RxChar) : ∃ t, s.receive i x = some t ∧
    t.PoolInv := by
  unfold State.receive; dsimp only
  split
  · exact ⟨_, rfl, h⟩
  · next hf =>
    split
    · exact ⟨_, rfl, (h.congr (State.modPort_samePool i _ s rfl)).congr (State.countChar_samePool _ _ _)⟩
    · split
      · exact ⟨_, rfl, (h.congr (State.modPort_samePool i _ s rfl)).congr (State.countChar_samePool _ _ _)⟩
      · have hn : s.ports[i].pages ≠ [] := by
          intro e
          apply hf; left
          have := ((h.quota.port i).2.2.1 e).2
          unfold State.framing; rw [this]; rfl
        obtain ⟨t, ht, h1⟩ := h.pageForByte i hn
        unfold State.capture
        rw [ht]
        refine ⟨_, rfl, ?_⟩
        apply State.PoolInv.congr _ (State.countChar_samePool _ _ _)
        apply State.PoolInv.matchByte
        exact (h1.congr (State.storeByte_samePool _ _ _)).congr (State.advanceW_samePool _ _)

end Sys2Proof.Machine
end

