-- ==== Sys2Proof/Laws/PoolRequests.lean ====
section
/-! SUPPORT. The pool's invariant through resets, settings, and the handlers of the requests. -/

namespace Sys2Proof.Machine

/-! ## Resets -/

theorem heldInv_nil {s : State} (h : s.cache = []) : s.heldInv := by
  unfold State.heldInv State.heldCount; rw [h]; exact Nat.zero_le _

theorem fresh_PoolInv {s : State} (hp : s.ports = Vector.replicate 4 resetPort) (hc :
    s.committed = Vector.replicate 4 0)
   (ho : s.owners = Vector.replicate 128 .free) (hcc : s.cache = []) (hf : s.fetch = Vector.replicate 8
       { gen := 0, live := none })
   (hd : s.usb.drains = []) (hi : ∀ c, s.image = .valid c → SettingsImage.quotasOk c) (hs : s.save = none) :
       s.PoolInv := by
  have hport : ∀ i : PortId, s.ports[i] = resetPort := by intro i; rw [hp]; simp
  refine ⟨⟨?_, ?_, hi, ?_⟩, ⟨?_, ?_, ?_, ?_, ?_⟩, ⟨?_, ?_, ?_⟩, heldInv_nil hcc⟩
  · intro i; rw [hport, hc]
    exact ⟨by decide, Nat.zero_le _, fun _ => ⟨by simp, rfl⟩, fun h => absurd rfl h⟩
  · unfold State.committedSum; rw [hc]; decide
  · intro j hj; rw [hs] at hj; cases hj
  · rw [hcc]; exact List.nodup_nil
  · rw [hcc]; exact List.nodup_nil
  · intro i; rw [hport]; exact List.nodup_nil
  · intro p; rw [ho, hcc]; simp
  · intro p i; rw [ho, hport]; simp [resetPort]
  · intro d h; rw [hd] at h; cases h
  · intro i r h; rw [hf] at h; simp at h
  · intro i j r q h; rw [hf] at h; simp at h

theorem State.PoolInv.partReset {s : State} (h : s.PoolInv) (c : ResetCause) : (s.partReset c).PoolInv :=
  fresh_PoolInv rfl rfl rfl rfl rfl rfl h.quota.image rfl

/-! ## Settings -/

theorem State.recordFor_quota (i : PortId) (c : ConConfig) (s : State) :
    (s.recordFor i c).quota = if s.ports[i].pages = [] then c.quota else s.committed[i] := by
  unfold State.recordFor; split <;> rfl

theorem State.PoolInv.writeConfig {s : State} (h : s.PoolInv) (i : PortId) (c : ConConfig) (hc : 1 ≤ c.quota) :
    (s.modPort i fun p => { p with cfg := s.recordFor i c }).PoolInv := by
  have hq := h.quota.port i
  apply h.modPort i _ (List.Perm.refl _)
  refine ⟨?_, hq.2.1, hq.2.2.1, ?_⟩
  · dsimp only; rw [State.recordFor_quota]; split
    · exact hc
    · next hn => rw [hq.2.2.2 hn]; exact hq.1
  · intro hn; dsimp only at hn ⊢; rw [State.recordFor_quota, if_neg hn]

theorem State.medCfg_samePool (c : MedConfig) (s : State) : s.samePool { s with medCfg := c } := State.samePool_of
    rfl rfl rfl rfl rfl rfl rfl rfl

theorem State.tables_samePool (a b : XlatTable) (m : Vector Marker 16) (s : State) : s.samePool
    { s with t0 := a, t1 := b, markers := m } := State.samePool_of rfl rfl rfl rfl rfl rfl rfl rfl

theorem State.PoolInv.writeSettings {s : State} (h : s.PoolInv) (c : SettingsImage) (hc : SettingsImage.quotasOk c) :
    (s.writeSettings c).PoolInv := by
  unfold State.writeSettings; dsimp only
  apply State.PoolInv.congr _ (State.updateConnection_samePool _)
  apply State.PoolInv.congr _ (State.medCfg_samePool _ _)
  apply State.PoolInv.congr _ (State.setPolicy_samePool _ _)
  apply State.PoolInv.congr _ (State.modPower_samePool _ _)
  have hf : ∀ (l : List PortId) (t : State), t.PoolInv →
      (l.foldl (fun (s : State) i => s.modPort i fun p => { p with cfg := s.recordFor i c.consoles[i].1 })
          t).PoolInv := by
    intro l; induction l with
    | nil => intro t h; exact h
    | cons i l ih => intro t h; exact ih _ (h.writeConfig i _ (hc i))
  exact (hf _ s h).congr (State.tables_samePool _ _ _ _)

theorem State.PoolInv.disableAll {s : State} (h : s.PoolInv) : s.disableAll.PoolInv := by
  unfold State.disableAll
  have hf : ∀ (l : List PortId) (t : State), t.PoolInv → (l.foldl (fun (s :
      State) i => if s.ports[i].enabled then s.disablePort i else s) t).PoolInv := by
    intro l; induction l with
    | nil => intro t h; exact h
    | cons i l ih =>
      intro t h; rw [List.foldl_cons]; apply ih; split
      · exact h.disablePort i
      · exact h
  exact hf _ s h

theorem State.PoolInv.enableFlagged {s : State} (h : s.PoolInv) (c : SettingsImage) : ∃ t,
    s.enableFlagged c = some t ∧ t.PoolInv := by
  unfold State.enableFlagged
  have hf : ∀ (l : List PortId) (t : State), t.PoolInv → ∃ u, (l.foldl (fun (o : Option State) i =>
    match o with
    | none => none
    | some s =>
      if c.consoles[i].2 then
        match s.enablePort i with
        | none => none
        | some (.ok, s') => some s'
        | some (_, s') =>
          some { s' with start := { s'.start with refused := s'.start.refused ||| BitVec.ofNat 4 (2 ^ i.val) } }
      else some s) (some t)) = some u ∧ u.PoolInv := by
    intro l; induction l with
    | nil => intro t h; exact ⟨t, rfl, h⟩
    | cons i l ih =>
      intro t h
      rw [List.foldl_cons]
      dsimp only
      split
      · obtain ⟨st, u, hu, hi⟩ := h.enablePort i
        rw [hu]
        split
        · next e => cases e
        · next e => cases e; exact ih _ hi
        · next e => cases e; exact ih _ (hi.congr (State.samePool_of rfl rfl rfl rfl rfl rfl rfl rfl))
      · exact ih _ h
  exact hf _ s h

theorem State.start_samePool (x : StartInfo) (s : State) : s.samePool { s with start := x } := State.samePool_of rfl
    rfl rfl rfl rfl rfl rfl rfl

theorem State.PoolInv.loadFailed {s : State} (h : s.PoolInv) (r : LoadFailure) : (s.loadFailed r).PoolInv :=
  (h.congr (s.start_samePool _)).congr (State.recordFault_samePool _ _)

theorem State.PoolInv.loadApply {s : State} (h : s.PoolInv) : ∃ t, s.loadApply = some t ∧ t.PoolInv := by
  unfold State.loadApply; split
  · exact ⟨_, rfl, h.loadFailed _⟩
  · exact ⟨_, rfl, h.loadFailed _⟩
  · next c hc => exact ((h.congr (s.start_samePool _)).writeSettings c (h.quota.image c hc)).enableFlagged c

theorem State.PoolInv.sample {s : State} (h : s.PoolInv) : s.sample.PoolInv := by
  unfold State.sample; dsimp only
  apply State.PoolInv.congr _ (State.updateConnection_samePool _)
  apply State.PoolInv.congr _ (State.kickAll_samePool _)
  have h1 := (h.congr (s.modPower_samePool fun p => { p with pg := sampled p.pg, rsts := sampled p.rsts }))
  generalize s.modPower _ = u at h1 ⊢
  have h2 := h1.congr (u.start_samePool { u.start with powerOn := u.pgHigh })
  generalize ({ u with start := _ } : State) = v at h2 ⊢
  apply State.PoolInv.congr _ (State.start_samePool _ _)
  split
  · exact h2.congr (State.startEpoch_samePool _ _)
  · exact h2

theorem State.PoolInv.decideRestore {s : State} (h : s.PoolInv) : s.decideRestore.PoolInv := by
  unfold State.decideRestore; split
  · exact h.congr (s.restore_samePool _)
  · exact h

theorem State.inReset_samePool (b : Bool) (s : State) : s.samePool { s with inReset := b } := State.samePool_of rfl
    rfl rfl rfl rfl rfl rfl rfl

theorem State.PoolInv.announce {s : State} (h : s.PoolInv) : s.announce.PoolInv := by
  unfold State.announce; dsimp only
  have h1 := (h.congr (s.inReset_samePool false)).congr (State.setFlag_samePool .start _)
  split
  · exact h1.congr (State.takeRestore_samePool _)
  · exact h1

theorem State.PoolInv.startUp {s : State} (h : s.PoolInv) : ∃ t, s.startUp = some t ∧ t.PoolInv := by
  unfold State.startUp
  obtain ⟨t, ht, hi⟩ := (h.congr (s.time_samePool 0)).loadApply
  rw [ht]; exact ⟨_, rfl, hi.sample.decideRestore.announce⟩

/-! ## Requests -/

theorem State.PoolInv.whenReady {s : State} (h : s.PoolInv) {take : State → State} (ht : ∀ t : State, t.PoolInv →
    (take t).PoolInv) : (s.whenReady take).PoolInv := by
  have h1 := h.congr s.shiftStatus_samePool
  rcases State.whenReady_cases take s with ⟨-, e⟩ | ⟨-, e⟩ <;> rw [e]
  · exact ht _ h1
  · exact h1

theorem State.PoolInv.request {α : Type} {s : State} (h : s.PoolInv) (kind tag : Byte) (fs : Option α) {f : Handler α}
    (hf : ∀ a (t : State), t.PoolInv → (f a t).1.PoolInv) : (s.request kind tag fs f).PoolInv := by
  apply h.whenReady
  intro t ht; split
  · exact ht.congr (t.pushReply_samePool _)
  · exact (hf _ t ht).congr (State.pushReply_samePool _ _)

theorem onPort_PoolInv {n : Nat} {f : PortId → State → State × Status × List Byte} {s : State} (h : s.PoolInv)
    (hf : ∀ i, (f i s).1.PoolInv) : (onPort n f s).1.PoolInv := by
  unfold onPort; split
  · exact hf _
  · exact h

theorem State.PoolInv.atDeadline {s : State} (h : s.PoolInv) (d : Option PartTime) {take : State → State} (ht : ∀ t :
    State, t.PoolInv → (take t).PoolInv) : (s.atDeadline d take).PoolInv := by
  rcases State.atDeadline_cases d take s with e | ⟨x, -, -, e⟩ <;> rw [e]
  · exact h
  · exact ht _ (h.congr (s.time_samePool x))

theorem State.PoolInv.serve {s : State} (h : s.PoolInv) {run : State → State} (ht : (run s).PoolInv) :
    (s.serve run).PoolInv := by
  unfold State.serve; split
  · exact ht
  · exact h

theorem State.PoolInv.dispatch {s : State} (h : s.PoolInv) (k : CmdKind) (lba : Nat) {run : State → State} (ht :
    (run s).PoolInv) : (State.dispatch k lba run s).PoolInv := by
  unfold State.dispatch; split
  · exact h.congr (State.complete_samePool ..)
  · split
    · refine State.PoolInv.congr (h.congr ?_) (State.complete_samePool ..)
      exact State.samePool_of rfl rfl rfl rfl rfl rfl rfl rfl
    · exact ht

theorem State.PoolInv.rangeChecked {s : State} (h : s.PoolInv) (k : CmdKind) (lba n : Nat) {run : State → State}
    (ht : (run s).PoolInv) : (State.rangeChecked k lba n run s).PoolInv := by
  unfold State.rangeChecked; repeat' split
  · exact h.congr (State.complete_samePool ..)
  · exact h.congr (State.complete_samePool ..)
  · exact h.congr (State.complete_samePool ..)
  · exact ht

/-! ## Handlers that touch the pool -/

theorem State.PoolInv.conConfig {s : State} (h : s.PoolInv) (r : ConConfigReq) : (conConfig r s).1.PoolInv := by
  unfold Sys2Proof.Machine.conConfig
  apply onPort_PoolInv h
  intro i; split
  · exact h
  · split
    · exact h
    · next c hc =>
      split
      · exact h
      · next hn =>
        have hq := h.quota.port i
        have h1 : 1 ≤ c.quota := by
          by_cases hr : r.rate < 11 <;>
            simp only [toConConfig, hr, dite_true, dite_false, Option.bind_eq_bind, Option.bind_eq_some_iff,
                Option.some.injEq, reduceCtorEq, and_false, exists_false, Option.bind_none, Option.bind_some] at hc
          obtain ⟨_, _, _, _, _, _, _, _, _, _, rfl⟩ := hc
          exact (clamp_range (by decide)).1
        apply h.modPort i _ (List.Perm.refl _)
        refine ⟨h1, hq.2.1, hq.2.2.1, ?_⟩
        intro hp
        have : c.quota = s.ports[i].cfg.quota := by
          by_contra e; exact hn ⟨hp, e⟩
        rw [hq.2.2.2 hp]; exact this.symm

theorem State.PoolInv.setDefaults {s : State} (h : s.PoolInv) (u : Unit) : (setDefaults u s).1.PoolInv := by
  unfold Sys2Proof.Machine.setDefaults; split
  · exact h
  · apply (h.disableAll).writeSettings
    intro i; simp [defaultSettings, defaultConConfig]

theorem State.PoolInv.medPut {s : State} (h : s.PoolInv) (r : Nat × List Byte) : (medPut r s).1.PoolInv := by
  unfold Sys2Proof.Machine.medPut
  split
  · split
    · exact h
    · split
      · exact h
      · next hc =>
        split
        · exact h
        · next u hu =>
          obtain ⟨h1, h2, h3, h4, h5, h6, h7, h8, -⟩ := State.lineFor (u := u) h (tagOf r.1) hu
          apply h1.place
          rw [h8 _ rfl]; simpa using hc
  · exact h

theorem State.PoolInv.medFill {s : State} (h : s.PoolInv) (r : Nat × Byte × Nat × List Byte) :
    (medFill r s).1.PoolInv := by
  unfold Sys2Proof.Machine.medFill; dsimp only
  split
  · exact h
  · split
    · exact h
    · split
      · exact h
      · next x hx =>
        split
        · exact h
        · exact h
        · exact h
        · next hk =>
          unfold State.handle at hx
          split at hx
          · exact h.fill _ hx hk
          · cases hx

theorem State.PoolInv.medFillFail {s : State} (h : s.PoolInv) (r : Nat × Byte) : (medFillFail r s).1.PoolInv := by
  unfold Sys2Proof.Machine.medFillFail
  split
  · exact h
  · split
    · exact h
    · next x hx =>
      unfold State.handle at hx
      split at hx
      · exact h.failFetch hx
      · cases hx

theorem State.PoolInv.medDrain {s : State} (h : s.PoolInv) (u : Unit) : (medDrain u s).1.PoolInv := by
  unfold Sys2Proof.Machine.medDrain; dsimp only
  split
  · exact h
  · obtain ⟨h1, h2⟩ := State.PoolInv.drainFrom s.usb.dirty h
    split
    · exact h1
    · next b hb => exact h1.beginDrain (h2 b hb)

theorem cleanReply_state (lba : Nat) (st : Status) (s : State) : (cleanReply lba st s).1 = s := rfl

theorem State.PoolInv.medClean {s : State} (h : s.PoolInv) (r : Nat × Nat) : (medClean r s).1.PoolInv := by
  unfold Sys2Proof.Machine.medClean
  split
  · exact h
  · next d hd =>
    rw [cleanReply_state]
    unfold State.drainRec at hd
    have h1 := List.mem_of_find?_eq_some hd
    have h2 := List.find?_some hd
    simp only [Bool.and_eq_true, beq_iff_eq] at h2
    rw [← h2.1]; exact h.clean h1

theorem ejected_state (n : Nat) (s : State) : (ejected n s).1 = s := rfl

theorem State.PoolInv.medEject {s : State} (h : s.PoolInv) (m : Nat) : (medEject m s).1.PoolInv := by
  unfold Sys2Proof.Machine.medEject
  split
  · exact h
  · generalize s.media.state = x
    cases x
    · exact h
    · dsimp only; rw [ejected_state]; exact h.endAttachment
    · cases m with
      | zero => show (ejected _ s.softEject).1.PoolInv; rw [ejected_state]; exact h.softEject
      | succ m => show (ejected _ s.forceEject).1.PoolInv; rw [ejected_state]; exact h.forceEject
    · cases m with
      | zero => exact h
      | succ m => show (ejected _ s.forceEject).1.PoolInv; rw [ejected_state]; exact h.forceEject

theorem State.PoolInv.medExtentDel {s : State} (h : s.PoolInv) (n : Nat) : (medExtentDel n s).1.PoolInv := by
  unfold Sys2Proof.Machine.medExtentDel
  repeat' split
  all_goals first | exact h | exact h.removeExtent _ _

theorem State.PoolInv.connect_disconnect {s : State} (h : s.PoolInv) : s.disconnect.connect.PoolInv :=
  h.congr (State.samePool_of rfl rfl rfl rfl rfl rfl rfl rfl)

theorem State.takeEdge_samePool (p : SensePin) (t : State) : t.samePool
    (t.takeEdge p) := State.samePool_of rfl rfl rfl rfl rfl rfl rfl rfl

theorem pwrConfig_samePool (a : PowerReq) (t : State) : t.samePool (pwrConfig a t).1 := by
  unfold pwrConfig; split
  · exact State.samePool.rfl' t
  · split
    · exact State.samePool.rfl' t
    · dsimp only; exact State.modPower_samePool _ _

theorem offHard_samePool (e : Bool) (t : State) : t.samePool (offHard e t).1 := by
  unfold offHard; split
  · exact State.samePool.rfl' t
  · dsimp only
    exact ((State.endAction_samePool _ t).trans (State.accept_samePool _ _ _ _ _)).trans
        (State.linkAccepted_samePool _)

theorem linkAction_samePool (k : ActionKind) (e : Bool) (t : State) : t.samePool (linkAction k e t).1 := by
  unfold linkAction; split
  · exact State.samePool.rfl' t
  · exact State.samePool.rfl' t
  · dsimp only; exact (State.beginAction_samePool _ _ _ _ t).trans (State.linkAccepted_samePool _)
  · dsimp only; exact (State.alreadyAction_samePool _ _ _ t).trans (State.linkAccepted_samePool _)

theorem pwrAction_samePool (a : Nat × Nat) (t : State) : t.samePool (pwrAction a t).1 := by
  unfold pwrAction; split
  · exact offHard_samePool _ t
  · exact linkAction_samePool _ _ t
  · exact State.samePool.rfl' t

theorem pwrAbort_samePool (a : Unit) (t : State) : t.samePool (pwrAbort a t).1 := by
  unfold pwrAbort; split
  · exact State.samePool.rfl' t
  · dsimp only; exact State.endAction_samePool _ t

theorem bootPolicy_samePool (a : PolicyReq) (t : State) : t.samePool (bootPolicy a t).1 := by
  unfold bootPolicy; split
  · exact State.samePool.rfl' t
  · dsimp only; exact t.setPolicy_samePool _

end Sys2Proof.Machine
end

