-- ==== Sys2Proof/WellFormed.lean ====
section
/-! DEFINITION. Which commands the outside can send at all: a frame's payload fits a frame, a block has 512 bytes, and
a frame named faulty or unknown is so. -/

namespace Sys2Proof

open Machine

/-- A payload fits a frame (R176). -/
def payloadFits (p : List Byte) : Bool := decide (p.length ≤ maxPayload)

/-- A collected frame has a fault (R174). -/
def collectsFault (bytes : List Byte) : Bool :=
  match collect bytes with
  | .fault _ => true
  | .noFrame => false
  | .good _ _ _ => false

/-- The command is one the outside can send. -/
def wellFormed (i : Instr) : Bool :=
  match i with
  | .powerOn => true
  | .pinReset => true
  | .resetEnd => true
  | .restoreDeadline => true
  | .saveEnd => true
  | .statusPoll op => decide (op ≠ 0x57) && decide (op ≠ 0x52)
  | .frameIgnored _ => true
  | .badFrame bytes => collectsFault bytes
  | .unknownKind kind _ payload => decide (kind ∉ requestKinds) && payloadFits payload
  | .readTransaction => true
  | .readOutEnd _ => true
  | .devIdent _ payload => payloadFits payload
  | .devTime _ payload => payloadFits payload
  | .devReset _ payload => payloadFits payload
  | .setSave _ payload => payloadFits payload
  | .setDefaults _ payload => payloadFits payload
  | .faultGet _ payload => payloadFits payload
  | .faultClear _ payload => payloadFits payload
  | .poolStatus _ payload => payloadFits payload
  | .conConfig _ payload => payloadFits payload
  | .conEnable _ payload => payloadFits payload
  | .conDisable _ payload => payloadFits payload
  | .conClear _ payload => payloadFits payload
  | .conRead _ payload => payloadFits payload
  | .conFindTime _ payload => payloadFits payload
  | .conNotify _ payload => payloadFits payload
  | .conWrite _ payload => payloadFits payload
  | .conBreak _ payload => payloadFits payload
  | .conStatus _ payload => payloadFits payload
  | .markSet _ payload => payloadFits payload
  | .markClear _ payload => payloadFits payload
  | .markGet _ payload => payloadFits payload
  | .xlatLoad _ payload => payloadFits payload
  | .xlatRead _ payload => payloadFits payload
  | .epochGet _ payload => payloadFits payload
  | .medConfig _ payload => payloadFits payload
  | .medAttach _ payload => payloadFits payload
  | .medExtentAdd _ payload => payloadFits payload
  | .medExtentDel _ payload => payloadFits payload
  | .medPresent _ payload => payloadFits payload
  | .medEject _ payload => payloadFits payload
  | .medFill _ payload => payloadFits payload
  | .medFillFail _ payload => payloadFits payload
  | .medPut _ payload => payloadFits payload
  | .medPin _ payload => payloadFits payload
  | .medUnpin _ payload => payloadFits payload
  | .medDrain _ payload => payloadFits payload
  | .medClean _ payload => payloadFits payload
  | .medStatus _ payload => payloadFits payload
  | .pwrConfig _ payload => payloadFits payload
  | .pwrAction _ payload => payloadFits payload
  | .pwrAbort _ payload => payloadFits payload
  | .pwrStatus _ payload => payloadFits payload
  | .bootPolicy _ payload => payloadFits payload
  | .bootRelease _ payload => payloadFits payload
  | .characterReceived _ _ => true
  | .breakReceived _ => true
  | .receiveLineEdge _ _ => true
  | .transmissionEnd _ => true
  | .memoryUpset _ flips => decide (flips.length ≤ 64)
  | .inquire => true
  | .ready => true
  | .capacity => true
  | .mode => true
  | .eject => true
  | .sense => true
  | .badCommand _ => true
  | .read _ _ => true
  | .blockDelivery => true
  | .fetchExpiry _ => true
  | .write _ _ => true
  | .writeBlock data => decide (data.length = blockBytes)
  | .stallDeadline => true
  | .drainExpiry tag => decide (tag ≠ 0)
  | .sync => true
  | .syncDeadline => true
  | .usbReset => true
  | .pinChange _ _ => true
  | .pgRise => true
  | .pgFall => true
  | .rstsEdgeActive => true
  | .rstsEdgeInactive => true
  | .maskTailEnd => true
  | .phaseDeadline => true
  | .bootTimerExpiry => true
  | .holdOffExpiry => true

end Sys2Proof
end

