-- ==== Sys2Proof/Tests/Slice0.lean ====
section
/-! SUPPORT. Tests: the manual's worked values, the checks of WellFormed, one-step tests of the commands, and for each
statement with hypotheses the states and operands that meet them, clause by clause. -/

set_option maxRecDepth 10000

namespace Sys2Proof.Tests

open Sys2Proof.Machine

/-! ## Small states -/

/-- The reset is over and the link open; nothing is configured. -/
def base : State := { State.reset with inReset := false }

def aReply : Reply := { kind := 1, tag := 0, status := .ok, body := [] }

/-- The reply queue is full. -/
def full : State := { base with link := { base.link with replies := List.replicate 8 aReply } }

/-- Port 0 is ENABLED at 115200 baud, not gated, and holds page 5 from position 0 on. -/
def port0 : State :=
  { base with
    ports := vupd base.ports 0 fun p =>
      { p.enable with cfg := { p.cfg with gating := false },
                      pages := [{ page := 5, first := 0, firstTime := none, firstEpoch := none }] },
    owners := vupd base.owners 5 fun _ => .history 0, committed := vupd base.committed 0 fun _ => 8 }

def modPort0 (f : Port → Port) : State := { port0 with ports := vupd port0.ports 0 f }

/-- Power-good is high. -/
def pgOn : State :=
  { base with power := { base.power with pg := { pin := true, level := true, settling := none } } }

def modPower (s : State) (f : PowerSeq → PowerSeq) : State := { s with power := f s.power }

def anExtent : Extent := { first := 0, count := 64, kind := .data, access := .rw, object := 1, base := 0 }

/-- An attachment of 100 blocks, RW, its blocks 0 to 63 in a DATA extent. -/
def attached : State :=
  { base with media := { state := .attached, capacity := some 100, access := some .rw,
                         extents := vupd resetAttachment.extents 0 fun _ => some anExtent } }

/-- It is PRESENTED, the server connected. -/
def presented : State :=
  { attached with
    media := { attached.media with state := .presented }, power := pgOn.power,
    usb := { attached.usb with connected := true } }

/-- A line of tag 0 in page 3, all its blocks in one state. -/
def withLine (s : State) (b : BlockState) : State :=
  { s with cache := [{ tag := 0, page := 3, blocks := Vector.replicate 8 b, pinned := false }],
           owners := vupd s.owners 3 fun _ => .line }

def aFetch : FetchRec :=
  { tag := 0, first := 0, object := 1, offset := 0, blocks := [.awaited, .filled, .released], issue := 0,
    expiry := 3000 }

/-- Slot 0 has a live fetch. -/
def fetching : State :=
  { withLine presented .pending with fetch := vupd base.fetch 0 fun f => { f with live := some aFetch } }

/-- All eight blocks of line 0 are DIRTY. -/
def dirtied (s : State) : State :=
  { withLine s .dirty with usb := { s.usb with dirty := [0, 1, 2, 3, 4, 5, 6, 7] } }

def aRead : ReadCmd := { first := 0, count := 2, cursor := 0, failure := none, scan := .complete }

def reading (s : State) (c : ReadCmd) : State := { s with usb := { s.usb with current := some (.read c) } }

def aWrite : WriteCmd := { first := 0, count := 2, taken := 0, stall := none }

def writing (s : State) (w : WriteCmd) : State := { s with usb := { s.usb with current := some (.write w) } }

/-- An action in a phase, its deadline 50 ms ahead. -/
def anAction (k : ActionKind) (p : Phase) : ActionRec :=
  { kind := k, escalate := false, requester := .link, start := 0, phase := some p, deadline := 50,
    escalated := false, result := none, ended := none, pressedAt := 0 }

def acting (s : State) (k : ActionKind) (p : Phase) : State := modPower s fun w => { w with last := some (anAction k p) }

def anEpoch : EpochRec :=
  { number := 1, cause := .onAction, start := 0, starts := Vector.replicate 4 0, status := .pending, attempts := 0,
    endTime := none, endCause := none, hits := [] }

/-- An epoch is open. -/
def withEpoch (s : State) : State := { s with sup := { s.sup with counter := 1, epochs := [anEpoch] } }

/-- PG settles to a level, from the other, at 9 ms. -/
def pgSettling (s : State) (v : Bool) : State :=
  modPower s fun w => { w with pg := { pin := v, level := !v, settling := some 9 } }

/-- A READ holds an item whose frame has 3 bytes. -/
def holding (s : State) (h : Held) : State := { s with link := { s.link with held := some h, outFrame := [1, 2, 3] } }

/-- Port 0 sends a BREAK until a part time. -/
def sendingBreak (u : PartTime) : State := modPort0 fun p => { p with sending := some (.brk u) }

/-- One thing of a next state. -/
def field {α : Type} (f : State → α) : Machine.Result → Option α
  | .next t => some (f t)
  | .fault _ => none
  | .refused _ => none

/-- The status of the newest reply. -/
def lastStatus (s : State) : Option Status := s.link.replies.getLast?.map (·.status)

/-- The payload after the status of the newest reply. -/
def lastBody (s : State) : Option (List Byte) := s.link.replies.getLast?.map (·.body)

/-! ## WellFormed refuses -/

theorem test_wf_statusPoll_write : wellFormed (.statusPoll 0x57) = false := by decide
theorem test_wf_statusPoll_read : wellFormed (.statusPoll 0x52) = false := by decide
theorem test_wf_badFrame_none : wellFormed (.badFrame []) = false := by decide
theorem test_wf_badFrame : wellFormed (.badFrame [0x00]) = true := by decide
theorem test_wf_unknownKind_known : wellFormed (.unknownKind 0x14 0 []) = false := by decide
theorem test_wf_unknownKind : wellFormed (.unknownKind 0x46 0 []) = true := by decide
theorem test_wf_payload (p : List Byte) (h : p.length = 1041) : wellFormed (.conWrite 0 p) = false := by
  simp [wellFormed, payloadFits, h]
theorem test_wf_writeBlock : wellFormed (.writeBlock [0]) = false := by decide
theorem test_wf_memoryUpset : wellFormed (.memoryUpset 0 (List.replicate 65 0)) = false := by decide
theorem test_wf_drainExpiry : wellFormed (.drainExpiry 0) = false := by decide

/-! ## Worked values of the manual -/

/-- R176: the ASCII bytes 123456789 give 0x29B1. -/
theorem test_crc16_of_the_manual : crc16 [0x31, 0x32, 0x33, 0x34, 0x35, 0x36, 0x37, 0x38, 0x39] = 0x29B1 := by decide

/-- R13: 416 periods are 115384 baud, nearest 115200. -/
theorem test_rate_416 : evaluateWindow 416 = some 7 := by decide
/-- R13: 47 periods are a glitch, 52 are 923076 baud and accepted as 921600. -/
theorem test_rate_glitch : evaluateWindow 47 = none ∧ evaluateWindow 52 = some 10 := by decide

/-- R13's table: accepted, and rejected beyond the tolerance or at a tie. -/
theorem test_rate_table : evaluateWindow 417 = some 7 ∧ evaluateWindow 833 = some 6 ∧ evaluateWindow 40000 = some 0 ∧
    evaluateWindow 300 = none ∧ evaluateWindow 1000 = none ∧ evaluateWindow 65535 = none := by decide

/-! ## Witnesses: the hypotheses of each statement are met -/

/-- The boot timer or the hold-off timer stands at a deadline, in a state of supervision. -/
def atBoot (st : SupState) (b h : Option PartTime) : State :=
  { base with sup := { base.sup with state := st, bootTimer := b, holdTimer := h } }

theorem witness_StepRunsFrontCommand :
    State.reset.pending = [] ∧ State.reset.inReset = true ∧ base.pending = [] ∧ base.inReset = false ∧
    base.endBreaks.dueEvents = [] ∧
    ({ pgSettling base true with time := 9 } : State).endBreaks.dueEvents = .pgRise :: [] ∧
    ({ acting base .on .pressOn with time := 50 } : State).phaseDue = some 50 ∧
    (atBoot .satisfied none (some 0)).sup.holdTimer = some (atBoot .satisfied none (some 0)).time ∧
    (atBoot .waiting (some 0) none).sup.state = .waiting ∧
    (atBoot .waiting (some 0) none).sup.bootTimer = some (atBoot .waiting (some 0) none).time ∧
    (sendingBreak 0).ports[(0 : PortId)].sending = some (.brk (sendingBreak 0).time) := by decide

theorem witness_StatusByteIsShiftedOut :
    (0x57 : Byte) ≠ 0x52 ∧ 7 ≤ (buildFrame 0 0 []).length ∧
    3 ≤ (holding base .empty).link.outFrame.length ∧ (holding base .empty).link.outFrame.length ≤ 4 := by decide

theorem witness_FramesNeedAKindAndRoom :
    base.inReady = true ∧ collect [0x00] = .fault .start ∧ collect [0x7E, 0x11, 0x04] = .fault .length ∧
    collect [0x7E, 0x00] = .fault .truncated ∧
    collect [0x7E, 0x00, 0x00, 0x01, 0x00, 0x00, 0x00] = .fault .crc ∧
    (0x46 : Byte) ∉ requestKinds ∧ (0x00 : Byte) ∉ requestKinds ∧ full.inReady = false ∧
    State.reset.inReady = false ∧ (requestOf (.devIdent 0 [])).isSome = true := by decide

theorem witness_BadRequestsAreRefused :
    base.inReady = true ∧ requestOf (.devIdent 0 [0]) = some (0x01, 0, [0]) ∧ permitted 0x01 [0] = false ∧
    requestOf (.conWrite 0 []) = some (0x17, 0, []) ∧ permitted 0x17 [] = false ∧
    requestOf (.conEnable 0 [4]) = some (0x11, 0, [4]) ∧ permitted 0x11 [4] = true ∧ 3 < (4 : Byte).toNat ∧
    requestOf (.markClear 0 [16]) = some (0x21, 0, [16]) ∧ permitted 0x21 [16] = true ∧ 15 < (16 : Byte).toNat ∧
    requestOf (.medExtentDel 0 [32]) = some (0x33, 0, [32]) ∧ permitted 0x33 [32] = true ∧
    31 < (32 : Byte).toNat := by decide

def withReply : State := { base with link := { base.link with replies := [aReply] } }
def aNotice : Notice := { slot := 0, gen := 0, lba := 0, count := 1, object := 1, offset := 0, issue := 0 }
def withNotice : State := { base with link := { base.link with notices := [aNotice] } }
def withFlags (fs : List Report) : State := { base with link := { base.link with flags := fs } }
theorem witness_ReadsChooseByRankAndEndWhole :
    State.reset.link.held = none ∧ State.reset.inReset = true ∧ base.inReset = false ∧ base.link.held = none ∧
    withReply.link.replies = aReply :: [] ∧ withNotice.link.replies = [] ∧
    withNotice.link.notices = aNotice :: [] ∧
    ([.start, .fault, .power, .boot, .media, .mark, .conLine 0, .conLine 1, .conLine 2, .conLine 3, .conData 0,
      .conData 1, .conData 2, .conData 3] : List Report) =
      [.start, .fault, .power, .boot, .media] ++ .mark :: [.conLine 0, .conLine 1, .conLine 2, .conLine 3, .conData 0,
        .conData 1, .conData 2, .conData 3] ∧
    (∀ x ∈ [Report.start, .fault, .power, .boot, .media], x ∉ (withFlags [.conData 3, .mark]).link.flags) ∧
    Report.mark ∈ (withFlags [.conData 3, .mark]).link.flags ∧ base.link.flags = [] ∧
    (holding base .empty).link.held = some .empty ∧ (holding base .withdrawn).link.held = some .withdrawn ∧
    (holding withReply .reply).link.held = some .reply ∧ (holding withReply .reply).link.replies = aReply :: [] ∧
    (holding withNotice (.notice aNotice)).link.held = some (.notice aNotice) ∧
    (holding base (.report .mark 2)).link.held = some (.report .mark 2) ∧
    (holding base (.report .mark 2)).link.outFrame.length ≤ 3 ∧
    2 < (holding base (.report .mark 2)).link.outFrame.length := by decide

theorem witness_PartResetReturnsDefaults : base.inReset = false := by decide

def withImage (c : SettingsImage) : State := { base with image := .valid c }

/-- The default settings with restore policy POWER_ON and a delay of `n` seconds. -/
def restoreImage (n : Nat) : SettingsImage :=
  { defaultSettings with power := { defaultPowerCfg with restore := .powerOn, restoreDelay := n } }

theorem witness_StartUpCompletes :
    State.reset.image = .blank ∧ ({ base with image := .invalid } : State).image = .invalid ∧
    (withImage defaultSettings).image = .valid defaultSettings ∧ base.inReady = true ∧
    base.power.pg.pin = false ∧ pgOn.power.pg.pin = true ∧ defaultSettings.power.restore = .stayOff ∧
    (restoreImage 0).power.restore = .powerOn ∧
    BitVec.ofNat 32 (1000 * (restoreImage 0).power.restoreDelay) = 0#32 ∧
    BitVec.ofNat 32 (1000 * (restoreImage 255).power.restoreDelay) ≠ 0#32 :=
  ⟨rfl, rfl, rfl, by decide, rfl, rfl, rfl, rfl, rfl, by decide⟩

def restoring (s : State) (d : PartTime) : State := { s with restore := .waiting d }

theorem witness_RestoreIsRequestedAtItsDeadline :
    (restoring base 0).reaches 0 = true ∧ (restoring base 5000).reaches 5000 = true ∧
    (restoring base 5000).action = none ∧ (restoring base 5000).pgHigh = false ∧
    (restoring pgOn 5000).pgHigh = true ∧ (restoring pgOn 5000).action = none ∧
    (restoring pgOn 5000).reaches 5000 = true ∧
    (restoring (acting base .on .pressOn) 50).action.isSome = true ∧
    (restoring (acting base .on .pressOn) 50).reaches 50 = true := by decide

def saving : State := { base with save := some { copy := defaultSettings, tag := 7, by_ := 400 } }

theorem witness_SaveRunsToItsReply :
    base.inReady = true ∧ base.save = none ∧ saving.inReady = true ∧ saving.save.isSome = true :=
  ⟨by decide, rfl, by decide, rfl⟩

theorem witness_DefaultsAreRestored :
    base.inReady = true ∧ base.action = none ∧ base.save = none ∧ (acting base .on .pressOn).inReady = true ∧
    (acting base .on .pressOn).action.isSome = true ∧ saving.inReady = true ∧ saving.save.isSome = true ∧
    port0.inReady = true ∧ port0.ports[(0 : PortId)].pages ≠ [] :=
  ⟨by decide, by decide, rfl, by decide, by decide, by decide, rfl, by decide, by decide⟩

theorem witness_QueriesChangeNothing :
    base.inReady = true ∧ requestOf (.medStatus 0 []) = some (0x3D, 0, []) ∧ permitted 0x3D [] = true ∧
    requestOf (.conFindTime 0 [0, 0, 0, 0, 0]) = some (0x15, 0, [0, 0, 0, 0, 0]) ∧
    permitted 0x15 [0, 0, 0, 0, 0] = true ∧ (1 : Byte).toNat ≤ 1 ∧
    (withEpoch base).inReady = true ∧
    (withEpoch base).sup.epochs.find? (fun e => e.number == 1) = some anEpoch ∧
    (∀ e ∈ base.sup.epochs, e.number ≠ 65535) := by decide

theorem witness_PartWideReplies : base.inReady = true := by decide

theorem witness_FaultsAreRecordedAndCleared :
    base.inReady = true ∧ base.faults.first = none ∧ (base.recordFault (.dirtyLost 3)).faults.count < 65535 := by decide

/-! ### Console lines -/

/-- CON_CONFIG of port `n`: all fields in range, 8 data bits, 1 stop bit, quota `q`. -/
def conConfigReq (n q : Nat) : ConConfigReq :=
  { port := n, rateMode := 0, rate := 7, dataBits := 8, parity := 0, stopBits := 1, gating := 1, translation := 0,
    escape := 0, quota := q }

theorem witness_ConConfigWritesTheRecord :
    base.inReady = true ∧ port0.inReady = true ∧
    parseConConfig [4, 0, 7, 8, 0, 1, 1, 0, 0, 8] = some (conConfigReq 4 8) ∧ 3 < (conConfigReq 4 8).port ∧
    parseConConfig [3, 0, 7, 8, 0, 1, 1, 0, 0, 8] = some (conConfigReq 3 8) ∧
    parseConConfig [0, 0, 7, 8, 0, 1, 1, 0, 0, 8] = some (conConfigReq 0 8) ∧
    port0.ports[(0 : PortId)].enabled = true ∧ base.ports[(3 : PortId)].enabled = false ∧
    10 < ({ conConfigReq 3 8 with rate := 11 } : ConConfigReq).rate ∧
    ({ conConfigReq 3 8 with rate := 10 } : ConConfigReq).rate = (10 : RateIdx).val ∧ (conConfigReq 3 8).rateMode ≤ 1 ∧
    (conConfigReq 3 8).rate = (7 : RateIdx).val ∧ (conConfigReq 3 8).parity ≤ 2 ∧ (conConfigReq 3 8).gating ≤ 1 ∧
    (conConfigReq 3 8).translation ≤ 2 ∧ (conConfigReq 3 8).escape ≤ 1 ∧
    (modPort0 fun p => { p with enabled := false }).ports[(0 : PortId)].pages ≠ [] ∧
    max 1 (min 64 (conConfigReq 0 9).quota) = 9 ∧
    (modPort0 fun p => { p with enabled := false }).ports[(0 : PortId)].cfg.quota = 8 ∧
    base.ports[(3 : PortId)].pages = [] := by decide

def small : State := { base with ports := vupd base.ports 1 fun p => { p with cfg := { p.cfg with quota := 64 } },
                                 committed := vupd base.committed 0 fun _ => 49 }

theorem witness_ConEnableCommitsAndEnables :
    base.inReady = true ∧ 3 < (4 : Byte).toNat ∧ port0.ports[(0 : PortId)].enabled = true ∧
    (modPort0 fun p => { p with enabled := false }).ports[(0 : PortId)].enabled = false ∧
    small.inReady = true ∧ small.ports[(1 : PortId)].enabled = false ∧ small.ports[(1 : PortId)].pages = [] ∧
    ¬(small.committedSum + small.ports[(1 : PortId)].cfg.quota ≤ 112) ∧
    base.committedSum + base.ports[(3 : PortId)].cfg.quota ≤ 112 ∧
    base.heldCount + base.ports[(3 : PortId)].cfg.quota ≤ base.floor ∧
    base.dirtyOrPinnedCount + base.ports[(3 : PortId)].cfg.quota + 4 ≤ base.floor ∧
    (State.supplyHistory 3 { base with
      committed := vupd base.committed 3 fun _ => base.ports[(3 : PortId)].cfg.quota }).isSome = true := by decide

theorem witness_ConDisableStopsThePort :
    base.inReady = true ∧ port0.inReady = true ∧ base.ports[(0 : PortId)].enabled = false ∧
    port0.ports[(0 : PortId)].enabled = true ∧ 3 < (255 : Byte).toNat := by decide

theorem witness_ConClearReturnsThePages :
    port0.inReady = true ∧ 3 < (4 : Byte).toNat ∧ port0.ports[(0 : PortId)].enabled = true ∧
    port0.ports[(3 : PortId)].enabled = false ∧ port0.ports[(3 : PortId)].pages = [] ∧
    (modPort0 fun p => { p with enabled := false }).ports[(0 : PortId)].enabled = false ∧
    (modPort0 fun p => { p with enabled := false }).ports[(0 : PortId)].pages ≠ [] := by decide

def aText : InjText := { marker := 0, text := [1, 2] }

theorem witness_WritesJoinTheQueue :
    base.inReady = true ∧ base.ports[(0 : PortId)].enabled = false ∧
    (modPort0 fun p => { p with slot := some aText }).ports[(0 : PortId)].slot ≠ none ∧
    port0.ports[(0 : PortId)].enabled = true ∧ port0.ports[(0 : PortId)].slot = none ∧
    ([] : List Byte).length ≤ 1024 ∧ 65535 < 65536 ∧
    128 ≤ (modPort0 fun p => { p with queue := List.replicate 128 (.byte 0) }).ports[(0 : PortId)].queue.length ∧
    port0.ports[(0 : PortId)].queue.length < 128 := by decide

def queued (k : Nat) (x : Option InjText) : State :=
  modPort0 fun p => { p with queue := .byte 65 :: List.replicate k (.byte 66), slot := x }

theorem witness_TransmissionTakesTheHead :
    base.framing base.ports[(0 : PortId)] = false ∧ port0.ports[(0 : PortId)].queue = [] ∧
    (∀ u, port0.ports[(0 : PortId)].sending ≠ some (.brk u)) ∧
    (queued 0 none).framing (queued 0 none).ports[(0 : PortId)] = true ∧
    (queued 0 none).ports[(0 : PortId)].queue = .byte 65 :: [] ∧ (queued 0 none).ports[(0 : PortId)].slot = none ∧
    (queued 127 (some aText)).ports[(0 : PortId)].slot = some aText ∧
    (queued 127 (some aText)).ports[(0 : PortId)].queue = .byte 65 :: List.replicate 127 (.byte 66) ∧
    128 - (List.replicate 127 (TxEntry.byte 66)).length < aText.text.length ∧
    aText.text.length ≤ 128 - (List.replicate 126 (TxEntry.byte 66)).length ∧
    (sendingBreak 7).ports[(0 : PortId)].sending = some (.brk 7) ∧ (sendingBreak 7).reaches 7 = true ∧
    ({ sendingBreak 70 with power := (acting base .on .pressOn).power } : State).reaches 70 = false ∧
    (modPort0 fun p => { p with sending := some .mark }).ports[(0 : PortId)].sending = some .mark ∧
    (modPort0 fun p => { p with sending := some (.byte 65) }).ports[(0 : PortId)].sending = some (.byte 65) :=
  ⟨by decide, by decide, (fun u h => by cases h), by decide, by decide, by decide, by decide, by decide, by decide,
    by decide, by decide, by decide, by decide, by decide, by decide⟩

def aChar : RxChar := { data := 0x41, parity := false, stop1 := true, stop2 := true }

/-- Port 0 is AUTO, with `n` characters in its character window, `e` of them errored. -/
def windowed (n e : Nat) : State :=
  modPort0 fun p => { p with cfg := { p.cfg with rateMode := .auto, gating := false }, cwCount := n, cwErrors := e }

theorem witness_ErrorsAndBreaksAreCounted :
    base.framing base.ports[(0 : PortId)] = false ∧ port0.framing port0.ports[(0 : PortId)] = true ∧
    port0.ports[(0 : PortId)].w < 2 ^ 48 - 1 ∧ ({ aChar with stop1 := false } : RxChar).stop1 = false ∧
    (modPort0 fun p => { p with cfg := { p.cfg with stopBits := 2, gating := false } }).framing
      (modPort0 fun p => { p with cfg := { p.cfg with stopBits := 2, gating := false } }).ports[(0 : PortId)] = true ∧
    ({ aChar with stop2 := false } : RxChar).stop2 = false ∧ aChar.stop1 = true ∧
    parityError { defaultConConfig with parity := .odd } aChar = true ∧
    parityError { defaultConConfig with parity := .even } { aChar with parity := true } = true ∧
    port0.ports[(0 : PortId)].cfg.rateMode = .fixed ∧ (windowed 62 7).ports[(0 : PortId)].cfg.rateMode = .auto ∧
    (windowed 62 7).ports[(0 : PortId)].cwCount < 63 ∧ 63 ≤ (windowed 63 7).ports[(0 : PortId)].cwCount ∧
    (windowed 63 7).ports[(0 : PortId)].cwErrors + 0 < 8 ∧
    8 ≤ (windowed 63 7).ports[(0 : PortId)].cwErrors + 1 := by decide

/-- Port 0 holds one page with `n` bytes of it written, and a quota of `q` pages. -/
def filled (n q : Nat) : State := modPort0 fun p => { p with cfg := { p.cfg with quota := q }, w := n }

theorem witness_GoodCharactersAreCaptured :
    port0.framing port0.ports[(0 : PortId)] = true ∧ port0.ports[(0 : PortId)].w < 2 ^ 48 - 1 ∧
    framingError port0.ports[(0 : PortId)].cfg aChar = false ∧ parityError port0.ports[(0 : PortId)].cfg aChar = false ∧
    2 ^ 48 - 1 ≤ (filled (2 ^ 48 - 1) 8).ports[(0 : PortId)].w ∧
    (filled (2 ^ 48 - 1) 8).framing (filled (2 ^ 48 - 1) 8).ports[(0 : PortId)] = true ∧
    port0.ports[(0 : PortId)].pages.getLast? = some { page := 5, first := 0, firstTime := none, firstEpoch := none } ∧
    (∀ m : Fin 16, port0.markers[m].cfg.enabled = false) ∧ (filled 4095 8).ports[(0 : PortId)].w < 0 + 4096 ∧
    0 + 4096 ≤ (filled 4096 2).ports[(0 : PortId)].w ∧
    (filled 4096 2).ports[(0 : PortId)].pages.length < (filled 4096 2).ports[(0 : PortId)].cfg.quota ∧
    ((filled 4096 2).supplyHistory 0).isSome = true ∧
    (filled 4096 1).ports[(0 : PortId)].cfg.quota ≤ (filled 4096 1).ports[(0 : PortId)].pages.length ∧
    (filled 4096 1).ports[(0 : PortId)].pages = { page := 5, first := 0, firstTime := none, firstEpoch := none } :: [] ∧
    (modPort0 fun p => { p with notify := some 1 }).ports[(0 : PortId)].notify = some 1 := by decide

theorem witness_RateIsTheNearestWithinTolerance : 47 < 48 ∧ 48 ≤ 48 ∧ evaluateWindow 48 = none := by decide

/-- Port 0 measures, its counter started, with `n` intervals of smallest 417 in its window. -/
def measuring (n : Nat) (st : RateState) : State :=
  modPort0 fun p => { p with cfg := { p.cfg with rateMode := .auto, gating := false }, rateState := st, rate := none,
                             counting := true, ivCount := n, ivMin := 417 }

theorem witness_EdgesMoveTheRateState :
    min 417 (min 65535 500) = 417 ∧ base.measures base.ports[(0 : PortId)] = false ∧
    (measuring 0 .hunting).measures (measuring 0 .hunting).ports[(0 : PortId)] = true ∧
    (measuring 62 .hunting).ports[(0 : PortId)].ivCount < 63 ∧
    (measuring 63 .hunting).ports[(0 : PortId)].ivCount = 63 ∧
    (measuring 63 .hunting).ports[(0 : PortId)].counting = true ∧
    evaluateWindow 417 = some 7 ∧ rateMove .hunting (some 7) = .candidate 7 ∧
    rateMove (.candidate 7) (some 7) = .locked 7 ∧ (8 : RateIdx) ≠ 7 := ⟨by omega, by decide⟩

/-! ### History -/

/-- Port 0 holds 100 bytes, and row 0 of its page is UPSET. -/
def damaged : State := { modPort0 fun p => { p with w := 100 } with rows := [(320, .upset)] }

theorem witness_ConReadReturnsTheBytes :
    port0.inReady = true ∧ port0.rows = [] ∧ damaged.inReady = true ∧ 2 ^ 48 - 1 < 2 ^ 48 ∧
    max damaged.ports[(0 : PortId)].o 63 = 63 ∧ min (min 1024 1) (damaged.ports[(0 : PortId)].w - 63) = 1 ∧
    (damaged.ports[(0 : PortId)].pages.map (·.page)).Nodup ∧ (320, RowFault.upset) ∈ damaged.rows ∧
    touchesRow damaged.ports[(0 : PortId)] 63 1 320 = true ∧ 63 + 0 = max 63 (0 + 64 * (320 % 64)) ∧
    (∀ y ∈ damaged.rows, touchesRow damaged.ports[(0 : PortId)] 63 1 y.1 = true →
      ∀ r' ∈ damaged.ports[(0 : PortId)].pages, r'.page.val = y.1 / 64 →
        63 + 0 ≤ max 63 (r'.first + 64 * (y.1 % 64))) ∧
    (∀ y ∈ damaged.rows, touchesRow damaged.ports[(0 : PortId)] 64 1 y.1 = false) ∧
    damaged.ports[(0 : PortId)].pages = [] ++ { page := 5, first := 0, firstTime := none, firstEpoch := none } :: [] ∧
    4095 < 0 + 4096 := by decide

/-- Port 0 holds two pages, the older begun at 10 ms and the newer at 20 ms in epoch 1. -/
def timed : State := modPort0 fun p =>
  { p with pages := [{ page := 5, first := 0, firstTime := some 10, firstEpoch := some 0 },
                     { page := 6, first := 4096, firstTime := some 20, firstEpoch := some 1 }], w := 4097 }

theorem witness_FindTimeIsTheNewestPage :
    port0.inReady = true ∧ timed.inReady = true ∧ 3 < (4 : Byte).toNat ∧
    (∀ r ∈ port0.ports[(0 : PortId)].pages, r.firstTime = none) ∧
    (∃ r ∈ timed.ports[(0 : PortId)].pages, r.firstTime ≠ none) ∧
    (∀ r ∈ timed.ports[(0 : PortId)].pages, ∀ x, r.firstTime = some x → 9 < x.toNat) ∧
    timed.ports[(0 : PortId)].pages = [] ++ { page := 5, first := 0, firstTime := some 10, firstEpoch := some 0 } ::
      [{ page := 6, first := 4096, firstTime := some 20, firstEpoch := some 1 }] ∧
    (10 : PartTime).toNat ≤ (10 : PartTime).toNat ∧ (19 : PartTime).toNat < (20 : PartTime).toNat := by
  refine ⟨by decide, by decide, by decide, by decide, by decide, ?_, by decide, by decide, by decide⟩
  intro r hr x hx
  have : timed.ports[(0 : PortId)].pages = [{ page := 5, first := 0, firstTime := some 10, firstEpoch := some 0 },
    { page := 6, first := 4096, firstTime := some 20, firstEpoch := some 1 }] := by decide
  rw [this] at hr
  simp only [List.mem_cons, List.not_mem_nil, or_false] at hr
  rcases hr with rfl | rfl <;> (simp only [Option.some.injEq] at hx; subst hx; decide)

theorem witness_NotifyFiresOrIsSet :
    port0.inReady = true ∧ 2 ^ 48 - 1 < 2 ^ 48 ∧ 3 < (4 : Byte).toNat ∧ port0.ports[(3 : PortId)].enabled = false ∧
    port0.ports[(0 : PortId)].enabled = true ∧ 0 ≤ port0.ports[(0 : PortId)].w ∧
    port0.ports[(0 : PortId)].w < 1 := by decide

/-! ### Markers, tables, supervision -/

/-- MARK_SET of marker 3 with a pattern of one byte, on port 0, of a role. -/
def markReq (role : Nat) (inj : List Byte) : MarkSetReq :=
  { index := 3, enabled := 1, pattern := [0x6F], mask := 1, role := role, report := 0, once := 0, inject := inj }

theorem witness_MarkersAreSetAndCleared :
    base.inReady = true ∧ parseMarkSet [3, 1, 1, 0x6F, 1, 5, 0, 0, 0] = some (markReq 5 []) ∧ 4 < (markReq 5 []).role ∧
    parseMarkSet [3, 1, 1, 0x6F, 1, 1, 0, 0, 0] = some (markReq 1 []) ∧
    ((markReq 1 []).role = 1 ∧ (markReq 1 []).inject.length = 0) ∧
    parseMarkSet [3, 1, 1, 0x6F, 1, 4, 0, 0, 0] = some (markReq 4 []) ∧ (markReq 4 []).index = (3 : Fin 16).val ∧
    ¬(4 < (markReq 4 []).role ∨ 15 < (markReq 4 []).mask ∨ 1 < (markReq 4 []).enabled ∨ 1 < (markReq 4 []).report ∨
      1 < (markReq 4 []).once ∨ (markReq 4 []).pattern.length = 0 ∨ 32 < (markReq 4 []).pattern.length ∨
      32 < (markReq 4 []).inject.length ∨ ((markReq 4 []).role = 1 ∧ (markReq 4 []).inject.length = 0)) := by decide

theorem witness_XlatLoadWritesItsEntries :
    base.inReady = true ∧ parseXlatLoad [2, 255, 0, 0] = some (2, 255, []) ∧
    parseXlatLoad [1, 255, 2, 0, 0, 65, 1, 0] = some (1, 255, [(0, 65), (1, 0)]) ∧
    (∀ e ∈ [((0 : Byte), (65 : Byte)), (1, 0)], e.1.toNat ≤ 1) ∧ 1 < (2 : Byte).toNat :=
  ⟨by decide, by decide, by decide, by simp, by decide⟩

def marked (r : Role) (rep : Bool) : State :=
  { port0 with markers := vupd port0.markers 3 fun _ =>
      { cfg := { enabled := true, pattern := [0x6F], mask := 1, role := r, report := rep, once := true, inject := [1] },
        hits := 0, spent := false } }

def aHit : HitRec := { marker := 0, port := 0, pos := 0, time := 0, role := .none, dropped := false }

/-- The open epoch holds `n` hits. -/
def hitEpoch (s : State) (n : Nat) : State :=
  { s with sup := { s.sup with epochs := [{ anEpoch with hits := List.replicate n aHit }] } }

/-- Port 0 with the escape filter on in a state, a translation, and `n` bytes in its window. -/
def matching (f : FilterState) (x : Translation) (n : Nat) : State :=
  modPort0 fun p => { p with cfg := { p.cfg with escape := true, translation := x }, filter := f,
                             window := List.replicate n 7 }

theorem witness_HitsAreRecorded :
    (true, FilterState.normal) = filterStep (matching .normal .none 32).ports[(0 : PortId)].filter 65 ∧
    (false, FilterState.normal) = filterStep (matching .csi .none 0).ports[(0 : PortId)].filter 0x7E ∧
    (matching .normal .none 32).ports[(0 : PortId)].cfg.translation = .none ∧
    (matching .normal .none 32).ports[(0 : PortId)].window.length ≤ 32 ∧
    port0.t0[(65 : Byte).toNat]'(65 : Byte).isLt = .replace 65 ∧
    (port0.t1.set 255 .skip)[(255 : Byte).toNat]'(255 : Byte).isLt = .skip ∧
    (marked .none true).markers[(3 : Fin 16)].cfg.role = .none ∧
    (marked .inject false).markers[(3 : Fin 16)].cfg.role = .inject ∧
    ({ marked .inject false with ports := vupd port0.ports 0 fun p => { p with slot := some aText } } :
      State).ports[(0 : PortId)].slot ≠ none ∧
    (marked .inject false).ports[(0 : PortId)].slot = none ∧
    (marked .inject false).markers[(3 : Fin 16)].cfg.inject.length ≤
      128 - (marked .inject false).ports[(0 : PortId)].queue.length ∧
    128 - (modPort0 fun p => { p with queue := List.replicate 128 (.byte 0) }).ports[(0 : PortId)].queue.length <
      (marked .inject false).markers[(3 : Fin 16)].cfg.inject.length ∧
    ((hitEpoch (marked .none true) 30).openEpoch.map (·.hits.length)) = some 30 ∧
    ((hitEpoch (marked .none true) 31).openEpoch.map (·.hits.length)) = some 31 ∧
    (marked .none true).openEpoch = none ∧ (marked .none true).markers[(3 : Fin 16)].cfg.report = true ∧
    (marked .inject false).markers[(3 : Fin 16)].cfg.report = false ∧ (2 : Fin 16) ≠ 3 := by decide

/-- Supervision of ports {0}, in a state, with eject on boot and a hold-off of `n` seconds. -/
def watching (s : State) (st : SupState) (h : Option PartTime) (ej : Bool) (n : Nat) : State :=
  { s with sup := { s.sup with
      policy := { defaultBootPolicy with enabled := true, watched := 1, eject := ej, holdOff := n },
      state := st, holdTimer := h } }

theorem witness_HitsAreRecorded_supervisor :
    (watching base .waiting none false 30).sup.policy.watched.getLsbD (3 : PortId).val = false ∧
    (watching base .waiting none false 30).sup.policy.watched.getLsbD (0 : PortId).val = true ∧
    (watching base .idle none false 30).sup.state ≠ .waiting ∧ (watching base .idle none false 30).sup.state ≠ .holdoff ∧
    (watching base .waiting none false 30).sup.state = .waiting ∧
    (watching base .holdoff (some 5) true 30).sup.state = .holdoff ∧
    (watching (withEpoch base) .waiting none true 30).openEpoch = some anEpoch ∧
    (watching presented .waiting none true 30).sup.policy.eject = true ∧
    (watching presented .waiting none true 30).media.state = .presented ∧
    (watching presented .waiting none true 30).usb.dirty = [] ∧
    (watching (dirtied presented) .waiting none true 30).usb.dirty ≠ [] ∧
    ¬((watching base .satisfied (some 5) false 30).sup.state = .satisfied ∧
      (watching base .satisfied (some 5) false 30).sup.holdTimer = none) ∧
    (watching base .satisfied none false 0).sup.holdTimer = none ∧
    (watching base .satisfied none false 0).sup.policy.holdOff = 0 ∧
    (watching base .waiting none false 600).sup.policy.holdOff ≠ 0 := by decide

/-- Supervision enabled with actions, `n` attempts of 2 used, in a state. -/
def supervised (s : State) (t f : SupAction) (n : Nat) (st : SupState) : State :=
  { s with sup := { s.sup with
      policy := { defaultBootPolicy with enabled := true, watched := 1, timeoutAction := t, faultAction := f },
      attempts := n, state := st } }

theorem witness_EpochsStartWhole :
    (withEpoch base).sup.epochs.length ≤ 8 ∧
    ({ base with sup := { base.sup with epochs := List.replicate 8 anEpoch } } : State).sup.epochs.length ≤ 8 ∧
    (withEpoch base).openEpoch = some anEpoch ∧
    (supervised base .reset .notify 0 .idle).sup.policy.enabled = true ∧ EpochCause.onAction ≠ .partStart ∧
    (supervised base .reset .notify 0 .idle).sup.state ≠ .givenUp ∧
    base.sup.policy.enabled = false := by decide

theorem witness_PolicyAndRelease :
    base.inReady = true ∧ 255 < 256 ∧ 65535 < 65536 ∧ 15 < 16 ∧
    num 1 1 ++ num 1 15 ++ num 2 65535 ++ num 1 2 ++ num 1 3 ++ num 2 601 ++ num 1 8 ++ num 1 1 =
      [1, 15, 0xFF, 0xFF, 2, 3, 0x59, 0x02, 8, 1] ∧
    (withEpoch base).inReady = true ∧ (withEpoch base).openEpoch = some anEpoch ∧ base.openEpoch = none := by decide

def timing (s : State) (b h : Option PartTime) (r : Option ReturnState) : State :=
  { s with sup := { s.sup with bootTimer := b, holdTimer := h, ret := r } }

theorem witness_TimersEscalate :
    (timing (supervised base .notify .notify 0 .waiting) (some 9) none none).reaches 9 = true ∧
    (timing (supervised base .notify .notify 0 .idle) (some 9) none none).sup.state ≠ .waiting ∧
    (timing (supervised base .notify .notify 0 .waiting) (some 9) none none).sup.bootTimer = some 9 ∧
    (timing (supervised base .notify .notify 0 .waiting) (some 9) none none).sup.state = .waiting ∧
    (timing (supervised base .notify .notify 0 .waiting) (some 9) none none).sup.policy.timeoutAction = .notify ∧
    (supervised base .cycle .notify 2 .waiting).sup.policy.maxAttempts ≤
      (supervised base .cycle .notify 2 .waiting).sup.attempts ∧
    (timing (supervised base .cycle .notify 2 .waiting) (some 9) none none).reaches 9 = true ∧
    (timing (supervised (acting base .on .pressOn) .reset .notify 1 .waiting) (some 9) none none).reaches 9 = true ∧
    (timing (supervised (acting base .on .pressOn) .reset .notify 1 .waiting) (some 9) none none).action.isSome = true ∧
    (supervised base .reset .notify 1 .waiting).pgHigh = false ∧
    (timing (supervised pgOn .reset .notify 1 .waiting) (some 9) none none).reaches 9 = true ∧
    (timing (supervised pgOn .reset .notify 1 .waiting) (some 9) none none).action = none ∧
    (timing (supervised pgOn .reset .notify 1 .waiting) (some 9) none none).pgHigh = true ∧
    (supervised pgOn .reset .notify 1 .waiting).sup.attempts <
      (supervised pgOn .reset .notify 1 .waiting).sup.policy.maxAttempts := by
  decide

theorem witness_TimersEscalate_phases :
    (supervised pgOn .reset .notify 1 .waiting).supPhase .reset .reset .resetPulse ∧
    (supervised pgOn .cycle .notify 1 .waiting).supPhase .cycle .cycle .force ∧
    (supervised base .cycle .notify 1 .waiting).supPhase .cycle .cycle .pressOn := by
  unfold State.supPhase; decide

theorem witness_TimersEscalate_holdOff :
    (timing (supervised base .notify .notify 0 .holdoff) none (some 9) (some .waiting)).sup.holdTimer = some 9 ∧
    (timing (supervised base .notify .notify 0 .holdoff) none (some 9) (some .waiting)).reaches 9 = true ∧
    (timing (supervised base .notify .notify 0 .satisfied) none (some 9) (some .satisfied)).reaches 9 = true ∧
    (timing (supervised pgOn .notify .diag 0 .holdoff) none (some 9) (some .waiting)).sup.policy.faultAction = .diag ∧
    (timing (supervised pgOn .notify .diag 0 .holdoff) none (some 9) (some .waiting)).action = none ∧
    (timing (supervised pgOn .notify .diag 0 .holdoff) none (some 9) (some .waiting)).pgHigh = true ∧
    (timing (supervised base .notify .diag 0 .holdoff) none (some 9) (some .waiting)).pgHigh = false ∧
    (timing (supervised pgOn .notify .cycle 2 .holdoff) none (some 9) (some .waiting)).sup.policy.maxAttempts ≤ 2 ∧
    (timing (supervised pgOn .notify .reset 1 .holdoff) none (some 9) (some .waiting)).reaches 9 = true := by decide

/-- An epoch is open, supervision of it in a state, and PG falls at 9 ms. -/
def falling (t f : SupAction) (st : SupState) : State := supervised (withEpoch (pgSettling base false)) t f 1 st

theorem witness_TimersEscalate_fall :
    (falling .reset .cycle .waiting).fallDue 9 ∧ ¬(supervised pgOn .reset .cycle 1 .waiting).fallDue 9 ∧
    ¬base.fallDue base.time ∧ (timing (falling .reset .cycle .waiting) (some 9) none none).reaches 9 = true ∧
    (timing (falling .reset .cycle .holdoff) none (some 9) (some .waiting)).reaches 9 = true ∧
    (falling .reset .cycle .waiting).openEpoch = some anEpoch ∧ (falling .reset .cycle .waiting).sup.state = .waiting ∧
    (falling .reset .cycle .holdoff).sup.state ≠ .givenUp ∧
    (falling .reset .cycle .waiting).sup.attempts < (falling .reset .cycle .waiting).sup.policy.maxAttempts ∧
    field (·.action) (exec .pgFall (falling .reset .cycle .waiting)) = some none ∧
    field (·.action.isSome) (exec .pgFall (acting (falling .cycle .cycle .waiting) .cycle .force)) = some true := by
  unfold State.fallDue; decide

/-! ### Media -/

theorem witness_MedConfigIsWrittenAndConnects :
    base.inReady = true ∧ (base.power.pg.level && !base.serverInReset && base.medCfg.portEnable) = base.usb.connected ∧
    (pgOn.power.pg.level && !pgOn.serverInReset && pgOn.medCfg.portEnable) = true ∧ pgOn.usb.connected = false ∧
    ({ presented with power := base.power } : State).usb.connected = true ∧
    ({ presented with power := base.power } : State).power.pg.level = false ∧
    parseMedConfig [0, 0, 0, 0, 0, 0, 0, 2] = some ⟨0, 0, 0, 0, 2⟩ ∧
    parseMedConfig [0, 0, 8, 0, 0, 0, 0, 1] = some ⟨0, 8, 0, 0, 1⟩ := by decide

theorem witness_AttachAndPresent :
    base.inReady = true ∧ attached.inReady = true ∧ attached.media.state ≠ .detached ∧ base.media.state = .detached ∧
    1 < (2 : Byte).toNat ∧ (1 : Byte).toNat ≤ 1 ∧ 2 ^ 32 - 1 < 2 ^ 32 ∧ attached.media.state = .attached ∧
    attached.media.capacity = some 100 ∧ attached.media.access = some .rw ∧ base.media.state ≠ .attached := by decide

def ejecting : State := { presented with media := { presented.media with state := .ejecting } }

theorem witness_EjectsEndTheAttachment :
    base.inReady = true ∧ presented.inReady = true ∧ 1 < (2 : Byte).toNat ∧ base.media.state = .detached ∧
    ejecting.media.state = .ejecting ∧ ejecting.inReady = true ∧ (dirtied presented).media.state = .presented ∧
    (dirtied presented).usb.dirty ≠ [] ∧ (dirtied presented).inReady = true ∧ attached.inReady = true ∧
    attached.media.state = .attached ∧ presented.media.state = .presented ∧ presented.usb.dirty = [] := by decide

/-- MED_EXTENT_ADD of a DATA extent of object 2, RW. -/
def extReq (i f c b : Nat) : ExtentReq :=
  { index := i, first := f, count := c, kind := 0, access := 1, object := 2, base := b }

theorem witness_ExtentAddChecksInOrder :
    base.inReady = true ∧ attached.inReady = true ∧ ejecting.media.state = .ejecting ∧
    parseExtentAdd [31, 64, 0, 0, 0, 36, 0, 0, 0, 0, 1, 2, 0, 0, 0, 0, 0, 0] = some (extReq 31 64 36 0) ∧
    parseExtentAdd [32, 64, 0, 0, 0, 36, 0, 0, 0, 0, 1, 2, 0, 0, 0, 0, 0, 0] = some (extReq 32 64 36 0) ∧
    attached.media.capacity.getD 0 < (extReq 31 64 37 0).first + (extReq 31 64 37 0).count ∧
    (extReq 31 64 36 0).first + (extReq 31 64 36 0).count ≤ attached.media.capacity.getD 0 ∧
    2 ^ 40 - 1 < (extReq 1 64 1 (2 ^ 40)).base + 1 - 1 ∧
    (extReq 1 64 1 (2 ^ 40 - 1)).base + (extReq 1 64 1 (2 ^ 40 - 1)).count - 1 ≤ 2 ^ 40 - 1 ∧
    attached.media.extents[(0 : Fin 32)] ≠ none ∧ attached.media.extents[(31 : Fin 32)] = none ∧
    (∃ x ∈ attached.media.extents.toList, ∃ e ∈ x, e.first < 63 + 1 ∧ 63 < e.first + e.count) ∧
    (∀ x ∈ attached.media.extents.toList, ∀ e ∈ x, e.first + e.count ≤ 64 ∨ 64 + 36 ≤ e.first) := by decide

theorem witness_ExtentDelInvalidatesItsBlocks :
    base.inReady = true ∧ base.media.state ≠ .attached ∧ attached.inReady = true ∧
    attached.media.extents[(31 : Fin 32)] = none ∧ attached.media.extents[(0 : Fin 32)] = some anExtent ∧
    (withLine attached .lost).extentUnclean anExtent = true ∧ (withLine attached .valid).inReady = true ∧
    (withLine attached .valid).media.state = .attached ∧
    (withLine attached .valid).media.extents[(0 : Fin 32)] = some anExtent ∧
    (withLine attached .valid).extentUnclean anExtent = false ∧ (withLine attached .valid).usb.current = none ∧
    anExtent.covers 63 = true ∧ anExtent.covers 64 = false ∧ (withLine attached .valid).block 7 = .valid := by decide

/-- No page is FREE, and none of a line that can be reclaimed. -/
def noPages : State := { attached with owners := Vector.replicate 128 (.history 0) }

theorem witness_PutPlacesABlock :
    base.inReady = true ∧ base.media.state ≠ .attached ∧ base.media.state ≠ .presented ∧
    (List.replicate 512 (0 : Byte)).length = 512 ∧ attached.inReady = true ∧ attached.dataExtent 64 = none ∧
    attached.dataExtent 63 ≠ none ∧ ((dirtied presented).block 0).isUnclean = true ∧
    (dirtied presented).dataExtent 0 ≠ none ∧ noPages.inReady = true ∧ noPages.dataExtent 63 ≠ none ∧
    noPages.line (63 / 8) = none ∧ noPages.lowestFree = none ∧ noPages.victim = none ∧
    (attached.block 63).isUnclean = false ∧ attached.line (63 / 8) = none ∧ (attached.allocate (63 / 8)).isSome = true ∧
    (withLine attached .valid).line (0 / 8) ≠ none ∧ ((withLine attached .valid).block 0).isUnclean = false := by decide

def pinnedLine : State :=
  { attached with cache := [{ tag := 0, page := 3, blocks := Vector.replicate 8 .valid, pinned := true }],
                  owners := vupd attached.owners 3 fun _ => .line }

theorem witness_PinsAreSetAndTaken :
    base.inReady = true ∧ base.media.state ≠ .attached ∧ attached.inReady = true ∧
    attached.media.capacity = some 100 ∧ (100 - 1) / 8 < 13 ∧ 12 ≤ (100 - 1) / 8 ∧
    (pinnedLine.line 0).map (·.pinned) = some true ∧ ((withLine attached .valid).line 0).map (·.pinned) = some false ∧
    ¬(({ attached with committed := vupd base.committed 0 fun _ => 124 } : State).dirtyOrPinnedCount + 1 + 4 ≤
      ({ attached with committed := vupd base.committed 0 fun _ => 124 } : State).floor) ∧
    noPages.line 12 = none ∧ noPages.allocate 12 = none ∧ noPages.inReady = true ∧ attached.line 12 = none ∧
    attached.pinnedCount + 1 ≤ 8 ∧ attached.dirtyOrPinnedCount + 1 + 4 ≤ attached.floor ∧
    attached.heldCount + 1 ≤ attached.floor ∧ (attached.allocate 12).isSome = true ∧
    (withLine attached .valid).pinnedCount + 1 ≤ 8 ∧
    (withLine attached .valid).dirtyOrPinnedCount + 1 + 4 ≤ (withLine attached .valid).floor ∧
    (withLine attached .valid).heldCount + 1 ≤ (withLine attached .valid).floor ∧
    536870911 < 536870912 := by decide

theorem witness_FillsAreCheckedInOrder :
    fetching.inReady = true ∧ (List.replicate 512 (0 : Byte)).length = 512 ∧ 7 < (8 : Byte).toNat ∧
    fetching.handle 0 1 = none ∧ fetching.handle 7 0 = none ∧ fetching.handle 0 0 = some aFetch ∧
    aFetch.blocks.length ≤ (3 : Byte).toNat ∧ aFetch.blocks[(0 : Byte).toNat]? = some .awaited ∧
    aFetch.blocks[(1 : Byte).toNat]? = some .filled ∧ aFetch.blocks[(2 : Byte).toNat]? = some .released ∧
    aFetch.awaited = 1 ∧ ({ aFetch with blocks := [.awaited, .awaited] } : FetchRec).awaited ≠ 1 ∧
    (fetching.line ((8 * aFetch.tag + aFetch.first + 0) / 8)).isSome = true := by decide

theorem witness_FetchesFailAndExpire :
    fetching.inReady = true ∧ fetching.handle 0 1 = none ∧ 7 < (8 : Byte).toNat ∧ fetching.handle 0 0 = some aFetch ∧
    fetching.fetch[(0 : Fin 8)].live = some aFetch ∧ fetching.reaches aFetch.expiry = true ∧
    (reading fetching aRead).usb.current = some (.read aRead) ∧ waitsOn aRead aFetch = true ∧
    (reading fetching aRead).inReady = true ∧ (reading fetching aRead).handle 0 0 = some aFetch ∧
    (∀ b ∈ aFetch.awaitedLbas, aRead.cursor ≤ b → b < aRead.first + aRead.count → 0 ≤ b) ∧
    (holding fetching (.notice aNotice)).link.held = some (.notice aNotice) ∧
    aNotice.slot = 0 ∧ aNotice.gen = (holding fetching (.notice aNotice)).fetch[(0 : Fin 8)].gen ∧
    (reading fetching aRead).fetch[(0 : Fin 8)].live = some aFetch ∧
    (reading fetching aRead).reaches aFetch.expiry = true ∧ (0 : Nat) ∈ aFetch.awaitedLbas ∧
    waitsOn { aRead with cursor := 1 } aFetch = false := by decide

/-! ### Server commands -/

def changed : State := { presented with usb := { presented.usb with mediumChanged := true } }

theorem witness_MediumCommandsAreDispatched :
    base.usb.connected = false ∧ (reading presented aRead).usb.current ≠ none ∧
    ({ attached with usb := { attached.usb with connected := true } } : State).usb.current = none ∧
    ({ attached with usb := { attached.usb with connected := true } } : State).media.state ≠ .presented ∧
    changed.usb.connected = true ∧ changed.usb.current = none ∧ changed.media.state = .presented ∧
    changed.usb.mediumChanged = true := by decide

theorem witness_SimpleCommandsAreAnswered :
    presented.usb.connected = true ∧ presented.usb.current = none ∧ presented.media.state = .presented ∧
    presented.usb.mediumChanged = false ∧ presented.media.capacity = some 100 ∧ presented.media.access = some .rw ∧
    presented.usb.dirty = [] ∧ (dirtied presented).usb.dirty ≠ [] ∧ (dirtied presented).usb.connected = true := by decide

theorem witness_TransfersAreChecked :
    presented.usb.connected = true ∧ presented.usb.current = none ∧ presented.media.state = .presented ∧
    presented.usb.mediumChanged = false ∧ 256 < 257 ∧
    presented.media.capacity.getD 0 < (99 : BitVec 32).toNat + 2 ∧
    (99 : BitVec 32).toNat + 1 ≤ presented.media.capacity.getD 0 ∧
    presented.writable ((63 : BitVec 32).toNat + 1) = false ∧ presented.writable ((63 : BitVec 32).toNat + 0) = true ∧
    presented.dataExtent 99 = none ∧ (withLine presented .valid).dataExtent 0 ≠ none ∧
    (withLine presented .valid).block 0 ≠ .invalid := by decide

def noReadAhead : State := { presented with medCfg := { presented.medCfg with readAhead := 0 } }

theorem witness_ReadsIssueFetches :
    noReadAhead.usb.connected = true ∧ noReadAhead.usb.current = none ∧ noReadAhead.media.state = .presented ∧
    noReadAhead.usb.mediumChanged = false ∧ (63 : BitVec 32).toNat + 1 ≤ noReadAhead.media.capacity.getD 0 ∧
    noReadAhead.dataExtent (63 : BitVec 32).toNat = some anExtent ∧
    noReadAhead.line ((63 : BitVec 32).toNat / 8) = none ∧ noReadAhead.freeSlot = some 0 ∧
    noReadAhead.lowestFree = some 0 ∧ noReadAhead.heldCount + 1 ≤ noReadAhead.floor ∧
    noReadAhead.medCfg.readAhead = 0 ∧ (0 : BitVec 32).toNat + 100 ≤ presented.media.capacity.getD 0 := by decide

/-- Every fetch slot is live. -/
def allLive : State := { presented with fetch := vmap base.fetch fun f => { f with live := some aFetch } }

/-- No page is left below F. -/
def noRoom : State := { presented with committed := vupd base.committed 0 fun _ => 128 }

theorem witness_ReadsIssueFetches_paused :
    allLive.freeSlot = none ∧ allLive.dataExtent 0 ≠ none ∧ allLive.block 0 = .invalid ∧ allLive.usb.current = none ∧
    noRoom.line (0 / 8) = none ∧ noRoom.floor < noRoom.heldCount + 1 ∧ noRoom.block 0 = .invalid := by decide

def pausedRead : ReadCmd := { first := 62, count := 2, cursor := 63, failure := none, scan := .paused }

theorem witness_ReadsIssueFetches_retry :
    (reading noReadAhead pausedRead).usb.current = some (.read pausedRead) ∧ pausedRead.failure = none ∧
    pausedRead.cursor + 1 = pausedRead.first + pausedRead.count ∧ pausedRead.scan = .paused ∧
    State.noticed (reading { allLive with medCfg := noReadAhead.medCfg } pausedRead) (reading noReadAhead pausedRead) =
      true ∧
    State.noticed (reading noReadAhead pausedRead) (reading noReadAhead pausedRead) = false ∧
    aRead.scan ≠ .paused ∧ (reading noReadAhead pausedRead).dataExtent 63 = some anExtent ∧
    (reading noReadAhead pausedRead).line (63 / 8) = none ∧ (reading noReadAhead pausedRead).freeSlot = some 0 ∧
    (reading noReadAhead pausedRead).lowestFree = some 0 := by decide

theorem witness_DeliveryFollowsTheTable :
    (reading presented { aRead with cursor := 64 }).usb.current = some (.read { aRead with cursor := 64 }) ∧
    (reading presented { aRead with cursor := 64 }).dataExtent 64 = none ∧
    (reading presented { aRead with failure := some 0 }).dataExtent 0 ≠ none ∧
    ({ aRead with failure := some 0 } : ReadCmd).failure = some aRead.cursor ∧
    (reading (withLine presented .pending) aRead).block aRead.cursor = .pending ∧
    (reading (withLine presented .lost) aRead).block aRead.cursor = .lost ∧
    (reading presented aRead).block aRead.cursor = .invalid ∧
    (reading (withLine presented .valid) aRead).block aRead.cursor = .valid ∧
    ((reading (withLine presented .redirtied) aRead).block aRead.cursor).isListed = true ∧
    aRead.cursor + 1 < aRead.first + aRead.count ∧
    ({ aRead with cursor := 1 } : ReadCmd).cursor + 1 = aRead.first + aRead.count ∧
    aRead.failure ≠ some aRead.cursor ∧ (dirtied presented).media.state ≠ .ejecting := by decide

theorem not_inError {s : State} (h : s.rows = []) (lba : Nat) : ¬s.inError lba := by
  rintro ⟨l, x, -, hx, -⟩; rw [h] at hx; cases hx

/-- Row 7 of page 3, the last of block 0's, is UPSET. -/
def upsetLine (s : State) : State := { s with rows := [(199, .upset)] }

theorem upsetLine_inError (s : State) (b : BlockState) : (upsetLine (withLine s b)).inError 0 :=
  ⟨_, _, rfl, List.mem_singleton.2 rfl, rfl⟩

theorem witness_DeliveryFollowsTheTable_parity :
    ¬(reading (withLine presented .valid) aRead).inError 0 ∧
    (reading (upsetLine (withLine presented .valid)) aRead).inError aRead.cursor ∧
    (reading (upsetLine (dirtied presented)) aRead).inError aRead.cursor ∧
    (reading (upsetLine (dirtied presented)) aRead).usb.dirty.filter (· ≠ aRead.cursor) ≠ [] :=
  ⟨not_inError rfl 0, ⟨_, _, rfl, List.mem_singleton.2 rfl, rfl⟩, ⟨_, _, rfl, List.mem_singleton.2 rfl, rfl⟩,
    by decide⟩

/-- No line is available: the histories leave no room. -/
def crowded : State := { presented with committed := vupd base.committed 0 fun _ => 124 }

def aStall : StallRec := { deadline := 7, data := List.replicate 512 0 }

theorem witness_WritesAreTakenOrStall :
    (writing presented aWrite).usb.current = some (.write aWrite) ∧ (List.replicate 512 (0 : Byte)).length = 512 ∧
    aWrite.stall = none ∧ (writing crowded aWrite).lineForWrite (aWrite.first + aWrite.taken) = none ∧
    ((writing presented aWrite).lineForWrite (aWrite.first + aWrite.taken)).isSome = true ∧
    (writing presented { aWrite with stall := some aStall }).reaches aStall.deadline = true ∧
    ({ aWrite with taken := 1 } : WriteCmd).taken + 1 = aWrite.count ∧
    aStall.data = List.replicate 512 0 ∧
    (writing crowded { aWrite with stall := some aStall }).lineForWrite 0 = none ∧
    ((writing presented { aWrite with stall := some aStall }).lineForWrite 0).isSome = true ∧
    State.noticed (writing crowded { aWrite with stall := some aStall })
      (writing presented { aWrite with stall := some aStall }) = true := by decide

/-- Block 0 is in a state with a drain in flight under tag 5, block 1 DIRTY behind it. -/
def draining (b : BlockState) : State :=
  { presented with
    cache := [{ tag := 0, page := 3, blocks := ⟨#[b, .dirty, .valid, .valid, .valid, .valid, .valid, .valid], rfl⟩,
                pinned := false }],
    owners := vupd presented.owners 3 fun _ => .line,
    usb := { presented.usb with dirty := [0, 1], drains := [{ lba := 0, tag := 5, expiry := 3000 }] } }

theorem witness_DrainsAreConfirmed :
    (draining .draining).inReady = true ∧
    ({ draining .draining with usb := { (draining .draining).usb with
      drains := List.replicate 8 { lba := 0, tag := 5, expiry := 3000 } } } : State).usb.drains.length = 8 ∧
    (draining .draining).usb.drains.length < 8 ∧ (∀ b ∈ presented.usb.dirty, presented.block b ≠ .dirty) ∧
    (draining .draining).usb.dirty = [0] ++ 1 :: [] ∧ (∀ x ∈ [0], (draining .draining).block x ≠ .dirty) ∧
    (draining .draining).block 1 = .dirty ∧ (draining .draining).dataExtent 1 = some anExtent ∧
    (∀ d ∈ (draining .draining).usb.drains, d.lba ≠ 1 ∨ d.tag.toNat ≠ 5) ∧
    (∀ d ∈ (draining .draining).usb.drains, d.lba ≠ 0 ∨ d.tag.toNat ≠ 6) ∧
    (∃ d ∈ (draining .redirtied).usb.drains, (draining .redirtied).block d.lba = .redirtied ∧ d.lba < 2 ^ 32) ∧
    (∃ d ∈ (draining .draining).usb.drains, (draining .draining).block d.lba = .draining ∧
      (draining .draining).usb.dirty.filter (· ≠ d.lba) ≠ []) ∧
    (draining .draining).usb.drains.find? (fun x => x.tag == 5) = some { lba := 0, tag := 5, expiry := 3000 } ∧
    (draining .draining).reaches 3000 = true := by decide

/-- Block 0 is the one listed block, drained under tag 5. -/
def lastDrain (st : AttachState) (c : Option Current) : State :=
  { withLine presented .valid with
    cache := [{ tag := 0, page := 3, blocks := (Vector.replicate 8 .valid).set 0 .draining, pinned := false }],
    media := { presented.media with state := st },
    usb := { presented.usb with dirty := [0], drains := [{ lba := 0, tag := 5, expiry := 3000 }], current := c } }

/-- The state once that drain is confirmed. -/
def confirmed (s : State) : State :=
  { State.setBlock 0 .valid s with
    usb := { s.usb with drains := s.usb.drains.filter (·.lba ≠ 0), dirty := s.usb.dirty.filter (· ≠ 0) } }

theorem witness_DrainsAreConfirmed_lastClean :
    (lastDrain .presented none).inReady = true ∧ (lastDrain .presented none).block 0 = .draining ∧
    (confirmed (lastDrain .presented none)).usb.dirty = [] ∧
    (lastDrain .presented none).media.state ≠ .ejecting ∧
    (confirmed (lastDrain .presented (some (.sync 9)))).lostCount = 0 ∧
    (lastDrain .presented (some (.sync 9))).usb.current = some (.sync 9) ∧
    (lastDrain .ejecting none).media.state = .ejecting ∧ (lastDrain .ejecting none).usb.current = none := by decide

/-- Block 0 is the one listed block, DIRTY with a row in error, and a soft eject waits for it. -/
def lastLost : State :=
  { upsetLine (withLine ejecting .valid) with
    cache := [{ tag := 0, page := 3, blocks := (Vector.replicate 8 .valid).set 0 .dirty, pinned := false }],
    usb := { ejecting.usb with dirty := [0] } }

theorem witness_DrainsAreConfirmed_lastLost :
    lastLost.inReady = true ∧ lastLost.usb.drains.length < 8 ∧ lastLost.usb.dirty = [] ++ 0 :: [] ∧
    lastLost.block 0 = .dirty ∧ lastLost.media.state = .ejecting ∧ lastLost.usb.dirty.filter (· ≠ 0) = [] ∧
    lastLost.usb.current = none ∧ lastLost.inError 0 :=
  ⟨by decide, by decide, by decide, by decide, by decide, by decide, by decide, _, _, rfl, List.mem_singleton.2 rfl, rfl⟩

theorem witness_DrainsAreConfirmed_parity :
    (upsetLine (dirtied presented)).inError 0 ∧ ¬(upsetLine (dirtied presented)).inError 1 ∧
    (upsetLine (dirtied presented)).inReady = true ∧
    (upsetLine (dirtied presented)).usb.dirty = [] ++ 0 :: ([] ++ 1 :: [2, 3, 4, 5, 6, 7]) ∧
    (upsetLine (dirtied presented)).block 0 = .dirty ∧ (upsetLine (dirtied presented)).block 1 = .dirty ∧
    (upsetLine (dirtied presented)).dataExtent 1 = some anExtent ∧
    ({ upsetLine (withLine presented .dirty) with usb := { presented.usb with dirty := [0] } } : State).inError 0 := by
  refine ⟨⟨_, _, rfl, List.mem_singleton.2 rfl, rfl⟩, ?_, by decide, by decide, by decide, by decide, by decide,
    ⟨_, _, rfl, List.mem_singleton.2 rfl, rfl⟩⟩
  rintro ⟨l, x, hl, hx, h⟩
  cases List.mem_singleton.1 hx
  cases hl
  revert h; decide

def syncing : State := { dirtied presented with usb := { (dirtied presented).usb with current := some (.sync 30000) } }

theorem witness_SyncWaitsForTheList :
    presented.usb.connected = true ∧ presented.usb.current = none ∧ presented.media.state = .presented ∧
    presented.usb.mediumChanged = false ∧ 0 < (withLine presented .lost).lostCount ∧ presented.lostCount = 0 ∧
    presented.usb.dirty = [] ∧ (dirtied presented).usb.dirty ≠ [] ∧ (dirtied presented).lostCount = 0 ∧
    syncing.usb.current = some (.sync 30000) ∧ syncing.reaches 30000 = true ∧ base.usb.connected = false := by decide

/-! ### Power -/

def pwrPayload (level : Byte) : List Byte :=
  [20, 200, 0, 0x88, 0x13, 120, 0, 0x40, 0x1F, 100, 0, 100, 0, 0x88, 0x13, level, 0, 0, 0, 0, 0, 0, 5]

theorem witness_PowerIsConfiguredAndAborted :
    base.inReady = true ∧ base.action = none ∧ (acting base .on .pressOn).inReady = true ∧
    (acting base .on .pressOn).action.isSome = true ∧ (parsePwrConfig (pwrPayload 0)).isSome = true ∧
    ((parsePwrConfig (pwrPayload 2)).map fun r => decide (∃ x ∈ r.levels ++ r.rests ++ [r.policy], 1 < x)) =
      some true ∧
    ((parsePwrConfig (pwrPayload 1)).map fun r => decide (∀ x ∈ r.levels ++ r.rests ++ [r.policy], x ≤ 1)) =
      some true ∧
    ((parsePwrConfig (pwrPayload 0)).map (·.durations)) = some [20, 200, 5000, 120, 8000, 100, 100, 5000] ∧
    (acting pgOn .reset .resetPulse).power.last = some (anAction .reset .resetPulse) ∧
    (anAction .reset .resetPulse).phase = some .resetPulse ∧ (acting pgOn .reset .resetPulse).power.pg.level = true ∧
    (acting pgOn .reset .resetPulse).inReady = true := by decide

theorem witness_PowerActionsFollowTheTable :
    base.inReady = true ∧ (1 : Byte).toNat ≤ 1 ∧ 1 < (2 : Byte).toNat ∧ 5 < (6 : Byte).toNat ∧
    (acting base .on .pressOn).power.last = some (anAction .on .pressOn) ∧
    (anAction .on .pressOn).kind ≠ .offHard ∧ (anAction .on .pressOn).phase = some .pressOn ∧ (acting base .on .pressOn).action.isSome = true ∧
    (acting base .on .pressOn).inReady = true ∧ base.action = none ∧ base.power.pg.level = false ∧
    (acting pgOn .offHard .force).action = some (anAction .offHard .force) ∧
    (acting pgOn .offHard .force).inReady = true ∧ pgOn.inReady = true ∧ pgOn.action = none ∧
    pgOn.power.pg.level = true := by decide

/-- RSTS_IN settles to a level, from the other, at 9 ms. -/
def rstsSettling (s : State) (v : Bool) : State :=
  modPower s fun w => { w with rsts := { pin := v, level := !v, settling := some 9 } }

theorem witness_PinsSettleAndEpisodesFollow :
    base.inReset = false ∧ State.reset.inReset = true ∧ (rstsSettling pgOn false).reaches 9 = true ∧
    (rstsSettling pgOn false).power.rsts.settling = some 9 ∧ (rstsSettling pgOn false).power.rsts.pin = false ∧
    (rstsSettling pgOn false).power.rsts.level = true ∧ (rstsSettling pgOn true).reaches 9 = true ∧
    (rstsSettling pgOn true).power.rsts.pin = true ∧ (rstsSettling pgOn true).power.rsts.level = false ∧
    (modPower base fun w => { w with mask := .tail 9 }).power.mask = .tail 9 ∧
    (modPower base fun w => { w with mask := .tail 9 }).reaches 9 = true := by decide

theorem witness_PowerRisesOpenAnEpoch :
    (pgSettling base true).power.pg.settling = some 9 ∧ (pgSettling base true).power.pg.pin = true ∧
    (pgSettling base true).power.pg.level = false ∧ (pgSettling base true).reaches 9 = true ∧
    (pgSettling base true).action = none ∧ (pgSettling (acting base .on .pressOn) true).reaches 9 = true ∧
    (pgSettling (acting base .on .waitUp) true).power.last = some (anAction .on .waitUp) ∧
    (pgSettling (acting base .cycle .dwell) true).power.last = some (anAction .cycle .dwell) ∧
    (pgSettling (acting base .cycle .dwell) true).reaches 9 = true := by decide

theorem witness_PowerFallsCloseTheEpoch :
    (pgSettling pgOn false).power.pg.settling = some 9 ∧ (pgSettling pgOn false).power.pg.pin = false ∧
    (pgSettling pgOn false).power.pg.level = true ∧ (pgSettling pgOn false).reaches 9 = true ∧
    (pgSettling (withEpoch pgOn) false).openEpoch = some anEpoch ∧ (pgSettling (withEpoch pgOn) false).action = none ∧
    (pgSettling pgOn false).openEpoch = none ∧
    (pgSettling (acting pgOn .offSoft .waitDown) false).power.last = some (anAction .offSoft .waitDown) ∧
    (pgSettling (acting pgOn .offSoft .waitDown) false).reaches 9 = true ∧
    (anAction .offHard .force).kind ≠ .cycle ∧ (anAction .cycle .force).kind = .cycle ∧
    (pgSettling (acting pgOn .reset .resetPulse) false).reaches 9 = true := by decide

theorem witness_PhasesMoveAtTheirDeadlines :
    (acting base .on .pressOn).power.last = some (anAction .on .pressOn) ∧
    (acting base .on .pressOn).reaches (anAction .on .pressOn).deadline = true ∧
    (acting pgOn .offSoft .waitDown).reaches (anAction .offSoft .waitDown).deadline = true ∧
    ({ anAction .offSoft .waitDown with escalate := true } : ActionRec).escalate = true ∧
    (anAction .offSoft .waitDown).escalate = false ∧ (acting pgOn .reset .resetPulse).power.pg.level = true ∧
    (acting pgOn .reset .resetPulse).reaches (anAction .reset .resetPulse).deadline = true := by decide

/-! ### The pool and the invariants -/

theorem witness_UpsetsFallOnOneRow :
    (List.replicate 64 (0xFF : Byte)).length ≤ 64 ∧ State.reset.inReset = true ∧ base.inReset = false := by decide

theorem port0_quotas : port0.QuotaInv where
  port  := by unfold Port.quotaOk; decide
  sum   := by decide
  image := by intro c h; cases h
  save  := by intro j h; cases h

theorem port0_layout : port0.LayoutInv where
  tags  := by decide
  lines := by decide
  hists := by decide
  line  := by decide
  hist  := by decide

theorem port0_blocks : port0.BlockInv where
  drain := by decide
  await := by
    intro i r h
    have e : port0.fetch[i].live = none := by clear h; revert i; decide
    rw [e] at h; cases h
  apart := by
    intro i _ r _ h
    have e : port0.fetch[i].live = none := by clear h; revert i; decide
    rw [e] at h; cases h

theorem witness_HistoryAlwaysFindsAPage :
    port0.PoolInv ∧ port0.poolOk ∧ port0.historyPages < port0.committedSum :=
  ⟨⟨port0_quotas, port0_layout, port0_blocks, by unfold State.heldInv; decide⟩, by unfold State.poolOk; decide,
    by decide⟩

theorem witness_MemoryStaysCanonical : base.memOk ∧ step base = .next base.tick := ⟨by unfold State.memOk; decide, rfl⟩

theorem witness_BoundsAreKeptByEveryStep :
    base.repliesOk ∧ base.portsOk ∧ base.epochsOk ∧ base.drainsOk ∧ step base = .next base.tick :=
  ⟨by unfold State.repliesOk; decide, by unfold State.portsOk Port.queuesOk; decide,
    by unfold State.epochsOk; decide, by unfold State.drainsOk; decide, rfl⟩

/-! ## One step of each command, with the manual's outcome -/

/-- A step from a state with one command waiting. -/
def run {α : Type} (c : Instr) (s : State) (f : State → α) : Option α := field f (step { s with pending := [c] })

theorem test_step_takes_the_front : run .inquire presented (·.pending) = some [] := by decide
theorem test_idle_ticks : field (·.time) (step base) = some 1 := by decide
theorem test_idle_in_reset : field (·.time) (step State.reset) = some 0 := by decide
theorem test_idle_raises_due_event :
    field (fun t => (t.pending, t.time)) (step { pgSettling base true with time := 9 }) = some ([.pgRise], 9) := by decide
theorem test_idle_passes_to_the_deadline :
    field (fun t => (t.pending, t.time)) (step { pgSettling base true with time := 8 }) = some ([], 9) := by decide
/-- R172: of two events due at one moment one waits at a time, so that the second finds what the first left. -/
theorem test_idle_raises_one_event :
    field (·.pending) (step { pgSettling (acting pgOn .cycle .force) false with
      time := 9, power := { (pgSettling (acting pgOn .cycle .force) false).power with
        last := some { anAction .cycle .force with deadline := 9 } } }) = some [.pgFall] := by decide
theorem test_idle_ends_a_break :
    field (fun t => t.ports[0].sending) (step (sendingBreak 0)) = some (some .mark) := by decide

/-! ### Resets and settings -/

theorem test_powerOn : run .powerOn base (fun t => (t.cause, t.inReset)) = some (.powerOn, true) := by decide
theorem test_pinReset_keeps_image :
    run .pinReset { base with image := .invalid } (fun t => (decide (t.image = .invalid), t.cause)) =
      some (true, .pin) := by decide
theorem test_resetEnd_blank :
    run .resetEnd State.reset (fun t => t.faults.first) =
      some (some { kind := .settingsInvalid .blank, time := 0 }) := by decide
/-- A valid image whose consoles have the quotas 64, 40, 30 and 8 and are flagged to be enabled. -/
def flaggedImage : SettingsImage :=
  { defaultSettings with consoles := vmap (⟨#[64, 40, 30, 8], rfl⟩ : Vector Nat 4) fun q =>
      ({ defaultConConfig with quota := q }, true) }

/-- R187: the ports are enabled in port order while their quotas fit, and power-good is sampled. -/
theorem test_resetEnd_samples_and_enables :
    run .resetEnd { withImage flaggedImage with
        inReset := true, power := { resetPowerSeq with pg := { resetPowerSeq.pg with pin := true } } }
      (fun t => (t.openEpoch.map (·.cause), t.ports.toList.map (·.enabled), t.start.refused)) =
      some (some .partStart, [true, true, false, true], 4) := by decide
theorem test_restoreDeadline :
    run .restoreDeadline (restoring base 5000) (fun t => (t.time, t.phase, t.restore)) =
      some (5000, some .pressOn, .requested) := by decide
theorem test_saveEnd : run .saveEnd saving (fun t => t.save.isNone) = some true := by decide
theorem test_setSave_busy : run (.setSave 0 []) saving lastStatus = some (some .busy) := by decide
theorem test_setSave_reserves : run (.setSave 0 []) base (fun t => (t.slotsUsed, t.link.replies.length)) =
    some (1, 0) := by decide
theorem test_setDefaults : run (.setDefaults 0 []) port0 (fun t => (t.ports[0].enabled, lastBody t)) =
    some (false, some [1]) := by decide
theorem test_devReset : run (.devReset 0 []) port0 (fun t => (t.cause, t.ports[0].enabled, lastStatus t)) =
    some (.soft, false, none) := by decide

/-! ### The link -/

theorem test_statusPoll : run (.statusPoll 0) base (·.link.statusOut) = some 0x82 := by decide
theorem test_statusPoll_in_reset : run (.statusPoll 0) State.reset (·.link.statusOut) = some 0x80 := by decide
theorem test_frameIgnored : run (.frameIgnored [0x7E]) full (fun t => (t.link.statusOut, t.link.replies.length)) =
    some (0x81, 8) := by decide
theorem test_badFrame : run (.badFrame [0x00]) base (fun t => (lastStatus t, lastBody t)) =
    some (some .badFrame, some [1]) := by decide
theorem test_unknownKind : run (.unknownKind 0x46 9 []) base (fun t => t.link.replies.map fun r => (r.kind, r.tag)) =
    some [(0x46, 9)] := by decide
theorem test_readTransaction_empty : run .readTransaction base (fun t => t.link.outFrame.take 5) =
    some [0x7E, 0, 0, 0, 0] := by decide
theorem test_readTransaction_start : run .readTransaction (withFlags [.mark, .start])
    (fun t => (t.link.outFrame.getD 3 0, t.link.flags)) = some (0xC0, [.mark]) := by decide
theorem test_readOutEnd_complete : run (.readOutEnd 3) (holding withReply .reply) (·.link.replies) = some [] := by
  decide
theorem test_readOutEnd_cut : run (.readOutEnd 2) (holding base (.report .boot 0)) (·.link.flags) = some [.boot] := by
  decide
theorem test_devTime : run (.devTime 0 []) { base with time := 0x01020304 } lastBody = some (some [4, 3, 2, 1, 0]) := by
  decide
theorem test_devIdent : run (.devIdent 0 []) base (fun t => (lastBody t).map (·.take 3)) =
    some (some [0x4E, 0x4D, 0x52]) := by decide
theorem test_faultGet_empty : run (.faultGet 0 []) base lastBody = some (some (List.replicate 26 0)) := by decide
theorem test_faultClear : run (.faultClear 0 []) (base.recordFault (.dirtyLost 3)) (fun t => (t.faults.count, t.link.flags)) =
    some (0, [.fault]) := by decide
theorem test_poolStatus : run (.poolStatus 0 []) port0 (fun t => (lastBody t).map (·.take 3)) =
    some (some [127, 1, 0]) := by decide

/-! ### Consoles -/

theorem test_conConfig_clamps : run (.conConfig 0 [1, 1, 3, 9, 2, 0, 0, 2, 1, 200]) base (fun t => t.ports[1].cfg) =
    some { rateMode := .auto, fixedRate := 3, dataBits := 8, parity := .odd, stopBits := 1, gating := false,
           translation := .t1, escape := true, quota := 64 } := by decide
theorem test_conEnable : run (.conEnable 0 [2]) base (fun t => (t.ports[2].pages.length, t.committed[2], t.owners[0])) =
    some (1, 8, .history 2) := by decide
theorem test_conDisable : run (.conDisable 0 [0]) port0 (fun t => (t.ports[0].pages.length, t.ports[0].rateState)) =
    some (1, .hunting) := by decide
theorem test_conClear : run (.conClear 0 [0]) (modPort0 fun p => { p with enabled := false, w := 9 })
    (fun t => (t.owners[5], t.committed[0], t.ports[0].o)) = some (.free, 0, 9) := by decide
theorem test_conWrite : run (.conWrite 0 [0, 65, 66]) port0 (fun t => (t.ports[0].sending, t.ports[0].queue, lastBody t)) =
    some (some (.byte 65), [.byte 66], some [2, 0, 126]) := by decide
theorem test_conBreak : run (.conBreak 0 [0, 0, 0]) port0 (fun t => (t.ports[0].sending, lastBody t)) =
    some (some (.brk 1), some [1, 1, 0, 127]) := by decide
theorem test_conRead_full_start : run (.conRead 0 [0, 0, 0, 0, 0, 0, 0, 1, 0]) port0 (fun t => (lastBody t).map (·.take 1)) =
    some (some [8]) := by decide
theorem test_conFindTime_before_all : run (.conFindTime 0 [0, 9, 0, 0, 0]) timed (fun t => (lastBody t).map (·.getD 6 9)) =
    some (some 1) := by decide
theorem test_conNotify_set : run (.conNotify 0 [0, 5, 0, 0, 0, 0, 0]) port0 (fun t => t.ports[0].notify) =
    some (some 5) := by decide
theorem test_conStatus : run (.conStatus 0 [4]) port0 lastStatus = some (some .badField) := by decide
theorem test_characterReceived : run (.characterReceived 0 aChar) port0 (fun t => (t.ports[0].w, t.mem)) =
    some (1, [(20480, 0x41)]) := by decide
theorem test_characterReceived_framing : run (.characterReceived 0 { aChar with stop1 := false }) port0
    (fun t => (t.ports[0].w, t.ports[0].framingCount)) = some (0, 1) := by decide
theorem test_breakReceived : run (.breakReceived 0) port0 (fun t => (t.ports[0].breakCount, t.link.flags)) =
    some (1, [.conLine 0]) := by decide
theorem test_receiveLineEdge_locks : run (.receiveLineEdge 0 500) (measuring 63 (.candidate 7))
    (fun t => (t.ports[0].rate, t.ports[0].lockCount)) = some (some 7, 1) := by decide
theorem test_transmissionEnd : run (.transmissionEnd 0) (queued 0 (some aText)) (fun t => (t.ports[0].sending, t.ports[0].queue)) =
    some (some (.byte 65), [.byte 1, .byte 2]) := by decide
/-- R16: a BREAK lasts its duration, and mark follows it. -/
theorem test_transmissionEnd_break : run (.transmissionEnd 0) (sendingBreak 7) (fun t => (t.time, t.ports[0].sending)) =
    some (7, some .mark) := by decide
theorem test_memoryUpset : run (.memoryUpset 1 [0x81]) base (fun t => (t.mem, t.rows)) =
    some ([(64, 0x81)], [(1, .upset)]) := by decide
theorem test_memoryUpset_in_reset : run (.memoryUpset 1 [0x81]) State.reset (fun t => (t.mem, t.rows)) =
    some ([], []) := by decide

/-! ### Markers, tables, epochs -/

theorem test_markSet_inject_needs_text : run (.markSet 0 [3, 1, 1, 0x6F, 1, 1, 0, 0, 0]) base lastStatus =
    some (some .badField) := by decide
theorem test_marker_hits_once : run (.characterReceived 0 { aChar with data := 0x6F }) (marked .none true)
    (fun t => (t.markers[3].hits, t.markers[3].spent, t.markReg.count)) = some (1, true, 1) := by decide
theorem test_marker_injects : run (.characterReceived 0 { aChar with data := 0x6F }) (marked .inject false)
    (fun t => (t.ports[0].sending, t.ports[0].slot)) = some (some (.byte 1), none) := by decide
theorem test_markClear : run (.markClear 0 [3]) (marked .none true) (fun t => t.markers[3]) = some clearedMarker := by
  decide
theorem test_markGet : run (.markGet 0 [16]) base lastStatus = some (some .badField) := by decide
theorem test_xlatLoad_partial : run (.xlatLoad 0 [0, 255, 2, 0, 0, 65, 1, 0]) base
    (fun t => (lastStatus t, lastBody t, t.t0[255])) = some (some .partial_, some [1, 0, 0, 1], .replace 65) := by decide
theorem test_xlatRead : run (.xlatRead 0 [1, 254, 9, 0]) base lastBody = some (some [1, 254, 2, 0, 0, 254, 0, 255]) := by
  decide
theorem test_epochGet : run (.epochGet 0 [0, 0]) base (fun t => (lastStatus t, lastBody t)) =
    some (some .badField, some [0, 0, 0, 0]) := by decide
theorem test_bootPolicy_disarms : run (.bootPolicy 0 [1, 1, 0, 0, 1, 0, 0, 0, 9, 0]) (withEpoch base)
    (fun t => (t.sup.policy.bootTimeout, t.sup.policy.maxAttempts, t.openEpoch.map (·.status))) =
    some (30, 7, some .unsupervised) := by decide
theorem test_bootRelease : run (.bootRelease 0 []) (supervised base .reset .notify 2 .givenUp)
    (fun t => (t.sup.state, t.sup.attempts)) = some (.idle, 0) := by decide
theorem test_bootTimerExpiry_gives_up : run .bootTimerExpiry
    (timing (supervised pgOn .reset .notify 2 .waiting) (some 9) none none) (fun t => (t.sup.state, t.faults.count)) =
    some (.givenUp, 1) := by decide
theorem test_bootTimerExpiry_resets : run .bootTimerExpiry
    (timing (supervised pgOn .reset .notify 1 .waiting) (some 9) none none)
    (fun t => (t.phase, t.sup.attempts, t.outputCond .reset)) = some (some .resetPulse, 2, .active) := by decide
theorem test_holdOffExpiry : run .holdOffExpiry
    (timing (supervised pgOn .notify .diag 0 .holdoff) none (some 9) (some .waiting)) (fun t => (t.phase, t.sup.state)) =
    some (some .diagPulse, .waiting) := by decide
/-- R172: the CYCLE of an expiry taken before a PG fall of the same moment finds PG low, and so begins in PRESS_ON. -/
theorem test_holdOffExpiry_at_a_fall : run .holdOffExpiry
    (timing (falling .reset .cycle .holdoff) none (some 9) (some .waiting))
    (fun t => (t.phase, t.pgHigh, t.sup.epochs.map fun e => (e.status, e.endCause))) =
    some (some .pressOn, false, [(.failed, some .powerLost)]) := by decide

/-! ### Media and the server -/

theorem test_medConfig : run (.medConfig 0 [0, 0, 8, 0, 0, 0, 0, 0]) presented (fun t => (t.medCfg, t.usb.connected)) =
    some ({ fetchTimeout := 100, readAhead := 7, threshold := 1, syncTimeout := 1, portEnable := false }, false) := by
  decide
theorem test_medAttach : run (.medAttach 0 [0, 0, 0, 0, 1]) base lastStatus = some (some .badField) := by decide
theorem test_medExtentAdd_overlap : run (.medExtentAdd 0 [1, 63, 0, 0, 0, 1, 0, 0, 0, 0, 1, 2, 0, 0, 0, 0, 0, 0]) attached
    lastStatus = some (some .overlap) := by decide
theorem test_medExtentDel : run (.medExtentDel 0 [0]) (withLine attached .valid) (fun t => (t.cache, t.owners[3])) =
    some ([], .free) := by decide
theorem test_medPresent : run (.medPresent 0 []) attached (fun t => (t.media.state, t.usb.mediumChanged)) =
    some (.presented, true) := by decide
theorem test_medEject_soft_waits : run (.medEject 0 [0]) (dirtied presented) (·.media.state) = some .ejecting := by decide
theorem test_medEject_force : run (.medEject 0 [1]) (dirtied presented) (fun t => (t.media.state, t.faults.latest)) =
    some (.detached, some { kind := .dirtyDiscarded 8, time := 0 }) := by decide
theorem test_medFill_late : run (.medFill 0 ([0, 1, 0] ++ List.replicate 512 7)) fetching lastStatus = some (some .late) := by
  decide
theorem test_medFill_retires : run (.medFill 0 ([0, 0, 0] ++ List.replicate 512 7)) fetching
    (fun t => (t.block 0, t.fetch[0].gen, lastBody t)) = some (.valid, 1, some [0, 0, 0, 0, 1]) := by decide
theorem test_medFillFail : run (.medFillFail 0 [0, 0]) (reading fetching aRead)
    (fun t => (t.fetch[0], t.block 0, t.usb.current)) =
    some ({ gen := 1, live := none }, .invalid, some (.read { aRead with failure := some 0 })) := by decide
theorem test_medPut_refuses_dirty : run (.medPut 0 ([0, 0, 0, 0] ++ List.replicate 512 7)) (dirtied presented) lastStatus =
    some (some .dirty) := by decide
theorem test_medPin : run (.medPin 0 [12, 0, 0, 0]) attached (fun t => t.cache.map fun l => (l.tag, l.pinned)) =
    some [(12, true)] := by decide
theorem test_medUnpin_releases : run (.medUnpin 0 [0, 0, 0, 0])
    { pinnedLine with cache := pinnedLine.cache.map fun l => { l with blocks := Vector.replicate 8 .invalid } }
    (fun t => (t.cache, t.owners[3])) = some ([], .free) := by decide
theorem test_medDrain : run (.medDrain 0 []) (draining .draining)
    (fun t => (t.block 1, t.usb.drains.map (·.tag), t.usb.nextTag)) = some (.draining, [5, 1], 2) := by decide
/-- R84, R102: the last listed block is LOST, and the soft eject completes. -/
theorem test_medDrain_last_lost : run (.medDrain 0 []) lastLost
    (fun t => (lastBody t, t.media.state, t.faults.latest, t.cache.length)) =
    some (some [0, 0], .detached, some { kind := .dirtyLost 0, time := 0 }, 0) := by decide
theorem test_medClean_stale : run (.medClean 0 [0, 0, 0, 0, 5, 0]) (draining .redirtied)
    (fun t => (lastStatus t, t.block 0, t.usb.dirty)) = some (some .stale, .dirty, [0, 1]) := by decide
theorem test_medStatus : run (.medStatus 0 []) presented (fun t => (lastBody t).map fun b => (b.take 6, b.getD 9 9)) =
    some (some ([2, 1, 100, 0, 0, 0], 0)) := by decide
theorem test_inquire : run .inquire presented (fun t => t.usb.lastAnswer.map (·.status)) = some (some .good) := by decide
theorem test_ready_medium_changed : run .ready changed (fun t => (t.usb.lastAnswer.map (·.status), t.usb.mediumChanged)) =
    some (some .mediumChanged, false) := by decide
theorem test_capacity : run .capacity presented (fun t => t.usb.lastAnswer.map (·.data)) =
    some (some (.capacity 100 512)) := by decide
theorem test_mode : run .mode presented (fun t => t.usb.lastAnswer.map (·.data)) = some (some (.mode false)) := by decide
theorem test_eject : run .eject presented (fun t => (t.media.state, t.link.flags)) = some (.detached, [.media]) := by decide
theorem test_badCommand_sense : run (.badCommand 0x77) presented (fun t => t.usb.sense.map (·.status)) =
    some (some .badCommand) := by decide
theorem test_read_issues : run (.read 62 4) presented (fun t => (t.link.notices.map fun n => (n.lba, n.count), t.block 62)) =
    some ([(62, 2)], .pending) := by decide
theorem test_blockDelivery_zero : run .blockDelivery (reading presented { aRead with first := 98, cursor := 99 })
    (fun t => (t.usb.sentBlock.map (·.1), t.usb.current)) = some (some 99, none) := by decide
/-- R183: a notice that a READ transaction holds is withdrawn as its fetch is retired. -/
theorem test_medFillFail_withdraws : run (.medFillFail 0 [0, 0]) (holding fetching (.notice aNotice))
    (·.link.held) = some (some .withdrawn) := by decide
theorem test_fetchExpiry : run (.fetchExpiry 0) (reading fetching aRead)
    (fun t => (t.time, t.usb.sense.map (·.status), t.faults.count)) = some (3000, some .notReadyRetry, 1) := by decide
theorem test_write_protected : run (.write 63 2) presented (fun t => t.usb.sense) =
    some (some { kind := .write, status := .writeProtected, lba := 63, count := 0 }) := by decide
theorem test_writeBlock : run (.writeBlock (List.replicate 512 7)) (writing presented aWrite)
    (fun t => (t.block 0, t.usb.dirty, t.cache.map (·.tag))) = some (.dirty, [0], [0]) := by decide
theorem test_stallDeadline : run .stallDeadline (writing presented { aWrite with stall := some aStall })
    (fun t => (t.time, t.usb.sense.map (·.status))) = some (7, some .notReadyRetry) := by decide
theorem test_drainExpiry : run (.drainExpiry 5) (draining .draining) (fun t => (t.block 0, t.usb.dirty, t.usb.drains)) =
    some (.dirty, [0, 1], []) := by decide
theorem test_sync_waits : run .sync (dirtied presented) (fun t => (t.usb.current, t.link.flags)) =
    some (some (.sync 30000), [.media]) := by decide
theorem test_syncDeadline : run .syncDeadline syncing (fun t => (t.usb.current, t.usb.sense.map (·.status))) =
    some (none, some .notReadyRetry) := by decide
theorem test_usbReset : run .usbReset (reading presented aRead) (fun t => (t.usb.current, t.usb.mediumChanged)) =
    some (none, true) := by decide

/-! ### Power -/

theorem test_pwrConfig : run (.pwrConfig 0 (pwrPayload 1)) base
    (fun t => (t.power.cfg.powerOut.active, t.outputLevel .power)) = some (.high, none) := by decide
/-- R143: an output at rest follows its settings at once. -/
theorem test_pwrConfig_drives : run (.pwrConfig 0 ((pwrPayload 0).set 18 1)) base (fun t => t.outputLevel .power) =
    some (some true) := by decide
theorem test_pwrAction_on : run (.pwrAction 0 [0, 0]) base (fun t => (t.phase, t.phaseDue, t.outputCond .power)) =
    some (some .pressOn, some 200, .active) := by decide
theorem test_pwrAction_reset_off : run (.pwrAction 0 [3, 0]) base lastStatus = some (some .wrongState) := by decide
theorem test_pwrAbort : run (.pwrAbort 0 []) (acting base .on .pressOn) (fun t => t.power.last.bind (·.result)) =
    some (some .aborted) := by decide
theorem test_pinChange_settles : run (.pinChange .pg true) base (fun t => t.power.pg.settling) = some (some 20) := by decide
theorem test_pgRise : run .pgRise (pgSettling (acting base .on .waitUp) true)
    (fun t => (t.power.last.bind (·.result), t.openEpoch.map (·.cause), t.usb.connected)) =
    some (some .done, some .onAction, true) := by decide
theorem test_pgFall_unexpected : run .pgFall (pgSettling (withEpoch pgOn) false)
    (fun t => (t.openEpoch, t.faults.latest)) = some (none, some { kind := .powerLost none, time := 9 }) := by decide
theorem test_rstsEdgeActive : run .rstsEdgeActive (rstsSettling pgOn false) (fun t => t.power.episode) = some true := by
  decide
theorem test_rstsEdgeInactive : run .rstsEdgeInactive (modPower (rstsSettling pgOn true) fun w => { w with episode := true })
    (fun t => (t.power.extResets, t.openEpoch.map (·.cause))) = some (1, some .resetExternal) := by decide
theorem test_maskTailEnd : run .maskTailEnd (modPower base fun w => { w with mask := .tail 9 }) (fun t => t.power.mask) =
    some .clear := by decide
theorem test_phaseDeadline_waitUp : run .phaseDeadline (acting base .on .waitUp)
    (fun t => (t.power.last.bind (·.result), t.faults.latest)) =
    some (some .noPowerGood, some { kind := .noPowerGood .on .link, time := 50 }) := by decide
theorem test_phaseDeadline_force : run .phaseDeadline (acting pgOn .cycle .force) (fun t => t.power.last.bind (·.result)) =
    some (some .stuckOn) := by decide
theorem test_pwrStatus : run (.pwrStatus 0 []) (rstsSettling pgOn false) (fun t => (lastBody t).map (·.take 7)) =
    some (some [1, 1, 1, 0, 1, 0, 1]) := by decide

end Sys2Proof.Tests
end

/-! # Console lines: CON_CLEAR (R6) and the evaluation of an interval window (R13) -/

section
namespace Sys2Proof.Machine

/-! ## The terms of a claim about a request -/

/-- A payload of one byte is a field of that byte's number (R178). -/
@[simp] theorem fields1_one_byte (b : Byte) : fields1 1 [b] = some b.toNat := by
  simp [fields1, fields, leNat]

theorem byteOf_port_toNat (i : PortId) : (byteOf i.val).toNat = i.val :=
  Nat.mod_eq_of_lt (by omega)

/-- A request that changes nothing but the link gives the cache no notice, whatever it answers. -/
theorem State.settle_pushReply_shiftStatus (s : State) (kind tag : Byte) (st : Status) (body : List Byte) :
    State.settle s (s.shiftStatus.pushReply (mkReply kind tag st body)) = s.answered kind tag st body s :=
  State.settle_same rfl rfl rfl rfl

/-! ## CON_CLEAR (R6) -/

theorem exec_conClear (tag : Byte) (payload : List Byte) (s : State) :
    exec (.conClear tag payload) s = execConClear tag payload s := rfl

theorem conClear_above {n : Nat} (hn : 3 < n) (s : State) : conClear n s = (s, .badField, []) :=
  onPort_above hn _ s

theorem conClear_enabled {i : PortId} {s : State} (h : s.ports[i].enabled = true) :
    conClear i.val s = (s, .wrongState, []) := by
  simp only [conClear, onPort_val, if_pos h, alone]

theorem conClear_disabled {i : PortId} {s : State} (h : s.ports[i].enabled = false) :
    conClear i.val s = (s.clearPort i, .ok, []) := by
  simp only [conClear, onPort_val, h, Bool.false_eq_true, if_false, alone]

theorem State.clearPort_of_no_pages {i : PortId} {s : State} (h : s.ports[i].pages = []) : s.clearPort i = s :=
  if_pos h

/-- Freeing the pages of a list of records changes the owners alone. -/
theorem freeAll_eq (ps : List PageRec) : ∀ s : State, ps.foldl (fun s r => s.setOwner r.page .free) s =
    { s with owners := ps.foldl (fun o r => vupd o r.page fun _ => .free) s.owners } := by
  induction ps with
  | nil => intro s; rfl
  | cons r ps ih => intro s; exact ih (s.setOwner r.page .free)

theorem State.clearPort_of_pages {i : PortId} {s : State} (h : s.ports[i].pages ≠ []) : s.clearPort i =
    { s with
      owners := s.ports[i].pages.foldl (fun o r => vupd o r.page fun _ => .free) s.owners,
      committed := vupd s.committed i fun _ => 0,
      ports := vupd s.ports i fun p => { p with pages := [], window := [] } } := by
  unfold State.clearPort
  rw [if_neg h, freeAll_eq]

/-- A CON_CLEAR that is taken: its handler's reply, and the retry where pages became FREE. -/
theorem exec_conClear_taken {s t : State} (hr : s.inReady = true) (tag : Byte) {b : Byte} {n : Nat} {st : Status}
    (hb : b.toNat = n) (h : conClear n s.shiftStatus = (t, st, [])) :
    exec (.conClear tag [b]) s = .next (State.settle s (t.pushReply (mkReply 0x13 tag st []))) := by
  rw [exec_conClear, execConClear, fields1_one_byte, State.request_taken hr, hb, h]

/-- A CON_CLEAR whose handler changes nothing: the reply is all that follows. -/
theorem exec_conClear_unchanged {s : State} (hr : s.inReady = true) (tag : Byte) {b : Byte} {n : Nat} {st : Status}
    (hb : b.toNat = n) (h : conClear n s.shiftStatus = (s.shiftStatus, st, [])) :
    exec (.conClear tag [b]) s = .next (s.answered 0x13 tag st [] s) := by
  rw [exec_conClear_taken hr tag hb h, State.settle_pushReply_shiftStatus]

/-! ## The evaluation of an interval window (R13) -/

/-- Of the rates of a list, `r` is the nearest to an estimate, and of those equally near the highest. -/
def NearestIn (est : Nat) (rates : List RateIdx) (r : RateIdx) : Prop :=
  r ∈ rates ∧ ∀ q ∈ rates, absDiff est (baud r) ≤ absDiff est (baud q) ∧
    (absDiff est (baud q) = absDiff est (baud r) → baud q ≤ baud r)

theorem nearestIn_singleton (est : Nat) (r : RateIdx) : NearestIn est [r] r := by
  simp [NearestIn]

/-- A rate not below those before it becomes the nearest where it is at least as near. -/
theorem NearestIn.concat {est : Nat} {rates : List RateIdx} {best r : RateIdx} (h : NearestIn est rates best)
    (hr : ∀ q ∈ rates, baud q ≤ baud r) :
    NearestIn est (rates ++ [r]) (if absDiff est (baud r) ≤ absDiff est (baud best) then r else best) := by
  obtain ⟨hmem, hbest⟩ := h
  split
  case isTrue hle =>
    refine ⟨by simp, List.forall_mem_append.mpr ⟨fun q hq => ?_, by simp⟩⟩
    exact ⟨hle.trans (hbest q hq).1, fun _ => hr q hq⟩
  case isFalse hgt =>
    refine ⟨List.mem_append_left _ hmem, List.forall_mem_append.mpr ⟨hbest, fun q hq => ?_⟩⟩
    rw [List.mem_singleton.mp hq]
    omega

/-- The fold over rates that do not fall keeps the nearest of those it has passed. -/
theorem nearestIn_foldl (est : Nat) (first : RateIdx) (rates : List RateIdx)
    (h : (first :: rates).Pairwise fun q r => baud q ≤ baud r) :
    NearestIn est (first :: rates)
      (rates.foldl (fun best r => if absDiff est (baud r) ≤ absDiff est (baud best) then r else best) first) := by
  induction rates using List.reverseRecOn with
  | nil => exact nearestIn_singleton est first
  | append_singleton rates r ih =>
    rw [← List.cons_append, List.pairwise_append] at h
    obtain ⟨hsorted, -, hlast⟩ := h
    rw [List.foldl_concat, ← List.cons_append]
    exact (ih hsorted).concat fun q hq => hlast q hq r (List.mem_singleton_self r)

theorem baud_injective : Function.Injective baud := by decide

theorem NearestIn.unique {est : Nat} {rates : List RateIdx} {q r : RateIdx} (hq : NearestIn est rates q)
    (hr : NearestIn est rates r) : q = r := by
  obtain ⟨hqr, hqr'⟩ := hq.2 r hr.1
  obtain ⟨hrq, hrq'⟩ := hr.2 q hq.1
  have hdist := le_antisymm hqr hrq
  exact baud_injective (le_antisymm (hrq' hdist) (hqr' hdist.symm))

theorem nearestIn_nearestRate (est : Nat) : NearestIn est (0 :: List.finRange 11) (nearestRate est) :=
  nearestIn_foldl est 0 (List.finRange 11) (by decide)

/-- The rate chosen is the one that R13 names. -/
theorem nearestRate_eq_iff (est : Nat) (r : RateIdx) : nearestRate est = r ↔
    (∀ q, absDiff est (baud r) ≤ absDiff est (baud q)) ∧
      ∀ q, absDiff est (baud q) = absDiff est (baud r) → baud q ≤ baud r := by
  have hall : ∀ q : RateIdx, q ∈ (0 :: List.finRange 11 : List RateIdx) := by simp
  constructor
  · rintro rfl
    obtain ⟨-, h⟩ := nearestIn_nearestRate est
    exact ⟨fun q => (h q (hall q)).1, fun q => (h q (hall q)).2⟩
  · rintro ⟨hnear, hhigh⟩
    exact (nearestIn_nearestRate est).unique ⟨hall r, fun q _ => ⟨hnear q, hhigh q⟩⟩

theorem evaluateWindow_glitch {m : Nat} (h : m < 48) : evaluateWindow m = none := if_pos h

theorem evaluateWindow_eq_some_iff {m : Nat} (h : 48 ≤ m) (r : RateIdx) : evaluateWindow m = some r ↔
    25 * absDiff (48000000 / m) (baud r) ≤ baud r ∧ nearestRate (48000000 / m) = r := by
  simp only [evaluateWindow, if_neg (Nat.not_lt.mpr h), Option.ite_none_right_eq_some, Option.some.injEq]
  constructor
  · rintro ⟨hnear, rfl⟩; exact ⟨hnear, rfl⟩
  · rintro ⟨hnear, rfl⟩; exact ⟨hnear, rfl⟩

/-! ## The obligations -/

/-- Settles O17, by the handler's answer for each kind of port: a refusal, or an empty list of pages, changes nothing;
else the pages become FREE, and the retry of R61 and R129 follows. -/
theorem conClearReturnsThePages : Obligations.ConClearReturnsThePages := by
  intro s tag hr
  refine ⟨fun b hb => exec_conClear_unchanged hr tag rfl (conClear_above hb _), fun i => ?_⟩
  have hport : (byteOf i.val).toNat = i.val := byteOf_port_toNat i
  refine ⟨fun he => ?enabled, fun he hp => ?noPages, fun he hp => ⟨?pages, rfl⟩⟩
  case enabled => exact exec_conClear_unchanged hr tag hport (conClear_enabled he)
  case noPages =>
    have h : conClear i.val s.shiftStatus = (s.shiftStatus.clearPort i, .ok, []) := conClear_disabled he
    rw [State.clearPort_of_no_pages (s := s.shiftStatus) hp] at h
    exact exec_conClear_unchanged hr tag hport h
  case pages =>
    have h : conClear i.val s.shiftStatus = (s.shiftStatus.clearPort i, .ok, []) := conClear_disabled he
    rw [State.clearPort_of_pages (s := s.shiftStatus) hp] at h
    exact exec_conClear_taken hr tag hport h

/-- Settles O22: the fold over the table, whose rates rise, leaves the nearest rate, the higher of two equally near. -/
theorem rateIsTheNearestWithinTolerance : Obligations.RateIsTheNearestWithinTolerance := by
  intro m
  refine ⟨evaluateWindow_glitch, fun hm r => ?_⟩
  rw [evaluateWindow_eq_some_iff hm, nearestRate_eq_iff]

end Sys2Proof.Machine
end

/-! # The page pool: every step completes and keeps the pool's invariant (R58 to R64) -/

section
namespace Sys2Proof.Machine

/-! ## Requests and handlers that leave the pool as it was -/

theorem State.PoolInv.request_same {α : Type} {s : State} (h : s.PoolInv) (kind tag : Byte) (fs : Option α)
    {f : Handler α} (hf : ∀ a (t : State), t.samePool (f a t).1) : (s.request kind tag fs f).PoolInv :=
  h.request kind tag fs fun a t ht => ht.congr (hf a t)

theorem State.PoolInv.whenReady_same {s : State} (h : s.PoolInv) {take : State → State}
    (ht : ∀ t : State, t.samePool (take t)) : (s.whenReady take).PoolInv :=
  h.whenReady fun t h' => h'.congr (ht t)

theorem State.PoolInv.atDeadline_same {s : State} (h : s.PoolInv) (d : Option PartTime) {take : State → State}
    (ht : ∀ t : State, t.samePool (take t)) : (s.atDeadline d take).PoolInv :=
  h.atDeadline d fun t h' => h'.congr (ht t)

theorem onPort_samePool {n : Nat} {f : PortId → State → State × Status × List Byte} {s : State}
    (hf : ∀ i, s.samePool (f i s).1) : s.samePool (onPort n f s).1 := by
  unfold onPort; split
  · exact hf _
  · exact State.samePool.rfl' s

theorem onMarker_samePool {n : Nat} {f : Fin 16 → State → State × Status × List Byte} {s : State}
    (hf : ∀ m, s.samePool (f m s).1) : s.samePool (onMarker n f s).1 := by
  unfold onMarker; split
  · exact hf _
  · exact State.samePool.rfl' s

theorem State.link_samePool (l : Link) (s : State) : s.samePool { s with link := l } :=
  State.samePool_of rfl rfl rfl rfl rfl rfl rfl rfl

theorem State.choose_samePool (s : State) : s.samePool s.choose := by
  obtain ⟨l, m, h⟩ := s.choose_frame
  rw [h]; exact State.samePool_of rfl rfl rfl rfl rfl rfl rfl rfl

theorem State.readOut_samePool (h : Held) (n : Nat) (s : State) :
    s.samePool (if s.link.outFrame.length ≤ n then s.readOutComplete h else s.readOutCut h) := by
  split
  · obtain ⟨l, e⟩ := s.readOutComplete_frame h
    rw [e]; exact s.link_samePool l
  · obtain ⟨l, m, e⟩ := s.readOutCut_frame h
    rw [e]; exact State.samePool_of rfl rfl rfl rfl rfl rfl rfl rfl

theorem State.endRead_samePool (n : Nat) (s : State) : s.samePool (s.endRead n) := by
  unfold State.endRead; split
  · exact State.samePool.rfl' s
  · exact (s.readOut_samePool _ n).trans (State.link_samePool _ _)

theorem State.rows_samePool (r : Rows) (s : State) : s.samePool { s with rows := r } :=
  State.samePool_of rfl rfl rfl rfl rfl rfl rfl rfl

theorem conRead_samePool (a : Nat × Nat × Nat) (s : State) : s.samePool (conRead a s).1 := by
  refine onPort_samePool fun i => ?_
  dsimp only; split
  · exact (s.rows_samePool _).trans (State.recordFault_samePool (.historyDamaged i) _)
  · exact s.rows_samePool _

theorem conNotify_samePool (a : Nat × Nat) (s : State) : s.samePool (conNotify a s).1 := by
  refine onPort_samePool fun i => ?_
  dsimp only; repeat' split
  · exact (s.modPort_samePool i _ rfl).trans (State.setFlag_samePool _ _)
  · exact s.modPort_samePool i _ rfl
  · exact State.samePool.rfl' s

theorem conWrite_samePool (a : Nat × List Byte) (s : State) : s.samePool (conWrite a s).1 := by
  refine onPort_samePool fun i => ?_
  dsimp only; split
  · exact (s.modPort_samePool i _ rfl).trans (State.kick_samePool _ _)
  · exact State.samePool.rfl' s

theorem conBreak_samePool (a : Nat × Nat) (s : State) : s.samePool (conBreak a s).1 := by
  refine onPort_samePool fun i => ?_
  dsimp only; repeat' split
  · exact (s.modPort_samePool i _ rfl).trans (State.kick_samePool _ _)
  · exact State.samePool.rfl' s
  · exact State.samePool.rfl' s

theorem markSet_samePool (a : MarkSetReq) (s : State) : s.samePool (markSet a s).1 := by
  refine onMarker_samePool fun m => ?_
  split
  · exact State.samePool.rfl' s
  · exact s.markers_samePool _

theorem markClear_samePool (n : Nat) (s : State) : s.samePool (markClear n s).1 :=
  onMarker_samePool fun _ => s.markers_samePool _

theorem State.modTable_samePool (n : Nat) (f : XlatTable → XlatTable) (s : State) : s.samePool (s.modTable n f) := by
  unfold State.modTable; split
  · exact s.tables_samePool _ _ _
  · exact s.tables_samePool _ _ _

theorem xlatLoad_samePool (a : Nat × Nat × List (Byte × Byte)) (s : State) : s.samePool (xlatLoad a s).1 := by
  unfold xlatLoad; split
  · exact State.samePool.rfl' s
  split
  · exact State.samePool.rfl' s
  · next es _ => exact s.modTable_samePool a.1 fun t => loadTable t a.2.1 es

theorem xlatRead_state (a : Nat × Nat × Nat) (s : State) : (xlatRead a s).1 = s := by
  unfold xlatRead; split <;> rfl

theorem epochGet_state (n : Nat) (s : State) : (epochGet n s).1 = s := by
  unfold epochGet; repeat' split
  all_goals rfl

theorem medConfig_samePool (a : MedConfigReq) (s : State) : s.samePool (medConfig a s).1 := by
  unfold medConfig; split
  · exact State.samePool.rfl' s
  · exact (s.medCfg_samePool _).trans (State.updateConnection_samePool _)

theorem State.media_samePool (m : Attachment) (s : State) : s.samePool { s with media := m } :=
  State.samePool_of rfl rfl rfl rfl rfl rfl rfl rfl

theorem medAttach_samePool (a : Nat × Nat) (s : State) : s.samePool (medAttach a s).1 := by
  unfold medAttach; repeat' split
  · exact State.samePool.rfl' s
  · exact State.samePool.rfl' s
  · exact State.samePool.rfl' s
  · exact s.media_samePool _

theorem medExtentAdd_samePool (a : ExtentReq) (s : State) : s.samePool (medExtentAdd a s).1 := by
  unfold medExtentAdd; dsimp only; repeat' split
  · exact State.samePool.rfl' s
  · exact State.samePool.rfl' s
  · exact State.samePool.rfl' s
  · exact State.samePool.rfl' s
  · exact State.samePool.rfl' s
  · exact s.media_samePool _

theorem medPresent_samePool (u : Unit) (s : State) : s.samePool (medPresent u s).1 := by
  unfold medPresent; split
  · exact State.samePool_of rfl rfl rfl rfl rfl rfl rfl rfl
  · exact State.samePool.rfl' s

theorem State.beginSync_samePool (s : State) : s.samePool s.beginSync := by
  unfold State.beginSync; repeat' split
  · exact State.complete_samePool ..
  · exact State.complete_samePool ..
  · exact (s.setCurrent_samePool _).trans (State.setFlag_samePool _ _)

theorem State.beginWrite_samePool (lba n : Nat) (s : State) : s.samePool (s.beginWrite lba n) := by
  unfold State.beginWrite; split
  · exact s.setCurrent_samePool _
  · exact State.complete_samePool ..

theorem State.upset_samePool (r : Fin 8192) (flips : List Byte) (s : State) : s.samePool (s.upset r flips) :=
  State.samePool_of rfl rfl rfl rfl rfl rfl rfl rfl

/-! ## Pins, edges and deadlines of the sequencer -/

theorem State.riseAction_samePool (s : State) : s.samePool s.riseAction := by
  unfold State.riseAction; repeat' split
  · exact s.startEpoch_samePool _
  · exact ((s.modPower_samePool _).trans (State.endAction_samePool _ _)).trans (State.startEpoch_samePool _ _)
  · exact ((s.modPower_samePool _).trans (State.endAction_samePool _ _)).trans (State.startEpoch_samePool _ _)
  · exact (s.endAction_samePool _).trans (State.startEpoch_samePool _ _)
  · exact s.startEpoch_samePool _

theorem State.cancelRestore_samePool (s : State) : s.samePool s.cancelRestore := by
  unfold State.cancelRestore; split
  · exact s.restore_samePool _
  · exact State.samePool.rfl' s

theorem State.rise_samePool (s : State) : s.samePool s.rise :=
  ((((((State.takeEdge_samePool .pg s).trans (State.cancelRestore_samePool _)).trans
    (State.riseAction_samePool _)).trans (State.setFlag_samePool _ _)).trans (State.kickAll_samePool _)).trans
      (State.updateConnection_samePool _))

theorem State.fallClose_samePool (c : EndCause) (s : State) : s.samePool (s.fallClose c) :=
  ((s.closeEpoch_samePool c).trans (State.gateAll_samePool _)).trans (State.updateConnection_samePool _)

theorem State.fall_samePool (s : State) : s.samePool s.fall :=
  s.fallAction_samePool.trans (State.fallClose_samePool _ _)

theorem State.resetSeen_samePool (s : State) : s.samePool s.resetSeen := by
  refine (State.takeEdge_samePool .rsts s).trans (State.samePool.trans ?_ (State.updateConnection_samePool _))
  split
  · exact (State.modPower_samePool _ _).trans (State.setFlag_samePool _ _)
  · exact State.samePool.rfl' _

theorem State.resetGone_samePool (s : State) : s.samePool s.resetGone := by
  refine (State.takeEdge_samePool .rsts s).trans (State.samePool.trans ?_ (State.updateConnection_samePool _))
  split
  · exact ((State.modPower_samePool _ _).trans (State.startEpoch_samePool _ _)).trans (State.setFlag_samePool _ _)
  · exact State.samePool.rfl' _

theorem State.unmask_samePool (s : State) : s.samePool s.unmask :=
  (s.modPower_samePool _).trans (State.updateConnection_samePool _)

theorem State.phaseExpired_samePool (s : State) : s.samePool s.phaseExpired := by
  unfold State.phaseExpired; split
  · exact State.samePool.rfl' s
  split
  · exact s.enterPhase_samePool _
  · exact s.endAction_samePool _
  · exact s.enterPhase_samePool _
  · split
    · exact (s.modPower_samePool _).trans (State.enterPhase_samePool _ _)
    · exact s.endAction_samePool _
  · exact s.endAction_samePool _
  · exact s.endAction_samePool _
  · exact s.endAction_samePool _
  · exact s.enterPhase_samePool _
  · exact State.samePool.rfl' s

theorem State.modPin_samePool (pin : SensePin) (f : SenseIn → SenseIn) (s : State) : s.samePool (s.modPin pin f) :=
  s.modPower_samePool _

theorem State.edge_samePool (i : PortId) (n : Nat) (s : State) : s.samePool (s.edge i n) := by
  unfold State.edge; dsimp only; split
  · have hf := s.modPort_samePool i (Port.interval (min 65535 n)) (Port.interval_pool _ _)
    split
    · exact (hf.trans (State.setFlag_samePool _ _)).trans (State.kick_samePool _ _)
    · exact hf
  · exact s.modPort_samePool i _ rfl

/-! ## Saves -/

theorem State.QuotaInv.liveSettings {s : State} (h : s.QuotaInv) : SettingsImage.quotasOk s.liveSettings := fun i => by
  obtain ⟨hq, -⟩ := h.port i
  simpa [State.liveSettings] using hq

theorem State.PoolInv.beginSave {s : State} (h : s.PoolInv) (tag : Byte) (d : PartTime) :
    State.PoolInv { s with image := .invalid, save := some { copy := s.liveSettings, tag := tag, by_ := d } } where
  quota := { port := h.quota.port, sum := h.quota.sum, image := fun _ e => by simp at e,
             save := fun j e => by obtain rfl : _ = j := Option.some.inj e; exact h.quota.liveSettings }
  layout := h.layout.congr (fun _ => rfl) rfl rfl rfl
  blocks := h.blocks.congr rfl (fun _ => rfl) rfl
  held := h.held

theorem State.PoolInv.endSave {s : State} (h : s.PoolInv) {j : SaveJob} (hj : s.save = some j) :
    State.PoolInv { s with image := .valid j.copy, save := none } where
  quota := { port := h.quota.port, sum := h.quota.sum, save := fun _ e => by simp at e,
             image := fun c e => by obtain rfl : j.copy = c := Image.valid.inj e; exact h.quota.save j hj }
  layout := h.layout.congr (fun _ => rfl) rfl rfl rfl
  blocks := h.blocks.congr rfl (fun _ => rfl) rfl
  held := h.held

theorem State.PoolInv.setSave {s : State} (h : s.PoolInv) (tag : Byte) (payload : List Byte) :
    ∃ t : State, execSetSave tag payload s = .next t ∧ t.PoolInv := by
  refine ⟨_, rfl, h.whenReady fun t ht => ?_⟩
  repeat' split
  · exact ht.congr (t.pushReply_samePool _)
  · exact ht.congr (t.pushReply_samePool _)
  · exact ht.beginSave tag _

theorem State.PoolInv.saveEnd {s : State} (h : s.PoolInv) : ∃ t : State, execSaveEnd s = .next t ∧ t.PoolInv := by
  unfold execSaveEnd; split
  · exact ⟨s, rfl, h⟩
  · next j hj => exact ⟨_, rfl, (h.endSave hj).congr (State.pushReply_samePool _ _)⟩

/-! ## Commands that may ask the pool for a page -/

theorem State.PoolInv.resetEnd {s : State} (h : s.PoolInv) : ∃ t : State, execResetEnd s = .next t ∧ t.PoolInv := by
  unfold execResetEnd; split
  · obtain ⟨t, e, ht⟩ := h.startUp
    exact ⟨t, by rw [e, orNoPage], ht⟩
  · exact ⟨s, rfl, h⟩

theorem State.PoolInv.devReset {s : State} (h : s.PoolInv) (tag : Byte) (payload : List Byte) :
    ∃ t : State, execDevReset tag payload s = .next t ∧ t.PoolInv := by
  unfold execDevReset; repeat' split
  · obtain ⟨t, e, ht⟩ := (h.partReset .soft).startUp
    exact ⟨t, by rw [e, orNoPage], ht⟩
  · exact ⟨_, rfl, h.congr s.shiftStatus_samePool⟩
  · exact ⟨_, rfl, h.request_same _ _ _ fun _ t => State.samePool.rfl' t⟩

theorem State.PoolInv.conEnable {s : State} (h : s.PoolInv) (n : Nat) :
    ∃ r, conEnable n s = some r ∧ r.1.PoolInv := by
  unfold Machine.conEnable; split
  · exact ⟨_, rfl, h⟩
  · split
    · exact ⟨_, rfl, h⟩
    · next i _ _ =>
      obtain ⟨st, t, e, ht⟩ := h.enablePort i
      exact ⟨_, by rw [e]; rfl, ht⟩

theorem State.PoolInv.execConEnable {s : State} (h : s.PoolInv) (tag : Byte) (payload : List Byte) :
    ∃ t : State, execConEnable tag payload s = .next t ∧ t.PoolInv := by
  unfold Machine.execConEnable State.requestOpt
  have h1 := h.congr s.shiftStatus_samePool
  repeat' split
  · exact ⟨_, rfl, h1.congr (State.pushReply_samePool _ _)⟩
  · next n _ =>
    obtain ⟨r, e, hr⟩ := h1.conEnable n
    exact ⟨_, by rw [e]; rfl, hr.congr (State.pushReply_samePool _ _)⟩
  · exact ⟨_, rfl, h1⟩

theorem State.PoolInv.characterReceived {s : State} (h : s.PoolInv) (i : PortId) (x : RxChar) :
    ∃ t : State, execCharacterReceived i x s = .next t ∧ t.PoolInv := by
  obtain ⟨t, e, ht⟩ := h.receive i x
  exact ⟨_, by rw [execCharacterReceived, e]; rfl, (ht.congr (State.closeFall_samePool s t)).settle s⟩

/-! ## Commands of the media chapters -/

theorem State.PoolInv.blockDelivery {s : State} (h : s.PoolInv) :
    ∃ t : State, execBlockDelivery s = .next t ∧ t.PoolInv := by
  refine ⟨_, rfl, ?_⟩
  split
  · exact (h.deliver _).settle s
  · exact h

theorem State.PoolInv.writeBlock {s : State} (h : s.PoolInv) (data : List Byte) :
    ∃ t : State, execWriteBlock data s = .next t ∧ t.PoolInv := by
  refine ⟨_, rfl, ?_⟩
  repeat' split
  · exact h.offerBlock _ _
  · exact h
  · exact h

theorem State.PoolInv.drainExpiry {s : State} (h : s.PoolInv) (tag : BitVec 16) :
    ∃ t : State, execDrainExpiry tag s = .next t ∧ t.PoolInv := by
  refine ⟨_, rfl, ?_⟩
  split
  · next d hd =>
    rcases State.atDeadline_cases (some d.expiry) (State.expireDrain d) s with e | ⟨x, -, -, e⟩ <;> rw [e]
    · exact h
    · exact (h.congr (s.time_samePool x)).expireDrain (List.mem_of_find?_eq_some hd)
  · exact h

theorem State.PoolInv.beginRead {s : State} (h : s.PoolInv) (lba n : Nat) : (s.beginRead lba n).PoolInv :=
  (h.congr (s.setCurrent_samePool _)).scanPass

/-- A server command that a port takes, touches the medium and only completes. -/
theorem State.PoolInv.serve_dispatch {s : State} (h : s.PoolInv) (k : CmdKind) (lba : Nat) {run : State → State}
    (ht : (run s).PoolInv) : (s.serve (State.dispatch k lba run)).PoolInv :=
  h.serve (h.dispatch k lba ht)

theorem State.PoolInv.transmissionEnd {s : State} (h : s.PoolInv) (i : PortId) :
    ∃ t : State, execTransmissionEnd i s = .next t ∧ t.PoolInv := by
  refine ⟨_, rfl, ?_⟩
  split
  · exact h.atDeadline_same _ fun t => t.modPort_samePool i _ (Port.endBreak_pool _ _)
  · exact h.congr (s.sent_samePool i)

theorem State.PoolInv.breakReceived {s : State} (h : s.PoolInv) (i : PortId) :
    ∃ t : State, execBreakReceived i s = .next t ∧ t.PoolInv := by
  refine ⟨_, rfl, ?_⟩
  split
  · exact h.congr ((s.modPort_samePool i _ rfl).trans (State.setFlag_samePool _ _))
  · exact h

/-! ## The commands and the step -/

/-- Every command completes in a state of the pool's invariant. -/
theorem State.PoolInv.exec {s : State} (h : s.PoolInv) (c : Instr) : ∃ t : State, exec c s = .next t ∧ t.PoolInv := by
  cases c with
  | powerOn => exact ⟨_, rfl, h.partReset _⟩
  | pinReset => exact ⟨_, rfl, h.partReset _⟩
  | resetEnd => exact h.resetEnd
  | restoreDeadline => exact ⟨_, rfl, h.atDeadline_same _ State.takeRestore_samePool⟩
  | saveEnd => exact h.saveEnd
  | statusPoll => exact ⟨_, rfl, h.congr s.shiftStatus_samePool⟩
  | frameIgnored => exact ⟨_, rfl, h.congr s.shiftStatus_samePool⟩
  | badFrame bytes =>
    refine ⟨_, rfl, h.whenReady_same fun t => ?_⟩
    split
    · exact t.pushReply_samePool _
    · exact State.samePool.rfl' t
    · exact State.samePool.rfl' t
  | unknownKind kind =>
    refine ⟨_, rfl, h.whenReady_same fun t => ?_⟩
    split
    · exact State.samePool.rfl' t
    · exact t.pushReply_samePool _
  | readTransaction =>
    refine ⟨_, rfl, ?_⟩
    split
    · exact h
    · exact h.congr (s.shiftStatus_samePool.trans (State.choose_samePool _))
  | readOutEnd n => exact ⟨_, rfl, h.congr (s.endRead_samePool n)⟩
  | devIdent => exact ⟨_, rfl, h.request_same _ _ _ fun _ t => State.samePool.rfl' t⟩
  | devTime => exact ⟨_, rfl, h.request_same _ _ _ fun _ t => State.samePool.rfl' t⟩
  | devReset tag payload => exact h.devReset tag payload
  | setSave tag payload => exact h.setSave tag payload
  | setDefaults => exact ⟨_, rfl, h.request _ _ _ fun a _ ht => ht.setDefaults a⟩
  | faultGet => exact ⟨_, rfl, h.request_same _ _ _ fun _ t => State.samePool.rfl' t⟩
  | faultClear =>
    exact ⟨_, rfl, h.request_same _ _ _ fun _ _ => State.samePool_of rfl rfl rfl rfl rfl rfl rfl rfl⟩
  | poolStatus => exact ⟨_, rfl, h.request_same _ _ _ fun _ t => State.samePool.rfl' t⟩
  | conConfig => exact ⟨_, rfl, h.request _ _ _ fun a _ ht => ht.conConfig a⟩
  | conEnable tag payload => exact h.execConEnable tag payload
  | conDisable =>
    refine ⟨_, rfl, h.request _ _ _ fun _ t ht => onPort_PoolInv ht fun i => ?_⟩
    split
    · exact ht.disablePort i
    · exact ht
  | conClear =>
    refine ⟨_, rfl, (h.request _ _ _ fun _ t ht => onPort_PoolInv ht fun i => ?_).settle s⟩
    split
    · exact ht
    · next he => exact ht.clearPort i (Bool.eq_false_iff.2 he)
  | conRead => exact ⟨_, rfl, h.request_same _ _ _ conRead_samePool⟩
  | conFindTime =>
    exact ⟨_, rfl, h.request_same _ _ _ fun _ t => onPort_samePool fun _ => State.samePool.rfl' t⟩
  | conNotify => exact ⟨_, rfl, h.request_same _ _ _ conNotify_samePool⟩
  | conWrite => exact ⟨_, rfl, h.request_same _ _ _ conWrite_samePool⟩
  | conBreak => exact ⟨_, rfl, h.request_same _ _ _ conBreak_samePool⟩
  | conStatus =>
    exact ⟨_, rfl, h.request_same _ _ _ fun _ t => onPort_samePool fun _ => State.samePool.rfl' t⟩
  | markSet => exact ⟨_, rfl, h.request_same _ _ _ markSet_samePool⟩
  | markClear => exact ⟨_, rfl, h.request_same _ _ _ markClear_samePool⟩
  | markGet =>
    exact ⟨_, rfl, h.request_same _ _ _ fun _ t => onMarker_samePool fun _ => State.samePool.rfl' t⟩
  | xlatLoad => exact ⟨_, rfl, h.request_same _ _ _ xlatLoad_samePool⟩
  | xlatRead => exact ⟨_, rfl, h.request _ _ _ fun a t ht => (xlatRead_state a t).symm ▸ ht⟩
  | epochGet => exact ⟨_, rfl, h.request _ _ _ fun a t ht => (epochGet_state a t).symm ▸ ht⟩
  | medConfig => exact ⟨_, rfl, h.request_same _ _ _ medConfig_samePool⟩
  | medAttach => exact ⟨_, rfl, h.request_same _ _ _ medAttach_samePool⟩
  | medExtentAdd => exact ⟨_, rfl, h.request_same _ _ _ medExtentAdd_samePool⟩
  | medExtentDel => exact ⟨_, rfl, (h.request _ _ _ fun a _ ht => ht.medExtentDel a).settle s⟩
  | medPresent => exact ⟨_, rfl, h.request_same _ _ _ medPresent_samePool⟩
  | medEject => exact ⟨_, rfl, h.request _ _ _ fun a _ ht => ht.medEject a⟩
  | medFill => exact ⟨_, rfl, (h.request _ _ _ fun a _ ht => ht.medFill a).settle s⟩
  | medFillFail => exact ⟨_, rfl, (h.request _ _ _ fun a _ ht => ht.medFillFail a).settle s⟩
  | medPut => exact ⟨_, rfl, (h.request _ _ _ fun a _ ht => ht.medPut a).settle s⟩
  | medPin => exact ⟨_, rfl, h.request _ _ _ fun a _ ht => ht.medPin a⟩
  | medUnpin => exact ⟨_, rfl, (h.request _ _ _ fun a _ ht => ht.medUnpin a).settle s⟩
  | medDrain => exact ⟨_, rfl, (h.request _ _ _ fun a _ ht => ht.medDrain a).settle s⟩
  | medClean => exact ⟨_, rfl, (h.request _ _ _ fun a _ ht => ht.medClean a).settle s⟩
  | medStatus => exact ⟨_, rfl, h.request_same _ _ _ fun _ t => State.samePool.rfl' t⟩
  | pwrConfig => exact ⟨_, rfl, h.request_same _ _ _ pwrConfig_samePool⟩
  | pwrAction => exact ⟨_, rfl, h.request_same _ _ _ pwrAction_samePool⟩
  | pwrAbort => exact ⟨_, rfl, h.request_same _ _ _ pwrAbort_samePool⟩
  | pwrStatus => exact ⟨_, rfl, h.request_same _ _ _ fun _ t => State.samePool.rfl' t⟩
  | bootPolicy => exact ⟨_, rfl, h.request_same _ _ _ bootPolicy_samePool⟩
  | bootRelease => exact ⟨_, rfl, h.request_same _ _ _ fun _ => State.releaseSup_samePool⟩
  | characterReceived i x => exact h.characterReceived i x
  | breakReceived i => exact h.breakReceived i
  | receiveLineEdge i n =>
    refine ⟨_, rfl, ?_⟩
    split
    · exact h.congr (s.edge_samePool i n)
    · exact h
  | transmissionEnd i => exact h.transmissionEnd i
  | memoryUpset r flips =>
    refine ⟨_, rfl, ?_⟩
    split
    · exact h
    · exact h.congr (s.upset_samePool r flips)
  | inquire => exact ⟨_, rfl, h.serve (h.congr (State.complete_samePool ..))⟩
  | ready => exact ⟨_, rfl, h.serve_dispatch _ _ (h.congr (State.complete_samePool ..))⟩
  | capacity => exact ⟨_, rfl, h.serve_dispatch _ _ (h.congr (State.complete_samePool ..))⟩
  | mode => exact ⟨_, rfl, h.serve_dispatch _ _ (h.congr (State.complete_samePool ..))⟩
  | eject => exact ⟨_, rfl, h.serve_dispatch _ _ (h.softEject.congr (State.complete_samePool ..))⟩
  | sense =>
    exact ⟨_, rfl, h.serve (h.congr (State.samePool_of rfl rfl rfl rfl rfl rfl rfl rfl))⟩
  | badCommand => exact ⟨_, rfl, h.serve (h.congr (State.complete_samePool ..))⟩
  | read lba n => exact ⟨_, rfl, h.serve_dispatch _ _ (h.rangeChecked _ _ _ (h.beginRead _ _))⟩
  | blockDelivery => exact h.blockDelivery
  | fetchExpiry i => exact ⟨_, rfl, (h.atDeadline _ fun _ ht => ht.expireFetch i).settle s⟩
  | write lba n =>
    exact ⟨_, rfl, h.serve_dispatch _ _ (h.rangeChecked _ _ _ (h.congr (s.beginWrite_samePool _ _)))⟩
  | writeBlock data => exact h.writeBlock data
  | stallDeadline => exact ⟨_, rfl, h.atDeadline_same _ (State.endCurrent_samePool _)⟩
  | drainExpiry tag => exact h.drainExpiry tag
  | sync => exact ⟨_, rfl, h.serve_dispatch _ _ (h.congr s.beginSync_samePool)⟩
  | syncDeadline => exact ⟨_, rfl, h.atDeadline_same _ (State.endCurrent_samePool _)⟩
  | usbReset =>
    refine ⟨_, rfl, ?_⟩
    split
    · exact h.connect_disconnect
    · exact h
  | pinChange pin v => exact ⟨_, rfl, h.congr (s.modPin_samePool pin _)⟩
  | pgRise => exact ⟨_, rfl, h.atDeadline_same _ State.rise_samePool⟩
  | pgFall => exact ⟨_, rfl, h.atDeadline_same _ State.fall_samePool⟩
  | rstsEdgeActive => exact ⟨_, rfl, h.atDeadline_same _ State.resetSeen_samePool⟩
  | rstsEdgeInactive => exact ⟨_, rfl, h.atDeadline_same _ State.resetGone_samePool⟩
  | maskTailEnd => exact ⟨_, rfl, h.atDeadline_same _ State.unmask_samePool⟩
  | phaseDeadline => exact ⟨_, rfl, h.atDeadline_same _ State.phaseExpired_samePool⟩
  | bootTimerExpiry =>
    refine ⟨_, rfl, ?_⟩
    split
    · exact ((h.atDeadline_same _ State.bootExpired_samePool).congr (State.closeFall_samePool s _)).settle s
    · exact h
  | holdOffExpiry =>
    exact ⟨_, rfl, ((h.atDeadline_same _ State.holdExpired_samePool).congr (State.closeFall_samePool s _)).settle s⟩

theorem State.PoolInv.tick {s : State} (h : s.PoolInv) : s.tick.PoolInv := by
  rcases s.tick_cases with ⟨-, e⟩ | ⟨c, cs, -, -, e⟩ | ⟨-, -, e⟩ <;> rw [e]
  · exact h
  · exact h.congr (s.endBreaks_samePool.trans (State.pending_samePool _ _))
  · exact h.congr (s.endBreaks_samePool.trans (State.time_samePool _ _))

theorem State.PoolInv.step {s : State} (h : s.PoolInv) : ∃ t : State, step s = .next t ∧ t.PoolInv := by
  rcases hq : s.pending with _ | ⟨c, rest⟩
  · exact ⟨_, step_empty hq, h.tick⟩
  · rw [step_front hq]
    exact (h.congr (s.pending_samePool rest)).exec c

/-! ## The supply of a page to a history (R62, R63) -/

/-- The lowest FREE page: every page below it has an owner. -/
theorem State.lowestFree_lowest {s : State} {p : Fin 128} (h : s.lowestFree = some p) (q : Fin 128) (hq : q < p) :
    s.owners[q] ≠ .free := by
  obtain ⟨-, as, bs, hsplit, has⟩ := List.find?_eq_some_iff_append.1 h
  have hsorted : (as ++ p :: bs).Pairwise (· < ·) := hsplit ▸ List.pairwise_lt_finRange 128
  have hmem : q ∈ as ++ p :: bs := hsplit ▸ List.mem_finRange q
  rcases List.mem_append.1 hmem with hq' | hq'
  · simpa using has q hq'
  · obtain ⟨-, hsorted, -⟩ := List.pairwise_append.1 hsorted
    rcases List.mem_cons.1 hq' with rfl | hq'
    · exact absurd hq (lt_irrefl _)
    · exact absurd hq (lt_asymm ((List.pairwise_cons.1 hsorted).1 q hq'))

/-- With no page FREE the free count is 0. -/
theorem State.freePages_eq_zero {s : State} (h : s.lowestFree = none) : s.freePages = 0 := by
  have hfree : ∀ p : Fin 128, s.owners[p] ≠ .free := State.lowestFree_none.1 h
  rw [State.freePages, List.count_eq_zero, Vector.mem_toList_iff, Vector.mem_iff_getElem]
  rintro ⟨p, hp, e⟩
  exact hfree ⟨p, hp⟩ e

/-- The victim is the first non-held line in LRU order (R95). -/
theorem State.victim_split {s : State} {l : CacheLine} (h : s.victim = some l) :
    ∃ older newer, s.cache = older ++ l :: newer ∧ (∀ x ∈ older, x.held = true) ∧ l.held = false := by
  obtain ⟨hl, older, newer, e, ho⟩ := List.find?_eq_some_iff_append.1 h
  exact ⟨older, newer, e, by simpa using ho, by simpa using hl⟩

/-- The premises of R62 leave a FREE page or a non-held line for a history within the committed amounts. -/
theorem State.poolOk.supplies {s : State} (h : s.poolOk) (hlt : s.historyPages < s.committedSum) (i : PortId) :
    s.supplyHistory i ≠ none := by
  rw [Ne, State.supplyHistory_none]
  rintro ⟨hf, hv⟩
  have hall : s.heldCount = s.cache.length :=
    List.countP_eq_length.2 (by simpa [State.victim] using hv)
  have hzero := State.freePages_eq_zero hf
  obtain ⟨hsum, hcommitted, hheld⟩ := h
  have hfloor : s.floor = 128 - s.committedSum := rfl
  have hcount : pageCount = 128 := rfl
  omega

/-- What the supply of a page gives: the lowest FREE page, or the page of the least-recently-used non-held line. -/
theorem State.supplyHistory_spec {s t : State} {i : PortId} {p : Fin 128} (h : s.supplyHistory i = some (p, t)) :
    t.owners[p] = .history i ∧
      (s.owners[p] = .free ∧ (∀ q : Fin 128, q < p → s.owners[q] ≠ .free) ∧ t.cache = s.cache ∧
          t.reclaims = s.reclaims ∨
        (∀ q : Fin 128, s.owners[q] ≠ .free) ∧
          ∃ older l newer, s.cache = older ++ l :: newer ∧ (∀ x ∈ older, x.held = true) ∧ l.held = false ∧
            l.page = p ∧ t.cache = s.cache.filter (fun x => x.tag != l.tag) ∧
            t.reclaims = if s.reclaims < 65535 then s.reclaims + 1 else s.reclaims) ∧
      ∀ q : Fin 128, q ≠ p → t.owners[q] = s.owners[q] := by
  rcases State.supplyHistory_cases h with ⟨hf, rfl⟩ | ⟨l, hf, hv, rfl, rfl⟩
  · refine ⟨by rw [setOwner_get, if_pos rfl], .inl ⟨State.lowestFree_some hf, State.lowestFree_lowest hf, rfl, rfl⟩,
      fun q hq => by rw [setOwner_get, if_neg hq]⟩
  · obtain ⟨older, newer, e, ho, hl⟩ := State.victim_split hv
    refine ⟨?_, .inr ⟨State.lowestFree_none.1 hf, older, l, newer, e, ho, hl, rfl, rfl, rfl⟩, fun q hq => ?_⟩
    · exact (setOwner_get l.page l.page (.history i) (s.dropLine l.tag)).trans (if_pos rfl)
    · exact (setOwner_get l.page q (.history i) (s.dropLine l.tag)).trans (if_neg hq)

/-- Settles O57: each command's handler keeps the pool's invariant, under which no supply fails; and by the count of
pages a history below its commitment finds a FREE page or a non-held line. -/
theorem historyAlwaysFindsAPage : Obligations.HistoryAlwaysFindsAPage := by
  refine ⟨fun s h => ⟨h.poolOk, h.step⟩, fun s i hok hlt => ?_⟩
  obtain ⟨⟨p, t⟩, ht⟩ := Option.ne_none_iff_exists'.1 (hok.supplies hlt i)
  obtain ⟨howner, hsource, hothers⟩ := State.supplyHistory_spec ht
  have hframe := State.supplyHistory_frame ht
  exact ⟨p, t, ht, howner, hsource, hothers, by rw [hframe], by rw [hframe], by rw [hframe]⟩

end Sys2Proof.Machine
end

/-! # The bounds of the part and the form of buffer memory: what each operation keeps (R16, R46, R53, R66, R130, R158, R180) -/

section
namespace Sys2Proof.Machine

/-- Of two states, the second keeps what the invariants bound, and takes no more of the reply queue. -/
structure State.keeps (s t : State) : Prop where
  mem    : s.memOk → t.memOk
  ports  : s.portsOk → t.portsOk
  epochs : s.epochsOk → t.epochsOk
  drains : s.drainsOk → t.drainsOk
  used   : t.slotsUsed ≤ s.slotsUsed

theorem State.keeps.rfl' (s : State) : s.keeps s := ⟨id, id, id, id, le_rfl⟩

theorem State.keeps.trans {s t u : State} (h : s.keeps t) (k : t.keeps u) : s.keeps u :=
  ⟨k.mem ∘ h.mem, k.ports ∘ h.ports, k.epochs ∘ h.epochs, k.drains ∘ h.drains, k.used.trans h.used⟩

theorem State.keeps.ite {s t u : State} {c : Prop} [Decidable c] (h : s.keeps t) (k : s.keeps u) :
    s.keeps (if c then t else u) := by
  split
  · exact h
  · exact k

theorem State.slotsUsed_congr {s t : State} (hr : t.link.replies = s.link.replies) (hs : t.save = s.save) :
    t.slotsUsed = s.slotsUsed := by
  unfold State.slotsUsed; rw [hr, hs]

theorem State.keeps_of {s t : State} (hm : t.mem = s.mem) (hp : t.ports = s.ports)
    (he : t.sup.epochs = s.sup.epochs) (hd : t.usb.drains = s.usb.drains)
    (hr : t.link.replies = s.link.replies) (hs : t.save = s.save) : s.keeps t where
  mem h := by unfold State.memOk; rw [hm]; exact h
  ports h := by unfold State.portsOk; rw [hp]; exact h
  epochs h := by unfold State.epochsOk; rw [he]; exact h
  drains h := by unfold State.drainsOk; rw [hd]; exact h
  used := (State.slotsUsed_congr hr hs).le

/-! ## The fields, one at a time -/

theorem State.keeps_mem (m : Memory) (r : Rows) (s : State) (hm : s.memOk → Memory.wf m = true) :
    s.keeps { s with mem := m, rows := r } := ⟨hm, id, id, id, le_rfl⟩

theorem State.keeps_ports (p : Vector Port 4) (s : State) (hp : s.portsOk → ∀ i : PortId, p[i].queuesOk) :
    s.keeps { s with ports := p } := ⟨id, hp, id, id, le_rfl⟩

theorem State.keeps_epochs (es : List EpochRec) (s : State)
    (he : s.epochsOk → es.length ≤ 8 ∧ ∀ e ∈ es, e.hits.length ≤ 31) :
    s.keeps { s with sup := { s.sup with epochs := es } } := ⟨id, id, he, id, le_rfl⟩

theorem State.keeps_drains (u : ServerPort) (s : State) (hd : s.drainsOk → u.drains.length ≤ 8) :
    s.keeps { s with usb := u } := ⟨id, id, id, hd, le_rfl⟩

theorem State.keeps_cache (o : Vector Owner 128) (c : List CacheLine) (s : State) :
    s.keeps { s with owners := o, cache := c } := State.keeps_of rfl rfl rfl rfl rfl rfl

theorem State.keeps_fields (f : Vector FetchSlot 8) (p : PowerSeq) (m : Vector Marker 16) (r : MarkReg) (a : Attachment)
    (s : State) : s.keeps { s with fetch := f, power := p, markers := m, markReg := r, media := a } :=
  State.keeps_of rfl rfl rfl rfl rfl rfl

theorem State.keeps_usb (u : ServerPort) (s : State) (hd : u.drains = s.usb.drains) :
    s.keeps { s with usb := u } := State.keeps_of rfl rfl rfl hd rfl rfl

theorem State.keeps_sup (v : Supervisor) (s : State) (he : v.epochs = s.sup.epochs) :
    s.keeps { s with sup := v } := State.keeps_of rfl rfl he rfl rfl rfl

theorem State.keeps_power (p : PowerSeq) (s : State) : s.keeps { s with power := p } :=
  State.keeps_of rfl rfl rfl rfl rfl rfl

theorem State.keeps_link (l : Link) (s : State) (hr : l.replies.length ≤ s.link.replies.length) :
    s.keeps { s with link := l } := ⟨id, id, id, id, Nat.add_le_add_right hr _⟩

theorem State.modPort_keeps (i : PortId) (f : Port → Port) (s : State)
    (hf : s.ports[i].queuesOk → (f s.ports[i]).queuesOk) : s.keeps (s.modPort i f) := by
  refine s.keeps_ports _ fun h j => ?_
  by_cases e : j = i
  · subst e; rw [vupd_self]; exact hf (h j)
  · rw [vupd_ne _ _ e]; exact h j

theorem State.mapPorts_keeps (f : Port → Port) (s : State) (hf : ∀ p : Port, p.queuesOk → (f p).queuesOk) :
    s.keeps { s with ports := vmap s.ports f } := by
  refine s.keeps_ports _ fun h j => ?_
  simpa using hf _ (h j)

theorem State.modPower_keeps (f : PowerSeq → PowerSeq) (s : State) : s.keeps (s.modPower f) :=
  State.keeps_of rfl rfl rfl rfl rfl rfl

theorem State.setFlag_keeps (r : Report) (s : State) : s.keeps (s.setFlag r) := by
  rw [State.setFlag_eq]; exact State.keeps_of rfl rfl rfl rfl rfl rfl

theorem State.clearFlag_keeps (r : Report) (s : State) : s.keeps (s.clearFlag r) :=
  State.keeps_of rfl rfl rfl rfl rfl rfl

theorem State.recordFault_keeps (k : FaultKind) (s : State) : s.keeps (s.recordFault k) := by
  refine .trans ?_ (State.setFlag_keeps .fault _)
  exact State.keeps_of rfl rfl rfl rfl rfl rfl

theorem State.time_keeps (d : PartTime) (s : State) : s.keeps { s with time := d } :=
  State.keeps_of rfl rfl rfl rfl rfl rfl

theorem State.shiftStatus_keeps (s : State) : s.keeps s.shiftStatus := State.keeps_of rfl rfl rfl rfl rfl rfl

/-! ## Pages, lines and rows -/

theorem State.setOwner_keeps (p : Fin 128) (o : Owner) (s : State) : s.keeps (s.setOwner p o) := s.keeps_cache _ s.cache

theorem State.setBlock_keeps (lba : Nat) (b : BlockState) (s : State) : s.keeps (s.setBlock lba b) :=
  s.keeps_cache s.owners _

theorem State.touch_keeps (tag : Nat) (s : State) : s.keeps (s.touch tag) := by
  rw [State.touch_frame]; exact s.keeps_cache s.owners _

theorem State.releaseIfEmpty_keeps (tag : Nat) (s : State) : s.keeps (s.releaseIfEmpty tag) := by
  rw [State.releaseIfEmpty_frame]; exact s.keeps_cache _ _

theorem State.allocate_keeps {tag : Nat} {s t : State} (h : s.allocate tag = some t) : s.keeps t := by
  rw [State.allocate_frame h]; exact s.keeps_cache _ _

theorem State.supplyHistory_keeps {i : PortId} {s t : State} {p : Fin 128} (h : s.supplyHistory i = some (p, t)) :
    s.keeps t := by
  rw [State.supplyHistory_frame h]; exact State.keeps_of rfl rfl rfl rfl rfl rfl

theorem State.writeSlot_keeps (lba : Nat) (data : List Byte) (s : State) : s.keeps (s.writeSlot lba data) := by
  have hwf : s.memOk → Memory.wf (s.writeSlot lba data).mem = true := State.writeSlot_wf
  rw [State.writeSlot_frame]; exact s.keeps_mem _ _ hwf

theorem State.readRows_keeps (lba : Nat) (s : State) : s.keeps (s.readRows lba).2 := by
  rw [State.readRows_frame]; exact s.keeps_mem s.mem _ id

/-! ## The media chapters -/

theorem State.endCurrent_keeps (st : CmdStatus) (s : State) : s.keeps (s.endCurrent st) := by
  obtain ⟨c, a, e, h⟩ := s.endCurrent_frame st
  rw [h]; exact s.keeps_usb _ rfl

theorem State.complete_keeps (k : CmdKind) (st : CmdStatus) (lba n : Nat) (d : AnswerData) (s : State) :
    s.keeps (s.complete k st lba n d) := s.keeps_usb _ rfl

theorem State.setCurrent_keeps (c : Current) (s : State) : s.keeps (s.setCurrent c) := s.keeps_usb _ rfl

theorem State.updateConnection_keeps (s : State) : s.keeps s.updateConnection := by
  unfold State.updateConnection; repeat' split
  · exact State.keeps.rfl' s
  · exact s.keeps_usb _ rfl
  · exact s.keeps_usb _ rfl

theorem State.retire_keeps (i : Fin 8) (s : State) : s.keeps (s.retire i) := State.keeps_of rfl rfl rfl rfl rfl rfl

theorem State.settleRunBlock_keeps (i : Fin 8) (r : FetchRec) (k : Nat) (b : RunBlock) (s : State) :
    s.keeps (s.settleRunBlock i r k b) := by
  unfold State.settleRunBlock; dsimp only; split
  · exact s.retire_keeps i
  · exact State.keeps_of rfl rfl rfl rfl rfl rfl

theorem State.releaseAwait_keeps (lba : Nat) (s : State) : s.keeps (s.releaseAwait lba) := by
  unfold State.releaseAwait; repeat' split
  · exact s.settleRunBlock_keeps _ _ _ _
  · exact State.keeps.rfl' s
  · exact State.keeps.rfl' s

theorem State.invalidate_keeps (lbas : List Nat) (s : State) : s.keeps (s.invalidate lbas) := by
  obtain ⟨c, h⟩ := State.invalidate_frame lbas s
  rw [h]; exact s.keeps_cache s.owners c

theorem retireAll_keeps (is : List (Fin 8)) : ∀ s : State,
    s.keeps (is.foldl (fun (s : State) i => if s.fetch[i].live.isSome then s.retire i else s) s) := by
  induction is with
  | nil => exact State.keeps.rfl'
  | cons i is ih =>
    intro s
    rw [List.foldl_cons]
    refine State.keeps.trans ?_ (ih _)
    split
    · exact s.retire_keeps i
    · exact State.keeps.rfl' s

theorem State.cancelFetches_keeps (s : State) : s.keeps s.cancelFetches := by
  refine State.keeps.trans ?_ (retireAll_keeps _ _)
  split
  · exact s.endCurrent_keeps _
  · exact State.keeps.rfl' s

theorem State.endAttachment_keeps (s : State) : s.keeps s.endAttachment := by
  unfold State.endAttachment; dsimp only
  refine s.cancelFetches_keeps.trans (State.keeps.trans ?_ (State.setFlag_keeps .media _))
  generalize s.cancelFetches = u
  exact ⟨id, id, id, fun _ => Nat.zero_le 8, le_rfl⟩

theorem State.completeEject_keeps (s : State) : s.keeps s.completeEject := by
  unfold State.completeEject; split
  · exact s.endAttachment_keeps
  · exact State.keeps.rfl' s

theorem State.media_keeps (m : Attachment) (s : State) : s.keeps { s with media := m } :=
  State.keeps_of rfl rfl rfl rfl rfl rfl

theorem State.softEject_keeps (s : State) : s.keeps s.softEject :=
  (((s.media_keeps _).trans (State.endCurrent_keeps .noMedium _)).trans (State.setFlag_keeps .media _)).trans
    (State.completeEject_keeps _)

theorem State.forceEject_keeps (s : State) : s.keeps s.forceEject := by
  refine (s.endCurrent_keeps .noMedium).trans (State.keeps.trans ?_ (State.endAttachment_keeps _))
  split
  · exact State.keeps.rfl' _
  · exact State.recordFault_keeps _ _

theorem State.appendDirty_keeps (lba : Nat) (s : State) : s.keeps (s.appendDirty lba) := by
  have happend : s.keeps { s with usb := { s.usb with dirty := s.usb.dirty ++ [lba] } } := s.keeps_usb _ rfl
  unfold State.appendDirty; dsimp only; split
  · exact happend.trans (State.setFlag_keeps .media _)
  · exact happend

theorem State.dropDrain_keeps (lba : Nat) (s : State) : s.keeps (s.dropDrain lba) :=
  s.keeps_drains _ fun h => (List.length_filter_le _ _).trans h

theorem State.removeDirty_keeps (lba : Nat) (s : State) : s.keeps (s.removeDirty lba) := s.keeps_usb _ rfl

theorem State.loseBlock_keeps (lba : Nat) (s : State) : s.keeps (s.loseBlock lba) := by
  refine ((((s.setBlock_keeps lba .lost).trans (State.removeDirty_keeps lba _)).trans
    (State.dropDrain_keeps lba _)).trans (State.recordFault_keeps (.dirtyLost lba) _)).trans
      (State.keeps.trans ?_ (State.completeEject_keeps _))
  split
  · exact State.endCurrent_keeps _ _
  · exact State.keeps.rfl' _

theorem State.afterClean_keeps (s : State) : s.keeps s.afterClean := by
  refine State.keeps.trans ?_ (State.completeEject_keeps _)
  split
  · exact s.endCurrent_keeps _
  · exact State.keeps.rfl' _

theorem pendAll_keeps (b : Nat) (ks : List Nat) (s : State) :
    s.keeps (ks.foldl (fun (s : State) k => s.setBlock (b + k) .pending) s) := by
  obtain ⟨c, h⟩ := pendAll_frame b ks s
  rw [h]; exact s.keeps_cache s.owners c

theorem State.lineOr_keeps {tag : Nat} {s t : State}
    (h : (if (s.line tag).isSome then some s else s.allocate tag) = some t) : s.keeps t := by
  split at h
  · obtain rfl := Option.some.inj h; exact State.keeps.rfl' _
  · exact State.allocate_keeps h

theorem State.issueRun_keeps {e : Extent} {b n : Nat} {s t : State} (h : s.issueRun e b n = some t) : s.keeps t := by
  unfold State.issueRun at h
  repeat' split at h
  · cases h
  · cases h
  · next u hu =>
    obtain rfl := Option.some.inj h
    refine ((State.lineOr_keeps hu).trans (pendAll_keeps b (List.range n) u)).trans ?_
    exact State.keeps_of rfl rfl rfl rfl rfl rfl
  · cases h

theorem scanFrom_keeps (c : ReadCmd) (fuel : Nat) : ∀ (b : Nat) (s : State), s.keeps (scanFrom c fuel b s).1 := by
  induction fuel with
  | zero => intro b s; exact State.keeps.rfl' s
  | succ fuel ih =>
    intro b s
    unfold scanFrom; repeat' split
    · exact State.keeps.rfl' s
    · exact ih _ s
    · exact State.keeps.rfl' s
    · next hrun => exact (State.issueRun_keeps hrun).trans (ih _ _)
    · exact ih _ s

theorem State.scanPass_keeps (s : State) : s.keeps s.scanPass := by
  unfold State.scanPass; split
  · exact (scanFrom_keeps _ _ _ s).trans (State.setCurrent_keeps _ _)
  · exact State.keeps.rfl' s

theorem State.takeBlock_keeps {lba : Nat} {data : List Byte} {s t : State} (h : s.takeBlock lba data = some t) :
    s.keeps t := by
  unfold State.takeBlock at h
  obtain ⟨u, hu, rfl⟩ := Option.map_eq_some_iff.1 h
  have hline : s.keeps u := by
    unfold State.lineForWrite at hu
    split at hu
    · exact State.lineOr_keeps hu
    · cases hu
  have hwritten := ((hline.trans (u.writeSlot_keeps lba data)).trans
    (State.setBlock_keeps lba (writtenState (u.block lba)) _)).trans (State.touch_keeps (tagOf lba) _)
  have hreleased := State.keeps.ite (c := u.block lba = .pending)
    (hwritten.trans (State.releaseAwait_keeps lba _)) hwritten
  exact hreleased.ite (hreleased.trans (State.appendDirty_keeps lba _))

theorem State.offerBlock_keeps (w : WriteCmd) (data : List Byte) (s : State) : s.keeps (s.offerBlock w data) := by
  unfold State.offerBlock; split
  · next t ht =>
    split
    · exact (State.takeBlock_keeps ht).trans (State.complete_keeps ..)
    · exact (State.takeBlock_keeps ht).trans (State.setCurrent_keeps _ _)
  · split
    · exact State.keeps.rfl' s
    · exact s.setCurrent_keeps _

theorem State.retry_keeps (s : State) : s.keeps s.retry := by
  unfold State.retry; repeat' split
  · exact s.scanPass_keeps
  · exact State.keeps.rfl' s
  · exact s.offerBlock_keeps _ _
  · exact State.keeps.rfl' s
  · exact State.keeps.rfl' s

theorem State.settle_keeps (before s : State) : s.keeps (State.settle before s) := by
  rcases State.settle_cases before s with ⟨-, h⟩ | ⟨-, h⟩ <;> rw [h]
  · exact s.retry_keeps
  · exact State.keeps.rfl' s

theorem State.sendBlock_keeps (c : ReadCmd) (data : List Byte) (s : State) : s.keeps (s.sendBlock c data) := by
  unfold State.sendBlock; dsimp only; split
  · exact s.keeps_usb _ rfl
  · exact s.keeps_usb _ rfl

theorem State.deliverListed_keeps (c : ReadCmd) (s : State) : s.keeps (s.deliverListed c) := by
  unfold State.deliverListed; dsimp only; split
  · exact ((s.readRows_keeps _).trans (State.loseBlock_keeps _ _)).trans (State.endCurrent_keeps _ _)
  · exact ((s.readRows_keeps _).trans (State.touch_keeps _ _)).trans (State.sendBlock_keeps _ _ _)

theorem State.deliverValid_keeps (c : ReadCmd) (s : State) : s.keeps (s.deliverValid c) := by
  unfold State.deliverValid; dsimp only; split
  · exact (((s.readRows_keeps _).trans (State.setBlock_keeps _ _ _)).trans
      (State.releaseIfEmpty_keeps _ _)).trans (State.scanPass_keeps _)
  · exact ((s.readRows_keeps _).trans (State.touch_keeps _ _)).trans (State.sendBlock_keeps _ _ _)

theorem State.deliver_keeps (c : ReadCmd) (s : State) : s.keeps (s.deliver c) := by
  unfold State.deliver; repeat' split
  · exact s.sendBlock_keeps _ _
  · exact s.endCurrent_keeps _
  · exact s.deliverValid_keeps c
  · exact s.deliverListed_keeps c
  · exact s.deliverListed_keeps c
  · exact s.deliverListed_keeps c
  · exact s.endCurrent_keeps _
  · exact State.keeps.rfl' s
  · exact s.scanPass_keeps

theorem State.lowerFailure_keeps (l : List Nat) (s : State) : s.keeps (s.lowerFailure l) := by
  unfold State.lowerFailure; split
  · exact s.setCurrent_keeps _
  · exact State.keeps.rfl' s

theorem State.failFetch_keeps (i : Fin 8) (r : FetchRec) (s : State) : s.keeps (s.failFetch i r) :=
  (((s.invalidate_keeps _).trans (State.lowerFailure_keeps _ _)).trans (State.retire_keeps i _)).trans
    (State.releaseIfEmpty_keeps _ _)

theorem State.expireFetch_keeps (i : Fin 8) (s : State) : s.keeps (s.expireFetch i) := by
  unfold State.expireFetch; split
  · exact State.keeps.rfl' s
  next r _ =>
    have hstop : s.keeps ((s.invalidate r.awaitedLbas).retire i) :=
      (s.invalidate_keeps _).trans (State.retire_keeps i _)
    dsimp only
    refine .trans (.trans ?_ (State.recordFault_keeps _ _)) (State.releaseIfEmpty_keeps _ _)
    split
    · exact hstop.trans (State.endCurrent_keeps _ _)
    · exact hstop

/-! ## Transmission and the ports -/

theorem Port.moveText_queuesOk {p : Port} (h : p.queuesOk) : p.moveText.queuesOk := by
  refine ⟨Port.moveText_queue h.1, ?_⟩
  rcases p.moveText_cases with e | ⟨x, -, -, e⟩ <;> rw [e] <;> exact h.2

theorem Port.begin_queuesOk {p : Port} (now : PartTime) (h : p.queuesOk) : (p.begin_ now).queuesOk := by
  rcases p.begin_cases now with e | ⟨x, rest, -, hq, e⟩ <;> rw [e]
  · exact h
  · refine Port.moveText_queuesOk ⟨?_, h.2⟩
    have hlen := h.1
    rw [hq, List.length_cons] at hlen
    exact Nat.le_of_succ_le hlen

theorem Port.cutBreak_queuesOk {p : Port} (h : p.queuesOk) : p.cutBreak.queuesOk := by
  unfold Port.cutBreak; split <;> exact h

theorem Port.gateBegin_queuesOk {p : Port} (h : p.queuesOk) : p.gateBegin.queuesOk := by
  unfold Port.gateBegin; split
  · exact Port.cutBreak_queuesOk h
  · exact h

theorem Port.endBreak_queuesOk {p : Port} (now : PartTime) (h : p.queuesOk) : (p.endBreak now).queuesOk := by
  unfold Port.endBreak; split <;> exact h

theorem Port.interval_queuesOk {p : Port} (n : Nat) (h : p.queuesOk) : (p.interval n).queuesOk := by
  unfold Port.interval; dsimp only; split
  · exact h
  · split <;> exact h

theorem State.kick_keeps (i : PortId) (s : State) : s.keeps (s.kick i) := by
  rcases s.kick_cases i with e | e <;> rw [e]
  · exact State.keeps.rfl' s
  · exact s.modPort_keeps i _ (Port.begin_queuesOk _)

theorem kicks_keeps (is : List PortId) : ∀ s : State, s.keeps (is.foldl (fun (s : State) i => s.kick i) s) := by
  induction is with
  | nil => exact State.keeps.rfl'
  | cons i is ih => intro s; exact (s.kick_keeps i).trans (ih _)

theorem State.kickAll_keeps (s : State) : s.keeps s.kickAll := kicks_keeps _ s

theorem State.sent_keeps (i : PortId) (s : State) : s.keeps (s.sent i) :=
  (s.modPort_keeps i _ id).trans (State.kick_keeps i _)

theorem State.endBreaks_keeps (s : State) : s.keeps s.endBreaks :=
  s.mapPorts_keeps _ fun _ => Port.endBreak_queuesOk _

theorem State.gateAll_keeps (s : State) : s.keeps s.gateAll := s.mapPorts_keeps _ fun _ => Port.gateBegin_queuesOk

theorem State.disablePort_keeps (i : PortId) (s : State) : s.keeps (s.disablePort i) :=
  ((s.modPort_keeps i Port.disable fun h => ⟨Nat.zero_le _, h.2⟩).trans (State.clearFlag_keeps _ _)).trans
    (State.clearFlag_keeps _ _)

theorem State.enablePort_keeps {i : PortId} {s t : State} {st : Status} (h : s.enablePort i = some (st, t)) :
    s.keeps t := by
  unfold State.enablePort at h
  dsimp only at h
  repeat' split at h
  · next pg u hu =>
    obtain ⟨-, rfl⟩ := Prod.mk.inj (Option.some.inj h)
    have hc : s.keeps { s with committed := vupd s.committed i fun _ => s.ports[i].cfg.quota } :=
      State.keeps_of rfl rfl rfl rfl rfl rfl
    exact ((hc.trans (State.supplyHistory_keeps hu)).trans (State.modPort_keeps i _ _ fun h => ⟨h.1, Nat.zero_le _⟩)).trans
      (State.kick_keeps i _)
  · cases h
  · obtain ⟨-, rfl⟩ := Prod.mk.inj (Option.some.inj h); exact State.keeps.rfl' _
  · obtain ⟨-, rfl⟩ := Prod.mk.inj (Option.some.inj h)
    exact (s.modPort_keeps i _ fun h => ⟨h.1, Nat.zero_le _⟩).trans (State.kick_keeps i _)

theorem State.countChar_keeps (i : PortId) (bad : Bool) (s : State) : s.keeps (s.countChar i bad) := by
  unfold State.countChar; dsimp only
  generalize (s.ports[i].cwErrors + if bad then 1 else 0) = errors
  repeat' split
  · exact s.modPort_keeps i _ id
  · refine .trans (.trans ?_ (State.modPort_keeps i Port.unlock _ Port.cutBreak_queuesOk)) (State.setFlag_keeps _ _)
    exact s.modPort_keeps i _ id
  · exact s.modPort_keeps i _ id
  · exact State.keeps.rfl' s

/-! ## Epochs and the sequencer -/

theorem mem_modNewest {f : EpochRec → EpochRec} {x : EpochRec} : ∀ {es : List EpochRec}, x ∈ modNewest f es →
    x ∈ es ∨ ∃ e ∈ es, x = f e
  | [], h => .inl h
  | [e], h => .inr ⟨e, by simp, by simpa [modNewest] using h⟩
  | a :: b :: es, h => by
    rcases List.mem_cons.1 h with rfl | h
    · exact .inl (by simp)
    · rcases mem_modNewest h with h | ⟨e, he, rfl⟩
      · exact .inl (List.mem_cons_of_mem _ h)
      · exact .inr ⟨e, List.mem_cons_of_mem _ he, rfl⟩

theorem State.modOpen_keeps (f : EpochRec → EpochRec) (s : State)
    (hf : ∀ e : EpochRec, e.hits.length ≤ 31 → (f e).hits.length ≤ 31) : s.keeps (s.modOpen f) := by
  unfold State.modOpen; split
  · refine s.keeps_epochs _ fun h => ⟨by rw [modNewest_length]; exact h.1, fun x hx => ?_⟩
    rcases mem_modNewest hx with hx | ⟨e, he, rfl⟩
    · exact h.2 x hx
    · exact hf e (h.2 e he)
  · exact State.keeps.rfl' s

theorem State.settlePending_keeps (b : BootStatus) (s : State) : s.keeps (s.settlePending b) :=
  s.modOpen_keeps _ fun e he => by split <;> exact he

theorem State.clearSpent_keeps (s : State) : s.keeps s.clearSpent := State.keeps_of rfl rfl rfl rfl rfl rfl

theorem State.closeRecord_keeps (c : EndCause) (s : State) : s.keeps (s.closeRecord c) := by
  unfold State.closeRecord; split
  · refine .trans ?_ (State.clearSpent_keeps _)
    exact s.modOpen_keeps _ fun _ => id
  · exact State.keeps.rfl' s

theorem State.disarm_keeps (s : State) : s.keeps s.disarm := s.keeps_sup _ rfl

theorem State.closeEpoch_keeps (c : EndCause) (s : State) : s.keeps (s.closeEpoch c) := by
  unfold State.closeEpoch; split
  · exact (s.closeRecord_keeps c).trans (State.disarm_keeps _)
  · exact State.keeps.rfl' s

theorem State.arm_keeps (c : EpochCause) (s : State) : s.keeps (s.arm c) := by
  unfold State.arm; split
  · exact s.keeps_sup _ rfl
  · exact s.disarm_keeps

theorem State.clearMatcher_keeps (s : State) : s.keeps s.clearMatcher := by
  refine .trans ?_ (State.clearSpent_keeps _)
  exact s.mapPorts_keeps _ fun _ h => ⟨h.1, Nat.zero_le _⟩

theorem keptEpochs {es : List EpochRec} {e : EpochRec} (he : e.hits = [])
    (h : es.length ≤ 8 ∧ ∀ x ∈ es, x.hits.length ≤ 31) :
    ((if es.length < 8 then es else es.tail) ++ [e]).length ≤ 8 ∧
      ∀ x ∈ (if es.length < 8 then es else es.tail) ++ [e], x.hits.length ≤ 31 := by
  obtain ⟨hlen, hhits⟩ := h
  refine ⟨?_, fun x hx => ?_⟩
  · split <;> simp <;> omega
  · rcases List.mem_append.1 hx with hx | hx
    · split at hx
      · exact hhits x hx
      · exact hhits x (List.mem_of_mem_tail hx)
    · obtain rfl := List.mem_singleton.1 hx
      simp [he]

theorem State.startEpoch_keeps (c : EpochCause) (s : State) : s.keeps (s.startEpoch c) := by
  refine (s.closeRecord_keeps .superseded).trans (.trans (.trans ?_ (State.clearMatcher_keeps _))
    (State.arm_keeps c _))
  generalize s.closeRecord .superseded = u
  exact ⟨id, id, keptEpochs rfl, id, le_rfl⟩

theorem State.setMask_keeps (s : State) : s.keeps s.setMask := by
  unfold State.setMask; dsimp only; split
  · exact (s.modPower_keeps _).trans (State.setFlag_keeps _ _)
  · exact s.modPower_keeps _

theorem State.enterPhase_keeps (p : Phase) (s : State) : s.keeps (s.enterPhase p) := by
  have hlast := s.modPower_keeps fun w => { w with last := w.last.map fun a => s.inPhase p a }
  exact .trans ((hlast.trans (State.setMask_keeps _)).ite hlast) (State.updateConnection_keeps _)

theorem State.accept_keeps (k : ActionKind) (esc : Bool) (r : Requester) (o : ReqOutcome) (s : State) :
    s.keeps (s.accept k esc r o) := by
  unfold State.accept; split
  · exact (s.modPower_keeps _).trans (State.enterPhase_keeps _ _)
  · exact (s.modPower_keeps _).trans (State.setFlag_keeps _ _)
  · exact State.keeps.rfl' s
  · exact State.keeps.rfl' s

theorem State.requestAction_keeps (k : ActionKind) (esc : Bool) (r : Requester) (s : State) :
    s.keeps (s.requestAction k esc r) := s.accept_keeps k esc r _

theorem State.releaseReset_keeps (s : State) : s.keeps s.releaseReset := by
  have htail := s.modPower_keeps fun p => { p with mask := .tail (s.after s.power.cfg.debounce) }
  exact (htail.trans (State.startEpoch_keeps _ _)).ite htail

theorem State.endAction_keeps (r : ActResult) (s : State) : s.keeps (s.endAction r) := by
  unfold State.endAction; split
  · exact State.keeps.rfl' s
  next a _ =>
  have hend := s.modPower_keeps fun p =>
    { p with last := some { a with phase := none, result := some r, ended := some s.time } }
  refine (hend.trans (State.setFlag_keeps .power _)).trans (State.keeps.trans ?_ (State.updateConnection_keeps _))
  repeat' split
  · exact (State.recordFault_keeps _ _).trans (State.releaseReset_keeps _)
  · exact State.releaseReset_keeps _
  · exact State.recordFault_keeps _ _
  · exact State.keeps.rfl' _

theorem State.releaseSup_keeps (s : State) : s.keeps s.releaseSup := s.keeps_sup _ rfl

theorem State.restore_keeps (r : RestoreState) (s : State) : s.keeps { s with restore := r } :=
  State.keeps_of rfl rfl rfl rfl rfl rfl

theorem State.linkAccepted_keeps (s : State) : s.keeps s.linkAccepted := by
  unfold State.linkAccepted; dsimp only; split
  · exact s.releaseSup_keeps.trans (State.restore_keeps _ _)
  · exact s.releaseSup_keeps

theorem State.takeRestore_keeps (s : State) : s.keeps s.takeRestore :=
  (s.requestAction_keeps ..).trans (State.restore_keeps _ _)

theorem State.endAtFall_keeps (s : State) : s.keeps s.endAtFall := by
  unfold State.endAtFall; repeat' split
  · exact s.recordFault_keeps _
  · exact s.endAction_keeps _
  · exact s.endAction_keeps _
  · exact s.enterPhase_keeps _
  · exact s.endAction_keeps _
  · exact (s.endAction_keeps _).trans (State.recordFault_keeps _ _)
  · exact (s.endAction_keeps _).trans (State.recordFault_keeps _ _)
  · exact State.keeps.rfl' s

theorem State.takeEdge_keeps (p : SensePin) (s : State) : s.keeps (s.takeEdge p) :=
  State.keeps_of rfl rfl rfl rfl rfl rfl

theorem State.fallAction_keeps (s : State) : s.keeps s.fallAction :=
  ((((s.takeEdge_keeps .pg).trans (State.modPower_keeps _ _)).trans (State.endAtFall_keeps _)).trans
    (State.setFlag_keeps _ _))

theorem State.asFallLeft_keeps (s : State) : s.keeps s.asFallLeft := by
  unfold State.asFallLeft; split
  · exact s.fallAction_keeps
  · exact State.keeps.rfl' s

theorem State.fallClose_keeps (c : EndCause) (s : State) : s.keeps (s.fallClose c) :=
  ((s.closeEpoch_keeps c).trans (State.gateAll_keeps _)).trans (State.updateConnection_keeps _)

theorem State.closeFall_keeps (before s : State) : s.keeps (State.closeFall before s) := by
  unfold State.closeFall; split
  · exact s.fallClose_keeps _
  · exact State.keeps.rfl' s

/-! ## Supervision -/

theorem State.modSup_keeps (f : Supervisor → Supervisor) (s : State) (hf : (f s.sup).epochs = s.sup.epochs) :
    s.keeps (s.modSup f) := s.keeps_sup _ hf

theorem State.setPolicy_keeps (p : BootPolicy) (s : State) : s.keeps (s.setPolicy p) :=
  ((s.settlePending_keeps _).trans (State.disarm_keeps _)).trans (State.keeps_sup _ _ rfl)

theorem State.escalated_keeps (t : Trigger) (a : SupAction) (o : EscOutcome) (n : Nat) (s : State) :
    s.keeps (s.escalated t a o n) := by
  refine .trans ?_ (State.setFlag_keeps .boot _)
  exact s.keeps_sup _ rfl

theorem State.supBegun_keeps (s : State) : s.keeps s.supBegun :=
  (s.settlePending_keeps _).trans (State.modSup_keeps _ _ rfl)

theorem State.giveUp_keeps (a : SupAction) (s : State) : s.keeps (s.giveUp a) :=
  ((s.settlePending_keeps _).trans (State.modSup_keeps _ _ rfl)).trans (State.recordFault_keeps _ _)

theorem State.returnSup_keeps (s : State) : s.keeps s.returnSup := s.modSup_keeps _ rfl

theorem State.supRequest_keeps (t : Trigger) (a : SupAction) (k : ActionKind) (f : State → State)
    (hf : ∀ s : State, s.keeps (f s)) (s : State) : s.keeps (s.supRequest t a k f) := by
  unfold State.supRequest; dsimp only; split
  · refine s.asFallLeft_keeps.trans ?_
    split
    · exact ((State.requestAction_keeps ..).trans (State.supBegun_keeps _)).trans (State.escalated_keeps ..)
    · exact (hf _).trans (State.escalated_keeps ..)
    · exact (hf _).trans (State.escalated_keeps ..)
    · exact (hf _).trans (State.escalated_keeps ..)
  · exact (s.giveUp_keeps a).trans (State.escalated_keeps ..)

theorem State.bootExpired_keeps (s : State) : s.keeps s.bootExpired := by
  have hnotify : ∀ a, s.keeps
      (((s.settlePending .failed).modSup fun u => { u with state := .idle, bootTimer := none }).escalated
        .bootTimeout a .taken s.openNumber) := fun a =>
    ((s.settlePending_keeps _).trans (State.modSup_keeps _ _ rfl)).trans (State.escalated_keeps ..)
  unfold State.bootExpired; dsimp only; split
  · exact s.supRequest_keeps _ _ _ _ fun u => u.modSup_keeps _ rfl
  · exact s.supRequest_keeps _ _ _ _ fun u => u.modSup_keeps _ rfl
  · exact hnotify _
  · exact hnotify _

theorem State.holdExpired_keeps (s : State) : s.keeps s.holdExpired := by
  unfold State.holdExpired; dsimp only; split
  · exact s.returnSup_keeps.trans (State.escalated_keeps ..)
  · exact (s.asFallLeft_keeps.trans ((State.requestAction_keeps ..).trans (State.returnSup_keeps _))).trans
      (State.escalated_keeps ..)
  · exact s.supRequest_keeps _ _ _ _ State.returnSup_keeps
  · exact s.supRequest_keeps _ _ _ _ State.returnSup_keeps

theorem State.beginHoldOff_keeps (r : ReturnState) (s : State) : s.keeps (s.beginHoldOff r) := by
  have hbegin := (s.modSup_keeps (fun u => { u with
    state := .holdoff, ret := some r, bootTimer := none,
    holdTimer := some (s.after (1000 * u.policy.holdOff)) }) rfl).trans (State.setFlag_keeps .boot _)
  exact (hbegin.trans (State.holdExpired_keeps _)).ite hbegin

theorem State.satisfy_keeps (s : State) : s.keeps s.satisfy := by
  have hopen := s.modOpen_keeps (fun e => { e with status := .ok }) fun _ => id
  unfold State.satisfy; dsimp only
  generalize s.modOpen _ = u at hopen ⊢
  have hsatisfied := (hopen.trans (u.modSup_keeps (fun v =>
    { v with state := .satisfied, attempts := 0, bootTimer := none,
             ret := if v.state = .holdoff then some .satisfied else v.ret }) rfl)).trans (State.setFlag_keeps .boot _)
  exact (hsatisfied.trans (State.softEject_keeps _)).ite hsatisfied

theorem State.supHit_keeps (r : Role) (port : PortId) (s : State) : s.keeps (s.supHit r port) := by
  unfold State.supHit; repeat' split
  · exact s.satisfy_keeps
  · exact s.satisfy_keeps
  · exact s.modSup_keeps _ rfl
  · exact s.beginHoldOff_keeps _
  · exact s.beginHoldOff_keeps _
  · exact State.keeps.rfl' s
  · exact State.keeps.rfl' s
  · exact State.keeps.rfl' s

/-! ## Capture and the matcher -/

theorem State.offerText_keeps (i : PortId) (x : InjText) (s : State) : s.keeps (s.offerText i x).2 := by
  unfold State.offerText; split
  · exact State.keeps.rfl' s
  · refine .trans ?_ (State.kick_keeps i _)
    exact s.modPort_keeps i _ fun h => Port.moveText_queuesOk ⟨h.1, h.2⟩

theorem State.mem_of_openEpoch {s : State} {e : EpochRec} (h : s.openEpoch = some e) :
    s.sup.epochs.getLast? = some e ∧ e ∈ s.sup.epochs := by
  obtain ⟨hlast, -⟩ := Option.filter_eq_some_iff.1 h
  exact ⟨hlast, List.mem_of_getLast? hlast⟩

theorem modNewest_of_getLast {f : EpochRec → EpochRec} {es : List EpochRec} {e : EpochRec}
    (h : es.getLast? = some e) : modNewest f es = es.dropLast ++ [f e] := by
  obtain ⟨ys, rfl⟩ := List.getLast?_eq_some_iff.1 h
  rw [modNewest_append, List.dropLast_concat]

theorem State.appendHit_keeps (h : HitRec) (s : State) : s.keeps (s.appendHit h).2 := by
  unfold State.appendHit; split
  · next e he =>
    split
    · next hlt =>
      obtain ⟨hlast, -⟩ := State.mem_of_openEpoch he
      unfold State.modOpen
      rw [if_pos (by rw [he]; rfl)]
      refine s.keeps_epochs _ fun hok => ⟨by rw [modNewest_length]; exact hok.1, fun x hx => ?_⟩
      rw [modNewest_of_getLast hlast] at hx
      rcases List.mem_append.1 hx with hx | hx
      · exact hok.2 x (List.mem_of_mem_dropLast hx)
      · obtain rfl := List.mem_singleton.1 hx
        simpa using hlt
    · exact State.keeps.rfl' s
  · exact State.keeps.rfl' s

theorem State.reportHit_keeps (h : HitRec) (a : Bool) (s : State) : s.keeps (s.reportHit h a) := by
  refine .trans ?_ (State.setFlag_keeps .mark _)
  exact State.keeps_of rfl rfl rfl rfl rfl rfl

theorem State.markers_keeps (m : Vector Marker 16) (s : State) : s.keeps { s with markers := m } :=
  State.keeps_of rfl rfl rfl rfl rfl rfl

/-- The hit is counted in its marker's record, and a once marker is spent (R52). -/
def State.countHit (m : Fin 16) (s : State) : State :=
  { s with markers := vupd s.markers m fun k =>
    { k with hits := satInc 65535 k.hits, spent := k.spent || s.markers[m].cfg.once } }

/-- An INJECT marker's text is offered to the port's slot; any other marker offers none (R52). -/
def State.offerInject (port : PortId) (m : Fin 16) (c : MarkerCfg) (s : State) : Bool × State :=
  if c.role = .inject then s.offerText port { marker := m, text := c.inject } else (true, s)

/-- The record of a hit at the present moment (R52). -/
def State.hitRec (port : PortId) (pos : Nat) (m : Fin 16) (taken : Bool) (s : State) : HitRec :=
  { marker := m, port := port, pos := pos, time := s.time, role := s.markers[m].cfg.role, dropped := !taken }

/-- A hit as it stands before the supervisor is told: counted, its text offered, its record listed and reported (R52). -/
def State.recordHit (port : PortId) (pos : Nat) (m : Fin 16) (s : State) : State :=
  let c := s.markers[m].cfg
  let offered := (s.countHit m).offerInject port m c
  let h := s.hitRec port pos m offered.1
  let appended := offered.2.appendHit h
  if c.report then appended.2.reportHit h appended.1 else appended.2

/-- The roles that the supervisor is told of (R56). -/
def supervised : Role → Bool
  | .bootOk | .progress | .fault => true
  | .none | .inject => false

theorem State.hit_eq (port : PortId) (pos : Nat) (s : State) (m : Fin 16) : s.hit port pos m =
    if supervised s.markers[m].cfg.role then (s.recordHit port pos m).supHit s.markers[m].cfg.role port
    else s.recordHit port pos m := by
  show (match s.markers[m].cfg.role with
    | .bootOk | .progress | .fault => (s.recordHit port pos m).supHit s.markers[m].cfg.role port
    | .none | .inject => s.recordHit port pos m) = _
  cases s.markers[m].cfg.role <;> rfl

theorem State.offerInject_keeps (port : PortId) (m : Fin 16) (c : MarkerCfg) (s : State) :
    s.keeps (s.offerInject port m c).2 := by
  unfold State.offerInject; split
  · exact s.offerText_keeps port _
  · exact State.keeps.rfl' s

theorem State.recordHit_keeps (port : PortId) (pos : Nat) (m : Fin 16) (s : State) :
    s.keeps (s.recordHit port pos m) := by
  have hcounted : s.keeps (s.countHit m) := s.markers_keeps _
  have happended := (hcounted.trans (State.offerInject_keeps port m s.markers[m].cfg _)).trans
    (State.appendHit_keeps (s.hitRec port pos m ((s.countHit m).offerInject port m s.markers[m].cfg).1) _)
  exact State.keeps.ite (c := s.markers[m].cfg.report = true) (happended.trans (State.reportHit_keeps _ _ _)) happended

theorem State.hit_keeps (port : PortId) (pos : Nat) (s : State) (m : Fin 16) : s.keeps (s.hit port pos m) := by
  have hrecorded := s.recordHit_keeps port pos m
  rw [State.hit_eq]
  exact (hrecorded.trans (State.supHit_keeps _ _ _)).ite hrecorded

theorem hits_keeps (port : PortId) (pos : Nat) (ms : List (Fin 16)) : ∀ s : State,
    s.keeps (ms.foldl (State.hit port pos) s) := by
  induction ms with
  | nil => exact State.keeps.rfl'
  | cons m ms ih => intro s; exact (s.hit_keeps port pos m).trans (ih _)

/-- What a port's filter answers to a byte: whether it passes, and the next state (R44). -/
def Port.filtered (p : Port) (b : Byte) : Bool × FilterState :=
  if p.cfg.escape then filterStep p.filter b else (true, p.filter)

theorem State.matchByte_eq (port : PortId) (pos : Nat) (b : Byte) (s : State) : s.matchByte port pos b =
    let s' := s.modPort port fun p => { p with filter := (s.ports[port].filtered b).2 }
    if (s.ports[port].filtered b).1 then
      match s.translate s.ports[port].cfg.translation b with
      | none => s'
      | some t =>
        let w := pushWindow s.ports[port].window t
        ((s.hitList port w)).foldl (State.hit port pos) (s'.modPort port fun p => { p with window := w })
    else s' := rfl

theorem State.matchByte_keeps (port : PortId) (pos : Nat) (b : Byte) (s : State) :
    s.keeps (s.matchByte port pos b) := by
  rw [State.matchByte_eq]; dsimp only
  have hfilter := s.modPort_keeps port (fun p => { p with filter := (s.ports[port].filtered b).2 }) id
  repeat' split
  · exact hfilter
  · refine .trans ?_ (hits_keeps port pos _ _)
    refine hfilter.trans (State.modPort_keeps port _ _ fun h => ⟨h.1, ?_⟩)
    rw [State.modPort_ports, vupd_self] at h
    exact pushWindow_length h.2 _
  · exact hfilter

theorem State.pageForByte_keeps {i : PortId} {s t : State} (h : s.pageForByte i = some t) : s.keeps t := by
  unfold State.pageForByte at h
  dsimp only at h
  repeat' split at h
  · obtain rfl := Option.some.inj h
    exact s.modPort_keeps i _ id
  · obtain ⟨⟨p, u⟩, hu, rfl⟩ := Option.map_eq_some_iff.1 h
    exact (State.supplyHistory_keeps hu).trans (State.modPort_keeps i _ _ id)
  · obtain rfl := Option.some.inj h
    exact s.modPort_keeps i _ fun h => by split <;> exact h
  · obtain ⟨⟨p, u⟩, hu, rfl⟩ := Option.map_eq_some_iff.1 h
    exact (State.supplyHistory_keeps hu).trans (State.modPort_keeps i _ _ id)

theorem State.storeByte_keeps (i : PortId) (b : Byte) (s : State) : s.keeps (s.storeByte i b) := by
  have hwf : s.memOk → Memory.wf (s.storeByte i b).mem = true := State.storeByte_wf
  obtain ⟨m, r, h⟩ := s.storeByte_frame i b
  rw [h] at hwf ⊢; exact s.keeps_mem m r hwf

theorem State.advanceW_keeps (i : PortId) (s : State) : s.keeps (s.advanceW i) := by
  unfold State.advanceW; dsimp only; split
  · exact (s.modPort_keeps i _ id).trans (State.setFlag_keeps _ _)
  · exact s.modPort_keeps i _ id

theorem State.receive_keeps {i : PortId} {x : RxChar} {s t : State} (h : s.receive i x = some t) : s.keeps t := by
  unfold State.receive at h
  dsimp only at h
  repeat' split at h
  · obtain rfl := Option.some.inj h; exact State.keeps.rfl' _
  · obtain rfl := Option.some.inj h; exact (s.modPort_keeps i _ id).trans (State.countChar_keeps i _ _)
  · obtain rfl := Option.some.inj h; exact (s.modPort_keeps i _ id).trans (State.countChar_keeps i _ _)
  · obtain ⟨u, hu, rfl⟩ := Option.map_eq_some_iff.1 h
    obtain ⟨v, hv, rfl⟩ := Option.map_eq_some_iff.1 hu
    exact ((((State.pageForByte_keeps hv).trans (State.storeByte_keeps i _ v)).trans (State.advanceW_keeps i _)).trans
      (State.matchByte_keeps i _ _ _)).trans (State.countChar_keeps i _ _)

end Sys2Proof.Machine
end

/-! # Every step keeps the part's bounds and the canonical form of buffer memory -/

section
namespace Sys2Proof.Machine

/-! ## Settings, start-up and saves -/

theorem foldl_keeps {α : Type} (f : State → α → State) (hf : ∀ (s : State) a, s.keeps (f s a)) (as : List α) :
    ∀ s : State, s.keeps (as.foldl f s) := by
  induction as with
  | nil => exact State.keeps.rfl'
  | cons a as ih => intro s; exact (hf s a).trans (ih _)

theorem State.disableAll_keeps (s : State) : s.keeps s.disableAll :=
  foldl_keeps (fun (s : State) (i : PortId) => if s.ports[i].enabled then s.disablePort i else s)
    (fun s i => State.keeps.ite (c := s.ports[i].enabled = true) (s.disablePort_keeps i) (.rfl' s)) _ s

theorem State.writeSettings_keeps (c : SettingsImage) (s : State) : s.keeps (s.writeSettings c) := by
  have hconfigs := foldl_keeps
    (fun (s : State) (i : PortId) => s.modPort i fun p => { p with cfg := s.recordFor i c.consoles[i].1 })
    (fun s i => s.modPort_keeps i (fun p => { p with cfg := s.recordFor i c.consoles[i].1 }) id) (List.finRange 4) s
  unfold State.writeSettings; dsimp only
  generalize List.foldl _ s (List.finRange 4) = u at hconfigs ⊢
  refine .trans ?_ (State.updateConnection_keeps _)
  have htables : u.keeps { u with
      t0 := c.t0, t1 := c.t1, markers := vmap c.markers fun m => { cfg := m, hits := 0, spent := false } } :=
    State.keeps_of rfl rfl rfl rfl rfl rfl
  have hpolicy := (htables.trans (State.modPower_keeps (fun p => { p with cfg := c.power }) _)).trans
    (State.setPolicy_keeps c.policy _)
  exact (hconfigs.trans hpolicy).trans (State.keeps_of rfl rfl rfl rfl rfl rfl)

theorem State.start_keeps (x : StartInfo) (s : State) : s.keeps { s with start := x } :=
  State.keeps_of rfl rfl rfl rfl rfl rfl

theorem State.enableFlagged_keeps {c : SettingsImage} {s t : State} (h : s.enableFlagged c = some t) : s.keeps t := by
  suffices ∀ (is : List PortId) (o : Option State), is.foldl (fun o i =>
      match o with
      | none => none
      | some s =>
        if c.consoles[i].2 then
          match s.enablePort i with
          | none => none
          | some (.ok, s') => some s'
          | some (_, s') =>
            some { s' with start := { s'.start with refused := s'.start.refused ||| BitVec.ofNat 4 (2 ^ i.val) } }
        else some s) o = some t → ∃ u, o = some u ∧ u.keeps t by
    obtain ⟨u, hu, hk⟩ := this _ _ h
    obtain rfl := Option.some.inj hu
    exact hk
  intro is
  induction is with
  | nil => intro o ho; exact ⟨t, ho, State.keeps.rfl' t⟩
  | cons i is ih =>
    intro o ho
    rw [List.foldl_cons] at ho
    obtain ⟨u, hu, hk⟩ := ih _ ho
    repeat' split at hu
    · cases hu
    · cases hu
    · next v _ _ w hw =>
      obtain rfl := Option.some.inj hu
      exact ⟨v, rfl, (State.enablePort_keeps hw).trans hk⟩
    · next v _ _ _ w _ hw =>
      obtain rfl := Option.some.inj hu
      exact ⟨v, rfl, ((State.enablePort_keeps hw).trans (State.start_keeps _ w)).trans hk⟩
    · next v _ =>
      obtain rfl := Option.some.inj hu
      exact ⟨v, rfl, hk⟩

theorem State.loadApply_keeps {s t : State} (h : s.loadApply = some t) : s.keeps t := by
  unfold State.loadApply at h
  split at h
  · obtain rfl := Option.some.inj h
    exact (s.start_keeps _).trans (State.recordFault_keeps _ _)
  · obtain rfl := Option.some.inj h
    exact (s.start_keeps _).trans (State.recordFault_keeps _ _)
  · exact ((s.start_keeps _).trans (State.writeSettings_keeps _ _)).trans (State.enableFlagged_keeps h)

theorem State.sample_keeps (s : State) : s.keeps s.sample := by
  have hlevels := s.modPower_keeps fun p => { p with pg := sampled p.pg, rsts := sampled p.rsts }
  unfold State.sample; dsimp only
  generalize s.modPower _ = u at hlevels ⊢
  refine .trans (.trans ?_ (State.kickAll_keeps _)) (State.updateConnection_keeps _)
  refine .trans (hlevels.trans ?_) (State.start_keeps _ _)
  exact ((u.start_keeps _).trans (State.startEpoch_keeps _ _)).ite (u.start_keeps _)

theorem State.decideRestore_keeps (s : State) : s.keeps s.decideRestore :=
  (s.restore_keeps _).ite (.rfl' s)

theorem State.inReset_keeps (b : Bool) (s : State) : s.keeps { s with inReset := b } :=
  State.keeps_of rfl rfl rfl rfl rfl rfl

theorem State.announce_keeps (s : State) : s.keeps s.announce := by
  have hstart := (s.inReset_keeps false).trans (State.setFlag_keeps .start _)
  exact (hstart.trans (State.takeRestore_keeps _)).ite hstart

theorem State.startUp_keeps {s t : State} (h : s.startUp = some t) : s.keeps t := by
  obtain ⟨u, hu, rfl⟩ := Option.map_eq_some_iff.1 h
  exact ((((s.time_keeps 0).trans (State.loadApply_keeps hu)).trans (State.sample_keeps _)).trans
    (State.decideRestore_keeps _)).trans (State.announce_keeps _)

theorem State.partReset_keeps (c : ResetCause) (s : State) : s.keeps (s.partReset c) where
  mem _ := Memory.wf_nil
  ports _ i := by
    have hport : (s.partReset c).ports[i] = resetPort := Vector.getElem_replicate _
    rw [hport]; exact ⟨Nat.zero_le _, Nat.zero_le _⟩
  epochs _ := ⟨Nat.zero_le _, fun e he => by cases he⟩
  drains _ := Nat.zero_le _
  used := Nat.zero_le _

/-! ## Write-back -/

theorem State.completeEject_drains (s : State) : s.completeEject.usb.drains.length ≤ s.usb.drains.length := by
  unfold State.completeEject; split
  · unfold State.endAttachment; simp
  · exact le_rfl

theorem State.endCurrent_drains (st : CmdStatus) (s : State) : (s.endCurrent st).usb.drains = s.usb.drains := by
  obtain ⟨c, a, e, h⟩ := s.endCurrent_frame st
  rw [h]

theorem State.loseBlock_drains (lba : Nat) (s : State) : (s.loseBlock lba).usb.drains.length ≤ s.usb.drains.length := by
  refine (State.completeEject_drains _).trans ?_
  have hlost : (((((s.setBlock lba .lost).removeDirty lba).dropDrain lba).recordFault (.dirtyLost lba)).usb.drains).length
      ≤ s.usb.drains.length := by
    rw [State.recordFault_usb]
    exact List.length_filter_le _ _
  split
  · rw [State.endCurrent_drains]; exact hlost
  · exact hlost

theorem drainFrom_keeps (bs : List Nat) : ∀ s : State, s.keeps (drainFrom bs s).1 ∧
    (drainFrom bs s).1.usb.drains.length ≤ s.usb.drains.length := by
  induction bs with
  | nil => intro s; exact ⟨State.keeps.rfl' s, le_rfl⟩
  | cons b bs ih =>
    intro s
    have hread : (s.readRows b).2.usb = s.usb := by rw [State.readRows_frame]
    unfold drainFrom; repeat' split
    · obtain ⟨hk, hd⟩ := ih ((s.readRows b).2.loseBlock b)
      refine ⟨((s.readRows_keeps b).trans (State.loseBlock_keeps b _)).trans hk, hd.trans ?_⟩
      exact hread ▸ State.loseBlock_drains b (s.readRows b).2
    · exact ⟨s.readRows_keeps b, by rw [hread]⟩
    · exact ih s

theorem medDrain_keeps (u : Unit) (s : State) : s.keeps (medDrain u s).1 := by
  unfold medDrain; split
  · exact State.keeps.rfl' s
  · next hroom =>
    obtain ⟨hk, hd⟩ := drainFrom_keeps s.usb.dirty s
    dsimp only; split
    · exact hk
    · next b _ =>
      refine hk.trans (.trans (State.setBlock_keeps b .draining _) (State.keeps_drains _ _ fun _ => ?_))
      have hset : ((drainFrom s.usb.dirty s).1.setBlock b .draining).usb = (drainFrom s.usb.dirty s).1.usb := rfl
      simp only [List.length_append, List.length_cons, List.length_nil, hset]
      omega

theorem State.clean_keeps (lba : Nat) (s : State) : s.keeps (s.clean lba).2 := by
  unfold State.clean; split
  · exact (s.setBlock_keeps lba _).trans (State.dropDrain_keeps _ _)
  · exact (((s.setBlock_keeps lba _).trans (State.removeDirty_keeps _ _)).trans
      (State.dropDrain_keeps _ _)).trans (State.afterClean_keeps _)

theorem State.expireDrain_keeps (d : DrainRec) (s : State) : s.keeps (s.expireDrain d) :=
  (s.setBlock_keeps _ _).trans (State.dropDrain_keeps _ _)

theorem State.beginSync_keeps (s : State) : s.keeps s.beginSync := by
  unfold State.beginSync; repeat' split
  · exact State.complete_keeps ..
  · exact State.complete_keeps ..
  · exact (s.setCurrent_keeps _).trans (State.setFlag_keeps _ _)

theorem State.beginWrite_keeps (lba n : Nat) (s : State) : s.keeps (s.beginWrite lba n) :=
  (s.setCurrent_keeps _).ite (State.complete_keeps ..)

theorem State.beginRead_keeps (lba n : Nat) (s : State) : s.keeps (s.beginRead lba n) :=
  (s.setCurrent_keeps _).trans (State.scanPass_keeps _)

theorem State.serve_keeps {run : State → State} (hr : ∀ s : State, s.keeps (run s)) (s : State) :
    s.keeps (s.serve run) := (hr s).ite (.rfl' s)

theorem State.dispatch_keeps (k : CmdKind) (lba : Nat) {run : State → State} (hr : ∀ s : State, s.keeps (run s))
    (s : State) : s.keeps (State.dispatch k lba run s) := by
  unfold State.dispatch; repeat' split
  · exact State.complete_keeps ..
  · exact s.keeps_usb _ rfl
  · exact hr s

theorem State.rangeChecked_keeps (k : CmdKind) (lba n : Nat) {run : State → State} (hr : ∀ s : State, s.keeps (run s))
    (s : State) : s.keeps (State.rangeChecked k lba n run s) := by
  unfold State.rangeChecked; repeat' split
  · exact State.complete_keeps ..
  · exact State.complete_keeps ..
  · exact State.complete_keeps ..
  · exact hr s

theorem State.answerSense_keeps (s : State) :
    let t := s.complete .sense .good 0 0 (.sense s.usb.sense)
    s.keeps { t with usb := { t.usb with sense := none } } := s.keeps_usb _ rfl

theorem State.reconnect_keeps (s : State) : s.keeps s.disconnect.connect := s.keeps_usb _ rfl

/-! ## Edges and deadlines of the sequencer -/

theorem State.riseAction_keeps (s : State) : s.keeps s.riseAction := by
  unfold State.riseAction; repeat' split
  · exact s.startEpoch_keeps _
  · exact ((s.modPower_keeps _).trans (State.endAction_keeps _ _)).trans (State.startEpoch_keeps _ _)
  · exact ((s.modPower_keeps _).trans (State.endAction_keeps _ _)).trans (State.startEpoch_keeps _ _)
  · exact (s.endAction_keeps _).trans (State.startEpoch_keeps _ _)
  · exact s.startEpoch_keeps _

theorem State.cancelRestore_keeps (s : State) : s.keeps s.cancelRestore := by
  unfold State.cancelRestore; split
  · exact s.restore_keeps _
  · exact State.keeps.rfl' s

theorem State.rise_keeps (s : State) : s.keeps s.rise :=
  (((((s.takeEdge_keeps .pg).trans (State.cancelRestore_keeps _)).trans (State.riseAction_keeps _)).trans
    (State.setFlag_keeps _ _)).trans (State.kickAll_keeps _)).trans (State.updateConnection_keeps _)

theorem State.fall_keeps (s : State) : s.keeps s.fall := s.fallAction_keeps.trans (State.fallClose_keeps _ _)

theorem State.resetSeen_keeps (s : State) : s.keeps s.resetSeen := by
  have hedge := s.takeEdge_keeps .rsts
  exact .trans (((hedge.trans (State.modPower_keeps _ _)).trans (State.setFlag_keeps .power _)).ite hedge)
    (State.updateConnection_keeps _)

theorem State.resetGone_keeps (s : State) : s.keeps s.resetGone := by
  have hedge := s.takeEdge_keeps .rsts
  exact .trans ((((hedge.trans (State.modPower_keeps _ _)).trans (State.startEpoch_keeps _ _)).trans
    (State.setFlag_keeps .power _)).ite hedge) (State.updateConnection_keeps _)

theorem State.unmask_keeps (s : State) : s.keeps s.unmask :=
  (s.modPower_keeps _).trans (State.updateConnection_keeps _)

theorem State.phaseExpired_keeps (s : State) : s.keeps s.phaseExpired := by
  unfold State.phaseExpired; split
  · exact State.keeps.rfl' s
  split
  · exact s.enterPhase_keeps _
  · exact s.endAction_keeps _
  · exact s.enterPhase_keeps _
  · exact ((s.modPower_keeps _).trans (State.enterPhase_keeps _ _)).ite (s.endAction_keeps _)
  · exact s.endAction_keeps _
  · exact s.endAction_keeps _
  · exact s.endAction_keeps _
  · exact s.enterPhase_keeps _
  · exact State.keeps.rfl' s

theorem State.edge_keeps (i : PortId) (n : Nat) (s : State) : s.keeps (s.edge i n) := by
  have hinterval := s.modPort_keeps i (Port.interval (min 65535 n)) (Port.interval_queuesOk _)
  exact State.keeps.ite (c := s.ports[i].counting = true)
    (((hinterval.trans (State.setFlag_keeps _ _)).trans (State.kick_keeps i _)).ite hinterval)
    (s.modPort_keeps i _ id)

/-! ## Handlers of the requests -/

theorem onPort_keeps {n : Nat} {f : PortId → State → State × Status × List Byte} {s : State}
    (hf : ∀ i, s.keeps (f i s).1) : s.keeps (onPort n f s).1 := by
  unfold onPort; split
  · exact hf _
  · exact State.keeps.rfl' s

theorem onMarker_keeps {n : Nat} {f : Fin 16 → State → State × Status × List Byte} {s : State}
    (hf : ∀ m, s.keeps (f m s).1) : s.keeps (onMarker n f s).1 := by
  unfold onMarker; split
  · exact hf _
  · exact State.keeps.rfl' s

theorem setDefaults_keeps (u : Unit) (s : State) : s.keeps (setDefaults u s).1 := by
  unfold setDefaults; split
  · exact State.keeps.rfl' s
  · exact s.disableAll_keeps.trans (State.writeSettings_keeps _ _)

theorem conConfig_keeps (r : ConConfigReq) (s : State) : s.keeps (conConfig r s).1 := by
  refine onPort_keeps fun i => ?_
  repeat' split
  · exact State.keeps.rfl' s
  · exact State.keeps.rfl' s
  · exact State.keeps.rfl' s
  · exact s.modPort_keeps i _ id

theorem conEnable_keeps {n : Nat} {s : State} {r : State × Status × List Byte} (h : conEnable n s = some r) :
    s.keeps r.1 := by
  unfold conEnable at h
  repeat' split at h
  · obtain rfl := Option.some.inj h; exact State.keeps.rfl' s
  · obtain rfl := Option.some.inj h; exact State.keeps.rfl' s
  · obtain ⟨⟨st, t⟩, ht, rfl⟩ := Option.map_eq_some_iff.1 h
    exact State.enablePort_keeps ht

theorem conDisable_keeps (n : Nat) (s : State) : s.keeps (conDisable n s).1 := by
  refine onPort_keeps fun i => ?_
  split
  · exact s.disablePort_keeps i
  · exact State.keeps.rfl' s

theorem State.clearPort_keeps (i : PortId) (s : State) : s.keeps (s.clearPort i) := by
  by_cases hp : s.ports[i].pages = []
  · rw [State.clearPort_of_no_pages hp]; exact State.keeps.rfl' s
  · have hport := s.modPort_keeps i (fun p => { p with pages := [], window := [] }) fun h => ⟨h.1, Nat.zero_le _⟩
    rw [State.clearPort_of_pages hp]
    exact hport.trans (State.keeps_of rfl rfl rfl rfl rfl rfl)

theorem conClear_keeps (n : Nat) (s : State) : s.keeps (conClear n s).1 := by
  refine onPort_keeps fun i => ?_
  split
  · exact State.keeps.rfl' s
  · exact s.clearPort_keeps i

theorem conRead_keeps (a : Nat × Nat × Nat) (s : State) : s.keeps (conRead a s).1 := by
  refine onPort_keeps fun i => ?_
  have hrows : ∀ r, s.keeps { s with rows := r } := fun r => s.keeps_mem s.mem r id
  dsimp only; split
  · exact (hrows _).trans (State.recordFault_keeps (.historyDamaged i) _)
  · exact hrows _

theorem conNotify_keeps (a : Nat × Nat) (s : State) : s.keeps (conNotify a s).1 := by
  refine onPort_keeps fun i => ?_
  dsimp only; repeat' split
  · exact .trans (s.modPort_keeps i (fun p => { p with notify := none }) id) (State.setFlag_keeps _ _)
  · exact s.modPort_keeps i _ id
  · exact State.keeps.rfl' s

theorem acceptedBytes_length {p : Port} (h : p.queuesOk) (data : List Byte) :
    (p.queue ++ (acceptedBytes p data).map TxEntry.byte).length ≤ 128 := by
  obtain ⟨hq, -⟩ := h
  unfold acceptedBytes; split
  · simpa using hq
  · simp only [List.length_append, List.length_map, List.length_take, Port.free, queueCap]
    omega

theorem conWrite_keeps (a : Nat × List Byte) (s : State) : s.keeps (conWrite a s).1 := by
  refine onPort_keeps fun i => ?_
  dsimp only; split
  · refine .trans ?_ (State.kick_keeps i _)
    exact s.modPort_keeps i _ fun h => ⟨acceptedBytes_length h a.2, h.2⟩
  · exact State.keeps.rfl' s

theorem conBreak_keeps (a : Nat × Nat) (s : State) : s.keeps (conBreak a s).1 := by
  refine onPort_keeps fun i => ?_
  dsimp only; repeat' split
  · next hroom =>
    refine .trans ?_ (State.kick_keeps i _)
    refine s.modPort_keeps i _ fun h => ⟨?_, h.2⟩
    have hfree : 0 < 128 - s.ports[i].queue.length := hroom.2
    simp only [List.length_append, List.length_cons, List.length_nil]
    omega
  · exact State.keeps.rfl' s
  · exact State.keeps.rfl' s

theorem markSet_keeps (a : MarkSetReq) (s : State) : s.keeps (markSet a s).1 := by
  refine onMarker_keeps fun m => ?_
  split
  · exact State.keeps.rfl' s
  · exact s.markers_keeps _

theorem markClear_keeps (n : Nat) (s : State) : s.keeps (markClear n s).1 :=
  onMarker_keeps fun _ => s.markers_keeps _

theorem State.modTable_keeps (n : Nat) (f : XlatTable → XlatTable) (s : State) : s.keeps (s.modTable n f) :=
  State.keeps.ite (State.keeps_of rfl rfl rfl rfl rfl rfl) (State.keeps_of rfl rfl rfl rfl rfl rfl)

theorem xlatLoad_keeps (a : Nat × Nat × List (Byte × Byte)) (s : State) : s.keeps (xlatLoad a s).1 := by
  unfold xlatLoad; split
  · exact State.keeps.rfl' s
  split
  · exact State.keeps.rfl' s
  · next es _ => exact s.modTable_keeps a.1 fun t => loadTable t a.2.1 es

theorem medConfig_keeps (a : MedConfigReq) (s : State) : s.keeps (medConfig a s).1 := by
  unfold medConfig; split
  · exact State.keeps.rfl' s
  · refine .trans ?_ (State.updateConnection_keeps _)
    exact State.keeps_of rfl rfl rfl rfl rfl rfl

theorem medAttach_keeps (a : Nat × Nat) (s : State) : s.keeps (medAttach a s).1 := by
  unfold medAttach; repeat' split
  · exact State.keeps.rfl' s
  · exact State.keeps.rfl' s
  · exact State.keeps.rfl' s
  · exact s.media_keeps _

theorem medExtentAdd_keeps (a : ExtentReq) (s : State) : s.keeps (medExtentAdd a s).1 := by
  unfold medExtentAdd; dsimp only; repeat' split
  · exact State.keeps.rfl' s
  · exact State.keeps.rfl' s
  · exact State.keeps.rfl' s
  · exact State.keeps.rfl' s
  · exact State.keeps.rfl' s
  · exact s.media_keeps _

theorem State.removeExtent_keeps (i : Fin 32) (e : Extent) (s : State) : s.keeps (s.removeExtent i e) := by
  refine .trans ?_ (State.media_keeps _ _)
  exact (s.keeps_cache s.owners _).trans (foldl_keeps _ (fun s t => s.releaseIfEmpty_keeps t) _ _)

theorem medExtentDel_keeps (n : Nat) (s : State) : s.keeps (medExtentDel n s).1 := by
  unfold medExtentDel; repeat' split
  · exact State.keeps.rfl' s
  · exact State.keeps.rfl' s
  · exact State.keeps.rfl' s
  · exact State.keeps.rfl' s
  · exact s.removeExtent_keeps _ _

theorem medPresent_keeps (u : Unit) (s : State) : s.keeps (medPresent u s).1 := by
  unfold medPresent; split
  · exact State.keeps_of rfl rfl rfl rfl rfl rfl
  · exact State.keeps.rfl' s

theorem medEject_keeps (m : Nat) (s : State) : s.keeps (medEject m s).1 := by
  unfold medEject; repeat' split
  · exact State.keeps.rfl' s
  · exact State.keeps.rfl' s
  · rw [ejected_state]; exact s.endAttachment_keeps
  · rw [ejected_state]; exact s.softEject_keeps
  · rw [ejected_state]; exact s.forceEject_keeps
  · exact State.keeps.rfl' s
  · rw [ejected_state]; exact s.forceEject_keeps

theorem medFill_keeps (q : Nat × Byte × Nat × List Byte) (s : State) : s.keeps (medFill q s).1 := by
  unfold medFill; dsimp only; repeat' split
  · exact State.keeps.rfl' s
  · exact State.keeps.rfl' s
  · exact State.keeps.rfl' s
  · exact State.keeps.rfl' s
  · exact State.keeps.rfl' s
  · exact State.keeps.rfl' s
  · exact ((s.writeSlot_keeps _ _).trans (State.setBlock_keeps _ _ _)).trans (State.settleRunBlock_keeps _ _ _ _ _)

theorem medFillFail_keeps (q : Nat × Byte) (s : State) : s.keeps (medFillFail q s).1 := by
  unfold medFillFail; repeat' split
  · exact State.keeps.rfl' s
  · exact State.keeps.rfl' s
  · exact s.failFetch_keeps _ _

theorem State.place_keeps (lba : Nat) (data : List Byte) (s : State) : s.keeps (s.place lba data) := by
  have hplaced := (s.writeSlot_keeps lba data).trans (State.setBlock_keeps lba .valid _)
  exact (hplaced.trans (State.releaseAwait_keeps lba _)).ite hplaced

theorem medPut_keeps (a : Nat × List Byte) (s : State) : s.keeps (medPut a s).1 := by
  unfold medPut; dsimp only; repeat' split
  · exact State.keeps.rfl' s
  · exact State.keeps.rfl' s
  · exact State.keeps.rfl' s
  · next hline => exact (State.lineOr_keeps hline).trans (State.place_keeps _ _ _)
  · exact State.keeps.rfl' s

theorem State.setPin_keeps (tag : Nat) (b : Bool) (s : State) : s.keeps (s.setPin tag b) :=
  s.keeps_cache s.owners _

theorem medPin_keeps (tag : Nat) (s : State) : s.keeps (medPin tag s).1 := by
  unfold medPin; repeat' split
  · exact State.keeps.rfl' s
  · exact State.keeps.rfl' s
  · exact s.setPin_keeps _ _
  · exact State.keeps.rfl' s
  · next hline => exact (State.allocate_keeps hline).trans (State.setPin_keeps _ _ _)
  · exact State.keeps.rfl' s
  · exact State.keeps.rfl' s
  · exact State.keeps.rfl' s

theorem medUnpin_keeps (tag : Nat) (s : State) : s.keeps (medUnpin tag s).1 := by
  unfold medUnpin; dsimp only; repeat' split
  · exact State.keeps.rfl' s
  · exact (s.setPin_keeps _ _).trans (State.releaseIfEmpty_keeps _ _)
  · exact State.keeps.rfl' s
  · exact State.keeps.rfl' s

theorem medClean_keeps (a : Nat × Nat) (s : State) : s.keeps (medClean a s).1 := by
  unfold medClean; split
  · exact State.keeps.rfl' s
  · exact s.clean_keeps _

theorem pwrConfig_keeps (a : PowerReq) (s : State) : s.keeps (pwrConfig a s).1 := by
  unfold pwrConfig; repeat' split
  · exact State.keeps.rfl' s
  · exact State.keeps.rfl' s
  · exact s.keeps_power _

theorem State.beginAction_keeps (k : ActionKind) (e : Bool) (r : Requester) (p : Phase) (s : State) :
    s.keeps (s.beginAction k e r p) := s.accept_keeps k e r (.begun p)

theorem State.alreadyAction_keeps (k : ActionKind) (e : Bool) (r : Requester) (s : State) :
    s.keeps (s.alreadyAction k e r) := s.accept_keeps k e r .already

theorem offHard_keeps (e : Bool) (s : State) : s.keeps (offHard e s).1 := by
  unfold offHard; split
  · exact State.keeps.rfl' s
  · exact ((s.endAction_keeps _).trans (State.accept_keeps ..)).trans (State.linkAccepted_keeps _)

theorem linkAction_keeps (k : ActionKind) (e : Bool) (s : State) : s.keeps (linkAction k e s).1 := by
  unfold linkAction; split
  · exact State.keeps.rfl' s
  · exact State.keeps.rfl' s
  · exact (s.beginAction_keeps ..).trans (State.linkAccepted_keeps _)
  · exact (s.alreadyAction_keeps ..).trans (State.linkAccepted_keeps _)

theorem pwrAction_keeps (a : Nat × Nat) (s : State) : s.keeps (pwrAction a s).1 := by
  unfold pwrAction; split
  · exact offHard_keeps _ s
  · exact linkAction_keeps _ _ s
  · exact State.keeps.rfl' s

theorem pwrAbort_keeps (u : Unit) (s : State) : s.keeps (pwrAbort u s).1 := by
  unfold pwrAbort; split
  · exact State.keeps.rfl' s
  · exact s.endAction_keeps .aborted

theorem bootPolicy_keeps (a : PolicyReq) (s : State) : s.keeps (bootPolicy a s).1 := by
  unfold bootPolicy; split
  · exact State.keeps.rfl' s
  · exact s.setPolicy_keeps _

/-! ## The link -/

theorem State.choose_keeps (s : State) : s.keeps s.choose := by
  obtain ⟨hr, -⟩ := s.choose_queues
  obtain ⟨l, m, h⟩ := s.choose_frame
  rw [h] at hr ⊢
  exact State.keeps_of rfl rfl rfl rfl hr rfl

theorem State.readOutComplete_replies (h : Held) (s : State) :
    (s.readOutComplete h).link.replies.length ≤ s.link.replies.length := by
  unfold State.readOutComplete; split
  · simp
  all_goals exact le_rfl

theorem State.readOutComplete_keeps (h : Held) (s : State) : s.keeps (s.readOutComplete h) := by
  have hr := s.readOutComplete_replies h
  obtain ⟨l, e⟩ := s.readOutComplete_frame h
  rw [e] at hr ⊢
  exact s.keeps_link l hr

theorem State.readOutCut_keeps (h : Held) (s : State) : s.keeps (s.readOutCut h) := by
  unfold State.readOutCut; split
  · refine .trans ?_ (State.setFlag_keeps _ _)
    exact State.keeps_of rfl rfl rfl rfl rfl rfl
  all_goals exact State.keeps.rfl' s

theorem State.endRead_keeps (n : Nat) (s : State) : s.keeps (s.endRead n) := by
  unfold State.endRead; split
  · exact State.keeps.rfl' s
  · exact ((s.readOutComplete_keeps _).ite (s.readOutCut_keeps _)).trans (State.keeps_link _ _ le_rfl)

/-! ## The bounds, through a whole command -/

/-- Of two states, the second keeps what the invariants bound. -/
structure State.keepsBounds (s t : State) : Prop where
  mem     : s.memOk → t.memOk
  replies : s.repliesOk → t.repliesOk
  ports   : s.portsOk → t.portsOk
  epochs  : s.epochsOk → t.epochsOk
  drains  : s.drainsOk → t.drainsOk

theorem State.keeps.bounds {s t : State} (h : s.keeps t) : s.keepsBounds t :=
  ⟨h.mem, fun hr => h.used.trans hr, h.ports, h.epochs, h.drains⟩

theorem State.keepsBounds.trans {s t u : State} (h : s.keepsBounds t) (k : t.keepsBounds u) : s.keepsBounds u :=
  ⟨k.mem ∘ h.mem, k.replies ∘ h.replies, k.ports ∘ h.ports, k.epochs ∘ h.epochs, k.drains ∘ h.drains⟩

theorem State.keepsBounds.settle {s t : State} (h : s.keepsBounds t) (before : State) :
    s.keepsBounds (State.settle before t) := h.trans (State.settle_keeps before t).bounds

/-- What fills one slot of the reply queue keeps its bound where a slot was free. -/
theorem State.keepsBounds.oneMore {s t u : State} (h : s.keeps t) (hroom : s.slotsUsed < 8)
    (hm : u.mem = t.mem) (hp : u.ports = t.ports) (he : u.sup.epochs = t.sup.epochs)
    (hd : u.usb.drains = t.usb.drains) (hu : u.slotsUsed ≤ t.slotsUsed + 1) : s.keepsBounds u where
  mem hs := by unfold State.memOk; rw [hm]; exact h.mem hs
  ports hs := by unfold State.portsOk; rw [hp]; exact h.ports hs
  epochs hs := by unfold State.epochsOk; rw [he]; exact h.epochs hs
  drains hs := by unfold State.drainsOk; rw [hd]; exact h.drains hs
  replies _ := by
    have hused := h.used
    unfold State.repliesOk
    omega

theorem State.keeps.pushReply {s t : State} (h : s.keeps t) (hroom : s.slotsUsed < 8) (r : Reply) :
    s.keepsBounds (t.pushReply r) :=
  .oneMore h hroom rfl rfl rfl rfl (State.slotsUsed_pushReply r t).le

theorem State.whenReady_keeps {take : State → State} {s : State}
    (ht : ∀ t : State, t.slotsUsed < 8 → t.keepsBounds (take t)) : s.keepsBounds (s.whenReady take) := by
  have hshift := s.shiftStatus_keeps.bounds
  rcases State.whenReady_cases take s with ⟨hr, e⟩ | ⟨-, e⟩ <;> rw [e]
  · exact hshift.trans (ht _ (State.slotsUsed_of_inReady hr))
  · exact hshift

theorem State.request_keeps {α : Type} (kind tag : Byte) (fs : Option α) {f : Handler α}
    (hf : ∀ a (t : State), t.keeps (f a t).1) (s : State) : s.keepsBounds (s.request kind tag fs f) := by
  refine State.whenReady_keeps fun t hroom => ?_
  split
  · exact (State.keeps.rfl' t).pushReply hroom _
  · exact (hf _ t).pushReply hroom _

theorem State.atDeadline_keeps (d : Option PartTime) {take : State → State} (ht : ∀ t : State, t.keeps (take t))
    (s : State) : s.keeps (s.atDeadline d take) := by
  rcases State.atDeadline_cases d take s with e | ⟨x, -, -, e⟩ <;> rw [e]
  · exact State.keeps.rfl' s
  · exact (s.time_keeps x).trans (ht _)

theorem execSetSave_keeps (tag : Byte) (payload : List Byte) {s t : State}
    (h : execSetSave tag payload s = .next t) : s.keepsBounds t := by
  obtain rfl := Host.Outcome.next.inj h
  refine State.whenReady_keeps fun u hroom => ?_
  repeat' split
  · exact (State.keeps.rfl' u).pushReply hroom _
  · exact (State.keeps.rfl' u).pushReply hroom _
  · next hsave =>
    refine .oneMore (State.keeps.rfl' u) hroom rfl rfl rfl rfl ?_
    simp [State.slotsUsed]

theorem execSaveEnd_keeps {s t : State} (h : execSaveEnd s = .next t) : s.keeps t := by
  unfold execSaveEnd at h
  split at h
  · obtain rfl := Host.Outcome.next.inj h; exact State.keeps.rfl' s
  · next j hj =>
    obtain rfl := Host.Outcome.next.inj h
    refine ⟨id, id, id, id, ?_⟩
    rw [State.slotsUsed_pushReply]
    simp [State.slotsUsed, hj]

theorem orNoPage_next {o : Option State} {t : State} (h : orNoPage o = .next t) : o = some t := by
  cases o with
  | none => cases h
  | some u => rw [Host.Outcome.next.inj h]

theorem execResetEnd_keeps {s t : State} (h : execResetEnd s = .next t) : s.keeps t := by
  unfold execResetEnd at h
  split at h
  · exact State.startUp_keeps (orNoPage_next h)
  · obtain rfl := Host.Outcome.next.inj h; exact State.keeps.rfl' s

theorem execDevReset_keeps (tag : Byte) (payload : List Byte) {s t : State}
    (h : execDevReset tag payload s = .next t) : s.keepsBounds t := by
  unfold execDevReset at h
  repeat' split at h
  · exact ((s.partReset_keeps .soft).trans (State.startUp_keeps (orNoPage_next h))).bounds
  · obtain rfl := Host.Outcome.next.inj h; exact s.shiftStatus_keeps.bounds
  · obtain rfl := Host.Outcome.next.inj h
    exact s.request_keeps _ _ _ fun _ t => State.keeps.rfl' t

theorem execConEnable_keeps (tag : Byte) (payload : List Byte) {s t : State}
    (h : execConEnable tag payload s = .next t) : s.keepsBounds t := by
  have hsome := orNoPage_next h
  have hshift := s.shiftStatus_keeps
  unfold State.requestOpt at hsome
  repeat' split at hsome
  · next hr _ _ =>
    obtain rfl := Option.some.inj hsome
    exact hshift.pushReply (State.slotsUsed_of_inReady hr) _
  · next hr _ _ _ =>
    obtain ⟨r, hr', rfl⟩ := Option.map_eq_some_iff.1 hsome
    exact (hshift.trans (conEnable_keeps hr')).pushReply (State.slotsUsed_of_inReady hr) _
  · obtain rfl := Option.some.inj hsome
    exact hshift.bounds

theorem execCharacterReceived_keeps {i : PortId} {x : RxChar} {s t : State}
    (h : execCharacterReceived i x s = .next t) : s.keeps t := by
  obtain ⟨u, hu, rfl⟩ := Option.map_eq_some_iff.1 (orNoPage_next h)
  exact ((State.receive_keeps hu).trans (State.closeFall_keeps _ _)).trans (State.settle_keeps _ _)

theorem execBlockDelivery_keeps {s t : State} (h : execBlockDelivery s = .next t) : s.keeps t := by
  obtain rfl := Host.Outcome.next.inj h
  split
  · exact (s.deliver_keeps _).trans (State.settle_keeps _ _)
  · exact State.keeps.rfl' s

theorem execWriteBlock_keeps {data : List Byte} {s t : State} (h : execWriteBlock data s = .next t) : s.keeps t := by
  obtain rfl := Host.Outcome.next.inj h
  split
  · exact (s.offerBlock_keeps _ _).ite (.rfl' s)
  · exact State.keeps.rfl' s

theorem execDrainExpiry_keeps {tag : BitVec 16} {s t : State} (h : execDrainExpiry tag s = .next t) : s.keeps t := by
  obtain rfl := Host.Outcome.next.inj h
  split
  · exact s.atDeadline_keeps _ (State.expireDrain_keeps _)
  · exact State.keeps.rfl' s

theorem execTransmissionEnd_keeps {i : PortId} {s t : State} (h : execTransmissionEnd i s = .next t) : s.keeps t := by
  obtain rfl := Host.Outcome.next.inj h
  split
  · exact s.atDeadline_keeps _ fun t => t.modPort_keeps i _ (Port.endBreak_queuesOk _)
  · exact s.sent_keeps i

theorem execBreakReceived_keeps {i : PortId} {s t : State} (h : execBreakReceived i s = .next t) : s.keeps t := by
  obtain rfl := Host.Outcome.next.inj h
  have hcount := s.modPort_keeps i (fun p => { p with breakCount := satInc 65535 p.breakCount }) id
  exact (hcount.trans (State.setFlag_keeps _ _)).ite (.rfl' s)

theorem State.upset_keeps (r : Fin 8192) (flips : List Byte) (s : State) : s.keeps (s.upset r flips) :=
  s.keeps_mem _ _ fun h => writeBytes_wf h _ _

theorem execBadFrame_keeps {bytes : List Byte} {s t : State} (h : execBadFrame bytes s = .next t) :
    s.keepsBounds t := by
  obtain rfl := Host.Outcome.next.inj h
  refine State.whenReady_keeps fun u hroom => ?_
  split
  · exact (State.keeps.rfl' u).pushReply hroom _
  · exact (State.keeps.rfl' u).bounds
  · exact (State.keeps.rfl' u).bounds

theorem execUnknownKind_keeps (kind tag : Byte) (payload : List Byte) {s t : State}
    (h : execUnknownKind kind tag payload s = .next t) : s.keepsBounds t := by
  obtain rfl := Host.Outcome.next.inj h
  refine State.whenReady_keeps fun u hroom => ?_
  split
  · exact (State.keeps.rfl' u).bounds
  · exact (State.keeps.rfl' u).pushReply hroom _

theorem State.next_keepsBounds {s t u : State} (hu : s.keepsBounds u)
    (h : (Host.Outcome.next u : Result) = .next t) : s.keepsBounds t := by
  obtain rfl := Host.Outcome.next.inj h; exact hu

/-- Every command keeps the bounds. -/
theorem exec_keepsBounds {c : Instr} {s t : State} (h : exec c s = .next t) : s.keepsBounds t := by
  cases c with
  | powerOn => exact State.next_keepsBounds (s.partReset_keeps _).bounds h
  | pinReset => exact State.next_keepsBounds (s.partReset_keeps _).bounds h
  | resetEnd => exact (execResetEnd_keeps h).bounds
  | restoreDeadline => exact State.next_keepsBounds (s.atDeadline_keeps _ State.takeRestore_keeps).bounds h
  | saveEnd => exact (execSaveEnd_keeps h).bounds
  | statusPoll => exact State.next_keepsBounds s.shiftStatus_keeps.bounds h
  | frameIgnored => exact State.next_keepsBounds s.shiftStatus_keeps.bounds h
  | badFrame => exact execBadFrame_keeps h
  | unknownKind kind tag payload => exact execUnknownKind_keeps kind tag payload h
  | readTransaction =>
    exact State.next_keepsBounds
      ((State.keeps.rfl' s).ite (s.shiftStatus_keeps.trans (State.choose_keeps _))).bounds h
  | readOutEnd n => exact State.next_keepsBounds (s.endRead_keeps n).bounds h
  | devIdent => exact State.next_keepsBounds (s.request_keeps _ _ _ fun _ t => .rfl' t) h
  | devTime => exact State.next_keepsBounds (s.request_keeps _ _ _ fun _ t => .rfl' t) h
  | devReset => exact execDevReset_keeps _ _ h
  | setSave => exact execSetSave_keeps _ _ h
  | setDefaults => exact State.next_keepsBounds (s.request_keeps _ _ _ setDefaults_keeps) h
  | faultGet => exact State.next_keepsBounds (s.request_keeps _ _ _ fun _ t => .rfl' t) h
  | faultClear =>
    exact State.next_keepsBounds (s.request_keeps _ _ _ fun _ _ => State.keeps_of rfl rfl rfl rfl rfl rfl) h
  | poolStatus => exact State.next_keepsBounds (s.request_keeps _ _ _ fun _ t => .rfl' t) h
  | conConfig => exact State.next_keepsBounds (s.request_keeps _ _ _ conConfig_keeps) h
  | conEnable => exact execConEnable_keeps _ _ h
  | conDisable => exact State.next_keepsBounds (s.request_keeps _ _ _ conDisable_keeps) h
  | conClear => exact State.next_keepsBounds ((s.request_keeps _ _ _ conClear_keeps).settle s) h
  | conRead => exact State.next_keepsBounds (s.request_keeps _ _ _ conRead_keeps) h
  | conFindTime =>
    exact State.next_keepsBounds (s.request_keeps _ _ _ fun _ t => onPort_keeps fun _ => .rfl' t) h
  | conNotify => exact State.next_keepsBounds (s.request_keeps _ _ _ conNotify_keeps) h
  | conWrite => exact State.next_keepsBounds (s.request_keeps _ _ _ conWrite_keeps) h
  | conBreak => exact State.next_keepsBounds (s.request_keeps _ _ _ conBreak_keeps) h
  | conStatus =>
    exact State.next_keepsBounds (s.request_keeps _ _ _ fun _ t => onPort_keeps fun _ => .rfl' t) h
  | markSet => exact State.next_keepsBounds (s.request_keeps _ _ _ markSet_keeps) h
  | markClear => exact State.next_keepsBounds (s.request_keeps _ _ _ markClear_keeps) h
  | markGet =>
    exact State.next_keepsBounds (s.request_keeps _ _ _ fun _ t => onMarker_keeps fun _ => .rfl' t) h
  | xlatLoad => exact State.next_keepsBounds (s.request_keeps _ _ _ xlatLoad_keeps) h
  | xlatRead =>
    exact State.next_keepsBounds (s.request_keeps _ _ _ fun a t => (xlatRead_state a t).symm ▸ .rfl' t) h
  | epochGet =>
    exact State.next_keepsBounds (s.request_keeps _ _ _ fun a t => (epochGet_state a t).symm ▸ .rfl' t) h
  | medConfig => exact State.next_keepsBounds (s.request_keeps _ _ _ medConfig_keeps) h
  | medAttach => exact State.next_keepsBounds (s.request_keeps _ _ _ medAttach_keeps) h
  | medExtentAdd => exact State.next_keepsBounds (s.request_keeps _ _ _ medExtentAdd_keeps) h
  | medExtentDel => exact State.next_keepsBounds ((s.request_keeps _ _ _ medExtentDel_keeps).settle s) h
  | medPresent => exact State.next_keepsBounds (s.request_keeps _ _ _ medPresent_keeps) h
  | medEject => exact State.next_keepsBounds (s.request_keeps _ _ _ medEject_keeps) h
  | medFill => exact State.next_keepsBounds ((s.request_keeps _ _ _ medFill_keeps).settle s) h
  | medFillFail => exact State.next_keepsBounds ((s.request_keeps _ _ _ medFillFail_keeps).settle s) h
  | medPut => exact State.next_keepsBounds ((s.request_keeps _ _ _ medPut_keeps).settle s) h
  | medPin => exact State.next_keepsBounds (s.request_keeps _ _ _ medPin_keeps) h
  | medUnpin => exact State.next_keepsBounds ((s.request_keeps _ _ _ medUnpin_keeps).settle s) h
  | medDrain => exact State.next_keepsBounds ((s.request_keeps _ _ _ medDrain_keeps).settle s) h
  | medClean => exact State.next_keepsBounds ((s.request_keeps _ _ _ medClean_keeps).settle s) h
  | medStatus => exact State.next_keepsBounds (s.request_keeps _ _ _ fun _ t => .rfl' t) h
  | pwrConfig => exact State.next_keepsBounds (s.request_keeps _ _ _ pwrConfig_keeps) h
  | pwrAction => exact State.next_keepsBounds (s.request_keeps _ _ _ pwrAction_keeps) h
  | pwrAbort => exact State.next_keepsBounds (s.request_keeps _ _ _ pwrAbort_keeps) h
  | pwrStatus => exact State.next_keepsBounds (s.request_keeps _ _ _ fun _ t => .rfl' t) h
  | bootPolicy => exact State.next_keepsBounds (s.request_keeps _ _ _ bootPolicy_keeps) h
  | bootRelease => exact State.next_keepsBounds (s.request_keeps _ _ _ fun _ => State.releaseSup_keeps) h
  | characterReceived => exact (execCharacterReceived_keeps h).bounds
  | breakReceived => exact (execBreakReceived_keeps h).bounds
  | receiveLineEdge i n => exact State.next_keepsBounds ((s.edge_keeps i n).ite (.rfl' s)).bounds h
  | transmissionEnd => exact (execTransmissionEnd_keeps h).bounds
  | memoryUpset r flips => exact State.next_keepsBounds (State.keeps.ite (.rfl' s) (s.upset_keeps r flips)).bounds h
  | inquire => exact State.next_keepsBounds (s.serve_keeps fun s => State.complete_keeps ..).bounds h
  | ready =>
    exact State.next_keepsBounds (s.serve_keeps (State.dispatch_keeps _ _ fun s => State.complete_keeps ..)).bounds h
  | capacity =>
    exact State.next_keepsBounds (s.serve_keeps (State.dispatch_keeps _ _ fun s => State.complete_keeps ..)).bounds h
  | mode =>
    exact State.next_keepsBounds (s.serve_keeps (State.dispatch_keeps _ _ fun s => State.complete_keeps ..)).bounds h
  | eject =>
    exact State.next_keepsBounds (s.serve_keeps (State.dispatch_keeps _ _ fun s =>
      s.softEject_keeps.trans (State.complete_keeps ..))).bounds h
  | sense => exact State.next_keepsBounds (s.serve_keeps State.answerSense_keeps).bounds h
  | badCommand => exact State.next_keepsBounds (s.serve_keeps fun s => State.complete_keeps ..).bounds h
  | read =>
    exact State.next_keepsBounds (s.serve_keeps (State.dispatch_keeps _ _
      (State.rangeChecked_keeps _ _ _ (State.beginRead_keeps _ _)))).bounds h
  | blockDelivery => exact (execBlockDelivery_keeps h).bounds
  | fetchExpiry i =>
    exact State.next_keepsBounds ((s.atDeadline_keeps _ (State.expireFetch_keeps i)).bounds.settle s) h
  | write =>
    exact State.next_keepsBounds (s.serve_keeps (State.dispatch_keeps _ _
      (State.rangeChecked_keeps _ _ _ (State.beginWrite_keeps _ _)))).bounds h
  | writeBlock => exact (execWriteBlock_keeps h).bounds
  | stallDeadline => exact State.next_keepsBounds (s.atDeadline_keeps _ (State.endCurrent_keeps _)).bounds h
  | drainExpiry => exact (execDrainExpiry_keeps h).bounds
  | sync => exact State.next_keepsBounds (s.serve_keeps (State.dispatch_keeps _ _ State.beginSync_keeps)).bounds h
  | syncDeadline => exact State.next_keepsBounds (s.atDeadline_keeps _ (State.endCurrent_keeps _)).bounds h
  | usbReset => exact State.next_keepsBounds (State.keeps.ite s.reconnect_keeps (.rfl' s)).bounds h
  | pinChange => exact State.next_keepsBounds (s.keeps_power _).bounds h
  | pgRise => exact State.next_keepsBounds (s.atDeadline_keeps _ State.rise_keeps).bounds h
  | pgFall => exact State.next_keepsBounds (s.atDeadline_keeps _ State.fall_keeps).bounds h
  | rstsEdgeActive => exact State.next_keepsBounds (s.atDeadline_keeps _ State.resetSeen_keeps).bounds h
  | rstsEdgeInactive => exact State.next_keepsBounds (s.atDeadline_keeps _ State.resetGone_keeps).bounds h
  | maskTailEnd => exact State.next_keepsBounds (s.atDeadline_keeps _ State.unmask_keeps).bounds h
  | phaseDeadline => exact State.next_keepsBounds (s.atDeadline_keeps _ State.phaseExpired_keeps).bounds h
  | bootTimerExpiry =>
    have hexpired := ((s.atDeadline_keeps s.sup.bootTimer State.bootExpired_keeps).trans
      (State.closeFall_keeps s _)).trans (State.settle_keeps s _)
    exact State.next_keepsBounds (hexpired.ite (.rfl' s)).bounds h
  | holdOffExpiry =>
    have hexpired := ((s.atDeadline_keeps s.sup.holdTimer State.holdExpired_keeps).trans
      (State.closeFall_keeps s _)).trans (State.settle_keeps s _)
    exact State.next_keepsBounds hexpired.bounds h

theorem State.tick_keeps (s : State) : s.keeps s.tick := by
  have hbreaks := s.endBreaks_keeps
  rcases s.tick_cases with ⟨-, e⟩ | ⟨c, cs, -, -, e⟩ | ⟨-, -, e⟩ <;> rw [e]
  · exact State.keeps.rfl' s
  · exact hbreaks.trans (State.keeps_of rfl rfl rfl rfl rfl rfl)
  · exact hbreaks.trans (State.time_keeps _ _)

theorem step_keepsBounds {s t : State} (h : step s = .next t) : s.keepsBounds t := by
  rcases hq : s.pending with _ | ⟨c, rest⟩
  · rw [step_empty hq] at h
    exact State.next_keepsBounds s.tick_keeps.bounds h
  · rw [step_front hq] at h
    have hrest : s.keeps { s with pending := rest } := State.keeps_of rfl rfl rfl rfl rfl rfl
    exact hrest.bounds.trans (exec_keepsBounds h)

/-- Settles O58: the only writes to buffer memory store bytes in its canonical form, and a part reset empties it. -/
theorem memoryStaysCanonical : Obligations.MemoryStaysCanonical :=
  fun _ _ hmem hstep => (step_keepsBounds hstep).mem hmem

/-- Settles O59: a reply joins the queue only where a slot is free, and every other operation keeps its own bound. -/
theorem boundsAreKeptByEveryStep : Obligations.BoundsAreKeptByEveryStep := by
  intro s t hreplies hports hepochs hdrains hstep
  have h := step_keepsBounds hstep
  exact ⟨h.replies hreplies, h.ports hports, h.epochs hepochs, h.drains hdrains⟩

end Sys2Proof.Machine
end

/-! # Steps and the management link (00, Conventions; R173 to R185) -/

section
namespace Sys2Proof.Machine

/-! ## The terms of a claim about a request -/

/-- A taken request whose handler leaves `u`, with the status byte shifted out, is answered. -/
theorem State.request_answered {α : Type} {s t u : State} (hr : s.inReady = true) (kind tag : Byte) {a : α}
    {f : Handler α} {st : Status} {body : List Byte} (h : f a s.shiftStatus = (t, st, body))
    (ht : t = { u with link := { u.link with statusOut := s.statusByte } }) :
    s.request kind tag (some a) f = s.answered kind tag st body u := by
  rw [State.request_taken hr, h, ht]; rfl

/-- A taken request whose handler changes nothing. -/
theorem State.request_unchanged {α : Type} {s : State} (hr : s.inReady = true) (kind tag : Byte) {a : α}
    {f : Handler α} {st : Status} {body : List Byte} (h : f a s.shiftStatus = (s.shiftStatus, st, body)) :
    s.request kind tag (some a) f = s.answered kind tag st body s :=
  State.request_answered hr kind tag h rfl

theorem State.request_lengthRefused {α : Type} {s : State} (hr : s.inReady = true) (kind tag : Byte) {fs : Option α}
    (hfs : fs = none) (f : Handler α) : s.request kind tag fs f = s.answered kind tag .badLength [] s := by
  rw [hfs, State.request_badLength hr]; rfl

/-- An answer to a request that changes nothing but the link gives the cache no notice. -/
theorem State.settle_answered (s : State) (kind tag : Byte) (st : Status) (body : List Byte) :
    State.settle s (s.answered kind tag st body s) = s.answered kind tag st body s :=
  State.settle_same rfl rfl rfl rfl

theorem State.settle_shiftStatus (s : State) : State.settle s s.shiftStatus = s.shiftStatus :=
  State.settle_same rfl rfl rfl rfl

/-! ## Fields of a payload -/

theorem fields_eq_none_iff : ∀ (ks : List Nat) (p : List Byte), fields ks p = none ↔ p.length ≠ ks.sum
  | [], [] => by simp [fields]
  | [], _ :: _ => by simp [fields]
  | k :: ks, p => by
    rw [fields]
    split
    · simp only [true_iff, List.sum_cons]; omega
    · rw [Option.map_eq_none_iff, fields_eq_none_iff ks, List.length_drop, List.sum_cons]
      omega

theorem length_of_fields : ∀ {ks : List Nat} {p : List Byte} {xs : List Nat}, fields ks p = some xs →
    xs.length = ks.length
  | [], [], xs, h => by obtain rfl := Option.some.inj h; rfl
  | [], _ :: _, xs, h => by cases h
  | k :: ks, p, xs, h => by
    rw [fields] at h
    split at h
    · cases h
    · obtain ⟨ys, hys, rfl⟩ := Option.map_eq_some_iff.1 h
      rw [List.length_cons, List.length_cons, length_of_fields hys]

/-- A payload of the right length has its fields. -/
theorem exists_fields {ks : List Nat} {p : List Byte} (h : p.length = ks.sum) :
    ∃ xs, fields ks p = some xs ∧ xs.length = ks.length := by
  rcases hf : fields ks p with _ | xs
  · exact absurd h ((fields_eq_none_iff ks p).1 hf)
  · exact ⟨xs, rfl, length_of_fields hf⟩

theorem fields_cons_byte (b : Byte) (ks : List Nat) (p : List Byte) :
    fields (1 :: ks) (b :: p) = (fields ks p).map (b.toNat :: ·) := by
  rw [fields, if_neg (by simp)]
  simp [leNat]

/-- Fields of a number's bytes, then of the rest. -/
theorem fields_append {k : Nat} {bs : List Byte} (hk : bs.length = k) (ks : List Nat) (p : List Byte) :
    fields (k :: ks) (bs ++ p) = (fields ks p).map (leNat bs :: ·) := by
  rw [fields, if_neg (by simp [hk]), List.take_left' hk, List.drop_left' hk]

theorem fields_nil : fields [] [] = some [] := rfl

theorem fields0_eq_none {p : List Byte} (h : p.length ≠ 0) : fields0 p = none :=
  if_neg fun e : p = [] => h (by rw [e]; rfl)

theorem fields1_eq_none {a : Nat} {p : List Byte} (h : p.length ≠ a) : fields1 a p = none := by
  unfold fields1; rw [(fields_eq_none_iff [a] p).2 (by simpa using h)]

theorem fields2_eq_none {a b : Nat} {p : List Byte} (h : p.length ≠ a + b) : fields2 a b p = none := by
  unfold fields2; rw [(fields_eq_none_iff [a, b] p).2 (by simpa using h)]

theorem fields3_eq_none {a b c : Nat} {p : List Byte} (h : p.length ≠ a + b + c) : fields3 a b c p = none := by
  unfold fields3
  rw [(fields_eq_none_iff [a, b, c] p).2 (by simp only [List.sum_cons, List.sum_nil]; omega)]

/-! ## Steps -/

theorem State.mem_dueEvents_of {s : State} (h : s.phaseDue = some s.time ∨ s.sup.holdTimer = some s.time ∨
    (s.sup.state = .waiting ∧ s.sup.bootTimer = some s.time)) : s.dueEvents ≠ [] := by
  have hsome : ∃ e, e ∈ s.dueEvents := by
    simp only [State.dueEvents, List.mem_append, mem_dueAt]
    rcases h with h | h | ⟨hw, h⟩
    · exact ⟨.phaseDeadline, by simp [h]⟩
    · exact ⟨.holdOffExpiry, by simp [h]⟩
    · exact ⟨.bootTimerExpiry, by simp [State.bootTimerDue, hw, h]⟩
  exact List.ne_nil_of_mem hsome.choose_spec

theorem State.endBreaks_port (s : State) (i : PortId) : s.endBreaks.ports[i] =
    if s.ports[i].sending = some (.brk s.time) then { s.ports[i] with sending := some .mark } else s.ports[i] := by
  have hport : s.endBreaks.ports[i] = s.ports[i].endBreak s.time := vmap_getElem _ _ _ _
  rw [hport]
  rcases Port.endBreak_cases s.time s.ports[i] with ⟨hs, e⟩ | ⟨hs, e⟩ <;> rw [e]
  · rw [if_pos hs]
  · rw [if_neg hs]

/-- Settles O1: a step with an empty queue is a tick, whose three cases are those of the statement. -/
theorem stepRunsFrontCommand : Obligations.StepRunsFrontCommand := by
  refine ⟨fun c rest s => rfl, fun s hq => ⟨fun hr => ?reset, fun hr => ⟨?due, ?idle, ?timers⟩, rfl, s.endBreaks_port⟩⟩
  case reset =>
    rw [step_empty hq, State.tick, if_pos hr]
  case due =>
    intro e es he
    rw [step_empty hq, State.tick, if_neg (by simp [hr])]
    dsimp only
    rw [he]
    have hpending : s.endBreaks.pending = [] := hq
    simp only [hpending, List.nil_append]
  case idle =>
    intro he
    rw [step_empty hq, State.tick, if_neg (by simp [hr])]
    dsimp only
    rw [he]
    rfl
  case timers =>
    intro hdue
    obtain ⟨e, es, he⟩ := List.exists_cons_of_ne_nil (State.mem_dueEvents_of (s := s.endBreaks) hdue)
    refine ⟨e, ?_⟩
    rw [step_empty hq, State.tick, if_neg (by simp [hr])]
    dsimp only
    rw [he]
    have hpending : s.endBreaks.pending = [] := hq
    simp only [hpending, List.nil_append]

/-! ## The status byte (R173) -/

theorem State.statusByte_bits (s : State) :
    s.statusByte.getLsbD 7 = true ∧ (∀ k, 2 ≤ k → k ≤ 6 → s.statusByte.getLsbD k = false) ∧
      s.statusByte.getLsbD 1 = (!s.inReset && s.inReady) ∧ s.statusByte.getLsbD 0 = (!s.inReset && s.outReady) := by
  unfold State.statusByte
  cases s.inReset <;> cases s.inReady <;> cases s.outReady
  all_goals
    refine ⟨by decide, fun k h2 h6 => ?_, by decide, by decide⟩
    interval_cases k <;> decide

theorem State.bytesRead_eq (n : Nat) (s : State) :
    s.bytesRead n = (List.range n).map fun k => s.link.outFrame.getD k 0 := rfl

/-- The bytes of a list, then 0 at every place past its end. -/
theorem map_range_getD {α : Type} (bs : List α) (d : α) (n : Nat) :
    (List.range n).map (fun k => bs.getD k d) = bs.take n ++ List.replicate (n - bs.length) d := by
  refine List.ext_getElem (by simp; omega) fun k hk _ => ?_
  simp only [List.getElem_map, List.getElem_range, List.getElem_append, List.length_take, List.getElem_take,
    List.getElem_replicate]
  have hkn : k < n := by simpa using hk
  by_cases hb : k < bs.length
  · rw [dif_pos (by omega), List.getD_eq_getElem _ _ hb]
  · rw [dif_neg (by omega), List.getD_eq_default _ _ (by omega)]

/-- Settles O2, by the values of the three levels that the status byte carries. -/
theorem statusByteIsShiftedOut : Obligations.StatusByteIsShiftedOut := by
  refine ⟨fun op bytes s => ?_, fun op s => ⟨rfl, fun hop k => if_neg hop, fun n hn => ?_, fun n hn => ?_⟩⟩
  · obtain ⟨h7, hmid, h1, h0⟩ := s.statusByte_bits
    refine ⟨rfl, rfl, h7, hmid, ?_, h0⟩
    rw [h1, State.inReady, State.slotsUsed, ← Bool.and_assoc, Bool.and_self]
  · rw [State.bytesRead_eq, map_range_getD, Nat.sub_eq_zero_of_le hn, List.replicate_zero, List.append_nil]
  · rw [State.bytesRead_eq, map_range_getD, List.take_of_length_le hn]

/-! ## Frames that are no request, and frames at a full queue (R174, R177) -/

theorem State.whenReady_taken {s : State} (hr : s.inReady = true) (take : State → State) :
    s.whenReady take = take s.shiftStatus := if_pos hr

theorem State.whenReady_ignored {s : State} (hr : s.inReady = false) (take : State → State) :
    s.whenReady take = s.shiftStatus := if_neg (by simp [hr])

theorem exec_badFrame {bytes : List Byte} {f : FrameFault} {s : State} (hr : s.inReady = true)
    (hf : collect bytes = .fault f) :
    exec (.badFrame bytes) s = .next (s.answered 0 0 .badFrame [frameFaultCode f] s) := by
  show Host.Outcome.next _ = _
  rw [State.whenReady_taken hr, hf]
  rfl

theorem exec_unknownKind {kind : Byte} (tag : Byte) (payload : List Byte) {s : State} (hr : s.inReady = true)
    (hk : kind ∉ requestKinds) :
    exec (.unknownKind kind tag payload) s = .next (s.answered kind tag .unknownKind [] s) := by
  show Host.Outcome.next _ = _
  rw [State.whenReady_taken hr, if_neg hk]
  rfl

/-- A request that finds no room, and whose completion is a notice to the cache. -/
theorem State.settle_request_ignored {α : Type} {s : State} (hr : s.inReady = false) (kind tag : Byte)
    (fs : Option α) (f : Handler α) : State.settle s (s.request kind tag fs f) = s.shiftStatus := by
  rw [State.request_ignored hr, State.settle_shiftStatus]

theorem execDevReset_ignored {s : State} (hr : s.inReady = false) (tag : Byte) (payload : List Byte) :
    execDevReset tag payload s = .next s.shiftStatus := by
  unfold execDevReset; split
  · rw [if_neg (by simp [hr])]
  · rw [State.request_ignored hr]

theorem execConEnable_ignored {s : State} (hr : s.inReady = false) (tag : Byte) (payload : List Byte) :
    execConEnable tag payload s = .next s.shiftStatus := by
  rw [execConEnable, State.requestOpt_ignored hr]; rfl

/-- No request is taken while IN_READY is 0. -/
theorem exec_request_ignored {c : Instr} {s : State} (hr : s.inReady = false) (hc : (requestOf c).isSome = true) :
    exec c s = .next s.shiftStatus := by
  cases c
  case devReset tag payload => exact execDevReset_ignored hr tag payload
  case conEnable tag payload => exact execConEnable_ignored hr tag payload
  case setSave tag payload => exact congrArg Host.Outcome.next (State.whenReady_ignored hr _)
  case conClear | medExtentDel | medFill | medFillFail | medPut | medUnpin | medDrain | medClean =>
    exact congrArg Host.Outcome.next (State.settle_request_ignored hr _ _ _ _)
  case devIdent | devTime | setDefaults | faultGet | faultClear | poolStatus | conConfig | conDisable | conRead |
      conFindTime | conNotify | conWrite | conBreak | conStatus | markSet | markClear | markGet | xlatLoad | xlatRead |
      epochGet | medConfig | medAttach | medExtentAdd | medPresent | medEject | medPin | medStatus | pwrConfig |
      pwrAction | pwrAbort | pwrStatus | bootPolicy | bootRelease =>
    exact congrArg Host.Outcome.next (State.request_ignored hr _ _ _ _)
  all_goals exact absurd hc (by simp [requestOf])

/-- Settles O3: what stands at IN_READY 1 is the reply of R177, and at IN_READY 0 the status byte alone. -/
theorem framesNeedAKindAndRoom : Obligations.FramesNeedAKindAndRoom := by
  refine ⟨fun s hr => ⟨fun bytes f hf => exec_badFrame hr hf, fun kind tag payload hk =>
    exec_unknownKind tag payload hr hk⟩, fun c s hr hc => ?_⟩
  rcases hc with hc | ⟨bytes, rfl⟩ | ⟨k, t, p, rfl⟩
  · exact exec_request_ignored hr hc
  · exact congrArg Host.Outcome.next (State.whenReady_ignored hr _)
  · exact congrArg Host.Outcome.next (State.whenReady_ignored hr _)

end Sys2Proof.Machine
end

/-! # Refused requests and the outbound arbiter (R174, R177, R178, R182 to R184) -/

section
namespace Sys2Proof.Machine

/-! ## Lengths a kind permits (R178) -/

/-- A kind with one length permits that length alone. -/
theorem permitted_fixed {kind : Byte} {n : Nat} (hk : (kind, n) ∈ fixedLengths) (p : List Byte) :
    permitted kind p = decide (p.length = n) := by
  have hvaried : ∀ x ∈ fixedLengths, x.1 ≠ 0x17 ∧ x.1 ≠ 0x20 ∧ x.1 ≠ 0x23 := by decide
  have hunique : ∀ x ∈ fixedLengths, ∀ y ∈ fixedLengths, x.1 = y.1 → x.2 = y.2 := by decide
  obtain ⟨h17, h20, h23⟩ := hvaried _ hk
  rw [permitted, if_neg h17, if_neg h20, if_neg h23, Bool.eq_iff_iff, List.any_eq_true, decide_eq_true_eq]
  constructor
  · rintro ⟨x, hx, hmatch⟩
    obtain ⟨hkind, hlen⟩ : x.1 = kind ∧ x.2 = p.length := by simpa using hmatch
    rw [← hlen, hunique x hx (kind, n) hk hkind]
  · intro hlen
    exact ⟨(kind, n), hk, by simp [hlen]⟩

theorem length_ne_of_not_permitted {kind : Byte} {n : Nat} {p : List Byte} (hk : (kind, n) ∈ fixedLengths)
    (hp : permitted kind p = false) : p.length ≠ n := by
  rw [permitted_fixed hk] at hp; simpa using hp

theorem length_of_permitted {kind : Byte} {n : Nat} {p : List Byte} (hk : (kind, n) ∈ fixedLengths)
    (hp : permitted kind p = true) : p.length = n := by
  rw [permitted_fixed hk] at hp; simpa using hp

/-! ## Payloads of no permitted length have no fields -/

theorem parseConConfig_eq_none {p : List Byte} (h : p.length ≠ 10) : parseConConfig p = none := by
  unfold parseConConfig; rw [(fields_eq_none_iff _ p).2 (by simpa using h)]

theorem parseMedConfig_eq_none {p : List Byte} (h : p.length ≠ 8) : parseMedConfig p = none := by
  unfold parseMedConfig; rw [(fields_eq_none_iff _ p).2 (by simpa using h)]

theorem parseExtentAdd_eq_none {p : List Byte} (h : p.length ≠ 18) : parseExtentAdd p = none := by
  unfold parseExtentAdd; rw [(fields_eq_none_iff _ p).2 (by simpa using h)]

theorem parsePwrConfig_eq_none {p : List Byte} (h : p.length ≠ 23) : parsePwrConfig p = none := by
  unfold parsePwrConfig; rw [(fields_eq_none_iff _ p).2 (by simpa using h)]

theorem parsePolicy_eq_none {p : List Byte} (h : p.length ≠ 10) : parsePolicy p = none := by
  unfold parsePolicy; rw [(fields_eq_none_iff _ p).2 (by simpa using h)]

theorem parseFill_eq_none {p : List Byte} (h : p.length ≠ 515) : parseFill p = none := by
  unfold parseFill parseBlock; rw [if_neg (show ¬ p.length = 3 + blockBytes from h)]

theorem parsePut_eq_none {p : List Byte} (h : p.length ≠ 516) : parsePut p = none := by
  unfold parsePut parseBlock; rw [if_neg (show ¬ p.length = 4 + blockBytes from h)]; rfl

theorem parseHandle_eq_none {p : List Byte} (h : p.length ≠ 2) : parseHandle p = none := by
  unfold parseHandle; split
  · exact absurd rfl h
  · rfl

theorem permitted_conWrite (p : List Byte) : permitted 0x17 p = decide (1 ≤ p.length ∧ p.length ≤ 1025) := by
  rw [permitted, if_pos rfl]

theorem parseConWrite_eq_none {p : List Byte} (h : permitted 0x17 p = false) : parseConWrite p = none := by
  rw [permitted_conWrite, decide_eq_false_iff_not] at h
  cases p with
  | nil => rfl
  | cons b data =>
    rw [List.length_cons] at h
    exact if_neg (by omega)

theorem permitted_markSet (p : List Byte) : permitted 0x20 p = markSetLength p := by
  rw [permitted, if_neg (by decide), if_pos rfl]

/-- The byte of a MARK_SET payload that gives the length of its inject text. -/
theorem getD_injectLength (idx en pl : Byte) (rest : List Byte) (n : Nat) :
    (idx :: en :: pl :: rest).getD (7 + n) 0 = (rest.drop n).getD 4 0 := by
  rw [show 7 + n = n + 4 + 1 + 1 + 1 by omega, List.getD_eq_getElem?_getD, List.getElem?_cons_succ,
    List.getElem?_cons_succ, List.getElem?_cons_succ, List.getD_eq_getElem?_getD, List.getElem?_drop]

/-- A MARK_SET payload has its fields only where its length agrees with its two text lengths (R48). -/
theorem markSetLength_of_parse {p : List Byte} {r : MarkSetReq} (h : parseMarkSet p = some r) :
    markSetLength p = true ∧ r.index = (p.getD 0 0).toNat := by
  unfold parseMarkSet at h
  split at h
  · next idx en pl rest =>
    split at h
    · cases h
    next hpl =>
    split at h
    · next mask role rep once il inj hrest =>
      split at h
      · next hinj =>
        obtain rfl := Option.some.inj h
        refine ⟨?_, rfl⟩
        have hsplit : rest = rest.take pl.toNat ++ mask :: role :: rep :: once :: il :: inj := by
          rw [← hrest, List.take_append_drop]
        have htake : (rest.take pl.toNat).length = pl.toNat := by rw [List.length_take]; omega
        have hil : (idx :: en :: pl :: rest).getD (7 + pl.toNat) 0 = il := by rw [getD_injectLength, hrest]; rfl
        have hlen : rest.length = pl.toNat + 5 + inj.length := by
          have hwhole := congrArg List.length hsplit
          simp only [List.length_append, htake, List.length_cons] at hwhole
          omega
        unfold markSetLength
        simp only [List.getD_cons_succ, List.getD_cons_zero, hil, List.length_cons, Bool.and_eq_true,
          decide_eq_true_eq]
        omega
      · cases h
    · cases h
  · cases h

theorem parseMarkSet_eq_none {p : List Byte} (h : permitted 0x20 p = false) : parseMarkSet p = none := by
  rw [permitted_markSet] at h
  rcases hp : parseMarkSet p with _ | r
  · rfl
  · rw [(markSetLength_of_parse hp).1] at h; cases h

/-- A MARK_SET payload of a permitted length has its fields (R48). -/
theorem exists_parseMarkSet {p : List Byte} (h : permitted 0x20 p = true) : ∃ r, parseMarkSet p = some r := by
  rw [permitted_markSet] at h
  match p, h with
  | idx :: en :: pl :: rest, h =>
    unfold markSetLength at h
    simp only [List.getD_cons_succ, List.getD_cons_zero, List.length_cons, Bool.and_eq_true, decide_eq_true_eq] at h
    obtain ⟨hlong, hlen⟩ := h
    have hdrop : (rest.drop pl.toNat).length = rest.length - pl.toNat := List.length_drop
    match hd : rest.drop pl.toNat with
    | mask :: role :: rep :: once :: il :: inj =>
      rw [hd] at hdrop
      simp only [List.length_cons] at hdrop
      have hil : (idx :: en :: pl :: rest).getD (7 + pl.toNat) 0 = il := by rw [getD_injectLength, hd]; rfl
      rw [hil] at hlen
      simp only [parseMarkSet]
      rw [if_neg (by omega), hd]
      exact ⟨_, if_pos (by omega)⟩
    | [] | [_] | [_, _] | [_, _, _] | [_, _, _, _] =>
      rw [hd] at hdrop
      simp only [List.length_cons, List.length_nil] at hdrop
      omega
  | [], h => simp [markSetLength] at h
  | [_], h => simp [markSetLength] at h
  | [_, _], h => simp [markSetLength] at h

theorem permitted_xlatLoad (p : List Byte) : permitted 0x23 p =
    decide (4 ≤ p.length ∧ p.length = 4 + 2 * leNat [p.getD 2 0, p.getD 3 0]) := by
  rw [permitted, if_neg (by decide), if_neg (by decide), if_pos rfl]

theorem parseXlatLoad_eq_none {p : List Byte} (h : permitted 0x23 p = false) : parseXlatLoad p = none := by
  rw [permitted_xlatLoad, decide_eq_false_iff_not] at h
  unfold parseXlatLoad
  split
  · next t st c0 c1 rest =>
    refine if_neg fun e => h ?_
    simp only [List.length_cons, List.getD_cons_succ, List.getD_cons_zero]
    omega
  · rfl

/-! ## BAD_LENGTH -/

theorem execSetSave_lengthRefused {s : State} (hr : s.inReady = true) (tag : Byte) {p : List Byte}
    (hp : fields0 p = none) : execSetSave tag p s = .next (s.answered 0x04 tag .badLength [] s) := by
  unfold execSetSave
  rw [State.whenReady_taken hr, hp]
  rfl

theorem execDevReset_lengthRefused {s : State} (hr : s.inReady = true) (tag : Byte) {p : List Byte}
    (hp : fields0 p = none) : execDevReset tag p s = .next (s.answered 0x03 tag .badLength [] s) := by
  unfold execDevReset
  rw [hp]
  exact congrArg Host.Outcome.next (State.request_badLength hr _ _ _)

theorem execConEnable_lengthRefused {s : State} (hr : s.inReady = true) (tag : Byte) {p : List Byte}
    (hp : fields1 1 p = none) : execConEnable tag p s = .next (s.answered 0x11 tag .badLength [] s) := by
  unfold execConEnable
  rw [hp, State.requestOpt_badLength hr]
  rfl

/-- A request whose completion is a notice to the cache, refused for its length. -/
theorem State.settle_lengthRefused {α : Type} {s : State} (hr : s.inReady = true) (kind tag : Byte) {fs : Option α}
    (hfs : fs = none) (f : Handler α) :
    State.settle s (s.request kind tag fs f) = s.answered kind tag .badLength [] s := by
  rw [State.request_lengthRefused hr kind tag hfs, State.settle_answered]

theorem exec_lengthRefused {c : Instr} {kind tag : Byte} {p : List Byte} {s : State} (hr : s.inReady = true)
    (hc : requestOf c = some (kind, tag, p)) (hp : permitted kind p = false) :
    exec c s = .next (s.answered kind tag .badLength [] s) := by
  cases c
  all_goals first | (obtain ⟨rfl, rfl, rfl⟩ : _ ∧ _ ∧ _ := by simpa [requestOf] using hc) | cases hc
  case setSave => exact execSetSave_lengthRefused hr _ (fields0_eq_none (length_ne_of_not_permitted (by decide) hp))
  case devReset => exact execDevReset_lengthRefused hr _ (fields0_eq_none (length_ne_of_not_permitted (by decide) hp))
  case conEnable => exact execConEnable_lengthRefused hr _ (fields1_eq_none (length_ne_of_not_permitted (by decide) hp))
  case devIdent | devTime | setDefaults | faultGet | faultClear | poolStatus | medPresent | medStatus | pwrAbort |
      pwrStatus | bootRelease =>
    exact congrArg Host.Outcome.next (State.request_lengthRefused hr _ _
      (fields0_eq_none (length_ne_of_not_permitted (by decide) hp)) _)
  case conDisable | conStatus | markClear | markGet | epochGet | medEject | medPin =>
    exact congrArg Host.Outcome.next (State.request_lengthRefused hr _ _
      (fields1_eq_none (length_ne_of_not_permitted (by decide) hp)) _)
  case conFindTime | conNotify | conBreak | medAttach | pwrAction =>
    exact congrArg Host.Outcome.next (State.request_lengthRefused hr _ _
      (fields2_eq_none (length_ne_of_not_permitted (by decide) hp)) _)
  case conRead | xlatRead =>
    exact congrArg Host.Outcome.next (State.request_lengthRefused hr _ _
      (fields3_eq_none (length_ne_of_not_permitted (by decide) hp)) _)
  case conConfig =>
    exact congrArg Host.Outcome.next (State.request_lengthRefused hr _ _
      (parseConConfig_eq_none (length_ne_of_not_permitted (by decide) hp)) _)
  case medConfig =>
    exact congrArg Host.Outcome.next (State.request_lengthRefused hr _ _
      (parseMedConfig_eq_none (length_ne_of_not_permitted (by decide) hp)) _)
  case medExtentAdd =>
    exact congrArg Host.Outcome.next (State.request_lengthRefused hr _ _
      (parseExtentAdd_eq_none (length_ne_of_not_permitted (by decide) hp)) _)
  case pwrConfig =>
    exact congrArg Host.Outcome.next (State.request_lengthRefused hr _ _
      (parsePwrConfig_eq_none (length_ne_of_not_permitted (by decide) hp)) _)
  case bootPolicy =>
    exact congrArg Host.Outcome.next (State.request_lengthRefused hr _ _
      (parsePolicy_eq_none (length_ne_of_not_permitted (by decide) hp)) _)
  case conWrite => exact congrArg Host.Outcome.next (State.request_lengthRefused hr _ _ (parseConWrite_eq_none hp) _)
  case markSet => exact congrArg Host.Outcome.next (State.request_lengthRefused hr _ _ (parseMarkSet_eq_none hp) _)
  case xlatLoad => exact congrArg Host.Outcome.next (State.request_lengthRefused hr _ _ (parseXlatLoad_eq_none hp) _)
  case conClear | medExtentDel | medUnpin =>
    exact congrArg Host.Outcome.next (State.settle_lengthRefused hr _ _
      (fields1_eq_none (length_ne_of_not_permitted (by decide) hp)) _)
  case medDrain =>
    exact congrArg Host.Outcome.next (State.settle_lengthRefused hr _ _
      (fields0_eq_none (length_ne_of_not_permitted (by decide) hp)) _)
  case medClean =>
    exact congrArg Host.Outcome.next (State.settle_lengthRefused hr _ _
      (fields2_eq_none (length_ne_of_not_permitted (by decide) hp)) _)
  case medFill =>
    exact congrArg Host.Outcome.next (State.settle_lengthRefused hr _ _
      (parseFill_eq_none (length_ne_of_not_permitted (by decide) hp)) _)
  case medFillFail =>
    exact congrArg Host.Outcome.next (State.settle_lengthRefused hr _ _
      (parseHandle_eq_none (length_ne_of_not_permitted (by decide) hp)) _)
  case medPut =>
    exact congrArg Host.Outcome.next (State.settle_lengthRefused hr _ _
      (parsePut_eq_none (length_ne_of_not_permitted (by decide) hp)) _)

/-! ## BAD_FIELD -/

/-- A payload's first field of one byte, with the fields after it. -/
theorem exists_fields_of_byte {ks : List Nat} {p : List Byte} (h : p.length = 1 + ks.sum) :
    ∃ xs, fields (1 :: ks) p = some ((p.getD 0 0).toNat :: xs) ∧ xs.length = ks.length := by
  match p, h with
  | b :: q, h =>
    obtain ⟨xs, hxs, hlen⟩ := exists_fields (ks := ks) (p := q) (by rw [List.length_cons] at h; omega)
    exact ⟨xs, by rw [fields_cons_byte, hxs]; rfl, hlen⟩
  | [], h => simp at h; omega

theorem fields1_of_byte {p : List Byte} (h : p.length = 1) : fields1 1 p = some (p.getD 0 0).toNat := by
  obtain ⟨xs, hxs, hlen⟩ := exists_fields_of_byte (ks := []) (p := p) h
  obtain rfl := List.length_eq_zero_iff.1 hlen
  unfold fields1
  rw [hxs]

theorem fields2_of_byte {p : List Byte} {n : Nat} (h : p.length = 1 + n) :
    ∃ x, fields2 1 n p = some ((p.getD 0 0).toNat, x) := by
  obtain ⟨xs, hxs, hlen⟩ := exists_fields_of_byte (ks := [n]) (p := p) (by simpa using h)
  obtain ⟨x, rfl⟩ := List.length_eq_one_iff.1 hlen
  exact ⟨x, by unfold fields2; rw [hxs]⟩

theorem fields3_of_byte {p : List Byte} {m n : Nat} (h : p.length = 1 + m + n) :
    ∃ x, fields3 1 m n p = some ((p.getD 0 0).toNat, x) := by
  obtain ⟨xs, hxs, hlen⟩ := exists_fields_of_byte (ks := [m, n]) (p := p) (by simpa [Nat.add_assoc] using h)
  obtain ⟨x, y, rfl⟩ := List.length_eq_two.1 hlen
  exact ⟨(x, y), by unfold fields3; rw [hxs]⟩

theorem parseConConfig_of_length {p : List Byte} (h : p.length = 10) :
    ∃ r, parseConConfig p = some r ∧ r.port = (p.getD 0 0).toNat := by
  obtain ⟨xs, hxs, hlen⟩ := exists_fields_of_byte (ks := [1, 1, 1, 1, 1, 1, 1, 1, 1]) (p := p) (by simpa using h)
  match xs, hlen with
  | [a, b, c, d, e, f, g, i, j], _ => exact ⟨_, by unfold parseConConfig; rw [hxs], rfl⟩

theorem parseConWrite_of_length {p : List Byte} (h : permitted 0x17 p = true) :
    ∃ data, parseConWrite p = some ((p.getD 0 0).toNat, data) := by
  rw [permitted_conWrite, decide_eq_true_eq] at h
  match p, h with
  | b :: data, h =>
    rw [List.length_cons] at h
    exact ⟨data, if_pos (by omega)⟩
  | [], h => simp at h

theorem onMarker_above {n : Nat} (hn : 15 < n) (h : Fin 16 → State → State × Status × List Byte) (s : State) :
    onMarker n h s = (s, .badField, []) := by
  simp [onMarker, markerOf, show ¬ n < 16 by omega, alone]

theorem extentOf_above {n : Nat} (hn : 31 < n) : extentOf n = none := dif_neg (by omega)

/-- A request of two fields, the first a port number above 3. -/
theorem State.request_fields2_portRefused {s : State} (hr : s.inReady = true) (kind tag : Byte) {n : Nat}
    {p : List Byte} (hp : p.length = 1 + n) {f : Handler (Nat × Nat)}
    (hf : ∀ x t, f ((p.getD 0 0).toNat, x) t = (t, .badField, [])) :
    s.request kind tag (fields2 1 n p) f = s.answered kind tag .badField [] s := by
  obtain ⟨x, hx⟩ := fields2_of_byte hp
  rw [hx, State.request_unchanged hr _ _ (hf x _)]

/-- A request of one field, refused for it. -/
theorem State.request_fields1_refused {s : State} (hr : s.inReady = true) (kind tag : Byte)
    {p : List Byte} (hp : p.length = 1) {f : Handler Nat}
    (hf : ∀ t, f (p.getD 0 0).toNat t = (t, .badField, [])) :
    s.request kind tag (fields1 1 p) f = s.answered kind tag .badField [] s := by
  rw [fields1_of_byte hp, State.request_unchanged hr _ _ (hf _)]

theorem execConEnable_portRefused {s : State} (hr : s.inReady = true) (tag : Byte) {p : List Byte}
    (hp : p.length = 1) (h : 3 < (p.getD 0 0).toNat) :
    execConEnable tag p s = .next (s.answered 0x11 tag .badField [] s) := by
  unfold execConEnable
  rw [fields1_of_byte hp, State.requestOpt_taken hr, conEnable, portOf_above h]
  rfl

theorem execConClear_portRefused {s : State} (hr : s.inReady = true) (tag : Byte) {p : List Byte}
    (hp : p.length = 1) (h : 3 < (p.getD 0 0).toNat) :
    execConClear tag p s = .next (s.answered 0x13 tag .badField [] s) := by
  unfold execConClear
  rw [State.request_fields1_refused hr _ _ hp fun t => onPort_above h _ t, State.settle_answered]

theorem medExtentDel_above {n : Nat} (hn : 31 < n) (s : State) : medExtentDel n s = (s, .badField, []) := by
  unfold medExtentDel; rw [extentOf_above hn]; rfl

theorem execMedExtentDel_indexRefused {s : State} (hr : s.inReady = true) (tag : Byte) {p : List Byte}
    (hp : p.length = 1) (h : 31 < (p.getD 0 0).toNat) :
    execMedExtentDel tag p s = .next (s.answered 0x33 tag .badField [] s) := by
  unfold execMedExtentDel
  rw [State.request_fields1_refused hr _ _ hp fun t => medExtentDel_above h t, State.settle_answered]

/-- A request that names a port above 3. -/
theorem exec_portRefused {c : Instr} {kind tag : Byte} {p : List Byte} {s : State} (hr : s.inReady = true)
    (hc : requestOf c = some (kind, tag, p)) (hp : permitted kind p = true)
    (hkind : 0x10 ≤ kind.toNat ∧ kind.toNat ≤ 0x19) (h : 3 < (p.getD 0 0).toNat) :
    exec c s = .next (s.answered kind tag .badField [] s) := by
  cases c
  all_goals first | (obtain ⟨rfl, rfl, rfl⟩ : _ ∧ _ ∧ _ := by simpa [requestOf] using hc) | cases hc
  case conConfig =>
    obtain ⟨r, hparse, hport⟩ := parseConConfig_of_length (length_of_permitted (by decide) hp)
    refine congrArg Host.Outcome.next ?_
    rw [hparse]
    exact State.request_unchanged hr _ _ (onPort_above (by omega) _ _)
  case conEnable => exact execConEnable_portRefused hr _ (length_of_permitted (by decide) hp) h
  case conClear => exact execConClear_portRefused hr _ (length_of_permitted (by decide) hp) h
  case conRead =>
    obtain ⟨x, hx⟩ := fields3_of_byte (m := 6) (n := 2) (length_of_permitted (by decide) hp)
    refine congrArg Host.Outcome.next ?_
    rw [hx]
    exact State.request_unchanged hr _ _ (onPort_above h _ _)
  case conWrite =>
    obtain ⟨data, hparse⟩ := parseConWrite_of_length hp
    refine congrArg Host.Outcome.next ?_
    rw [hparse]
    exact State.request_unchanged hr _ _ (onPort_above h _ _)
  case conDisable | conStatus =>
    exact congrArg Host.Outcome.next (State.request_fields1_refused hr _ _ (length_of_permitted (by decide) hp)
      fun t => onPort_above h _ t)
  case conFindTime | conNotify | conBreak =>
    exact congrArg Host.Outcome.next (State.request_fields2_portRefused hr _ _ (length_of_permitted (by decide) hp)
      fun x t => onPort_above h _ t)
  all_goals exact absurd hkind (by decide)

/-- A request that names a marker above 15. -/
theorem exec_markerRefused {c : Instr} {kind tag : Byte} {p : List Byte} {s : State} (hr : s.inReady = true)
    (hc : requestOf c = some (kind, tag, p)) (hp : permitted kind p = true)
    (hkind : 0x20 ≤ kind.toNat ∧ kind.toNat ≤ 0x22) (h : 15 < (p.getD 0 0).toNat) :
    exec c s = .next (s.answered kind tag .badField [] s) := by
  cases c
  all_goals first | (obtain ⟨rfl, rfl, rfl⟩ : _ ∧ _ ∧ _ := by simpa [requestOf] using hc) | cases hc
  case markSet =>
    obtain ⟨r, hparse⟩ := exists_parseMarkSet hp
    have hindex := (markSetLength_of_parse hparse).2
    refine congrArg Host.Outcome.next ?_
    rw [hparse]
    exact State.request_unchanged hr _ _ (onMarker_above (by omega) _ _)
  case markClear | markGet =>
    exact congrArg Host.Outcome.next (State.request_fields1_refused hr _ _ (length_of_permitted (by decide) hp)
      fun t => onMarker_above h _ t)
  all_goals exact absurd hkind (by decide)

/-- A request that names an extent index above 31. -/
theorem exec_extentRefused {c : Instr} {tag : Byte} {p : List Byte} {s : State} (hr : s.inReady = true)
    (hc : requestOf c = some (0x33, tag, p)) (hp : permitted 0x33 p = true) (h : 31 < (p.getD 0 0).toNat) :
    exec c s = .next (s.answered 0x33 tag .badField [] s) := by
  have hlen : p.length = 1 := length_of_permitted (by decide) hp
  cases c
  case medExtentDel t q =>
    obtain ⟨rfl, rfl⟩ : t = tag ∧ q = p := by simpa [requestOf] using hc
    exact execMedExtentDel_indexRefused hr _ hlen h
  all_goals simp [requestOf] at hc

/-- Settles O4, by kind of request. -/
theorem badRequestsAreRefused : Obligations.BadRequestsAreRefused := by
  refine ⟨fun c kind tag p s hc hp hr => exec_lengthRefused hr hc hp, fun c kind tag p s hc hp hr hbad => ?_⟩
  rcases hbad with ⟨hlow, hhigh, h⟩ | ⟨hlow, hhigh, h⟩ | ⟨rfl, h⟩
  · exact exec_portRefused hr hc hp ⟨hlow, hhigh⟩ h
  · exact exec_markerRefused hr hc hp ⟨hlow, hhigh⟩ h
  · exact exec_extentRefused hr hc hp h

/-! ## The arbiter (R175, R182) -/

theorem State.choose_reset {s : State} (hr : s.inReset = true) : s.choose = s.hold .empty emptyFrame := by
  rw [State.choose, if_pos hr]

theorem State.choose_reply {s : State} (hr : s.inReset = false) {r : Reply} {rs : List Reply}
    (h : s.link.replies = r :: rs) : s.choose = s.hold .reply (replyFrame r) := by
  rw [State.choose, if_neg (by simp [hr]), h]

theorem State.choose_notice {s : State} (hr : s.inReset = false) {n : Notice} {ns : List Notice}
    (hrep : s.link.replies = []) (h : s.link.notices = n :: ns) : s.choose = s.hold (.notice n) (noticeFrame n) := by
  rw [State.choose, if_neg (by simp [hr]), hrep, h]

theorem State.choose_report {s : State} (hr : s.inReset = false) {r : Report} (hrep : s.link.replies = [])
    (hnot : s.link.notices = []) (h : s.firstReport = some r) : s.choose = s.chooseReport r := by
  rw [State.choose, if_neg (by simp [hr]), hrep, hnot, h]

theorem State.choose_empty {s : State} (hr : s.inReset = false) (hrep : s.link.replies = [])
    (hnot : s.link.notices = []) (h : s.firstReport = none) : s.choose = s.hold .empty emptyFrame := by
  rw [State.choose, if_neg (by simp [hr]), hrep, hnot, h]

/-- The first pending report is the one before which none is pending. -/
theorem State.firstReport_eq {s : State} {before after : List Report} {r : Report}
    (horder : [.start, .fault, .power, .boot, .media, .mark, .conLine 0, .conLine 1, .conLine 2, .conLine 3, .conData 0,
      .conData 1, .conData 2, .conData 3] = before ++ r :: after)
    (hbefore : ∀ x ∈ before, x ∉ s.link.flags) (hr : r ∈ s.link.flags) : s.firstReport = some r := by
  unfold State.firstReport
  rw [List.find?_eq_some_iff_append]
  exact ⟨by simpa using hr, before, after, horder, by simpa using hbefore⟩

theorem State.firstReport_none {s : State} (h : s.link.flags = []) : s.firstReport = none := by
  unfold State.firstReport
  rw [List.find?_eq_none]
  simp [h]

/-- What the choice of a report leaves. -/
theorem State.chooseReport_eq (r : Report) (s : State) : s.chooseReport r = { s with
    link := { s.link with
      flags := s.link.flags.filter (· ≠ r), held := some (.report r (if r = .mark then s.markReg.count else 0)),
      outFrame := buildFrame (reportCode r) 0 (s.encReport r) },
    markReg := if r = .mark then { s.markReg with count := 0 } else s.markReg } := by
  unfold State.chooseReport State.markCarried
  split <;> rfl

theorem execReadTransaction_chosen {s : State} (hheld : s.link.held = none) :
    exec .readTransaction s = .next s.shiftStatus.choose := by
  show Host.Outcome.next (if s.link.held.isSome then s else s.shiftStatus.choose) = _
  rw [hheld]
  rfl

/-- The status byte shifted out is no part of any report. -/
theorem State.encReport_shiftStatus (s : State) (r : Report) : s.shiftStatus.encReport r = s.encReport r := by
  cases r <;> rfl

/-! ## The end of a READ (R175, R183, R184) -/

theorem State.endRead_held {s : State} {h : Held} (hh : s.link.held = some h) (n : Nat) : s.endRead n =
    if s.link.outFrame.length ≤ n
    then { s.readOutComplete h with link := { (s.readOutComplete h).link with held := none } }
    else { s.readOutCut h with link := { (s.readOutCut h).link with held := none } } := by
  unfold State.endRead
  rw [hh]
  dsimp only
  split <;> rfl

/-- Settles O5: the arbiter's choice by what waits, and the end of a READ by what is held. -/
theorem readsChooseByRankAndEndWhole : Obligations.ReadsChooseByRankAndEndWhole := by
  refine ⟨fun s hheld => ⟨fun hr => ?_, fun hr => ⟨?_, ?_, ?_, ?_⟩⟩, fun s n => ⟨?_, ?_, ?_, ?_, ?_⟩⟩
  · rw [execReadTransaction_chosen hheld, State.choose_reset (s := s.shiftStatus) hr]
    have hstatus : s.statusByte = 0x80 := by simp [State.statusByte, hr]
    rw [← hstatus]
    rfl
  · intro r rs h
    rw [execReadTransaction_chosen hheld, State.choose_reply (s := s.shiftStatus) hr h]
    rfl
  · intro m ns hrep h
    rw [execReadTransaction_chosen hheld, State.choose_notice (s := s.shiftStatus) hr hrep h]
    rfl
  · intro before r after hrep hnot horder hbefore hflag
    rw [execReadTransaction_chosen hheld, State.choose_report (s := s.shiftStatus) hr hrep hnot
      (State.firstReport_eq horder hbefore hflag), State.chooseReport_eq, State.encReport_shiftStatus]
    rfl
  · intro hrep hnot hflags
    rw [execReadTransaction_chosen hheld, State.choose_empty (s := s.shiftStatus) hr hrep hnot
      (State.firstReport_none hflags)]
    rfl
  · intro hheld
    show Host.Outcome.next (s.endRead n) = _
    unfold State.endRead
    rw [hheld]
  · rintro (hheld | hheld) <;> show Host.Outcome.next (s.endRead n) = _ <;>
      rw [State.endRead_held hheld, State.readOutComplete, State.readOutCut, ite_self]
  · intro r rs hheld hrep
    show Host.Outcome.next (s.endRead n) = _
    rw [State.endRead_held hheld, State.readOutComplete, State.readOutCut]
    split
    · simp only [hrep, List.tail_cons]
    · rw [← hrep]
  · intro m hheld
    show Host.Outcome.next (s.endRead n) = _
    rw [State.endRead_held hheld, State.readOutComplete, State.readOutCut]
    split <;> rfl
  · intro r c hheld
    refine ⟨fun hwhole => ?_, fun hcut => ?_⟩ <;> show Host.Outcome.next (s.endRead n) = _
    · rw [State.endRead_held hheld, if_pos hwhole]; rfl
    · rw [State.endRead_held hheld, if_neg (by omega), State.readOutCut, State.setFlag_eq]

end Sys2Proof.Machine
end

/-! # Resets, the settings image, identification and the fault record (12; R70) -/

section
namespace Sys2Proof.Machine

/-! ## Part resets (R186) -/

/-- Settles O6: what a part reset sets, field by field, and RESET_END with no reset in progress. -/
theorem partResetReturnsDefaults : Obligations.PartResetReturnsDefaults := by
  refine fun s c => ⟨fun hc => hc ▸ rfl, fun hc => hc ▸ rfl, fun hr => ?_, rfl⟩
  show execResetEnd s = .next s
  rw [execResetEnd, if_neg (by simp [hr])]

/-! ## The connection (R120, R121) -/

/-- The server's port as the conditions of R120 leave it. -/
def ServerPort.followed (on : Bool) (u : ServerPort) : ServerPort :=
  if on = u.connected then u
  else if on then { u with connected := true, mediumChanged := true, sense := none }
  else { u with connected := false, current := none, sense := none }

theorem State.updateConnection_eq (s : State) :
    s.updateConnection = { s with usb := s.usb.followed s.shouldConnect } := by
  unfold State.updateConnection ServerPort.followed
  split
  · rfl
  · split <;> rfl

/-! ## The restore (R188) -/

theorem State.requestAction_busy {s : State} (h : s.action.isSome = true) (k : ActionKind) (esc : Bool) (r : Requester) :
    s.requestAction k esc r = s := by
  unfold State.requestAction State.answerTo
  rw [if_pos h]
  rfl

theorem State.requestAction_free {s : State} (h : s.action = none) (k : ActionKind) (esc : Bool) (r : Requester) :
    s.requestAction k esc r = s.accept k esc r (actionTable k s.pgHigh) := by
  unfold State.requestAction State.answerTo
  rw [if_neg (by simp [h])]

/-- What a request that finds its goal reached leaves. -/
theorem State.alreadyAction_eq (k : ActionKind) (esc : Bool) (r : Requester) (s : State) :
    s.alreadyAction k esc r = State.setFlag .power { s with power := { s.power with
      prior := s.power.last,
      last := some { kind := k, escalate := esc, requester := r, start := s.time, phase := none, deadline := 0,
                     escalated := false, result := some .already, ended := some s.time, pressedAt := 0 } } } := rfl

/-- What an action begun at a phase other than RESET_PULSE leaves. -/
theorem State.beginAction_eq {p : Phase} (hp : p ≠ .resetPulse) (k : ActionKind) (esc : Bool) (r : Requester) (s : State) :
    s.beginAction k esc r p = State.updateConnection { s with power := { s.power with
      prior := s.power.last,
      last := some { kind := k, escalate := esc, requester := r, start := s.time, phase := some p,
                     deadline := s.after (phaseDuration s.power.cfg p), escalated := false, result := none,
                     ended := none, pressedAt := if p = .pressOn then s.time else 0 } } } := by
  unfold State.beginAction State.enterPhase
  dsimp only
  rw [if_neg hp]
  rfl

theorem State.takeRestore_busy {s : State} (h : s.action.isSome = true) :
    s.takeRestore = { s with restore := .requested } := by
  unfold State.takeRestore; rw [State.requestAction_busy h]

theorem State.takeRestore_on {s : State} (h : s.action = none) (hon : s.pgHigh = true) :
    s.takeRestore = State.setFlag .power { s with
      restore := .requested,
      power := { s.power with
        prior := s.power.last,
        last := some { kind := .on, escalate := false, requester := .restore, start := s.time, phase := none,
                       deadline := 0, escalated := false, result := some .already, ended := some s.time,
                       pressedAt := 0 } } } := by
  unfold State.takeRestore
  rw [State.requestAction_free h, hon, actionTable, State.accept, State.alreadyAction_eq, State.setFlag_eq, State.setFlag_eq]

theorem State.takeRestore_off {s : State} (h : s.action = none) (hoff : s.pgHigh = false) :
    s.takeRestore = State.updateConnection { s with
      restore := .requested,
      power := { s.power with
        prior := s.power.last,
        last := some { kind := .on, escalate := false, requester := .restore, start := s.time, phase := some .pressOn,
                       deadline := s.after s.power.cfg.press, escalated := false, result := none, ended := none,
                       pressedAt := s.time } } } := by
  unfold State.takeRestore
  rw [State.requestAction_free h, hoff, actionTable, State.accept, State.beginAction_eq (by decide),
    State.updateConnection_eq, State.updateConnection_eq]
  rfl

/-- Settles O8: the deadline's event is the request, by the sequencer's answer to it. -/
theorem restoreIsRequestedAtItsDeadline : Obligations.RestoreIsRequestedAtItsDeadline := by
  intro s d hw hd
  have hexec : exec .restoreDeadline s = .next (State.takeRestore { s with time := d }) := by
    show Host.Outcome.next (s.atDeadline (restoreDeadline s.restore) State.takeRestore) = _
    have hdue : restoreDeadline s.restore = some d := by rw [hw]; rfl
    rw [hdue, State.atDeadline_due hd]
  rw [hexec]
  refine ⟨fun hbusy => ?_, fun hfree hon => ?_, fun hfree hoff => ?_⟩
  · rw [State.takeRestore_busy (s := { s with time := d }) hbusy]
  · rw [State.takeRestore_on (s := { s with time := d }) hfree hon]
  · rw [State.takeRestore_off (s := { s with time := d }) hfree hoff]
    rfl

/-! ## The save (R189) -/

/-- Settles O9, by whether a save is in progress. -/
theorem saveRunsToItsReply : Obligations.SaveRunsToItsReply := by
  refine fun s tag => ⟨fun hr hs => ?_, fun hr hs => ?_, fun hs => ?_, fun j hs => ?_⟩
  · show execSetSave tag [] s = _
    unfold execSetSave
    rw [State.whenReady_taken hr]
    simp only [fields0, if_pos, State.shiftStatus, hs, Option.isSome_none, Bool.false_eq_true, if_false]
    rfl
  · show execSetSave tag [] s = _
    unfold execSetSave
    rw [State.whenReady_taken hr]
    have hsome : s.save.isSome = true := Option.isSome_iff_ne_none.2 hs
    simp only [fields0, if_pos, State.shiftStatus, hsome]
    rfl
  · show execSaveEnd s = _
    rw [execSaveEnd, hs]
  · show execSaveEnd s = _
    rw [execSaveEnd, hs]
    rfl

/-! ## Identification, time, faults and the pool (R191, R192, R70) -/

theorem num_one_flag (b : Bool) : num 1 (if b then 0 else 1) = [if b then 0 else 1] := by cases b <;> rfl

theorem vector4_toList {α : Type} (v : Vector α 4) : v.toList = [v[0], v[1], v[2], v[3]] := by
  apply List.ext_getElem (by simp)
  intro n h _
  have hn : n < 4 := by simpa using h
  interval_cases n <;> simp

/-- Four values, one after another. -/
theorem vector4_flatten {α : Type} (v : Vector α 4) (f : α → List Byte) :
    (v.toList.map f).flatten = f v[0] ++ f v[1] ++ f v[2] ++ f v[3] := by
  rw [vector4_toList]
  simp only [List.map_cons, List.map_nil, List.flatten_cons, List.flatten_nil, List.append_nil, List.append_assoc]

/-- Settles O12: each reply's body. -/
theorem partWideReplies : Obligations.PartWideReplies := by
  refine fun s tag hr => ⟨?_, ?_, ?_, ?_⟩ <;> refine congrArg Host.Outcome.next ?_
  · refine (State.request_unchanged hr 0x01 tag (a := ()) (f := devIdent) rfl).trans ?_
    rw [show s.shiftStatus.start = s.start from rfl, show s.shiftStatus.save = s.save from rfl, num_one_flag]
    rfl
  · refine (State.request_unchanged hr 0x02 tag (a := ()) (f := devTime) rfl).trans ?_
    cases hc : s.cause <;> rw [show s.shiftStatus.cause = s.cause from rfl, hc] <;> rfl
  · exact State.request_unchanged hr 0x06 tag (a := ()) (f := faultGet) rfl
  · refine (State.request_unchanged hr 0x08 tag (a := ()) (f := poolStatus) rfl).trans ?_
    rw [vector4_flatten, vector4_flatten]
    simp only [List.append_assoc]
    rfl

/-- Settles O13: what a record leaves, and what a clear does. -/
theorem faultsAreRecordedAndCleared : Obligations.FaultsAreRecordedAndCleared := by
  refine ⟨fun s k => ⟨?_, ?_⟩, fun s tag hr => congrArg Host.Outcome.next ?_⟩
  · unfold State.recordFault
    rw [State.setFlag_faults, satInc]
    cases s.faults.first <;> rfl
  · exact (State.mem_setFlag _ _ _).2 (.inl rfl)
  · exact State.request_answered hr 0x07 tag (a := ()) (f := faultClear) rfl rfl

/-! ## SET_DEFAULTS (R190) -/

end Sys2Proof.Machine
end

/-! # The invariants at reset, SET_DEFAULTS and the requests that only report -/

section
namespace Sys2Proof.Machine

/-! ## The state after reset -/

theorem reset_PoolInv : State.reset.PoolInv :=
  fresh_PoolInv rfl rfl rfl rfl rfl rfl (fun _ h => by cases h) rfl

theorem reset_portsOk : State.reset.portsOk := by
  intro i
  rw [show State.reset.ports[i] = resetPort from Vector.getElem_replicate _]
  exact ⟨Nat.zero_le _, Nat.zero_le _⟩

/-- Settles O60: the reset state holds nothing that the bounds count, and its pool is fresh. -/
theorem resetMeetsTheInvariants : Obligations.ResetMeetsTheInvariants :=
  ⟨Memory.wf_nil, Nat.zero_le _, reset_portsOk, ⟨Nat.zero_le _, fun _ h => by cases h⟩, Nat.zero_le _,
    reset_PoolInv.poolOk, reset_PoolInv⟩

/-! ## Changes of the four ports in turn -/

theorem modPort_port (i j : PortId) (f : Port → Port) (s : State) :
    (s.modPort i f).ports[j] = if j = i then f s.ports[j] else s.ports[j] := by
  by_cases h : j = i
  · subst h; rw [if_pos rfl]; exact vupd_self _ _ _
  · rw [if_neg h]; exact vupd_ne _ _ h

/-- A fold of changes, each of its own port and alike for all states that agree on `k`, changes each port once. -/
theorem foldl_ports {κ : Type} {f : State → PortId → State} {k : State → κ} {g : PortId → κ → Port → Port}
    (hf : ∀ (s : State) (i j : PortId), (f s i).ports[j] = if j = i then g i (k s) s.ports[j] else s.ports[j])
    (hk : ∀ (s : State) (i : PortId), k (f s i) = k s) :
    ∀ (is : List PortId), is.Nodup → ∀ (s : State) (j : PortId),
      (is.foldl f s).ports[j] = if j ∈ is then g j (k s) s.ports[j] else s.ports[j] := by
  intro is
  induction is with
  | nil => intro _ s j; rw [if_neg List.not_mem_nil]; rfl
  | cons i is ih =>
    intro hnodup s j
    obtain ⟨hi, hrest⟩ := List.nodup_cons.1 hnodup
    rw [List.foldl_cons, ih hrest, hf, hk]
    by_cases hj : j = i
    · subst hj; rw [if_neg hi, if_pos rfl, if_pos List.mem_cons_self]
    · rw [if_neg hj]; simp [hj]

/-! ## SET_DEFAULTS (R190) -/

/-- A port as SET_DEFAULTS' disable leaves it. -/
def Port.disabled (p : Port) : Port := if p.enabled then p.disable else p

theorem State.disableAll_port (s : State) (i : PortId) : s.disableAll.ports[i] = s.ports[i].disabled := by
  have hone : ∀ (t : State) (i j : PortId), (if t.ports[i].enabled then t.disablePort i else t).ports[j] =
      if j = i then t.ports[j].disabled else t.ports[j] := by
    intro t i j
    unfold Port.disabled
    have hport : (t.disablePort i).ports[j] = if j = i then t.ports[j].disable else t.ports[j] :=
      modPort_port i j Port.disable t
    by_cases h : j = i
    · subst h; rw [if_pos rfl] at hport ⊢; split
      · exact hport
      · rfl
    · rw [if_neg h] at hport ⊢; split
      · exact hport
      · rfl
  have h := foldl_ports (f := fun (t : State) i => if t.ports[i].enabled then t.disablePort i else t)
    (k := fun _ => ()) (g := fun _ _ p => p.disabled) hone (fun _ _ => rfl) (List.finRange 4) (List.nodup_finRange 4) s i
  rw [if_pos (List.mem_finRange i)] at h
  exact h

/-- Disabling the ports changes the ports and clears report flags. -/
theorem State.disableAll_frame (s : State) :
    ∃ ps fl, s.disableAll = { s with ports := ps, link := { s.link with flags := fl } } := by
  unfold State.disableAll
  generalize List.finRange 4 = is
  induction is generalizing s with
  | nil => exact ⟨s.ports, s.link.flags, rfl⟩
  | cons i is ih =>
    rw [List.foldl_cons]
    split
    · obtain ⟨ps, fl, h⟩ := ih (s.disablePort i)
      exact ⟨ps, fl, h⟩
    · exact ih s

theorem Port.disabled_enabled (p : Port) : p.disabled.enabled = false := by
  unfold Port.disabled; split
  · rfl
  · next h => simpa using h

theorem Port.disabled_pages (p : Port) : p.disabled.pages = p.pages := by unfold Port.disabled; split <;> rfl
theorem Port.disabled_w (p : Port) : p.disabled.w = p.w := by unfold Port.disabled; split <;> rfl

/-! ## Settings written (R187, R190) -/

/-- The console records written, port by port. -/
def State.writeConfigs (c : SettingsImage) (s : State) : State :=
  (List.finRange 4).foldl (fun s i => s.modPort i fun p => { p with cfg := s.recordFor i c.consoles[i].1 }) s

theorem State.writeConfigs_port (c : SettingsImage) (s : State) (i : PortId) :
    (s.writeConfigs c).ports[i] = { s.ports[i] with cfg := s.recordFor i c.consoles[i].1 } := by
  have h := foldl_ports
    (f := fun (t : State) i => t.modPort i fun p => { p with cfg := t.recordFor i c.consoles[i].1 })
    (k := fun t => t.committed) (g := fun i committed p => { p with
      cfg := if p.pages = [] then c.consoles[i].1 else { c.consoles[i].1 with quota := committed[i] } })
    (fun t i j => by
      rw [modPort_port]
      by_cases h : j = i
      · subst h; rfl
      · rw [if_neg h, if_neg h])
    (fun t i => rfl) (List.finRange 4) (List.nodup_finRange 4) s i
  rw [if_pos (List.mem_finRange i)] at h
  exact h

theorem State.writeConfigs_frame (c : SettingsImage) (s : State) :
    s.writeConfigs c = { s with ports := (s.writeConfigs c).ports } := by
  unfold State.writeConfigs
  generalize List.finRange 4 = is
  induction is generalizing s with
  | nil => rfl
  | cons i is ih => rw [List.foldl_cons, ih]; rfl

theorem State.setPolicy_eq (p : BootPolicy) (s : State) : s.setPolicy p = { s with sup := { s.sup with
    epochs := (s.settlePending .unsupervised).sup.epochs, policy := p, state := .idle, attempts := 0,
    bootTimer := none, holdTimer := none, ret := none } } := by
  unfold State.setPolicy
  obtain ⟨e, h⟩ := s.settlePending_frame .unsupervised
  rw [h]
  rfl

/-- Settings written, part by part; the server's port follows its conditions. -/
theorem State.writeSettings_eq (c : SettingsImage) (s : State) : ∃ u, s.writeSettings c = { s with
    ports := (s.writeConfigs c).ports, t0 := c.t0, t1 := c.t1,
    markers := vmap c.markers fun m => { cfg := m, hits := 0, spent := false },
    power := { s.power with cfg := c.power },
    sup := { s.sup with
      epochs := (s.settlePending .unsupervised).sup.epochs, policy := c.policy, state := .idle, attempts := 0,
      bootTimer := none, holdTimer := none, ret := none },
    medCfg := c.media, usb := u } := by
  have h : s.writeSettings c = State.updateConnection { State.setPolicy c.policy (State.modPower
      (fun p => { p with cfg := c.power }) { s.writeConfigs c with
        t0 := c.t0, t1 := c.t1, markers := vmap c.markers fun m => { cfg := m, hits := 0, spent := false } }) with
      medCfg := c.media } := rfl
  rw [State.updateConnection_eq, State.setPolicy_eq, State.writeConfigs_frame] at h
  have hepochs : (State.settlePending .unsupervised (State.modPower (fun p => { p with cfg := c.power })
      { s with ports := (s.writeConfigs c).ports, t0 := c.t0, t1 := c.t1,
               markers := vmap c.markers fun m => { cfg := m, hits := 0, spent := false } })).sup.epochs =
      (s.settlePending .unsupervised).sup.epochs := by
    unfold State.settlePending State.modOpen
    have hopen : (State.modPower (fun p => { p with cfg := c.power })
        { s with ports := (s.writeConfigs c).ports, t0 := c.t0, t1 := c.t1,
                 markers := vmap c.markers fun m => { cfg := m, hits := 0, spent := false } }).openEpoch =
        s.openEpoch := rfl
    rw [hopen]
    split <;> rfl
  rw [hepochs] at h
  exact ⟨_, h⟩

theorem setDefaults_busy {s : State} (h : s.action.isSome = true ∨ s.save.isSome = true) :
    setDefaults () s = (s, .busy, []) := if_pos h

theorem setDefaults_free {s : State} (ha : s.action = none) (hs : s.save = none) :
    setDefaults () s = ((s.disableAll).writeSettings defaultSettings, .ok, encMask s.enabledMask) :=
  if_neg (by simp [ha, hs])

/-- Settles O10: BUSY, or the frames of the disables and of the settings written after them. -/
theorem defaultsAreRestored : Obligations.DefaultsAreRestored := by
  refine fun s tag hr => ⟨fun hbusy => congrArg Host.Outcome.next ?_, fun ha hs => ?_⟩
  · exact State.request_unchanged hr 0x05 tag (a := ()) (f := setDefaults) (setDefaults_busy (s := s.shiftStatus) hbusy)
  · have hexec : exec (.setDefaults tag []) s = .next ((s.shiftStatus.disableAll.writeSettings defaultSettings).pushReply
        (mkReply 0x05 tag .ok (encMask s.enabledMask))) := by
      refine congrArg Host.Outcome.next ((State.request_taken hr 0x05 tag () setDefaults).trans ?_)
      rw [setDefaults_free (s := s.shiftStatus) ha hs]
      rfl
    obtain ⟨ps, fl, hd⟩ := s.shiftStatus.disableAll_frame
    obtain ⟨u, hw⟩ := s.shiftStatus.disableAll.writeSettings_eq defaultSettings
    have hport : ∀ i : PortId, (s.shiftStatus.disableAll.writeConfigs defaultSettings).ports[i] =
        { s.ports[i].disabled with
          cfg := s.shiftStatus.disableAll.recordFor i defaultSettings.consoles[i].1 } := by
      intro i
      rw [State.writeConfigs_port, State.disableAll_port]
      rfl
    have hpages : ∀ i : PortId, s.shiftStatus.disableAll.ports[i].pages = s.ports[i].pages := by
      intro i
      rw [State.disableAll_port]
      exact Port.disabled_pages _
    have hcommitted : s.shiftStatus.disableAll.committed = s.committed := by rw [hd]; rfl
    generalize s.shiftStatus.disableAll.writeConfigs defaultSettings = v at *
    refine ⟨_, hexec, ?_⟩
    rw [hw]
    refine ⟨rfl, rfl, fun m => ?_, ?_, rfl, rfl, rfl, rfl, fun i => ⟨?_, ?_, ?_, ?_⟩, ?_, ?_, ?_, ?_, ?_, ?_, ?_, ?_, ?_, ?_, ?_⟩
    case refine_1 =>
      exact (vmap_getElem _ _ _ _).trans (by simp [defaultSettings, clearedMarker])
    case refine_3 => exact (congrArg Port.enabled (hport i)).trans (Port.disabled_enabled _)
    case refine_4 => exact (congrArg Port.pages (hport i)).trans (Port.disabled_pages _)
    case refine_5 => exact (congrArg Port.w (hport i)).trans (Port.disabled_w _)
    case refine_6 =>
      refine (congrArg Port.cfg (hport i)).trans ?_
      have hdefault : defaultSettings.consoles[i].1 = defaultConConfig := by simp [defaultSettings]
      unfold State.recordFor
      dsimp only
      rw [hdefault, hpages i, hcommitted]
      split <;> rfl
    all_goals rw [hd]; rfl

/-! ## The requests that only report -/

/-- A request whose handler changes nothing is answered. -/
theorem State.request_query {α : Type} {s : State} (hr : s.inReady = true) (kind tag : Byte) {f : Handler α} (a : α)
    (hf : ∀ t, (f a t).1 = t) : ∃ st body, s.request kind tag (some a) f = s.answered kind tag st body s :=
  ⟨_, _, State.request_unchanged hr kind tag (st := (f a s.shiftStatus).2.1) (body := (f a s.shiftStatus).2.2)
    (Prod.ext (hf _) rfl)⟩

theorem onPort_unchanged {h : PortId → State → State × Status × List Byte} (hh : ∀ i s, (h i s).1 = s) (n : Nat) (s : State) :
    (onPort n h s).1 = s := by
  unfold onPort; split
  · exact hh _ _
  · rfl

theorem onMarker_unchanged {h : Fin 16 → State → State × Status × List Byte} (hh : ∀ i s, (h i s).1 = s) (n : Nat)
    (s : State) : (onMarker n h s).1 = s := by
  unfold onMarker; split
  · exact hh _ _
  · rfl

theorem xlatRead_unchanged (r : Nat × Nat × Nat) (s : State) : (xlatRead r s).1 = s := by
  unfold xlatRead; split <;> rfl

theorem epochGet_unchanged (n : Nat) (s : State) : (epochGet n s).1 = s := by
  unfold epochGet; split
  · rfl
  · split <;> rfl

theorem exists_fields1 {a : Nat} {p : List Byte} (h : p.length = a) : ∃ x, fields1 a p = some x := by
  obtain ⟨xs, hxs, hlen⟩ := exists_fields (ks := [a]) (p := p) (by simpa using h)
  obtain ⟨x, rfl⟩ := List.length_eq_one_iff.1 hlen
  exact ⟨x, by unfold fields1; rw [hxs]⟩

theorem fields0_of_length {p : List Byte} (h : p.length = 0) : fields0 p = some () :=
  if_pos (List.length_eq_zero_iff.1 h)

theorem exists_next {s t : State} {kind tag : Byte} (h : ∃ st body, t = s.answered kind tag st body s) :
    ∃ st body, (Host.Outcome.next t : Result) = .next (s.answered kind tag st body s) := by
  obtain ⟨st, body, h⟩ := h
  exact ⟨st, body, congrArg _ h⟩

theorem exec_query {c : Instr} {kind tag : Byte} {p : List Byte} {s : State} (hr : s.inReady = true)
    (hc : requestOf c = some (kind, tag, p))
    (hkind : kind ∈ ([0x01, 0x02, 0x06, 0x08, 0x15, 0x19, 0x22, 0x24, 0x25, 0x3D, 0x43] : List Byte))
    (hp : permitted kind p = true) : ∃ st body, exec c s = .next (s.answered kind tag st body s) := by
  cases c
  all_goals first | (obtain ⟨rfl, rfl, rfl⟩ : _ ∧ _ ∧ _ := by simpa [requestOf] using hc) | cases hc
  case devIdent | devTime | faultGet | poolStatus | medStatus | pwrStatus =>
    refine exists_next ?_
    rw [fields0_of_length (length_of_permitted (by decide) hp)]
    exact State.request_query hr _ _ () fun t => rfl
  case conFindTime =>
    obtain ⟨x, hx⟩ := fields2_of_byte (n := 4) (length_of_permitted (by decide) hp)
    refine exists_next ?_
    rw [hx]
    exact State.request_query hr _ _ _ fun t => onPort_unchanged (fun i t => rfl) _ t
  case conStatus =>
    refine exists_next ?_
    rw [fields1_of_byte (length_of_permitted (by decide) hp)]
    exact State.request_query hr _ _ _ fun t => onPort_unchanged (fun i t => rfl) _ t
  case markGet =>
    refine exists_next ?_
    rw [fields1_of_byte (length_of_permitted (by decide) hp)]
    exact State.request_query hr _ _ _ fun t => onMarker_unchanged (fun i t => rfl) _ t
  case xlatRead =>
    obtain ⟨x, hx⟩ := fields3_of_byte (m := 1) (n := 2) (length_of_permitted (by decide) hp)
    refine exists_next ?_
    rw [hx]
    exact State.request_query hr _ _ _ fun t => xlatRead_unchanged _ t
  case epochGet =>
    obtain ⟨x, hx⟩ := exists_fields1 (a := 2) (length_of_permitted (by decide) hp)
    refine exists_next ?_
    rw [hx]
    exact State.request_query hr _ _ _ fun t => epochGet_unchanged _ t
  all_goals exact absurd hkind (by decide)

theorem flag_decide (P : Prop) [Decidable P] : flag (decide P) = [if P then 1 else 0] := by
  by_cases h : P <;> simp [flag, h]

theorem flag_decide_not (P : Prop) [Decidable P] : flag (decide (¬ P)) = [if P then 0 else 1] := by
  by_cases h : P <;> simp [flag, h]

theorem markerOf_val (m : Fin 16) : markerOf m.val = some m := dif_pos m.isLt

theorem onMarker_val (m : Fin 16) (h : Fin 16 → State → State × Status × List Byte) (s : State) :
    onMarker m.val h s = h m s := by unfold onMarker; rw [markerOf_val]

theorem byteOf_toNat {n : Nat} (h : n < 256) : (byteOf n).toNat = n := Nat.mod_eq_of_lt h

theorem num_toNat (b : Byte) : num 1 b.toNat = [b] := by
  simp [num]

theorem fields1_num {k n : Nat} (h : n < 256 ^ k) : fields1 k (num k n) = some n := by
  have hf := fields_append (num_length k n) [] []
  rw [List.append_nil] at hf
  unfold fields1
  rw [hf, leNat_num k n h]
  rfl

theorem fields3_xlatRead (n start : Byte) {c : Nat} (h : c < 65536) :
    fields3 1 1 2 ([n, start] ++ num 2 c) = some (n.toNat, start.toNat, c) := by
  have hf := fields_append (num_length 2 c) [] []
  rw [List.append_nil, leNat_num 2 c h] at hf
  unfold fields3
  rw [List.cons_append, fields_cons_byte, List.cons_append, fields_cons_byte, List.nil_append, hf]
  rfl

theorem epochGet_found {n : Nat} (hn : n ≠ 0) {e : EpochRec} {s : State}
    (h : s.sup.epochs.find? (fun e => e.number == n) = some e) : epochGet n s = (s, .ok, s.encTable ++ encEpoch e) := by
  unfold epochGet; rw [if_neg hn, h]

theorem epochGet_missing {n : Nat} (hn : n ≠ 0) {s : State} (h : ∀ e ∈ s.sup.epochs, e.number ≠ n) :
    epochGet n s = (s, .notFound, s.encTable) := by
  unfold epochGet
  rw [if_neg hn, List.find?_eq_none.2 fun e he => by simpa using h e he]

/-- Settles O11: a query's handler changes nothing, and the bodies of six. -/
theorem queriesChangeNothing : Obligations.QueriesChangeNothing := by
  refine ⟨fun c kind tag p s hc hkind hp hr => exec_query hr hc hkind hp,
    fun s tag hr => ⟨fun i => ?_, fun m => ?_, fun n start c k hn hc hk => ?_,
      fun n hn h0 => ⟨fun e he => ?_, fun hnone => ?_⟩, ?_, ?_, ?_⟩⟩ <;> refine congrArg Host.Outcome.next ?_
  · rw [fields1_one_byte, byteOf_port_toNat]
    refine (State.request_unchanged hr 0x19 tag (onPort_val i _ _)).trans ?_
    rw [flag_decide_not, flag_decide, flag_decide]
    rfl
  · rw [fields1_one_byte, byteOf_toNat (by omega)]
    exact State.request_unchanged hr 0x22 tag (onMarker_val m _ _)
  · rw [fields3_xlatRead n start hc]
    refine (State.request_unchanged hr 0x24 tag (if_neg (by omega))).trans ?_
    have hclamp : clamp 0 256 c = min 256 c := Nat.zero_max _
    dsimp only
    rw [num_toNat, num_toNat, hclamp, ← hk]
    rfl
  · rw [fields1_num (k := 2) hn]
    exact State.request_unchanged hr 0x25 tag (epochGet_found h0 (s := s.shiftStatus) he)
  · rw [fields1_num (k := 2) hn]
    exact State.request_unchanged hr 0x25 tag (epochGet_missing h0 (s := s.shiftStatus) hnone)
  · rw [fields1_num (k := 2) (by decide)]
    exact State.request_unchanged hr 0x25 tag (f := epochGet) rfl
  · exact State.request_unchanged hr 0x3D tag (f := medStatus) (a := ()) rfl
  · refine (State.request_unchanged hr 0x43 tag (f := pwrStatus) (a := ()) rfl).trans ?_
    simp only [encSense, List.append_assoc]
    rfl

end Sys2Proof.Machine
end

/-! # The start-up sequence (R186 to R188) -/

section
namespace Sys2Proof.Machine

/-! ## The transmitters (R16) -/

theorem State.framing_congr {s t : State} (h : t.power = s.power) (p : Port) : t.framing p = s.framing p := by
  unfold State.framing State.gated State.pgHigh; rw [h]

theorem State.kick_port (s : State) (i j : PortId) : (s.kick i).ports[j] =
    if j = i then (if s.framing s.ports[j] then s.ports[j].begin_ s.time else s.ports[j]) else s.ports[j] := by
  unfold State.kick
  by_cases h : j = i
  · subst h
    rw [if_pos rfl]
    split
    · rw [modPort_port, if_pos rfl]
    · rfl
  · rw [if_neg h]
    split
    · rw [modPort_port, if_neg h]
    · rfl

/-- Every port that frames begins the transmission of its queue's head. -/
theorem State.kickAll_port (s : State) (i : PortId) : (s.kickAll).ports[i] =
    if s.framing s.ports[i] then s.ports[i].begin_ s.time else s.ports[i] := by
  have hself : ∀ (t : State) (i j : PortId), (t.kick i).ports[j] =
      if j = i then (if ({ State.reset with power := t.power } : State).framing t.ports[j]
        then t.ports[j].begin_ t.time else t.ports[j]) else t.ports[j] := by
    intro t i j
    rw [State.kick_port, State.framing_congr (s := { State.reset with power := t.power }) (t := t) rfl]
  have h := foldl_ports (f := fun (t : State) i => t.kick i) (k := fun t => (t.power, t.time))
    (g := fun _ c p => if ({ State.reset with power := c.1 } : State).framing p then p.begin_ c.2 else p) hself
    (fun t i => by obtain ⟨p, hp⟩ := t.kick_frame i; rw [hp]) (List.finRange 4) (List.nodup_finRange 4) s i
  rw [if_pos (List.mem_finRange i),
    ← State.framing_congr (s := { State.reset with power := s.power }) (t := s) rfl] at h
  exact h

/-- What a beginning transmission leaves of a port. -/
theorem Port.beginTransmission_frame (now : PartTime) (p : Port) :
    ∃ q t x, p.begin_ now = { p with queue := q, slot := t, sending := x } := by
  unfold Port.begin_
  split
  · unfold Port.moveText
    split
    · split <;> exact ⟨_, _, _, rfl⟩
    · exact ⟨_, _, _, rfl⟩
  · exact ⟨p.queue, p.slot, p.sending, rfl⟩

theorem State.kickAll_port_frame (s : State) (i : PortId) :
    ∃ q t x, (s.kickAll).ports[i] = { s.ports[i] with queue := q, slot := t, sending := x } := by
  rw [State.kickAll_port]
  split
  · exact Port.beginTransmission_frame _ _
  · exact ⟨s.ports[i].queue, s.ports[i].slot, s.ports[i].sending, rfl⟩

/-- A port changed to what it is. -/
theorem State.modPort_same {i : PortId} {f : Port → Port} {s : State} (h : f s.ports[i] = s.ports[i]) :
    s.modPort i f = s := by
  have hports : vupd s.ports i f = s.ports := by
    apply Vector.ext
    intro n hn
    by_cases hi : (⟨n, hn⟩ : PortId) = i
    · rw [← hi] at h
      rw [← hi]
      exact (vupd_self _ _ _).trans h
    · exact vupd_ne _ _ hi
  show { s with ports := vupd s.ports i f } = s
  rw [hports]

/-- With nothing to send a transmitter stays idle. -/
theorem State.kick_idle {i : PortId} {s : State} (h : s.ports[i].queue = []) : s.kick i = s := by
  unfold State.kick
  split
  · have hidle : s.ports[i].begin_ s.time = s.ports[i] := by
      unfold Port.begin_
      rw [h]
      cases s.ports[i].sending <;> rfl
    exact State.modPort_same hidle
  · rfl

/-! ## A page for a port while no line is held (R60, R62) -/

/-- With fewer than 128 pages held, some page is FREE. -/
theorem State.lowestFree_ne_none {s : State} {held : List (Fin 128)} (hlen : held.length < 128)
    (hfree : ∀ p : Fin 128, p ∉ held → s.owners[p] = .free) : s.lowestFree ≠ none := by
  intro hnone
  rw [State.lowestFree_none] at hnone
  have hall : (Finset.univ : Finset (Fin 128)) ⊆ held.toFinset := by
    intro p _
    rw [List.mem_toFinset]
    by_contra hp
    exact hnone p (hfree p hp)
  have hcard := (Finset.card_le_card hall).trans held.toFinset_card_le
  simp only [Finset.card_univ, Fintype.card_fin] at hcard
  omega

/-- With no line, the check of R60 is that the commitments stay within 112. -/
theorem State.grants_of_no_lines {s : State} (h : s.cache = []) (q : Nat) :
    s.grants q = decide (s.committedSum + q ≤ 112) := by
  have hheld : s.heldCount = 0 := by unfold State.heldCount; rw [h]; rfl
  have hdirty : s.dirtyOrPinnedCount = 0 := by unfold State.dirtyOrPinnedCount; rw [h]; rfl
  unfold State.grants State.floor
  rw [hheld, hdirty, Bool.eq_iff_iff]
  simp only [Bool.and_eq_true, decide_eq_true_eq, show pageCount = 128 from rfl]
  omega

/-- An enable of a port with nothing to send whose list is empty, with no line and some page FREE. -/
theorem State.enablePort_fresh {i : PortId} {s : State} (hcache : s.cache = []) (hpages : s.ports[i].pages = [])
    (hqueue : s.ports[i].queue = []) {pg : Fin 128} (hpg : s.lowestFree = some pg) :
    s.enablePort i = if s.committedSum + s.ports[i].cfg.quota ≤ 112
      then some (.ok, { s with
        committed := vupd s.committed i fun _ => s.ports[i].cfg.quota,
        owners := vupd s.owners pg fun _ => .history i,
        ports := vupd s.ports i fun p => { p.enable with pages := [firstPage pg p.w] } })
      else some (.noSpace, s) := by
  have hsupply : State.supplyHistory i { s with committed := vupd s.committed i fun _ => s.ports[i].cfg.quota } =
      some (pg, State.setOwner pg (.history i)
        { s with committed := vupd s.committed i fun _ => s.ports[i].cfg.quota }) := by
    unfold State.supplyHistory
    rw [show State.lowestFree { s with committed := vupd s.committed i fun _ => s.ports[i].cfg.quota } = some pg from hpg]
  unfold State.enablePort
  rw [if_pos hpages, State.grants_of_no_lines hcache]
  by_cases hroom : s.committedSum + s.ports[i].cfg.quota ≤ 112
  · rw [if_pos (decide_eq_true hroom), if_pos hroom, hsupply]
    dsimp only
    rw [State.kick_idle]
    · rfl
    · rw [modPort_port, if_pos rfl]
      exact hqueue
  · rw [if_neg (by simpa using hroom), if_neg hroom]

/-! ## The flagged ports in order (R187) -/

/-- One port's turn in step 2 of R187. -/
def State.enableTurn (c : SettingsImage) (o : Option State) (i : PortId) : Option State :=
  match o with
  | none => none
  | some s =>
    if c.consoles[i].2 then
      match s.enablePort i with
      | none => none
      | some (.ok, s') => some s'
      | some (_, s') =>
        some { s' with start := { s'.start with refused := s'.start.refused ||| BitVec.ofNat 4 (2 ^ i.val) } }
    else some s

theorem State.enableFlagged_turns (c : SettingsImage) (s : State) : s.enableFlagged c =
    State.enableTurn c (State.enableTurn c (State.enableTurn c (State.enableTurn c (some s) 0) 1) 2) 3 := rfl

/-- The commitments of the ports before `i`. -/
def State.committedBefore (i : PortId) (s : State) : Nat :=
  (((List.finRange 4).filter (· < i)).map fun j => s.committed[j]).sum

theorem State.committedSum_eq_before {s : State} {i : PortId} (h : ∀ j : PortId, i ≤ j → s.committed[j] = 0) :
    s.committedSum = s.committedBefore i := by
  have h0 := h 0
  have h1 := h 1
  have h2 := h 2
  have h3 := h 3
  unfold State.committedSum State.committedBefore
  rw [vector4_toList]
  fin_cases i <;> simp_all [List.finRange, List.ofFn_succ]

/-- The commitments before `i` look at the ports before it alone. -/
theorem State.committedBefore_congr {s t : State} {i : PortId}
    (h : ∀ j : PortId, j < i → t.committed[j] = s.committed[j]) : t.committedBefore i = s.committedBefore i := by
  unfold State.committedBefore
  refine congrArg List.sum (List.map_congr_left fun j hj => h j ?_)
  simpa using (List.mem_filter.1 hj).2

/-- The state while the flagged ports are enabled, before port `n`'s turn, from the state `u` with settings `c`. -/
structure State.Enabling (s : State) (c : SettingsImage) (u : State) (n : Nat) : Prop where
  kept : ∃ ps cs os r, s = { u with ports := ps, committed := cs, owners := os, start := { u.start with refused := r } }
  cache : s.cache = []
  cfg : ∀ i : PortId, s.ports[i].cfg = c.consoles[i].1
  later : ∀ i : PortId, n ≤ i.val → s.ports[i].enabled = false ∧ s.ports[i].pages = [] ∧ s.ports[i].queue = [] ∧
    s.committed[i] = 0 ∧ s.start.refused.getLsbD i.val = false
  done : ∀ i : PortId, i.val < n →
    s.ports[i].enabled = (c.consoles[i].2 && decide (s.committedBefore i + c.consoles[i].1.quota ≤ 112)) ∧
    s.committed[i] = (if s.ports[i].enabled = true then c.consoles[i].1.quota else 0) ∧
    s.start.refused.getLsbD i.val = (c.consoles[i].2 && !s.ports[i].enabled) ∧
    s.ports[i].pages.length = if s.ports[i].enabled = true then 1 else 0
  free : ∃ held : List (Fin 128), held.length ≤ n ∧ ∀ p : Fin 128, p ∉ held → s.owners[p] = .free

/-- A port that is passed over or refused: the ports stand, and `refused` names it where it was flagged. -/
theorem State.Enabling.skip {c : SettingsImage} {u s : State} {i : PortId} (h : s.Enabling c u i.val) {r : BitVec 4}
    (hr : ∀ j : PortId, r.getLsbD j.val = if j = i then c.consoles[i].2 else s.start.refused.getLsbD j.val)
    (hno : (c.consoles[i].2 && decide (s.committedSum + c.consoles[i].1.quota ≤ 112)) = false) :
    State.Enabling { s with start := { s.start with refused := r } } c u (i.val + 1) := by
  obtain ⟨ps, cs, os, r0, hkept⟩ := h.kept
  obtain ⟨henabled, hpages, hqueue, hcommitted, hrefused⟩ := h.later i (Nat.le_refl _)
  refine ⟨⟨ps, cs, os, r, by rw [hkept]⟩, h.cache, h.cfg, fun j hj => ?_, fun j hj => ?_, ?_⟩
  · obtain ⟨he, hp, hq, hc, hb⟩ := h.later j (by omega)
    exact ⟨he, hp, hq, hc, by rw [hr, if_neg (by rintro rfl; omega)]; exact hb⟩
  · by_cases hji : j = i
    · subst hji
      have hsum : s.committedSum = s.committedBefore j :=
        State.committedSum_eq_before fun k hk => (h.later k hk).2.2.2.1
      rw [hsum] at hno
      have hbit : r.getLsbD j.val = c.consoles[j].2 := by rw [hr, if_pos rfl]
      refine ⟨henabled.trans hno.symm, ?_, ?_, ?_⟩
      · exact hcommitted.trans (if_neg (by rw [henabled]; decide)).symm
      · exact hbit.trans (by rw [henabled]; simp)
      · show s.ports[j].pages.length = _
        rw [hpages, if_neg (by rw [henabled]; decide)]
        rfl
    · obtain ⟨he, hc, hb, hl⟩ := h.done j (Nat.lt_of_le_of_ne (Nat.le_of_lt_succ hj) (Fin.val_ne_of_ne hji))
      exact ⟨he, hc, by rw [hr, if_neg hji]; exact hb, hl⟩
  · obtain ⟨held, hlen, hfree⟩ := h.free
    exact ⟨held, by omega, hfree⟩

/-- A port that is enabled. -/
theorem State.Enabling.enable {c : SettingsImage} {u s : State} {i : PortId} (h : s.Enabling c u i.val) (pg : Fin 128)
    (hflag : c.consoles[i].2 = true) (hroom : s.committedSum + c.consoles[i].1.quota ≤ 112) :
    State.Enabling { s with
        committed := vupd s.committed i fun _ => s.ports[i].cfg.quota,
        owners := vupd s.owners pg fun _ => .history i,
        ports := vupd s.ports i fun p => { p.enable with pages := [firstPage pg p.w] } } c u (i.val + 1) := by
  obtain ⟨ps, cs, os, r0, hkept⟩ := h.kept
  obtain ⟨henabled, hpages, hqueue, hcommitted, hrefused⟩ := h.later i (Nat.le_refl _)
  have hself : (vupd s.ports i fun p => { p.enable with pages := [firstPage pg p.w] })[i] =
      { s.ports[i].enable with pages := [firstPage pg s.ports[i].w] } := vupd_self _ _ _
  have hother : ∀ j : PortId, j ≠ i →
      (vupd s.ports i fun p => { p.enable with pages := [firstPage pg p.w] })[j] = s.ports[j] :=
    fun j hj => vupd_ne _ _ hj
  have hcself : (vupd s.committed i fun _ => s.ports[i].cfg.quota)[i] = c.consoles[i].1.quota :=
    (vupd_self _ _ _).trans (congrArg ConConfig.quota (h.cfg i))
  have hcother : ∀ j : PortId, j ≠ i → (vupd s.committed i fun _ => s.ports[i].cfg.quota)[j] = s.committed[j] :=
    fun j hj => vupd_ne _ _ hj
  generalize (vupd s.ports i fun p => { p.enable with pages := [firstPage pg p.w] }) = ps' at *
  generalize (vupd s.committed i fun _ => s.ports[i].cfg.quota) = cs' at *
  have hbefore : ∀ j : PortId, j ≤ i → State.committedBefore j { s with
      committed := cs', owners := vupd s.owners pg fun _ => .history i, ports := ps' } = s.committedBefore j :=
    fun j hj => State.committedBefore_congr fun k hk => hcother k (hk.trans_le hj).ne
  refine ⟨⟨ps', cs', _, r0, by rw [hkept]⟩, h.cache, fun j => ?_, fun j hj => ?_, fun j hj => ?_, ?_⟩
  · by_cases hji : j = i
    · subst hji
      exact (congrArg Port.cfg hself).trans (h.cfg j)
    · exact (congrArg Port.cfg (hother j hji)).trans (h.cfg j)
  · have hji : j ≠ i := by rintro rfl; omega
    obtain ⟨he, hp, hq, hc, hb⟩ := h.later j (by omega)
    show ps'[j].enabled = false ∧ ps'[j].pages = [] ∧ ps'[j].queue = [] ∧ cs'[j] = 0 ∧ _
    rw [hother j hji, hcother j hji]
    exact ⟨he, hp, hq, hc, hb⟩
  · rw [hbefore j (Nat.le_of_lt_succ hj)]
    show ps'[j].enabled = _ ∧ cs'[j] = (if ps'[j].enabled = true then _ else 0) ∧
      s.start.refused.getLsbD j.val = (_ && !ps'[j].enabled) ∧ ps'[j].pages.length = if ps'[j].enabled = true then 1 else 0
    by_cases hji : j = i
    · subst hji
      have hsum : s.committedSum = s.committedBefore j :=
        State.committedSum_eq_before fun k hk => (h.later k hk).2.2.2.1
      have hon : ps'[j].enabled = true := congrArg Port.enabled hself
      have hone : ps'[j].pages.length = 1 := congrArg (fun p => p.pages.length) hself
      rw [hsum] at hroom
      rw [hon, hcself, hrefused, hone, hflag, decide_eq_true hroom]
      exact ⟨rfl, (if_pos rfl).symm, rfl, (if_pos rfl).symm⟩
    · rw [hother j hji, hcother j hji]
      exact h.done j (Nat.lt_of_le_of_ne (Nat.le_of_lt_succ hj) (Fin.val_ne_of_ne hji))
  · obtain ⟨held, hlen, hfree⟩ := h.free
    refine ⟨pg :: held, by simpa using hlen, fun p hp => ?_⟩
    obtain ⟨hpg, hheld⟩ := not_or.1 (mt List.mem_cons.2 hp)
    exact (vupd_ne _ _ hpg).trans (hfree p hheld)

theorem getLsbD_two_pow (i j : PortId) : (BitVec.ofNat 4 (2 ^ i.val)).getLsbD j.val = decide (i = j) := by
  rw [BitVec.getLsbD_ofNat, Nat.testBit_two_pow, decide_eq_true j.isLt, Bool.true_and]
  exact decide_eq_decide.2 Fin.ext_iff.symm

/-- Every port's turn completes. -/
theorem State.Enabling.turn {c : SettingsImage} {u s : State} {i : PortId} (h : s.Enabling c u i.val) :
    ∃ t, State.enableTurn c (some s) i = some t ∧ t.Enabling c u (i.val + 1) := by
  obtain ⟨-, hpages, hqueue, -, hrefused⟩ := h.later i (Nat.le_refl _)
  obtain ⟨held, hlen, hfree⟩ := h.free
  obtain ⟨pg, hpg⟩ := Option.ne_none_iff_exists'.1 (State.lowestFree_ne_none (by omega) hfree)
  have hport := State.enablePort_fresh h.cache hpages hqueue hpg
  have hquota : s.ports[i].cfg.quota = c.consoles[i].1.quota := congrArg ConConfig.quota (h.cfg i)
  unfold State.enableTurn
  dsimp only
  by_cases hflag : c.consoles[i].2 = true
  · rw [if_pos hflag, hport]
    by_cases hroom : s.committedSum + s.ports[i].cfg.quota ≤ 112
    · rw [if_pos hroom]
      exact ⟨_, rfl, h.enable pg hflag (hquota ▸ hroom)⟩
    · rw [if_neg hroom]
      refine ⟨_, rfl, h.skip (fun j => ?_) (by rw [← hquota, decide_eq_false hroom, Bool.and_false])⟩
      rw [BitVec.getLsbD_or, getLsbD_two_pow, hflag]
      by_cases hji : j = i
      · subst hji; simp
      · rw [if_neg hji, decide_eq_false (Ne.symm hji), Bool.or_false]
  · have hoff : c.consoles[i].2 = false := by simpa using hflag
    rw [if_neg hflag]
    refine ⟨s, rfl, h.skip (r := s.start.refused) (fun j => ?_) (by rw [hoff, Bool.false_and])⟩
    by_cases hji : j = i
    · subst hji; rw [if_pos rfl, hoff, hrefused]
    · rw [if_neg hji]

theorem State.Enabling.complete {c : SettingsImage} {u : State} (h : u.Enabling c u 0) :
    ∃ t, u.enableFlagged c = some t ∧ t.Enabling c u 4 := by
  obtain ⟨t0, h0, he0⟩ := State.Enabling.turn (i := 0) h
  obtain ⟨t1, h1, he1⟩ := State.Enabling.turn (i := 1) he0
  obtain ⟨t2, h2, he2⟩ := State.Enabling.turn (i := 2) he1
  obtain ⟨t3, h3, he3⟩ := State.Enabling.turn (i := 3) he2
  exact ⟨t3, by rw [State.enableFlagged_turns, h0, h1, h2, h3], he3⟩

/-! ## Steps 1 and 2: load and apply -/

/-- The state in which a start-up begins. -/
def State.starting (c : ResetCause) (s : State) : State := { s.partReset c with time := 0 }

theorem State.loadFailed_eq (r : LoadFailure) (s : State) : ∃ fl, s.loadFailed r = { s with
    start := { s.start with fromImage := false, failure := some r },
    faults := { first := s.faults.first.or (some { kind := .settingsInvalid r, time := s.time }),
                latest := some { kind := .settingsInvalid r, time := s.time }, count := satInc 65535 s.faults.count },
    link := { s.link with flags := fl } } := by
  unfold State.loadFailed State.recordFault
  rw [State.setFlag_eq]
  exact ⟨_, rfl⟩

/-- What a load leaves: the outcome of step 1 of R187 with what step 2 may write. -/
def State.LoadedFrom (s t : State) : Prop :=
  ∃ st fa ps a b ms os cs mc u w pol fl, t = { s with
    start := st, faults := fa, ports := ps, t0 := a, t1 := b, markers := ms, owners := os, committed := cs, medCfg := mc,
    usb := u, power := { s.power with cfg := w }, sup := { resetSupervisor with policy := pol },
    link := { s.link with flags := fl } }

theorem State.loadApply_failed {s : State} {c : ResetCause} {r : LoadFailure}
    (h : (s.starting c).loadApply = some ((s.starting c).loadFailed r)) : ∃ t, (s.starting c).loadApply = some t ∧
      (s.starting c).LoadedFrom t ∧ t.power.cfg = defaultPowerCfg ∧ t.faults =
        { first := some { kind := .settingsInvalid r, time := 0 },
          latest := some { kind := .settingsInvalid r, time := 0 }, count := 1 } := by
  obtain ⟨fl, hl⟩ := (s.starting c).loadFailed_eq r
  refine ⟨_, h, ?_⟩
  rw [hl]
  exact ⟨⟨_, _, _, _, _, _, _, _, _, _, _, _, fl, rfl⟩, rfl, rfl⟩

theorem State.loadApply_blank {s : State} (h : s.image = .blank) (c : ResetCause) :
    (s.starting c).loadApply = some ((s.starting c).loadFailed .blank) := by
  have himage : (s.starting c).image = .blank := h
  unfold State.loadApply
  split
  · rfl
  · next hi => rw [himage] at hi; cases hi
  · next hi => rw [himage] at hi; cases hi

theorem State.loadApply_invalid {s : State} (h : s.image = .invalid) (c : ResetCause) :
    (s.starting c).loadApply = some ((s.starting c).loadFailed .crc) := by
  have himage : (s.starting c).image = .invalid := h
  unfold State.loadApply
  split
  · next hi => rw [himage] at hi; cases hi
  · rfl
  · next hi => rw [himage] at hi; cases hi

/-- The settings of an image, written into the state in which a start-up begins. -/
def State.applied (g : SettingsImage) (s : State) : State :=
  State.writeSettings g { s with start := { s.start with fromImage := true, failure := none } }

theorem State.applied_eq (g : SettingsImage) (s : State) (c : ResetCause) : ∃ ps u, (s.starting c).applied g =
    { s.starting c with
      start := { (s.starting c).start with fromImage := true, failure := none },
      ports := ps, t0 := g.t0, t1 := g.t1, markers := vmap g.markers fun m => { cfg := m, hits := 0, spent := false },
      power := { (s.starting c).power with cfg := g.power }, sup := { resetSupervisor with policy := g.policy },
      medCfg := g.media, usb := u } ∧ ∀ i : PortId, ps[i] = { resetPort with cfg := g.consoles[i].1 } := by
  let v : State := { s.starting c with start := { (s.starting c).start with fromImage := true, failure := none } }
  obtain ⟨u, h⟩ := v.writeSettings_eq g
  refine ⟨(v.writeConfigs g).ports, u, h, fun i => ?_⟩
  have hreset : v.ports[i] = resetPort := Vector.getElem_replicate _
  rw [State.writeConfigs_port, State.recordFor, hreset, if_pos (show resetPort.pages = [] from rfl)]

theorem State.applied_enabling (g : SettingsImage) (s : State) (c : ResetCause) :
    ((s.starting c).applied g).Enabling g ((s.starting c).applied g) 0 := by
  obtain ⟨ps, u, h, hport⟩ := s.applied_eq g c
  have hports : ∀ i : PortId, ((s.starting c).applied g).ports[i] = { resetPort with cfg := g.consoles[i].1 } := by
    rw [h]; exact hport
  refine ⟨⟨((s.starting c).applied g).ports, _, _, _, rfl⟩, by rw [h]; rfl, fun i => ?_, fun i _ => ?_,
    fun i hi => absurd hi (Nat.not_lt_zero _), ⟨[], Nat.le_refl _, fun p _ => ?_⟩⟩
  · rw [hports]
  · rw [hports]
    refine ⟨rfl, rfl, rfl, ?_, ?_⟩
    · rw [h]; exact Vector.getElem_replicate _
    · rw [h]; exact BitVec.getLsbD_zero
  · rw [h]; exact Vector.getElem_replicate _

theorem State.loadApply_of_valid {s : State} {g : SettingsImage} (h : s.image = .valid g) :
    s.loadApply = (s.applied g).enableFlagged g := by
  unfold State.loadApply
  split
  · next hi => rw [h] at hi; cases hi
  · next hi => rw [h] at hi; cases hi
  · next hi =>
    rw [h] at hi
    obtain rfl := Image.valid.inj hi
    rfl

theorem State.loadApply_valid {s : State} {c : ResetCause} {g : SettingsImage} (h : s.image = .valid g) :
    ∃ t, (s.starting c).loadApply = some t ∧ (s.starting c).LoadedFrom t ∧
      t.Enabling g ((s.starting c).applied g) 4 := by
  obtain ⟨t, ht, he⟩ := (s.applied_enabling g c).complete
  refine ⟨t, (State.loadApply_of_valid (s := s.starting c) h).trans ht, ?_, he⟩
  · obtain ⟨ps, cs, os, r, hk⟩ := he.kept
    obtain ⟨ps', u, ha, -⟩ := s.applied_eq g c
    rw [ha] at hk
    exact ⟨{ (s.starting c).start with fromImage := true, failure := none, refused := r }, (s.starting c).faults, ps,
      g.t0, g.t1, _, os, cs, g.media, u, g.power, g.policy, (s.starting c).link.flags, hk⟩

/-! ## Step 3: the sample -/

theorem State.openEpoch_of_nil {s : State} (h : s.sup.epochs = []) : s.openEpoch = none := by
  unfold State.openEpoch; rw [h]; rfl

theorem State.closeRecord_of_none {s : State} (h : s.openEpoch = none) (c : EndCause) : s.closeRecord c = s := by
  unfold State.closeRecord; rw [h]; rfl

theorem State.arms_partStart (s : State) : s.arms .partStart = false := by
  unfold State.arms; simp

/-- The first epoch, of cause PART_START, is not armed (R161, R165). -/
theorem State.startEpoch_partStart {s : State} (h : s.sup.epochs = []) : s.startEpoch .partStart = { s with
    sup := { s.sup with
      counter := nextEpochNumber s.sup.counter, epochs := [s.newEpoch .partStart], bootTimer := none, holdTimer := none,
      ret := none, state := if s.sup.state = .givenUp then .givenUp else .idle },
    ports := vmap s.ports fun p => { p with window := [], filter := .normal },
    markers := vmap s.markers fun m => { m with spent := false } } := by
  unfold State.startEpoch
  rw [State.closeRecord_of_none (State.openEpoch_of_nil h)]
  dsimp only
  rw [h]
  unfold State.arm
  rw [State.arms_partStart]
  rfl

/-- The supervisor as the sample leaves it. -/
def State.sampledSup (s : State) : Supervisor :=
  if s.power.pg.pin then { s.sup with
    counter := nextEpochNumber s.sup.counter, epochs := [s.newEpoch .partStart], bootTimer := none, holdTimer := none,
    ret := none, state := if s.sup.state = .givenUp then .givenUp else .idle }
  else s.sup

/-- The levels sampled, with the epoch that a high PG opens, before the ports and the media port follow. -/
def State.sensed (s : State) : State := { s with
  power := { s.power with pg := sampled s.power.pg, rsts := sampled s.power.rsts },
  start := { s.start with
    powerOn := s.power.pg.pin, epoch := if s.power.pg.pin then some (nextEpochNumber s.sup.counter) else none },
  sup := s.sampledSup,
  ports := if s.power.pg.pin then vmap s.ports fun p => { p with window := [], filter := .normal } else s.ports,
  markers := if s.power.pg.pin then vmap s.markers fun m => { m with spent := false } else s.markers }

theorem State.sample_sensed {s : State} (h : s.sup.epochs = []) : s.sample = s.sensed.kickAll.updateConnection := by
  let v : State := { s with
    power := { s.power with pg := sampled s.power.pg, rsts := sampled s.power.rsts },
    start := { s.start with powerOn := s.power.pg.pin } }
  let w : State := if s.power.pg.pin then v.startEpoch .partStart else v
  have hsample : s.sample = (State.kickAll { w with start := { w.start with
      epoch := if w.pgHigh then some w.sup.counter else none } }).updateConnection := rfl
  have hw : State.sensed s = { w with start := { w.start with
      epoch := if w.pgHigh then some w.sup.counter else none } } := by
    unfold State.sensed State.sampledSup
    by_cases hpin : s.power.pg.pin = true
    · have hopen : w = v.startEpoch .partStart := if_pos hpin
      have hhigh : w.pgHigh = true := by
        rw [hopen, State.startEpoch_partStart (s := v) h]
        exact hpin
      rw [if_pos hpin, if_pos hpin, if_pos hpin, if_pos hpin, if_pos hhigh, hopen, State.startEpoch_partStart (s := v) h]
      rfl
    · have hshut : w = v := if_neg hpin
      have hlow : ¬ w.pgHigh = true := by
        rw [hshut]
        exact hpin
      rw [if_neg hpin, if_neg hpin, if_neg hpin, if_neg hpin, if_neg hlow, hshut]
  rw [hsample, hw]

/-- The sample is `sensed` but for what the transmitters begin and for the server's port. -/
theorem State.sample_eq {s : State} (h : s.sup.epochs = []) : ∃ ps u, s.sample = { s.sensed with ports := ps, usb := u } ∧
    ∀ i : PortId, ps[i].cfg = s.ports[i].cfg ∧ ps[i].enabled = s.ports[i].enabled ∧ ps[i].pages = s.ports[i].pages := by
  obtain ⟨ps, hk⟩ := s.sensed.kickAll_frame
  refine ⟨ps, _, by rw [State.sample_sensed h, State.updateConnection_eq, hk], fun i => ?_⟩
  obtain ⟨q, t, x, hp⟩ := s.sensed.kickAll_port_frame i
  have hports : ps[i] = s.sensed.kickAll.ports[i] := by rw [hk]
  have hsensed : s.sensed.ports[i] = s.ports[i] ∨
      s.sensed.ports[i] = { s.ports[i] with window := [], filter := .normal } := by
    by_cases hpin : s.power.pg.pin = true
    · have hcleared : s.sensed.ports = vmap s.ports fun p => { p with window := [], filter := .normal } := if_pos hpin
      rw [hcleared]
      exact .inr (vmap_getElem _ _ _ _)
    · have hsame : s.sensed.ports = s.ports := if_neg hpin
      rw [hsame]
      exact .inl rfl
  rw [hports, hp]
  rcases hsensed with e | e <;> rw [e] <;> exact ⟨rfl, rfl, rfl⟩

theorem State.sensed_marker (s : State) (m : Fin 16) : s.sensed.markers[m].cfg = s.markers[m].cfg := by
  by_cases hpin : s.power.pg.pin = true
  · have hcleared : s.sensed.markers = vmap s.markers fun m => { m with spent := false } := if_pos hpin
    rw [hcleared]
    show _ = ({ s.markers[m] with spent := false } : Marker).cfg
    exact congrArg Marker.cfg (vmap_getElem s.markers (fun m => { m with spent := false }) m.val m.isLt)
  · have hsame : s.sensed.markers = s.markers := if_neg hpin
    rw [hsame]

/-! ## Steps 4 and 5: the restore decision and the announcement -/

/-- A restore that was taken moves LAST, PRIOR, the flags and the server's port alone. -/
theorem State.takeRestore_kept (s : State) : ∃ a b fl u, s.takeRestore = { s with
    restore := .requested, power := { s.power with last := a, prior := b }, usb := u,
    link := { s.link with flags := fl } } ∧ ∀ r ∈ s.link.flags, r ∈ fl := by
  rcases ha : s.action with _ | a
  · cases hon : s.pgHigh
    · rw [State.takeRestore_off ha hon, State.updateConnection_eq]
      exact ⟨_, _, _, _, rfl, fun r hr => hr⟩
    · rw [State.takeRestore_on ha hon, State.setFlag_eq]
      exact ⟨_, _, _, _, rfl, fun r hr => by split <;> simp [hr]⟩
  · rw [State.takeRestore_busy (by rw [ha]; rfl)]
    exact ⟨_, _, _, _, rfl, fun r hr => hr⟩

theorem State.announce_plain {s : State} (h : s.restore ≠ .waiting s.time) :
    s.announce = State.setFlag .start { s with inReset := false } := by
  unfold State.announce
  dsimp only
  rw [State.setFlag_restore, State.setFlag_time]
  exact if_neg h

theorem State.announce_taken {s : State} (h : s.restore = .waiting s.time) :
    s.announce = (State.setFlag .start { s with inReset := false }).takeRestore := by
  unfold State.announce
  dsimp only
  rw [State.setFlag_restore, State.setFlag_time]
  exact if_pos h

theorem State.announce_kept (s : State) : ∃ a b fl u r, s.announce = { s with
    inReset := false, restore := r, power := { s.power with last := a, prior := b }, usb := u,
    link := { s.link with flags := fl } } ∧ Report.start ∈ fl := by
  have hstart := (State.mem_setFlag .start .start { s with inReset := false }).2 (.inl rfl)
  by_cases hr : s.restore = .waiting s.time
  · rw [State.announce_taken hr]
    obtain ⟨a, b, fl, u, h, hfl⟩ := State.takeRestore_kept (State.setFlag .start { s with inReset := false })
    refine ⟨a, b, fl, u, .requested, ?_, hfl _ hstart⟩
    rw [h, State.setFlag_eq]
  · rw [State.announce_plain hr]
    rw [State.setFlag_eq] at hstart ⊢
    exact ⟨s.power.last, s.power.prior, _, s.usb, s.restore, rfl, hstart⟩

/-- The conditions of R188 under which a restore waits. -/
def State.restores (s : State) : Prop := s.cause = .powerOn ∧ s.power.pg.pin = false ∧ s.power.cfg.restore = .powerOn

theorem State.decideRestore_eq (s : State) : ∃ r, s.decideRestore = { s with restore := r } := by
  unfold State.decideRestore; split
  · exact ⟨_, rfl⟩
  · exact ⟨s.restore, rfl⟩

/-- Steps 3 to 5 after a load: what stays, and what the sample and the announcement set. -/
theorem State.afterLoad_kept {s : State} (h : s.sup.epochs = []) : ∃ ps u a b fl r,
    s.sample.decideRestore.announce = { s.sensed with
      inReset := false, restore := r, power := { s.sensed.power with last := a, prior := b }, ports := ps, usb := u,
      link := { s.sensed.link with flags := fl } } ∧ Report.start ∈ fl ∧
    ∀ i : PortId, ps[i].cfg = s.ports[i].cfg ∧ ps[i].enabled = s.ports[i].enabled ∧ ps[i].pages = s.ports[i].pages := by
  obtain ⟨ps, u, hs, hport⟩ := State.sample_eq h
  obtain ⟨r, hd⟩ := s.sample.decideRestore_eq
  generalize s.sample.decideRestore = x at hd ⊢
  generalize s.sample = y at hs hd
  generalize s.sensed = z at hs ⊢
  obtain ⟨a, b, fl, u', r', ha, hfl⟩ := x.announce_kept
  refine ⟨ps, u', a, b, fl, r', ?_, hfl, hport⟩
  rw [ha, hd, hs]

/-- With no restore to wait for, the restore state stays NONE. -/
theorem State.afterLoad_noRestore {s : State} (h : s.sup.epochs = []) (hn : s.restore = .none) (hr : ¬ s.restores) :
    s.sample.decideRestore.announce.restore = .none := by
  obtain ⟨ps, u, hs, -⟩ := State.sample_eq h
  have hd : s.sample.decideRestore = s.sample := by
    unfold State.decideRestore
    refine if_neg fun hc => hr ?_
    rw [hs] at hc
    exact hc
  have hnone : s.sample.restore = .none := by rw [hs]; exact hn
  rw [hd, State.announce_plain (by rw [hnone]; exact RestoreState.noConfusion), State.setFlag_restore]
  exact hnone

/-- A restore that waits stands at its deadline after the start-up, unless its delay is 0. -/
theorem State.afterLoad_restore {s : State} (h : s.sup.epochs = []) (ht : s.time = 0) (hlast : s.power.last = none)
    (hr : s.restores) {d : PartTime} (hd : d = BitVec.ofNat 32 (1000 * s.power.cfg.restoreDelay)) :
    (d ≠ 0 → s.sample.decideRestore.announce.restore = .waiting d ∧ s.sample.decideRestore.announce.action = none) ∧
    (d = 0 → s.sample.decideRestore.announce.restore = .requested ∧ s.sample.decideRestore.announce.power.last =
      some (begunRecord .on false .restore .pressOn 0 s.power.cfg)) := by
  obtain ⟨ps, u, hs, -⟩ := State.sample_eq h
  have hdue : s.sample.after (1000 * s.sample.power.cfg.restoreDelay) = d := by
    rw [hs, hd]
    show s.time + _ = _
    rw [ht]
    exact BitVec.zero_add _
  have hdecide : s.sample.decideRestore = { s.sample with restore := .waiting d } := by
    unfold State.decideRestore
    rw [hdue]
    refine if_pos ?_
    rw [hs]
    exact hr
  have htime : s.sample.time = 0 := by rw [hs]; exact ht
  have hfree : s.sample.power.last = none := by rw [hs]; exact hlast
  have hlow : s.sample.power.pg.level = false := by rw [hs]; exact hr.2.1
  have hcfg : s.sample.power.cfg = s.power.cfg := by rw [hs]; rfl
  rw [hdecide]
  generalize s.sample = v at *
  refine ⟨fun hne => ?_, fun hz => ?_⟩
  · rw [State.announce_plain fun e => hne ((RestoreState.waiting.inj e).trans htime)]
    refine ⟨State.setFlag_restore _ _, ?_⟩
    unfold State.action
    rw [State.setFlag_power]
    dsimp only
    rw [hfree]
    rfl
  · rw [State.announce_taken (s := { v with restore := .waiting d }) (congrArg _ (hz.trans htime.symm)),
      State.takeRestore_off, State.updateConnection_eq]
    · refine ⟨rfl, ?_⟩
      dsimp only
      unfold State.after
      rw [State.setFlag_time, State.setFlag_power]
      dsimp only
      rw [htime, hcfg]
      rfl
    · unfold State.action
      rw [State.setFlag_power]
      dsimp only
      rw [hfree]
      rfl
    · unfold State.pgHigh
      rw [State.setFlag_power]
      exact hlow

/-! ## The whole sequence -/

theorem execResetEnd_of_load {s t : State} {c : ResetCause} (h : (s.starting c).loadApply = some t) :
    exec .resetEnd (s.partReset c) = .next t.sample.decideRestore.announce := by
  show execResetEnd (s.partReset c) = _
  have hstart : (s.partReset c).startUp = some t.sample.decideRestore.announce := by
    show (s.starting c).loadApply.map _ = _
    rw [h]
    rfl
  rw [execResetEnd, if_pos (show (s.partReset c).inReset = true from rfl), hstart]
  rfl

/-- A sample that finds PG high opens epoch 1. -/
theorem State.sensed_epoch {s : State} (hpin : s.power.pg.pin = true) (hc : s.sup.counter = 0) (ht : s.time = 0) :
    s.sensed.start.epoch = some 1 ∧ s.sensed.sup.counter = 1 ∧ ∃ e : EpochRec,
      s.sensed.sup.epochs = [e] ∧ e.number = 1 ∧ e.cause = .partStart ∧ e.start = 0 ∧ e.status = .unsupervised ∧
      e.endCause = none := by
  have hnumber : nextEpochNumber s.sup.counter = 1 := by rw [hc]; rfl
  have hepoch : s.sensed.start.epoch = some (nextEpochNumber s.sup.counter) := if_pos hpin
  have hsup : s.sensed.sup = { s.sup with
      counter := nextEpochNumber s.sup.counter, epochs := [s.newEpoch .partStart], bootTimer := none,
      holdTimer := none, ret := none, state := if s.sup.state = .givenUp then .givenUp else .idle } := if_pos hpin
  have hstatus : (s.newEpoch .partStart).status = .unsupervised := by
    unfold State.newEpoch
    dsimp only
    rw [State.arms_partStart]
    rfl
  rw [hepoch, hsup, hnumber]
  exact ⟨rfl, rfl, _, rfl, hnumber, rfl, ht, hstatus, rfl⟩

theorem State.sensed_noEpoch {s : State} (hpin : s.power.pg.pin = false) :
    s.sensed.start.epoch = none ∧ s.sensed.sup = s.sup := by
  have hlow : ¬ s.power.pg.pin = true := by simp [hpin]
  exact ⟨if_neg hlow, if_neg hlow⟩

/-- What every start-up leaves, whatever was loaded (R186 to R188). -/
theorem State.startUp_common {s t : State} {c : ResetCause} (ht : (s.starting c).LoadedFrom t) {u : State}
    (hu : u = t.sample.decideRestore.announce) :
    u.inReset = false ∧ u.time = 0 ∧ u.cause = c ∧ u.image = s.image ∧
    u.pending = s.pending ∧ Report.start ∈ u.link.flags ∧ u.link.replies = [] ∧
    u.power.pg.level = s.power.pg.pin ∧ u.power.rsts.level = s.power.rsts.pin ∧ u.start.powerOn = s.power.pg.pin ∧
    u.mem = [] ∧ u.rows = [] ∧ u.cache = [] ∧ u.media = State.reset.media ∧
    (s.power.pg.pin = true → u.start.epoch = some 1 ∧ u.sup.counter = 1 ∧ ∃ e : EpochRec,
      u.sup.epochs = [e] ∧ e.number = 1 ∧ e.cause = .partStart ∧ e.start = 0 ∧ e.status = .unsupervised ∧
      e.endCause = none) ∧
    (s.power.pg.pin = false → u.start.epoch = none ∧ u.sup.counter = 0 ∧ u.sup.epochs = []) := by
  obtain ⟨st, fa, ps, a, b, ms, os, cs, mc, v, w, pol, fl, rfl⟩ := ht
  obtain ⟨ps', v', la, pr, fl', r, hk, hstart, -⟩ := State.afterLoad_kept (s := { s.starting c with
    start := st, faults := fa, ports := ps, t0 := a, t1 := b, markers := ms, owners := os, committed := cs, medCfg := mc,
    usb := v, power := { (s.starting c).power with cfg := w }, sup := { resetSupervisor with policy := pol },
    link := { (s.starting c).link with flags := fl } }) rfl
  rw [hk] at hu
  subst hu
  refine ⟨rfl, rfl, rfl, rfl, rfl, hstart, rfl, rfl, rfl, rfl, rfl, rfl, rfl, rfl, fun hpin => ?_, fun hpin => ?_⟩
  · exact State.sensed_epoch hpin rfl rfl
  · obtain ⟨hepoch, hsup⟩ := State.sensed_noEpoch (s := { s.starting c with
      start := st, faults := fa, ports := ps, t0 := a, t1 := b, markers := ms, owners := os, committed := cs,
      medCfg := mc, usb := v, power := { (s.starting c).power with cfg := w },
      sup := { resetSupervisor with policy := pol }, link := { (s.starting c).link with flags := fl } }) hpin
    exact ⟨hepoch, congrArg Supervisor.counter hsup, congrArg Supervisor.epochs hsup⟩

theorem State.LoadedFrom.basics {s t : State} {c : ResetCause} (ht : (s.starting c).LoadedFrom t) :
    t.sup.epochs = [] ∧ t.time = 0 ∧ t.cause = c ∧ t.restore = .none ∧ t.power.pg.pin = s.power.pg.pin ∧
    t.power.last = none := by
  obtain ⟨st, fa, ps, a, b, ms, os, cs, mc, v, w, pol, fl, rfl⟩ := ht
  exact ⟨rfl, rfl, rfl, rfl, rfl, rfl⟩

theorem State.sampledSup_policy (s : State) : s.sampledSup.policy = s.sup.policy := by
  unfold State.sampledSup; split <;> rfl

/-- A start-up from a valid image (R187). -/
theorem State.startUp_valid {s t : State} {c : ResetCause} {g : SettingsImage} (hl : (s.starting c).LoadedFrom t)
    (he : t.Enabling g ((s.starting c).applied g) 4) {u : State} (hu : u = t.sample.decideRestore.announce) :
    u.faults = State.reset.faults ∧ u.t0 = g.t0 ∧ u.t1 = g.t1 ∧ u.power.cfg = g.power ∧
      u.sup.policy = g.policy ∧ u.medCfg = g.media ∧ (∀ m : Fin 16, u.markers[m].cfg = g.markers[m]) ∧
      (∀ i : PortId, u.ports[i].cfg = g.consoles[i].1) ∧
      ∀ i : PortId,
        u.ports[i].enabled = (g.consoles[i].2 && decide
          ((((List.finRange 4).filter (· < i)).map fun j => u.committed[j]).sum + g.consoles[i].1.quota ≤ 112)) ∧
        u.committed[i] = (if u.ports[i].enabled = true then g.consoles[i].1.quota else 0) ∧
        u.start.refused.getLsbD i.val = (g.consoles[i].2 && !u.ports[i].enabled) ∧
        u.ports[i].pages.length = if u.ports[i].enabled = true then 1 else 0 := by
  obtain ⟨ps, v, la, pr, fl, r, hk, -, hport⟩ := State.afterLoad_kept hl.basics.1
  rw [hk] at hu
  obtain ⟨cps, ccs, cos, cr, hkept⟩ := he.kept
  obtain ⟨aps, au, happlied, -⟩ := s.applied_eq g c
  rw [happlied] at hkept
  have hmarker : ∀ m : Fin 16, t.markers[m].cfg = g.markers[m] := by
    intro m
    rw [hkept]
    exact congrArg Marker.cfg (vmap_getElem g.markers (fun m => ({ cfg := m, hits := 0, spent := false } : Marker)) _ _)
  have hcfg : ∀ i : PortId, ps[i].cfg = g.consoles[i].1 := fun i => (hport i).1.trans (he.cfg i)
  have hsettings : t.faults = State.reset.faults ∧ t.t0 = g.t0 ∧ t.t1 = g.t1 ∧ t.power.cfg = g.power ∧
      t.sup.policy = g.policy ∧ t.medCfg = g.media := by
    rw [hkept]; exact ⟨rfl, rfl, rfl, rfl, rfl, rfl⟩
  have hdone := he.done
  obtain ⟨hfaults, ht0, ht1, hpower, hpolicy, hmedia⟩ := hsettings
  subst hu
  refine ⟨hfaults, ht0, ht1, hpower, (State.sampledSup_policy t).trans hpolicy, hmedia,
    fun m => (t.sensed_marker m).trans (hmarker m), hcfg, fun i => ?_⟩
  obtain ⟨-, henabled, hpages⟩ := hport i
  show ps[i].enabled = (_ && decide (t.committedBefore i + _ ≤ 112)) ∧
    t.committed[i] = (if ps[i].enabled = true then _ else 0) ∧
    t.start.refused.getLsbD i.val = (_ && !ps[i].enabled) ∧ ps[i].pages.length = if ps[i].enabled = true then 1 else 0
  rw [henabled, hpages]
  exact hdone i i.isLt

/-- The load of step 1 completes whatever the image. -/
theorem State.loadApply_total (s : State) (c : ResetCause) :
    ∃ t, (s.starting c).loadApply = some t ∧ (s.starting c).LoadedFrom t := by
  rcases himage : s.image with _ | _ | g
  · obtain ⟨t, h, hl, -⟩ := State.loadApply_failed (s.loadApply_blank himage c)
    exact ⟨t, h, hl⟩
  · obtain ⟨t, h, hl, -⟩ := State.loadApply_failed (s.loadApply_invalid himage c)
    exact ⟨t, h, hl⟩
  · obtain ⟨t, h, hl, -⟩ := State.loadApply_valid (c := c) himage
    exact ⟨t, h, hl⟩

theorem startUp_completes (s : State) (c : ResetCause) : ∃ t u, exec .resetEnd (s.partReset c) = .next u ∧
    (s.starting c).loadApply = some t ∧ (s.starting c).LoadedFrom t ∧ u = t.sample.decideRestore.announce := by
  obtain ⟨t, h, hl⟩ := s.loadApply_total c
  exact ⟨t, _, execResetEnd_of_load h, h, hl, rfl⟩

theorem State.afterLoad_faults {s t : State} {c : ResetCause} (hl : (s.starting c).LoadedFrom t) :
    t.sample.decideRestore.announce.faults = t.faults := by
  obtain ⟨ps, v, la, pr, fl, r, hk, -⟩ := State.afterLoad_kept hl.basics.1
  rw [hk]
  rfl

theorem execDevReset_eq {s : State} (hr : s.inReady = true) (tag : Byte) :
    exec (.devReset tag []) s = exec .resetEnd (s.partReset .soft) := by
  show execDevReset tag [] s = execResetEnd (s.partReset .soft)
  rw [execResetEnd, if_pos (show (s.partReset .soft).inReset = true from rfl)]
  exact if_pos hr

/-- Settles O7: steps 1 and 2 by the image, then steps 3 to 5 on what they leave. -/
theorem startUpCompletes : Obligations.StartUpCompletes := by
  refine ⟨fun s c => ?_, fun s tag hr => ?_⟩
  · obtain ⟨t, u, hexec, hload, hl, hu⟩ := startUp_completes s c
    obtain ⟨hep, htime, hcause, hrestore, hpin, hlast⟩ := hl.basics
    obtain ⟨h1, h2, h3, h4, h5, h6, h7, h8, h9, h10, h11, h12, h13, h14, h15, h16⟩ := State.startUp_common hl hu
    refine ⟨u, hexec, h1, h2, h3, h4, h5, h6, h7, h8, h9, h10, h11, h12, h13, h14, h15, h16, ?_, ?_, ?_, ?_⟩
    · intro hno
      rw [hu]
      refine State.afterLoad_noRestore hep hrestore ?_
      rintro ⟨hpower, hlow, hon⟩
      rw [hcause] at hpower
      rw [hpin] at hlow
      rcases hno with himage | himage | hc | hhigh
      · obtain ⟨t', h', -, hcfg, -⟩ := State.loadApply_failed (s.loadApply_blank himage c)
        obtain rfl := Option.some.inj (hload.symm.trans h')
        rw [hcfg] at hon; cases hon
      · obtain ⟨t', h', -, hcfg, -⟩ := State.loadApply_failed (s.loadApply_invalid himage c)
        obtain rfl := Option.some.inj (hload.symm.trans h')
        rw [hcfg] at hon; cases hon
      · exact hc hpower
      · rw [hlow] at hhigh; cases hhigh
    · intro himage
      obtain ⟨t', h', -, -, hfaults⟩ := State.loadApply_failed (s.loadApply_blank himage c)
      obtain rfl := Option.some.inj (hload.symm.trans h')
      rw [hu, State.afterLoad_faults hl, hfaults]
    · intro himage
      obtain ⟨t', h', -, -, hfaults⟩ := State.loadApply_failed (s.loadApply_invalid himage c)
      obtain rfl := Option.some.inj (hload.symm.trans h')
      rw [hu, State.afterLoad_faults hl, hfaults]
    · intro g himage
      obtain ⟨t', h', -, he⟩ := State.loadApply_valid (c := c) himage
      obtain rfl := Option.some.inj (hload.symm.trans h')
      obtain ⟨hfaults, ht0, ht1, hpower, hpolicy, hmedia, hmarkers, hcfgs, hports⟩ := State.startUp_valid hl he hu
      have hcfg : t.power.cfg = g.power := by
        obtain ⟨cps, ccs, cos, cr, hkept⟩ := he.kept
        obtain ⟨aps, au, happlied, -⟩ := s.applied_eq g c
        rw [hkept, happlied]
      refine ⟨hfaults, ht0, ht1, hpower, hpolicy, hmedia, hmarkers, hcfgs, hports, fun hc hlow hstay => ?_,
        fun d hd hc hlow hon => ?_⟩
      · rw [hu]
        refine State.afterLoad_noRestore hep hrestore ?_
        rintro ⟨-, -, hon⟩
        rw [hcfg, hstay] at hon; cases hon
      · have hrest : t.restores := ⟨hcause.trans hc, hpin.trans hlow, by rw [hcfg]; exact hon⟩
        have hwait := State.afterLoad_restore hep htime hlast hrest (d := d) (by rw [hcfg]; exact hd)
        rw [← hu, hcfg] at hwait
        exact hwait
  · obtain ⟨t, u, hexec, hload, hl, hu⟩ := startUp_completes s .soft
    obtain ⟨-, -, hcause, -, -, -, hreplies, -⟩ := State.startUp_common hl hu
    exact ⟨u, (execDevReset_eq hr tag).trans hexec, hexec, hcause, hreplies⟩

end Sys2Proof.Machine
end

/-! # Console lines: configuring, enabling, disabling and sending (R3 to R5, R16 to R20) -/

section
namespace Sys2Proof.Machine

/-! ## Requests and the link -/

/-- A request that may find no page, its handler leaving `u` with the status byte shifted out, is answered. -/
theorem State.requestOpt_answered {α : Type} {s t u : State} (hr : s.inReady = true) (kind tag : Byte) {a : α}
    {f : α → State → Option (State × Status × List Byte)} {st : Status} {body : List Byte}
    (h : f a s.shiftStatus = some (t, st, body))
    (ht : t = { u with link := { u.link with statusOut := s.statusByte } }) :
    orNoPage (s.requestOpt kind tag (some a) f) = .next (s.answered kind tag st body u) := by
  rw [State.requestOpt_taken hr, h, ht]; rfl

/-- The transmitters do not look at the link. -/
theorem State.kick_link (i : PortId) (l : Link) (s : State) :
    State.kick i { s with link := l } = { s.kick i with link := l } := by
  unfold State.kick
  rw [show State.framing s.ports[i] { s with link := l } = s.framing s.ports[i] from rfl]
  split <;> rfl

theorem State.kick_ownLink (i : PortId) (s : State) : (s.kick i).link = s.link := by
  obtain ⟨p, h⟩ := s.kick_frame i
  rw [h]

/-- A status byte shifted out before a transmission begins. -/
theorem State.kick_shifted (i : PortId) (b : Byte) (s : State) :
    State.kick i { s with link := { s.link with statusOut := b } } =
      { s.kick i with link := { (s.kick i).link with statusOut := b } } := by
  rw [State.kick_link, State.kick_ownLink]

theorem vupd_congr {α : Type} {n : Nat} {v : Vector α n} {i : Fin n} {f g : α → α} (h : f v[i] = g v[i]) :
    vupd v i f = vupd v i g := by
  unfold vupd; rw [h]

/-! ## CON_CONFIG (R3) -/

theorem rateModeOf_eq {n : Nat} (h : n ≤ 1) : rateModeOf n = some (if n = 0 then .fixed else .auto) := by
  interval_cases n <;> rfl

theorem boolOf_eq {n : Nat} (h : n ≤ 1) : boolOf n = some (decide (n = 1)) := by
  interval_cases n <;> rfl

theorem parityOf_eq {n : Nat} (h : n ≤ 2) :
    parityOf n = some (if n = 0 then .none else if n = 1 then .even else .odd) := by
  interval_cases n <;> rfl

theorem translationOf_eq {n : Nat} (h : n ≤ 2) :
    translationOf n = some (if n = 0 then .none else if n = 1 then .t0 else .t1) := by
  interval_cases n <;> rfl

theorem rateModeOf_above {n : Nat} (h : 1 < n) : rateModeOf n = none := by
  match n, h with
  | n + 2, _ => rfl

theorem boolOf_above {n : Nat} (h : 1 < n) : boolOf n = none := by
  match n, h with
  | n + 2, _ => rfl

theorem parityOf_above {n : Nat} (h : 2 < n) : parityOf n = none := by
  match n, h with
  | n + 3, _ => rfl

theorem translationOf_above {n : Nat} (h : 2 < n) : translationOf n = none := by
  match n, h with
  | n + 3, _ => rfl

/-- A record with an enumerated field out of its list is none. -/
theorem toConConfig_refused {r : ConConfigReq}
    (h : 1 < r.rateMode ∨ 10 < r.rate ∨ 2 < r.parity ∨ 1 < r.gating ∨ 2 < r.translation ∨ 1 < r.escape) :
    toConConfig r = none := by
  rw [Option.eq_none_iff_forall_ne_some]
  intro c hc
  simp only [toConConfig, bind, Option.bind_eq_some_iff] at hc
  obtain ⟨_, hrm, hc⟩ := hc
  have hrate : r.rate < 11 := by
    by_contra hn
    rw [dif_neg hn] at hc
    cases hc
  rw [dif_pos hrate] at hc
  simp only [Option.bind_some, Option.bind_eq_some_iff] at hc
  obtain ⟨_, hpa, _, hg, _, htr, _, hes, -⟩ := hc
  rcases h with h | h | h | h | h | h
  · rw [rateModeOf_above h] at hrm; cases hrm
  · omega
  · rw [parityOf_above h] at hpa; cases hpa
  · rw [boolOf_above h] at hg; cases hg
  · rw [translationOf_above h] at htr; cases htr
  · rw [boolOf_above h] at hes; cases hes

theorem toConConfig_taken {r : ConConfigReq} {k : RateIdx} (hrm : r.rateMode ≤ 1) (hrate : r.rate = k.val)
    (hpa : r.parity ≤ 2) (hg : r.gating ≤ 1) (htr : r.translation ≤ 2) (hes : r.escape ≤ 1) :
    toConConfig r = some {
      rateMode := if r.rateMode = 0 then .fixed else .auto, fixedRate := k,
      dataBits := max 7 (min 8 r.dataBits),
      parity := if r.parity = 0 then .none else if r.parity = 1 then .even else .odd,
      stopBits := max 1 (min 2 r.stopBits), gating := decide (r.gating = 1),
      translation := if r.translation = 0 then .none else if r.translation = 1 then .t0 else .t1,
      escape := decide (r.escape = 1), quota := max 1 (min 64 r.quota) } := by
  have hlt : r.rate < 11 := hrate ▸ k.isLt
  have hk : (⟨r.rate, hlt⟩ : RateIdx) = k := Fin.ext hrate
  unfold toConConfig
  rw [rateModeOf_eq hrm, parityOf_eq hpa, boolOf_eq hg, translationOf_eq htr, boolOf_eq hes]
  simp only [bind, Option.bind_some, dif_pos hlt, hk]
  rfl

/-- CON_CONFIG of a port number 0 to 3. -/
theorem conConfig_val {r : ConConfigReq} {i : PortId} (h : r.port = i.val) (s : State) : conConfig r s =
    if s.ports[i].enabled then (s, .wrongState, [])
    else match toConConfig r with
      | none => (s, .badField, [])
      | some c =>
        if s.ports[i].pages ≠ [] ∧ c.quota ≠ s.ports[i].cfg.quota then (s, .wrongState, [])
        else (s.modPort i fun p => { p with cfg := c }, .ok, encConConfig c) := by
  unfold conConfig
  rw [h, onPort_val]
  rfl

theorem conConfig_enabled {r : ConConfigReq} {i : PortId} (h : r.port = i.val) {s : State}
    (he : s.ports[i].enabled = true) : conConfig r s = (s, .wrongState, []) := by
  rw [conConfig_val h, if_pos he]

theorem conConfig_refused {r : ConConfigReq} {i : PortId} (h : r.port = i.val) {s : State}
    (he : s.ports[i].enabled = false) (hc : toConConfig r = none) : conConfig r s = (s, .badField, []) := by
  rw [conConfig_val h, if_neg (Bool.eq_false_iff.1 he), hc]

theorem conConfig_quotaKept {r : ConConfigReq} {i : PortId} (h : r.port = i.val) {s : State} {c : ConConfig}
    (he : s.ports[i].enabled = false) (hc : toConConfig r = some c) (hp : s.ports[i].pages ≠ [])
    (hq : c.quota ≠ s.ports[i].cfg.quota) : conConfig r s = (s, .wrongState, []) := by
  rw [conConfig_val h, if_neg (Bool.eq_false_iff.1 he), hc]
  exact if_pos ⟨hp, hq⟩

theorem conConfig_taken {r : ConConfigReq} {i : PortId} (h : r.port = i.val) {s : State} {c : ConConfig}
    (he : s.ports[i].enabled = false) (hc : toConConfig r = some c)
    (hq : s.ports[i].pages = [] ∨ c.quota = s.ports[i].cfg.quota) :
    conConfig r s = (s.modPort i fun p => { p with cfg := c }, .ok, encConConfig c) := by
  rw [conConfig_val h, if_neg (Bool.eq_false_iff.1 he), hc]
  exact if_neg fun ⟨hp, hn⟩ => hq.elim hp hn

/-- Settles O14, check by check. -/
theorem conConfigWritesTheRecord : Obligations.ConConfigWritesTheRecord := by
  intro s tag payload r hr hparse
  have hexec : exec (.conConfig tag payload) s = .next (s.request 0x10 tag (some r) conConfig) := by rw [← hparse]; rfl
  rw [hexec]
  refine ⟨fun hport => ?_, fun i hport => ⟨fun he => ?_, fun he hbad => ?_, fun c k he hrm hrate hpa hg htr hes hc =>
    ⟨fun hp hq => ?_, fun hq => ?_⟩⟩⟩ <;> refine congrArg Host.Outcome.next ?_
  · exact State.request_unchanged hr _ _ (onPort_above hport _ _)
  · exact State.request_unchanged hr _ _ (conConfig_enabled hport (s := s.shiftStatus) he)
  · exact State.request_unchanged hr _ _ (conConfig_refused hport (s := s.shiftStatus) he (toConConfig_refused hbad))
  · have htaken := (toConConfig_taken hrm hrate hpa hg htr hes).trans (congrArg some hc.symm)
    exact State.request_unchanged hr _ _ (conConfig_quotaKept hport (s := s.shiftStatus) he htaken hp hq)
  · have htaken := (toConConfig_taken hrm hrate hpa hg htr hes).trans (congrArg some hc.symm)
    exact State.request_answered hr _ _ (conConfig_taken hport (s := s.shiftStatus) he htaken hq) rfl

/-! ## CON_ENABLE (R4, R60) -/

theorem State.enablePort_paged {i : PortId} {s : State} (h : s.ports[i].pages ≠ []) :
    s.enablePort i = some (.ok, State.kick i (s.modPort i Port.enable)) := if_neg h

theorem State.enablePort_noSpace {i : PortId} {s : State} (h : s.ports[i].pages = [])
    (hg : s.grants s.ports[i].cfg.quota = false) : s.enablePort i = some (.noSpace, s) := by
  unfold State.enablePort
  rw [if_pos h]
  exact if_neg (Bool.eq_false_iff.1 hg)

theorem State.enablePort_supplied {i : PortId} {s u : State} {pg : Fin 128} (h : s.ports[i].pages = [])
    (hg : s.grants s.ports[i].cfg.quota = true)
    (hs : State.supplyHistory i { s with committed := vupd s.committed i fun _ => s.ports[i].cfg.quota } =
      some (pg, u)) :
    s.enablePort i = some (.ok, State.kick i (u.modPort i fun p => { p.enable with pages := [firstPage pg p.w] })) := by
  unfold State.enablePort
  rw [if_pos h, if_pos hg, hs]

theorem State.grants_iff (q : Nat) (s : State) : s.grants q = true ↔
    s.committedSum + q ≤ 112 ∧ s.heldCount + q ≤ s.floor ∧ s.dirtyOrPinnedCount + q + 4 ≤ s.floor := by
  unfold State.grants
  simp only [Bool.and_eq_true, decide_eq_true_eq, and_assoc]

/-- The pool does not look at the link. -/
theorem State.supplyHistory_link {i : PortId} {s u : State} {pg : Fin 128} (l : Link)
    (h : s.supplyHistory i = some (pg, u)) :
    State.supplyHistory i { s with link := l } = some (pg, { u with link := l }) := by
  unfold State.supplyHistory at h ⊢
  rw [show State.lowestFree { s with link := l } = s.lowestFree from rfl]
  split at h
  · next p hp =>
    obtain ⟨rfl, rfl⟩ : p = pg ∧ s.setOwner p (.history i) = u := by simpa using h
    rfl
  · next hp =>
    rw [show State.victim { s with link := l } = s.victim from rfl]
    split at h
    · next v hv =>
      obtain ⟨rfl, rfl⟩ := Prod.mk.inj (Option.some.inj h)
      rfl
    · cases h

theorem Port.enable_eq (p : Port) : p.enable = { p with
    enabled := true, lockCount := 0, unlockCount := 0, breakCount := 0, framingCount := 0, parityCount := 0,
    rateState := if p.cfg.rateMode = .fixed then .locked p.cfg.fixedRate else .hunting,
    rate := if p.cfg.rateMode = .fixed then some p.cfg.fixedRate else none,
    ivCount := 0, ivMin := 65535, counting := false, cwCount := 0, cwErrors := 0, filter := .normal,
    window := [] } := by
  unfold Port.enable
  cases p.cfg.rateMode <;> rfl

theorem conEnable_above {n : Nat} (h : 3 < n) (s : State) : conEnable n s = some (s, .badField, []) := by
  unfold conEnable; rw [portOf_above h]; rfl

theorem conEnable_enabled {i : PortId} {s : State} (h : s.ports[i].enabled = true) :
    conEnable i.val s = some (s, .wrongState, []) := by
  unfold conEnable
  rw [portOf_val]
  exact if_pos h

theorem conEnable_disabled {i : PortId} {s t : State} {st : Status} (h : s.ports[i].enabled = false)
    (ht : s.enablePort i = some (st, t)) : conEnable i.val s = some (t, st, []) := by
  unfold conEnable
  rw [portOf_val]
  dsimp only
  rw [if_neg (Bool.eq_false_iff.1 h), ht]
  rfl

theorem exec_conEnable (tag b : Byte) (s : State) :
    exec (.conEnable tag [b]) s = orNoPage (s.requestOpt 0x11 tag (some b.toNat) conEnable) := by
  rw [← fields1_one_byte]
  rfl

/-- Settles O15: the checks, then the enabled port with the pages it held or with a first page. -/
theorem conEnableCommitsAndEnables : Obligations.ConEnableCommitsAndEnables := by
  intro s tag hr
  refine ⟨fun b hb => ?_, fun i q hq => ⟨fun he => ?_, fun he hp => ?_, fun he hp hno => ?_,
    fun pg u he hp hsum hheld hdirty hsupply => ?_⟩⟩ <;> rw [exec_conEnable]
  · exact State.requestOpt_answered hr _ _ (conEnable_above hb _) rfl
  · rw [byteOf_port_toNat]
    exact State.requestOpt_answered hr _ _ (conEnable_enabled (s := s.shiftStatus) he) rfl
  · rw [byteOf_port_toNat]
    refine State.requestOpt_answered hr _ _
      (conEnable_disabled (s := s.shiftStatus) he (State.enablePort_paged (s := s.shiftStatus) hp)) ?_
    have hport : vupd s.ports i Port.enable = vupd s.ports i fun _ => q :=
      vupd_congr ((Port.enable_eq _).trans hq.symm)
    rw [← hport]
    exact State.kick_shifted i s.statusByte (s.modPort i Port.enable)
  · rw [byteOf_port_toNat]
    refine State.requestOpt_answered hr _ _
      (conEnable_disabled (s := s.shiftStatus) he (State.enablePort_noSpace (s := s.shiftStatus) hp ?_)) rfl
    rw [Bool.eq_false_iff, Ne, State.grants_iff]
    exact hno
  · rw [byteOf_port_toNat]
    have hgrants := (State.grants_iff s.ports[i].cfg.quota s.shiftStatus).2 ⟨hsum, hheld, hdirty⟩
    have hshifted := State.supplyHistory_link s.shiftStatus.link hsupply
    refine State.requestOpt_answered hr _ _
      (conEnable_disabled (s := s.shiftStatus) he
        (State.enablePort_supplied (s := s.shiftStatus) hp hgrants hshifted)) ?_
    have hframe := State.supplyHistory_frame hsupply
    have hports : u.ports = s.ports := by rw [hframe]
    have hlink : u.link = s.link := by rw [hframe]
    have hport : vupd u.ports i (fun p => { p.enable with pages := [firstPage pg p.w] }) = vupd u.ports i fun _ =>
        { q with pages := [{ page := pg, first := q.w, firstTime := none, firstEpoch := none }] } := by
      refine vupd_congr ?_
      dsimp only
      rw [hports, Port.enable_eq, hq]
      rfl
    rw [← hport]
    have hshift : s.shiftStatus.link = { u.link with statusOut := s.statusByte } := by rw [hlink]; rfl
    rw [hshift]
    exact State.kick_shifted i s.statusByte
      (u.modPort i fun p => { p.enable with pages := [firstPage pg p.w] })

/-! ## CON_DISABLE (R5) -/

/-- Settles O16: the disable's effects are one record, and the flags without the port's two. -/
theorem conDisableStopsThePort : Obligations.ConDisableStopsThePort := by
  intro s tag hr
  have hexec : ∀ b, exec (.conDisable tag [b]) s = .next (s.request 0x12 tag (some b.toNat) conDisable) := by
    intro b; rw [← fields1_one_byte]; rfl
  refine ⟨fun b hb => ?_, fun i => ⟨fun he => ?_, fun he => ?_⟩⟩ <;> rw [hexec]
  · exact congrArg _ (State.request_unchanged hr _ _ (onPort_above hb _ _))
  · rw [byteOf_port_toNat]
    refine congrArg _ (State.request_unchanged hr _ _ ((onPort_val i _ _).trans ?_))
    exact if_neg (by rw [show s.shiftStatus.ports = s.ports from rfl, he]; decide)
  · rw [byteOf_port_toNat]
    have hoff : conDisable i.val s.shiftStatus = (s.shiftStatus.disablePort i, .ok, []) :=
      (onPort_val i _ _).trans (if_pos he)
    refine ⟨_, congrArg _ (State.request_answered (u := s.disablePort i) hr _ _ hoff rfl), rfl, fun r => ?_⟩
    show r ∈ ((s.link.flags.filter (· ≠ .conLine i)).filter (· ≠ .conData i)) ↔ _
    simp [List.mem_filter, and_comm]

end Sys2Proof.Machine
end

/-! # Console lines: writing, transmission, errors and edges (R7 to R9, R12 to R20) -/

section
namespace Sys2Proof.Machine

theorem State.port_modPort (i : PortId) (f : Port → Port) (s : State) : (s.modPort i f).ports[i] = f s.ports[i] :=
  vupd_self _ _ _

theorem vupd_vupd {α : Type} {n : Nat} (v : Vector α n) (i : Fin n) (f g : α → α) :
    vupd (vupd v i f) i g = vupd v i fun x => g (f x) := by
  apply Vector.ext
  intro j hj
  by_cases h : (⟨j, hj⟩ : Fin n) = i
  · subst h
    exact (vupd_self _ _ _).trans ((congrArg g (vupd_self _ _ _)).trans
      (vupd_self v ⟨j, hj⟩ fun x => g (f x)).symm)
  · exact (vupd_ne _ _ h).trans ((vupd_ne _ _ h).trans (vupd_ne _ _ h).symm)

theorem State.modPort_modPort (i : PortId) (f g : Port → Port) (s : State) :
    (s.modPort i f).modPort i g = s.modPort i fun p => g (f p) := by
  show { s with ports := vupd (vupd s.ports i f) i g } = { s with ports := vupd s.ports i fun p => g (f p) }
  rw [vupd_vupd]

theorem State.modPort_congr {i : PortId} {f g : Port → Port} {s : State} (h : f s.ports[i] = g s.ports[i]) :
    s.modPort i f = s.modPort i g :=
  congrArg (fun v => { s with ports := v }) (vupd_congr h)

/-! ## CON_WRITE and CON_BREAK (R17, R18) -/

theorem conWrite_disabled {i : PortId} {data : List Byte} {s : State} (h : s.ports[i].enabled = false) :
    conWrite (i.val, data) s = (s, .wrongState, []) := by
  unfold conWrite
  rw [onPort_val]
  exact if_neg (Bool.eq_false_iff.1 h)

/-- CON_WRITE at an ENABLED port: what it places, then the transmitter. -/
theorem conWrite_enabled {i : PortId} {data : List Byte} {s : State} (h : s.ports[i].enabled = true) :
    conWrite (i.val, data) s =
      (State.kick i (s.modPort i fun p => { p with queue := p.queue ++ (acceptedBytes s.ports[i] data).map .byte }),
        if (acceptedBytes s.ports[i] data).length = data.length then .ok else .partial_,
        num 2 (acceptedBytes s.ports[i] data).length ++
          num 1 (128 - (s.ports[i].queue.length + (acceptedBytes s.ports[i] data).length))) := by
  unfold conWrite
  rw [onPort_val]
  refine (if_pos h).trans ?_
  dsimp only
  rw [State.port_modPort]
  unfold Port.free
  rw [List.length_append, List.length_map]

theorem acceptedBytes_occupied {p : Port} (h : p.slot ≠ none) (data : List Byte) : acceptedBytes p data = [] :=
  if_pos (Option.isSome_iff_ne_none.2 h)

theorem acceptedBytes_free {p : Port} (h : p.slot = none) (data : List Byte) :
    acceptedBytes p data = data.take (min data.length (128 - p.queue.length)) := by
  unfold acceptedBytes
  rw [h]
  exact (List.take_eq_take_min ..).trans (by rw [Nat.min_comm]; rfl)

theorem exec_conWrite {i : PortId} {data : List Byte} (hd : data.length ≤ 1024) (tag : Byte) (s : State) :
    exec (.conWrite tag (byteOf i.val :: data)) s = .next (s.request 0x17 tag (some (i.val, data)) conWrite) := by
  have hparse : parseConWrite (byteOf i.val :: data) = some (i.val, data) :=
    (if_pos hd).trans (by rw [byteOf_port_toNat])
  rw [← hparse]
  rfl

/-- A payload of a port number and one number of `k` bytes. -/
theorem fields2_port (i : PortId) {k n : Nat} (h : n < 256 ^ k) :
    fields2 1 k (byteOf i.val :: num k n) = some (i.val, n) := by
  have hf := fields_append (num_length k n) [] []
  rw [List.append_nil, leNat_num k n h] at hf
  unfold fields2
  rw [fields_cons_byte, hf, byteOf_port_toNat]
  rfl

theorem conBreak_disabled {i : PortId} {n : Nat} {s : State} (h : s.ports[i].enabled = false) :
    conBreak (i.val, n) s = (s, .wrongState, []) := by
  unfold conBreak
  rw [onPort_val]
  exact if_neg (Bool.eq_false_iff.1 h)

theorem conBreak_full {i : PortId} {n : Nat} {s : State} (h : s.ports[i].enabled = true)
    (hfull : s.ports[i].slot ≠ none ∨ 128 ≤ s.ports[i].queue.length) :
    conBreak (i.val, n) s =
      (s, .partial_, num 1 0 ++ num 2 (max 1 (min 2000 n)) ++ num 1 (128 - s.ports[i].queue.length)) := by
  unfold conBreak
  rw [onPort_val]
  refine (if_pos h).trans (if_neg ?_)
  rintro ⟨hslot, hfree⟩
  rcases hfull with hs | hq
  · exact hs (Option.isNone_iff_eq_none.1 hslot)
  · exact absurd hfree (Nat.not_lt.2 (Nat.le_of_eq (Nat.sub_eq_zero_of_le hq)))

theorem conBreak_placed {i : PortId} {n : Nat} {s : State} (h : s.ports[i].enabled = true)
    (hslot : s.ports[i].slot = none) (hfree : s.ports[i].queue.length < 128) :
    conBreak (i.val, n) s =
      (State.kick i (s.modPort i fun p => { p with queue := p.queue ++ [.brk (max 1 (min 2000 n))] }), .ok,
        num 1 1 ++ num 2 (max 1 (min 2000 n)) ++ num 1 (128 - (s.ports[i].queue.length + 1))) := by
  unfold conBreak
  rw [onPort_val]
  refine (if_pos h).trans ((if_pos ⟨Option.isNone_iff_eq_none.2 hslot, Nat.sub_pos_of_lt hfree⟩).trans ?_)
  dsimp only
  rw [State.port_modPort]
  unfold Port.free
  rw [List.length_append]
  rfl

/-- Settles O18, by the port's state, its slot and its free entries. -/
theorem writesJoinTheQueue : Obligations.WritesJoinTheQueue := by
  intro s tag i hr
  refine ⟨fun data hd => ?_, fun n hn => ?_⟩
  · rw [exec_conWrite hd]
    refine ⟨fun he => ?_, fun he hslot => ?_, fun he hslot k hk => ?_⟩ <;> refine congrArg _ ?_
    · exact State.request_unchanged hr _ _ (conWrite_disabled (s := s.shiftStatus) he)
    · have hwrite := conWrite_enabled (data := data) (s := s.shiftStatus) he
      rw [acceptedBytes_occupied (p := s.shiftStatus.ports[i]) hslot] at hwrite
      have hsame : s.shiftStatus.modPort i (fun p => { p with queue := p.queue ++ [] }) = s.shiftStatus :=
        State.modPort_same (by rw [List.append_nil])
      rw [List.map_nil, hsame] at hwrite
      refine (State.request_answered hr _ _ hwrite (State.kick_shifted i s.statusByte s)).trans ?_
      have hstatus : (if ([] : List Byte).length = data.length then Status.ok else .partial_) =
          if data = [] then .ok else .partial_ := by
        cases data <;> rfl
      rw [hstatus]
      rfl
    · have hwrite := conWrite_enabled (data := data) (s := s.shiftStatus) he
      rw [acceptedBytes_free (p := s.shiftStatus.ports[i]) hslot,
        show min data.length (128 - s.shiftStatus.ports[i].queue.length) = k from hk.symm,
        List.length_take, show min k data.length = k by omega] at hwrite
      exact State.request_answered hr _ _ hwrite (State.kick_shifted i s.statusByte
        (s.modPort i fun p => { p with queue := p.queue ++ (data.take k).map .byte }))
  · have hexec : exec (.conBreak tag (byteOf i.val :: num 2 n)) s =
        .next (s.request 0x18 tag (some (i.val, n)) conBreak) := by
      rw [← fields2_port i (k := 2) hn]; rfl
    rw [hexec]
    refine ⟨fun he => ?_, fun he hfull => ?_, fun he hslot hfree => ?_⟩ <;> refine congrArg _ ?_
    · exact State.request_unchanged hr _ _ (conBreak_disabled (s := s.shiftStatus) he)
    · exact State.request_unchanged hr _ _ (conBreak_full (s := s.shiftStatus) he hfull)
    · exact State.request_answered hr _ _ (conBreak_placed (s := s.shiftStatus) he hslot hfree)
        (State.kick_shifted i s.statusByte
          (s.modPort i fun p => { p with queue := p.queue ++ [.brk (max 1 (min 2000 n))] }))

/-! ## Transmission (R16, R20) -/

theorem breakEnd_eq_none {x : Option Sending} (h : ∀ u, x ≠ some (.brk u)) : breakEnd x = none := by
  match x with
  | none => rfl
  | some (.byte _) => rfl
  | some .mark => rfl
  | some (.brk u) => exact absurd rfl (h u)

theorem Port.moveText_empty {p : Port} (h : p.slot = none) : p.moveText = p := by
  unfold Port.moveText; rw [h]

theorem Port.moveText_waits {p : Port} {y : InjText} (h : p.slot = some y) (hlong : p.free < y.text.length) :
    p.moveText = p := by
  unfold Port.moveText; rw [h]; exact if_neg (by omega)

theorem Port.moveText_moves {p : Port} {y : InjText} (h : p.slot = some y) (hfits : y.text.length ≤ p.free) :
    p.moveText = { p with queue := p.queue ++ y.text.map .byte, slot := none } := by
  unfold Port.moveText; rw [h]; exact if_pos hfits

/-- An idle port that frames sends its queue's head. -/
theorem State.kick_sends {i : PortId} {s : State} (hf : s.framing s.ports[i] = true) (hidle : s.ports[i].sending = none)
    {e : TxEntry} {rest : List TxEntry} (hq : s.ports[i].queue = e :: rest) :
    s.kick i = s.modPort i fun p => Port.moveText { p with queue := rest, sending := some (e.start s.time) } := by
  unfold State.kick
  rw [if_pos hf]
  refine State.modPort_congr ?_
  unfold Port.begin_
  rw [hidle, hq]

/-- The transmitter finishes its entry while the port frames and something waits. -/
theorem State.sent_sends {i : PortId} {s : State} (hf : s.framing s.ports[i] = true) {e : TxEntry}
    {rest : List TxEntry} (hq : s.ports[i].queue = e :: rest) :
    s.sent i = s.modPort i fun p => Port.moveText { p with queue := rest, sending := some (e.start s.time) } := by
  have hport := State.port_modPort i (fun p => { p with sending := none }) s
  unfold State.sent
  rw [State.kick_sends (e := e) (rest := rest), State.modPort_modPort]
  · rfl
  · rw [hport]; exact hf
  · rw [hport]
  · rw [hport]; exact hq

theorem State.sent_idle {i : PortId} {s : State} (h : s.framing s.ports[i] = false ∨ s.ports[i].queue = []) :
    s.sent i = s.modPort i fun p => { p with sending := none } := by
  have hport := State.port_modPort i (fun p => { p with sending := none }) s
  unfold State.sent
  rcases h with hf | hq
  · unfold State.kick
    rw [hport]
    exact if_neg (Bool.eq_false_iff.1 hf)
  · exact State.kick_idle (by rw [hport]; exact hq)

theorem exec_transmissionEnd_byte {i : PortId} {s : State} (h : ∀ u, s.ports[i].sending ≠ some (.brk u)) :
    exec (.transmissionEnd i) s = .next (s.sent i) := by
  show execTransmissionEnd i s = _
  unfold execTransmissionEnd
  rw [breakEnd_eq_none h]

theorem exec_transmissionEnd_break {i : PortId} {s : State} {u : PartTime} (h : s.ports[i].sending = some (.brk u)) :
    exec (.transmissionEnd i) s = .next (s.atDeadline (some u) fun s => s.modPort i (Port.endBreak u)) := by
  show execTransmissionEnd i s = _
  unfold execTransmissionEnd
  rw [h]
  rfl

/-- Settles O19: the transmitter's turn, the end of a BREAK, and the levels by what is under transmission. -/
theorem transmissionTakesTheHead : Obligations.TransmissionTakesTheHead := by
  refine ⟨fun s i hbyte => ?_, fun s i => ⟨fun u hu => ⟨?_, fun hearly => ?_, fun hdue => ?_⟩, ?_, fun b hb => ?_⟩⟩
  · rw [exec_transmissionEnd_byte hbyte]
    refine ⟨fun hidle => by rw [State.sent_idle hidle]; rfl, fun e rest x hf hq hx => ?_⟩
    have hstart : e.start s.time = x := by
      rcases hx with ⟨b, rfl, rfl⟩ | ⟨ms, rfl, rfl⟩ <;> rfl
    rw [State.sent_sends hf hq, hstart]
    refine ⟨fun hslot => congrArg _ ?_, fun y hslot => ⟨fun hlong => congrArg _ ?_, fun hfits => congrArg _ ?_⟩⟩
    · exact State.modPort_congr (Port.moveText_empty hslot)
    · exact State.modPort_congr (Port.moveText_waits hslot hlong)
    · exact State.modPort_congr (Port.moveText_moves hslot hfits)
  · unfold Port.wireLevels; rw [hu]
  · rw [exec_transmissionEnd_break hu, State.atDeadline_early hearly]
  · rw [exec_transmissionEnd_break hu, State.atDeadline_due hdue]
    refine congrArg _ (State.modPort_congr (s := { s with time := u }) ?_)
    unfold Port.endBreak
    rw [show ({ s with time := u } : State).ports[i].sending = some (.brk u) from hu]
    exact if_pos rfl
  · rintro (h | h) <;> (unfold Port.wireLevels; rw [h])
  · unfold Port.wireLevels; rw [hb]; rfl

/-! ## Characters in error and breaks (R8, R9, R15, R29) -/

theorem State.receive_unframed {i : PortId} {c : RxChar} {s : State} (h : s.framing s.ports[i] = false) :
    s.receive i c = some s := if_pos (.inl h)

theorem State.receive_full {i : PortId} {c : RxChar} {s : State} (h : 2 ^ 48 - 1 ≤ s.ports[i].w) :
    s.receive i c = some s := if_pos (.inr h)

theorem State.receive_framingError {i : PortId} {c : RxChar} {s : State} (hf : s.framing s.ports[i] = true)
    (hw : s.ports[i].w < 2 ^ 48 - 1) (he : framingError s.ports[i].cfg c = true) : s.receive i c =
      some (State.countChar i true (s.modPort i fun p => { p with framingCount := satInc 65535 p.framingCount })) := by
  unfold State.receive
  rw [if_neg (by rintro (h | h); · rw [hf] at h; cases h
                 · exact absurd h (Nat.not_le.2 hw)), if_pos he]

theorem State.receive_parityError {i : PortId} {c : RxChar} {s : State} (hf : s.framing s.ports[i] = true)
    (hw : s.ports[i].w < 2 ^ 48 - 1) (he : framingError s.ports[i].cfg c = false)
    (hp : parityError s.ports[i].cfg c = true) : s.receive i c =
      some (State.countChar i true (s.modPort i fun p => { p with parityCount := satInc 65535 p.parityCount })) := by
  unfold State.receive
  rw [if_neg (by rintro (h | h); · rw [hf] at h; cases h
                 · exact absurd h (Nat.not_le.2 hw)), if_neg (Bool.eq_false_iff.1 he), if_pos hp]

theorem State.receive_good {i : PortId} {c : RxChar} {s : State} (hf : s.framing s.ports[i] = true)
    (hw : s.ports[i].w < 2 ^ 48 - 1) (he : framingError s.ports[i].cfg c = false)
    (hp : parityError s.ports[i].cfg c = false) : s.receive i c = (s.capture i (charByte s.ports[i].cfg c)).map fun t =>
      (t.matchByte i s.ports[i].w (charByte s.ports[i].cfg c)).countChar i false := by
  unfold State.receive
  rw [if_neg (by rintro (h | h); · rw [hf] at h; cases h
                 · exact absurd h (Nat.not_le.2 hw)), if_neg (Bool.eq_false_iff.1 he), if_neg (Bool.eq_false_iff.1 hp)]

/-- The count of a character changes a port and the flags: nothing that a fall or the cache looks at. -/
theorem exec_characterReceived {i : PortId} {c : RxChar} {s t : State} (h : s.receive i c = some t) :
    exec (.characterReceived i c) s = .next (State.settle s (State.closeFall s t)) := by
  show orNoPage ((s.receive i c).map fun t => State.settle s (State.closeFall s t)) = _
  rw [h]
  rfl

theorem State.closeFall_of_power {s t : State} (h : t.power = s.power) : State.closeFall s t = t := by
  unfold State.closeFall State.pgHigh
  rw [h]
  exact if_neg (by simp)

theorem exec_characterReceived_quiet {i : PortId} {c : RxChar} {s t : State} (h : s.receive i c = some t)
    (ht : ∃ ps l, t = { s with ports := ps, link := l }) : exec (.characterReceived i c) s = .next t := by
  obtain ⟨ps, l, rfl⟩ := ht
  rw [exec_characterReceived h, State.closeFall_of_power (s := s) (t := { s with ports := ps, link := l }) rfl]
  exact congrArg _ (State.settle_same rfl rfl rfl rfl)

theorem framingError_iff (cfg : ConConfig) (c : RxChar) :
    framingError cfg c = true ↔ c.stop1 = false ∨ (cfg.stopBits = 2 ∧ c.stop2 = false) := by
  unfold framingError
  cases c.stop1 <;> simp

theorem State.countChar_fixed {i : PortId} {bad : Bool} {s : State} (h : s.ports[i].cfg.rateMode = .fixed) :
    s.countChar i bad = s := by
  unfold State.countChar
  dsimp only
  rw [h]
  exact if_neg (by decide)

theorem State.countChar_joins {i : PortId} {bad : Bool} {s : State} (h : s.ports[i].cfg.rateMode = .auto)
    (hc : s.ports[i].cwCount < 63) : s.countChar i bad = s.modPort i fun p =>
      { p with cwCount := p.cwCount + 1, cwErrors := s.ports[i].cwErrors + (if bad then 1 else 0) } := by
  unfold State.countChar
  exact (if_pos h).trans (if_pos (by omega))

/-- The 64th character of the window with fewer than 8 errored. -/
theorem State.countChar_passes {i : PortId} {bad : Bool} {s : State} (h : s.ports[i].cfg.rateMode = .auto)
    (hc : 63 ≤ s.ports[i].cwCount) (he : s.ports[i].cwErrors + (if bad then 1 else 0) < 8) :
    s.countChar i bad = s.modPort i fun p => { p with cwCount := 0, cwErrors := 0 } := by
  unfold State.countChar
  exact (if_pos h).trans ((if_neg (by omega)).trans (if_neg (Nat.not_le.2 he)))

/-- The 64th character of the window with 8 or more errored. -/
theorem State.countChar_unlocks {i : PortId} {bad : Bool} {s : State} (h : s.ports[i].cfg.rateMode = .auto)
    (hc : 63 ≤ s.ports[i].cwCount) (he : 8 ≤ s.ports[i].cwErrors + (if bad then 1 else 0)) :
    s.countChar i bad = State.setFlag (.conLine i)
      (s.modPort i fun p => Port.unlock { p with cwCount := 0, cwErrors := 0 }) := by
  unfold State.countChar
  refine (if_pos h).trans ((if_neg (by omega)).trans ((if_pos he).trans ?_))
  rw [State.modPort_modPort]

theorem Port.unlock_eq (p : Port) : p.unlock = { p with
    rateState := .hunting, rate := none, unlockCount := satInc 65535 p.unlockCount, counting := false, ivCount := 0,
    ivMin := 65535,
    sending := match p.sending with
      | some (.brk _) => none
      | x => x } := by
  obtain ⟨_, _, _, _, _, _, _, _, _, _, x, _, _, _, _, _, _, _, _, _, _, _⟩ := p
  rcases x with _ | _ | _ | _ <;> rfl

/-- Settles O20: the checks of a character in error, the four cases of the character window, and a break. -/
theorem errorsAndBreaksAreCounted : Obligations.ErrorsAndBreaksAreCounted := by
  refine ⟨fun s i c => ⟨fun hf => ?_, fun hf hw => ⟨fun he => ?_, fun hs1 hs2 hp => ?_⟩⟩,
    fun s i bad n hn => ⟨fun hmode => ?_, fun hmode hc => ?_, fun hmode hc hlow => ?_, fun hmode hc hhigh => ?_⟩,
    fun s i => ⟨fun hf => ?_, fun hf => ?_⟩⟩
  · exact exec_characterReceived_quiet (State.receive_unframed hf) ⟨s.ports, s.link, rfl⟩
  · refine exec_characterReceived_quiet (State.receive_framingError hf hw ((framingError_iff _ _).2 he)) ?_
    obtain ⟨p, l, h⟩ := State.countChar_frame i true
      (s.modPort i fun p => { p with framingCount := satInc 65535 p.framingCount })
    exact ⟨p, l, h⟩
  · have hgood : framingError s.ports[i].cfg c = false := by
      rw [Bool.eq_false_iff, Ne, framingError_iff]
      rintro (h | ⟨h2, h⟩)
      · rw [hs1] at h; cases h
      · rw [hs2 h2] at h; cases h
    refine exec_characterReceived_quiet (State.receive_parityError hf hw hgood hp) ?_
    obtain ⟨p, l, h⟩ := State.countChar_frame i true
      (s.modPort i fun p => { p with parityCount := satInc 65535 p.parityCount })
    exact ⟨p, l, h⟩
  · exact State.countChar_fixed hmode
  · rw [State.countChar_joins hmode hc, hn]; rfl
  · exact State.countChar_passes hmode hc (hn ▸ hlow)
  · rw [State.countChar_unlocks hmode hc (hn ▸ hhigh)]
    refine congrArg _ (State.modPort_congr ?_)
    rw [Port.unlock_eq]
    rfl
  · exact congrArg _ (if_neg (Bool.eq_false_iff.1 hf))
  · exact congrArg _ (if_pos hf)

/-! ## Edges (R12 to R14) -/

theorem execReceiveLineEdge_measuring {i : PortId} {n : Nat} {s : State} (h : s.measures s.ports[i] = true) :
    exec (.receiveLineEdge i n) s = .next (s.edge i n) := congrArg _ (if_pos h)

theorem State.edge_first {i : PortId} {s : State} (n : Nat) (h : s.ports[i].counting = false) :
    s.edge i n = s.modPort i fun p => { p with counting := true } := if_neg (Bool.eq_false_iff.1 h)

/-- An edge whose interval brings no rate. -/
theorem State.edge_unlocked {i : PortId} {n : Nat} {s : State} (h : s.ports[i].counting = true)
    (hr : (s.ports[i].interval (min 65535 n)).rate = none) : s.edge i n = s.modPort i (Port.interval (min 65535 n)) := by
  unfold State.edge
  refine (if_pos h).trans ?_
  dsimp only
  rw [State.port_modPort, hr]
  rfl

theorem State.edge_locked {i : PortId} {n : Nat} {r : RateIdx} {s : State} (h : s.ports[i].counting = true)
    (hr : (s.ports[i].interval (min 65535 n)).rate = some r) :
    s.edge i n = State.kick i (State.setFlag (.conLine i) (s.modPort i (Port.interval (min 65535 n)))) := by
  unfold State.edge
  refine (if_pos h).trans ?_
  dsimp only
  rw [State.port_modPort, hr]
  rfl

theorem State.measures_rate {i : PortId} {s : State} (h : s.measures s.ports[i] = true) : s.ports[i].rate = none := by
  unfold State.measures at h
  rw [Bool.and_eq_true] at h
  exact Option.isNone_iff_eq_none.1 h.2

theorem Port.interval_joins {iv : Nat} {p : Port} (h : p.ivCount < 63) :
    p.interval iv = { p with ivCount := p.ivCount + 1, ivMin := min p.ivMin iv } := if_pos (by omega)

theorem Port.interval_evaluates {iv : Nat} {p : Port} {st : RateState} (h : p.ivCount = 63)
    (hst : st = rateMove p.rateState (evaluateWindow (min p.ivMin iv))) (hl : ∀ r, st ≠ .locked r) :
    p.interval iv = { p with ivCount := 0, ivMin := 65535, rateState := st } := by
  unfold Port.interval
  refine (if_neg (by omega)).trans ?_
  dsimp only
  rw [← hst]
  cases st with
  | locked r => exact absurd rfl (hl r)
  | hunting => rfl
  | candidate r => rfl

theorem Port.interval_locks {iv : Nat} {p : Port} {r : RateIdx} (h : p.ivCount = 63)
    (hst : .locked r = rateMove p.rateState (evaluateWindow (min p.ivMin iv))) :
    p.interval iv = { p with
      ivCount := 0, ivMin := 65535, rateState := .locked r, rate := some r, lockCount := satInc 65535 p.lockCount,
      cwCount := 0, cwErrors := 0, counting := false } := by
  unfold Port.interval
  refine (if_neg (by omega)).trans ?_
  dsimp only
  rw [← hst]

/-- Settles O23: the table of moves, and an edge by the counter and the window. -/
theorem edgesMoveTheRateState : Obligations.EdgesMoveTheRateState := by
  refine ⟨fun r q => ⟨rfl, rfl, if_pos rfl, fun hne => if_neg hne, rfl⟩,
    fun s i n => ⟨fun hm => ?_, fun hm hc => ?_, fun hm hc hn => ?_, fun st hm hc hn hst => ⟨fun hl => ?_, ?_⟩⟩⟩
  · exact congrArg _ (if_neg (Bool.eq_false_iff.1 hm))
  · rw [execReceiveLineEdge_measuring hm, State.edge_first n hc]; rfl
  · have hjoin := Port.interval_joins (iv := min 65535 n) hn
    rw [execReceiveLineEdge_measuring hm, State.edge_unlocked hc (by rw [hjoin]; exact State.measures_rate hm)]
    exact congrArg _ (State.modPort_congr hjoin)
  · have hmove := Port.interval_evaluates hn hst hl
    rw [execReceiveLineEdge_measuring hm, State.edge_unlocked hc (by rw [hmove]; exact State.measures_rate hm)]
    exact congrArg _ (State.modPort_congr hmove)
  · rintro r rfl
    have hlock := Port.interval_locks hn hst
    rw [execReceiveLineEdge_measuring hm, State.edge_locked hc (congrArg Port.rate hlock)]
    exact congrArg (fun t => Host.Outcome.next (State.kick i (State.setFlag (.conLine i) t))) (State.modPort_congr hlock)

end Sys2Proof.Machine
end

/-! # Console history, markers and translation tables (02, 03) -/

section
namespace Sys2Proof.Machine

theorem State.setFlag_shifted (r : Report) (b : Byte) (s : State) :
    State.setFlag r { s with link := { s.link with statusOut := b } } =
      { s.setFlag r with link := { (s.setFlag r).link with statusOut := b } } := by
  rw [State.setFlag_eq, State.setFlag_eq]

theorem State.recordFault_shifted (k : FaultKind) (b : Byte) (s : State) :
    State.recordFault k { s with link := { s.link with statusOut := b } } =
      { s.recordFault k with link := { (s.recordFault k).link with statusOut := b } } := by
  unfold State.recordFault
  rw [State.setFlag_eq, State.setFlag_eq]

/-! ## Rows and bytes of a history (R30 to R33) -/

theorem pageOfRow_eq_some {p : Port} (hn : (p.pages.map (·.page)).Nodup) {row : Nat} {r : PageRec} :
    pageOfRow p row = some r ↔ r ∈ p.pages ∧ r.page.val = row / 64 := by
  unfold pageOfRow
  constructor
  · intro h
    exact ⟨List.mem_of_find?_eq_some h, by simpa using List.find?_some h⟩
  · rintro ⟨hr, hpage⟩
    rcases hf : p.pages.find? fun r => r.page.val == row / 64 with _ | r'
    · exact absurd (by simpa using hpage) (List.find?_eq_none.1 hf r hr)
    · have hpage' : r'.page.val = row / 64 := by simpa using List.find?_some hf
      exact hf.trans (congrArg some (List.inj_on_of_nodup_map hn (List.mem_of_find?_eq_some hf) hr
        (Fin.ext (hpage'.trans hpage.symm))))

theorem touchesRow_iff {p : Port} (hn : (p.pages.map (·.page)).Nodup) (start c row : Nat) :
    touchesRow p start c row = true ↔ ∃ r ∈ p.pages, r.page.val = row / 64 ∧ 0 < c ∧
      r.first + 64 * (row % 64) < start + c ∧ start < r.first + 64 * (row % 64) + 64 := by
  unfold touchesRow
  rcases hr : pageOfRow p row with _ | r
  · simp only [Bool.false_eq_true, false_iff]
    rintro ⟨r, hmem, hpage, -⟩
    rw [(pageOfRow_eq_some hn).2 ⟨hmem, hpage⟩] at hr
    cases hr
  · obtain ⟨hmem, hpage⟩ := (pageOfRow_eq_some hn).1 hr
    simp only [decide_eq_true_eq]
    constructor
    · exact fun h => ⟨r, hmem, hpage, h⟩
    · rintro ⟨r', hmem', hpage', h⟩
      obtain rfl : r' = r := Option.some.inj (((pageOfRow_eq_some hn).2 ⟨hmem', hpage'⟩).symm.trans hr)
      exact h

theorem touchesRow_pos {p : Port} {start c row : Nat} (h : touchesRow p start c row = true) : 0 < c := by
  unfold touchesRow at h
  split at h
  · exact (of_decide_eq_true h).1
  · cases h

theorem State.historyByte_eq {s : State} {i : PortId} {q : Nat} {older newer : List PageRec} {r : PageRec}
    (h : s.ports[i].pages = older ++ r :: newer) (ho : ∀ x ∈ older, ¬(x.first ≤ q ∧ q < x.first + 4096))
    (hlow : r.first ≤ q) (hhigh : q < r.first + 4096) :
    s.historyByte i q = readByte s.mem (4096 * r.page.val + (q - r.first)) := by
  have hfind : s.ports[i].pages.find? (fun r => decide (r.first ≤ q ∧ q < r.first + pageBytes)) = some r :=
    List.find?_eq_some_iff_append.2
      ⟨decide_eq_true ⟨hlow, hhigh⟩, older, newer, h, fun x hx => by
        rw [Bool.not_eq_true', decide_eq_false_iff_not]; exact ho x hx⟩
  unfold State.historyByte
  rw [hfind]
  rfl

/-! ## CON_READ (R32 to R34) -/

/-- The reply's bytes up to the damage field and after it (11.7). -/
def State.readReply (i : PortId) (q c start damage : Nat) (s : State) : List Byte :=
  readFlags i (decide (q < s.ports[i].o)) (decide (c = 0)) ++ num 6 s.ports[i].w ++
    num 3 (s.ports[i].w - s.ports[i].o) ++ num 3 (if c = 0 then 0 else start - s.ports[i].o) ++ num 2 damage ++
    (if c = 0 then num 6 start else (List.range c).map fun k => s.historyByte i (start + k))

theorem readFlags_eq (i : PortId) (P Q : Prop) [Decidable P] [Decidable Q] :
    readFlags i (decide P) (decide Q) = [byteOf (i.val + (if P then 4 else 0) + (if Q then 8 else 0))] := by
  unfold readFlags
  simp only [decide_eq_true_eq]
  rfl

theorem State.readReply_bytes {i : PortId} {q c start damage : Nat} {s : State} (h : ¬ c = 0) :
    s.readReply i q c start damage = [byteOf (i.val + (if q < s.ports[i].o then 4 else 0))] ++ num 6 s.ports[i].w ++
      num 3 (s.ports[i].w - s.ports[i].o) ++ num 3 (start - s.ports[i].o) ++ num 2 damage ++
      (List.range c).map fun k => s.historyByte i (start + k) := by
  unfold State.readReply
  rw [readFlags_eq, if_neg h, if_neg h, if_neg h, Nat.add_zero]

theorem rowsInError_eq_nil {rs : Rows} {f : Nat → Bool} (h : ∀ x ∈ rs, f x.1 = false) : rowsInError rs f = [] := by
  unfold rowsInError
  rw [List.filter_eq_nil_iff.2 fun x hx => by rw [h x hx]; exact Bool.false_ne_true]
  rfl

theorem markRows_of_untouched {rs : Rows} {f : Nat → Bool} (h : ∀ x ∈ rs, f x.1 = false) : markRows rs f = rs := by
  unfold markRows
  exact (List.map_congr_left fun x hx => if_neg (Bool.eq_false_iff.1 (h x hx))).trans (List.map_id' rs)

theorem mem_rowsInError {rs : Rows} {f : Nat → Bool} {row : Nat} :
    row ∈ rowsInError rs f ↔ ∃ x ∈ rs, f x.1 = true ∧ x.1 = row := by
  unfold rowsInError
  simp only [List.mem_map, List.mem_filter, and_assoc]

theorem conRead_sound {i : PortId} {q n : Nat} {s : State}
    (h : ∀ x ∈ s.rows, touchesRow s.ports[i] (readStart s.ports[i] q) (readCount s.ports[i] q n) x.1 = false) :
    conRead (i.val, q, n) s =
      (s, .ok, s.readReply i q (readCount s.ports[i] q n) (readStart s.ports[i] q) 0) := by
  unfold conRead
  rw [onPort_val]
  dsimp only
  rw [rowsInError_eq_nil h, markRows_of_untouched h]
  rfl

theorem conRead_damaged {i : PortId} {q n f : Nat} {s : State}
    (h : firstDamage s.ports[i] (readStart s.ports[i] q) (rowsInError s.rows
      (touchesRow s.ports[i] (readStart s.ports[i] q) (readCount s.ports[i] q n))) = some f) :
    conRead (i.val, q, n) s =
      (State.recordFault (.historyDamaged i) { s with
          rows := markRows s.rows (touchesRow s.ports[i] (readStart s.ports[i] q) (readCount s.ports[i] q n)) },
        .damaged, s.readReply i q (readCount s.ports[i] q n) (readStart s.ports[i] q) f) := by
  unfold conRead
  rw [onPort_val]
  dsimp only
  rw [h]
  rfl

/-- The least over the damaged rows of where they are first touched, counted from the start. -/
theorem firstDamage_eq {p : Port} (hn : (p.pages.map (·.page)).Nodup) {start f : Nat} {bad : List Nat} {row : Nat}
    {r : PageRec} (hrow : row ∈ bad) (hr : r ∈ p.pages) (hpage : r.page.val = row / 64)
    (hf : start + f = max start (r.first + 64 * (row % 64)))
    (hleast : ∀ row' ∈ bad, ∃ r' ∈ p.pages, r'.page.val = row' / 64 ∧ start + f ≤ max start (r'.first + 64 * (row' % 64))) :
    firstDamage p start bad = some f := by
  have hoffset : ∀ {row : Nat} {r : PageRec}, r ∈ p.pages → r.page.val = row / 64 →
      damageOffset p start row = r.first + 64 * (row % 64) - start := by
    intro row r hr hpage
    unfold damageOffset
    rw [(pageOfRow_eq_some hn).2 ⟨hr, hpage⟩]
    rfl
  unfold firstDamage
  rw [List.min?_eq_some_iff]
  constructor
  · exact List.mem_map.2 ⟨row, hrow, by rw [hoffset hr hpage]; omega⟩
  · intro b hb
    obtain ⟨row', hrow', rfl⟩ := List.mem_map.1 hb
    obtain ⟨r', hr', hpage', hle⟩ := hleast row' hrow'
    rw [hoffset hr' hpage']
    omega

/-- A payload of a port number and two numbers. -/
theorem fields3_port (i : PortId) {q n : Nat} (hq : q < 2 ^ 48) (hn : n < 65536) :
    fields3 1 6 2 (byteOf i.val :: num 6 q ++ num 2 n) = some (i.val, q, n) := by
  have hlast := fields_append (num_length 2 n) [] []
  have hmid := fields_append (num_length 6 q) [2] (num 2 n)
  rw [List.append_nil, leNat_num 2 n hn] at hlast
  rw [hlast, leNat_num 6 q (by omega)] at hmid
  unfold fields3
  rw [List.cons_append, fields_cons_byte, hmid, byteOf_port_toNat]
  rfl

/-- Settles O24: rows touched, the byte at a position, and a read without and with damage. -/
theorem conReadReturnsTheBytes : Obligations.ConReadReturnsTheBytes := by
  refine ⟨fun p start c row hn => touchesRow_iff hn start c row,
    fun s i q older r newer h ho hlow hhigh => State.historyByte_eq h ho hlow hhigh,
    fun s tag i q n start c hr hq hn hstart hc => ?_⟩
  have hexec : exec (.conRead tag (byteOf i.val :: num 6 q ++ num 2 n)) s =
      .next (s.request 0x14 tag (some (i.val, q, n)) conRead) := by
    rw [← fields3_port i hq hn]; rfl
  have hcount : readCount s.ports[i] q n = c := by
    rw [hc, hstart]
    unfold readCount readStart
    rw [show clamp 0 1024 n = min 1024 n from Nat.zero_max _]
  have hread : readStart s.ports[i] q = start := hstart.symm
  rw [hexec]
  refine ⟨fun hsound => congrArg _ ?_, fun x r f hnodup hx htouch hr' hpage hf hleast => congrArg _ ?_⟩
  · have hanswer := conRead_sound (i := i) (q := q) (n := n) (s := s.shiftStatus) (by
      show ∀ x ∈ s.rows, touchesRow s.ports[i] (readStart s.ports[i] q) (readCount s.ports[i] q n) x.1 = false
      rw [hcount, hread]; exact hsound)
    refine (State.request_unchanged hr _ _ hanswer).trans ?_
    unfold State.readReply
    rw [readFlags_eq]
    show s.answered 0x14 tag .ok ([byteOf (i.val + (if q < s.ports[i].o then 4 else 0) +
      (if readCount s.ports[i] q n = 0 then 8 else 0))] ++ _ ++ _ ++ _ ++ _ ++ _) s = _
    rw [← hread, ← hcount]
    rfl
  · have hpos := touchesRow_pos htouch
    have hne : ¬ c = 0 := by omega
    have hdamage : firstDamage s.ports[i] start (rowsInError s.rows (touchesRow s.ports[i] start c)) = some f := by
      refine firstDamage_eq hnodup (mem_rowsInError.2 ⟨x, hx, htouch, rfl⟩) hr' hpage hf fun row' hrow' => ?_
      obtain ⟨y, hy, hty, rfl⟩ := mem_rowsInError.1 hrow'
      obtain ⟨r', hmem', hpage', -⟩ := (touchesRow_iff hnodup start c y.1).1 hty
      exact ⟨r', hmem', hpage', hleast y hy hty r' hmem' hpage'⟩
    have hanswer := conRead_damaged (i := i) (q := q) (n := n) (f := f) (s := s.shiftStatus) (by
      show firstDamage s.ports[i] (readStart s.ports[i] q) (rowsInError s.rows
        (touchesRow s.ports[i] (readStart s.ports[i] q) (readCount s.ports[i] q n))) = some f
      rw [hcount, hread]; exact hdamage)
    refine (State.request_answered hr _ _ hanswer (State.recordFault_shifted _ s.statusByte { s with
      rows := markRows s.rows (touchesRow s.ports[i] (readStart s.ports[i] q) (readCount s.ports[i] q n)) })).trans ?_
    rw [show s.shiftStatus.readReply i q (readCount s.shiftStatus.ports[i] q n) (readStart s.shiftStatus.ports[i] q) f =
      s.readReply i q (readCount s.ports[i] q n) (readStart s.ports[i] q) f from rfl, hcount, hread,
      State.readReply_bytes hne]
    rfl

/-! ## CON_FIND_TIME (R35) -/

theorem findTime_empty {p : Port} (t : Nat) (h : ∀ r ∈ p.pages, r.firstTime = none) :
    findTime p t = (.empty, p.w, none) :=
  if_pos (List.all_eq_true.2 fun r hr => by rw [h r hr]; rfl)

theorem not_all_untimed {p : Port} (h : ∃ r ∈ p.pages, r.firstTime ≠ none) :
    ¬ p.pages.all (·.firstTime.isNone) = true := by
  obtain ⟨r, hr, hne⟩ := h
  rw [List.all_eq_true]
  exact fun hall => hne (Option.isNone_iff_eq_none.1 (hall r hr))

theorem begunBy_iff {t : Nat} {r : PageRec} : begunBy t r = true ↔ ∃ x, r.firstTime = some x ∧ x.toNat ≤ t := by
  unfold begunBy
  rcases r.firstTime with _ | x <;> simp

theorem findTime_beforeAll {p : Port} {t : Nat} (h : ∃ r ∈ p.pages, r.firstTime ≠ none)
    (hlate : ∀ r ∈ p.pages, ∀ x, r.firstTime = some x → t < x.toNat) : findTime p t = (.beforeAll, p.o, none) := by
  have hnone : p.pages.reverse.find? (begunBy t) = none := by
    rw [List.find?_eq_none]
    intro r hr
    rw [begunBy_iff]
    rintro ⟨x, hx, hle⟩
    exact absurd (hlate r (List.mem_reverse.1 hr) x hx) (by omega)
  unfold findTime
  rw [if_neg (not_all_untimed h), hnone]

theorem findTime_page {p : Port} {t : Nat} {older newer : List PageRec} {r : PageRec} {x : PartTime}
    (h : p.pages = older ++ r :: newer) (hx : r.firstTime = some x) (hle : x.toNat ≤ t)
    (hlate : ∀ r' ∈ newer, ∀ y, r'.firstTime = some y → t < y.toNat) : findTime p t = (.page, r.first, some r) := by
  have hmem : r ∈ p.pages := by rw [h]; simp
  have hfind : p.pages.reverse.find? (begunBy t) = some r := by
    rw [List.find?_eq_some_iff_append]
    refine ⟨begunBy_iff.2 ⟨x, hx, hle⟩, newer.reverse, older.reverse, by rw [h]; simp, fun r' hr' => ?_⟩
    rw [Bool.not_eq_true', Bool.eq_false_iff, Ne, begunBy_iff]
    rintro ⟨y, hy, hyt⟩
    exact absurd (hlate r' (List.mem_reverse.1 hr') y hy) (by omega)
  unfold findTime
  rw [if_neg (not_all_untimed ⟨r, hmem, by rw [hx]; exact Option.some_ne_none x⟩), hfind]

/-- The body of CON_FIND_TIME's reply for a match. -/
def findReply (p : Port) (f : MatchKind × Nat × Option PageRec) : List Byte :=
  num 6 f.2.1 ++ num 1 (matchKindCode f.1) ++ num 6 p.o ++ num 6 p.w ++
    match f.2.2 with
    | some pg => encTime (pg.firstTime.getD 0) ++ num 2 (pg.firstEpoch.getD 0)
    | none => []

theorem conFindTime_val (i : PortId) (t : Nat) (s : State) :
    conFindTime (i.val, t) s = (s, .ok, findReply s.ports[i] (findTime s.ports[i] t)) := onPort_val i _ _

/-- A payload of a first byte and a number of `k` bytes. -/
theorem fields2_byte (b : Byte) {k n : Nat} (h : n < 256 ^ k) : fields2 1 k (b :: num k n) = some (b.toNat, n) := by
  have hf := fields_append (num_length k n) [] []
  rw [List.append_nil, leNat_num k n h] at hf
  unfold fields2
  rw [fields_cons_byte, hf]
  rfl

/-- Settles O25, by what `findTime` finds. -/
theorem findTimeIsTheNewestPage : Obligations.FindTimeIsTheNewestPage := by
  intro s tag t hr
  have hexec : ∀ b : Byte, exec (.conFindTime tag (b :: num 4 t.toNat)) s =
      .next (s.request 0x15 tag (some (b.toNat, t.toNat)) conFindTime) := by
    intro b; rw [← fields2_byte b (k := 4) t.isLt]; rfl
  have hanswer : ∀ {i : PortId} {f}, findTime s.ports[i] t.toNat = f →
      exec (.conFindTime tag (byteOf i.val :: num 4 t.toNat)) s =
        .next (s.answered 0x15 tag .ok (findReply s.ports[i] f) s) := by
    rintro i f rfl
    rw [hexec, byteOf_port_toNat]
    exact congrArg _ (State.request_unchanged hr _ _ (conFindTime_val i _ _))
  refine ⟨fun b hb => ?_, fun i => ⟨fun hnone => ?_, fun hsome hlate => ?_, fun older r x newer hp hx hle hlate => ?_⟩⟩
  · rw [hexec]
    exact congrArg _ (State.request_unchanged hr _ _ (onPort_above hb _ _))
  · rw [hanswer (findTime_empty _ hnone)]
    unfold findReply
    rw [List.append_nil]
    rfl
  · rw [hanswer (findTime_beforeAll hsome hlate)]
    unfold findReply
    rw [List.append_nil]
    rfl
  · rw [hanswer (findTime_page hp hx hle hlate)]
    unfold findReply
    dsimp only
    rw [hx, ← List.append_assoc]
    rfl

/-! ## CON_NOTIFY (R36) -/

theorem conNotify_disabled {i : PortId} {q : Nat} {s : State} (h : s.ports[i].enabled = false) :
    conNotify (i.val, q) s = (s, .wrongState, []) := by
  unfold conNotify
  rw [onPort_val]
  exact if_neg (Bool.eq_false_iff.1 h)

theorem conNotify_fires {i : PortId} {q : Nat} {s : State} (h : s.ports[i].enabled = true) (hq : q ≤ s.ports[i].w) :
    conNotify (i.val, q) s = (State.setFlag (.conData i) (s.modPort i fun p => { p with notify := none }), .ok,
      num 6 s.ports[i].w ++ [1]) := by
  unfold conNotify
  rw [onPort_val]
  exact (if_pos h).trans (if_pos hq)

theorem conNotify_set {i : PortId} {q : Nat} {s : State} (h : s.ports[i].enabled = true) (hq : s.ports[i].w < q) :
    conNotify (i.val, q) s = (s.modPort i fun p => { p with notify := some q }, .ok, num 6 s.ports[i].w ++ [0]) := by
  unfold conNotify
  rw [onPort_val]
  exact (if_pos h).trans (if_neg (Nat.not_le.2 hq))

/-- Settles O26, by the port's state and whether W has reached the position. -/
theorem notifyFiresOrIsSet : Obligations.NotifyFiresOrIsSet := by
  intro s tag q hr hq
  have hexec : ∀ b : Byte, exec (.conNotify tag (b :: num 6 q)) s =
      .next (s.request 0x16 tag (some (b.toNat, q)) conNotify) := by
    intro b; rw [← fields2_byte b (k := 6) hq]; rfl
  refine ⟨fun b hb => ?_, fun i => ⟨fun he => ?_, fun he hle => ?_, fun he hlt => ?_⟩⟩ <;> rw [hexec] <;>
    refine congrArg _ ?_
  · exact State.request_unchanged hr _ _ (onPort_above hb _ _)
  · rw [byteOf_port_toNat]
    exact State.request_unchanged hr _ _ (conNotify_disabled (s := s.shiftStatus) he)
  · rw [byteOf_port_toNat]
    exact State.request_answered hr _ _ (conNotify_fires (s := s.shiftStatus) he hle)
      (State.setFlag_shifted _ s.statusByte (s.modPort i fun p => { p with notify := none }))
  · rw [byteOf_port_toNat]
    exact State.request_answered hr _ _ (conNotify_set (s := s.shiftStatus) he hlt) rfl

end Sys2Proof.Machine
end

/-! # Markers, translation tables and memory upsets (R42, R48, R49, R66) -/

section
namespace Sys2Proof.Machine

/-! ## Marker records (R48) -/

theorem roleOf_eq {n : Nat} {x : Role} : roleOf n = some x ↔ roleCode x = n := by
  constructor
  · intro h
    match n, h with
    | 0, h => cases h; rfl
    | 1, h => cases h; rfl
    | 2, h => cases h; rfl
    | 3, h => cases h; rfl
    | 4, h => cases h; rfl
  · rintro rfl
    cases x <;> rfl

theorem roleCode_le (x : Role) : roleCode x ≤ 4 := by cases x <;> decide

theorem exists_roleCode {n : Nat} (h : n ≤ 4) : ∃ x, roleCode x = n := by
  interval_cases n
  · exact ⟨.none, rfl⟩
  · exact ⟨.inject, rfl⟩
  · exact ⟨.bootOk, rfl⟩
  · exact ⟨.progress, rfl⟩
  · exact ⟨.fault, rfl⟩

theorem roleCode_inject (x : Role) : x = .inject ↔ roleCode x = 1 := by cases x <;> decide

/-- The ranges that MARK_SET's fields keep (R48). -/
def MarkSetReq.inRange (r : MarkSetReq) : Prop :=
  ¬(4 < r.role ∨ 15 < r.mask ∨ 1 < r.enabled ∨ 1 < r.report ∨ 1 < r.once ∨ r.pattern.length = 0 ∨
    32 < r.pattern.length ∨ 32 < r.inject.length ∨ (r.role = 1 ∧ r.inject.length = 0))

theorem inRange_of_toMarkerCfg {r : MarkSetReq} {c : MarkerCfg} (h : toMarkerCfg r = some c) : r.inRange := by
  simp only [toMarkerCfg, bind, Option.bind_eq_some_iff] at h
  obtain ⟨x, hx, en, hen, rep, hrep, once, honce, h⟩ := h
  have hrole := roleOf_eq.1 hx
  have hle := roleCode_le x
  have hflag : ∀ {n : Nat} {b : Bool}, boolOf n = some b → ¬ 1 < n := by
    intro n b hb hn; rw [boolOf_above hn] at hb; cases hb
  split at h
  · cases h
  · next hok =>
    simp only [not_or, not_and] at hok
    obtain ⟨hmask, hp0, hp32, hi32, hinject⟩ := hok
    rintro (h | h | h | h | h | h | h | h | ⟨h1, h0⟩)
    · omega
    · exact hmask h
    · exact hflag hen h
    · exact hflag hrep h
    · exact hflag honce h
    · exact hp0 h
    · exact hp32 h
    · exact hi32 h
    · exact hinject ((roleCode_inject x).2 (hrole.trans h1)) (List.length_eq_zero_iff.1 h0)

theorem toMarkerCfg_refused {r : MarkSetReq} (h : ¬ r.inRange) : toMarkerCfg r = none :=
  Option.eq_none_iff_forall_ne_some.2 fun _ hc => h (inRange_of_toMarkerCfg hc)

theorem toMarkerCfg_taken {r : MarkSetReq} (h : r.inRange) : ∃ c : MarkerCfg, toMarkerCfg r = some c ∧
    c.pattern = r.pattern ∧ roleCode c.role = r.role ∧ c.mask.toNat = r.mask ∧
    c.enabled = decide (r.enabled = 1) ∧ c.report = decide (r.report = 1) ∧ c.once = decide (r.once = 1) ∧
    c.inject = if r.role = 1 then r.inject else [] := by
  simp only [MarkSetReq.inRange, not_or, not_and, not_lt] at h
  obtain ⟨hrole, hmask, hen, hrep, honce, hp0, hp32, hi32, hinject⟩ := h
  obtain ⟨x, hx⟩ := exists_roleCode hrole
  have hok : ¬(15 < r.mask ∨ r.pattern.length = 0 ∨ 32 < r.pattern.length ∨ 32 < r.inject.length ∨
      (x = .inject ∧ r.inject = [])) := by
    rintro (h | h | h | h | ⟨h1, h0⟩)
    · omega
    · exact hp0 h
    · omega
    · omega
    · exact hinject (hx.symm.trans ((roleCode_inject x).1 h1)) (by rw [h0]; rfl)
  refine ⟨{
    enabled := decide (r.enabled = 1), pattern := r.pattern, mask := BitVec.ofNat 4 r.mask, role := x,
    report := decide (r.report = 1), once := decide (r.once = 1), inject := if x = .inject then r.inject else [] },
    ?_, rfl, hx, Nat.mod_eq_of_lt (by omega), rfl, rfl, rfl, ?_⟩
  · unfold toMarkerCfg
    rw [roleOf_eq.2 hx, boolOf_eq hen, boolOf_eq hrep, boolOf_eq honce]
    exact if_neg hok
  · exact if_congr ((roleCode_inject x).trans (by rw [hx])) rfl rfl

theorem markSet_refused {r : MarkSetReq} {m : Fin 16} (hm : r.index = m.val) (h : toMarkerCfg r = none) (s : State) :
    markSet r s = (s, .badField, []) := by
  unfold markSet
  rw [hm, onMarker_val, h]
  rfl

theorem markSet_taken {r : MarkSetReq} {m : Fin 16} {c : MarkerCfg} (hm : r.index = m.val) (h : toMarkerCfg r = some c)
    (s : State) : markSet r s = (s.putMarker m c, .ok, encMarkerCfg c) := by
  unfold markSet
  rw [hm, onMarker_val, h]

/-- Settles O27, by the ranges of MARK_SET's fields. -/
theorem markersAreSetAndCleared : Obligations.MarkersAreSetAndCleared := by
  refine fun s tag hr => ⟨fun payload r m hparse hm => ?_, fun m => congrArg Host.Outcome.next ?_⟩
  · have hexec : exec (.markSet tag payload) s = .next (s.request 0x20 tag (some r) markSet) := by
      rw [← hparse]; rfl
    rw [hexec]
    refine ⟨fun hbad => congrArg _ ?_, fun hok => ?_⟩
    · exact State.request_unchanged hr _ _ (markSet_refused hm (toMarkerCfg_refused (not_not.2 hbad)) _)
    · obtain ⟨c, hc, hfields⟩ := toMarkerCfg_taken hok
      exact ⟨c, congrArg _ (State.request_answered hr _ _ (markSet_taken hm hc s.shiftStatus) rfl), hfields⟩
  · rw [fields1_one_byte, byteOf_toNat (by omega)]
    exact State.request_answered hr _ _ (onMarker_val m _ _) rfl

/-! ## Translation tables (R42) -/

theorem loadTable_getElem : ∀ (es : List XlatEntry) (t : XlatTable) (start : Nat) (j : Fin 256),
    (loadTable t start es)[j] = if start ≤ j.val then es.getD (j.val - start) t[j] else t[j]
  | [], t, start, j => by simp [loadTable]
  | e :: es, t, start, j => by
    by_cases hstart : start < 256
    · have hload : loadTable t start (e :: es) = loadTable (t.set start e hstart) (start + 1) es := dif_pos hstart
      rw [hload, loadTable_getElem es]
      by_cases hj : j.val = start
      · have hget : (t.set start e hstart)[j] = e := by
          simp only [Fin.getElem_fin, hj, Vector.getElem_set_self]
        rw [if_neg (by omega), if_pos (by omega), hget, show j.val - start = 0 by omega]
        rfl
      · have hget : (t.set start e hstart)[j] = t[j] := Vector.getElem_set_ne hstart j.isLt (Ne.symm hj)
        rw [hget]
        by_cases hlt : start < j.val
        · rw [if_pos (by omega), if_pos (by omega), show j.val - start = (j.val - (start + 1)) + 1 by omega]
          rfl
        · rw [if_neg (by omega), if_neg (by omega)]
    · have hload : loadTable t start (e :: es) = t := dif_neg hstart
      rw [hload, if_neg (by omega)]

theorem parseXlatLoad_start {p : List Byte} {n start : Nat} {es : List (Byte × Byte)}
    (h : parseXlatLoad p = some (n, start, es)) : start < 256 := by
  unfold parseXlatLoad at h
  split at h
  · next t st c0 c1 rest =>
    split at h
    · obtain ⟨ys, -, he⟩ := Option.map_eq_some_iff.1 h
      obtain ⟨-, he⟩ := Prod.mk.inj he
      obtain ⟨rfl, -⟩ := Prod.mk.inj he
      exact st.isLt
    · cases h
  · cases h

theorem xlatEntryOf_above {e : Byte × Byte} (h : 1 < e.1.toNat) : xlatEntryOf e = none := by
  have h0 : e.1 ≠ 0 := by rintro h'; rw [h'] at h; exact absurd h (by decide)
  have h1 : e.1 ≠ 1 := by rintro h'; rw [h'] at h; exact absurd h (by decide)
  unfold xlatEntryOf
  rw [if_neg h0, if_neg h1]

theorem xlatEntryOf_le {e : Byte × Byte} (h : e.1.toNat ≤ 1) :
    xlatEntryOf e = some (if e.1.toNat = 0 then .replace e.2 else .skip) := by
  have hcases : e.1 = 0 ∨ e.1 = 1 := by bv_omega
  unfold xlatEntryOf
  rcases hcases with h | h <;> rw [h] <;> rfl

theorem entriesOf_refused : ∀ {es : List (Byte × Byte)}, (∃ e ∈ es, 1 < e.1.toNat) → entriesOf es = none
  | e :: es, h => by
    unfold entriesOf
    obtain ⟨x, hx, hlt⟩ := h
    rcases List.mem_cons.1 hx with rfl | hx
    · rw [xlatEntryOf_above hlt]
    · rw [entriesOf_refused ⟨x, hx, hlt⟩]
      cases xlatEntryOf e <;> rfl

theorem entriesOf_taken : ∀ {es : List (Byte × Byte)}, (∀ e ∈ es, e.1.toNat ≤ 1) →
    entriesOf es = some (es.map fun e => if e.1.toNat = 0 then .replace e.2 else .skip)
  | [], _ => rfl
  | e :: es, h => by
    unfold entriesOf
    rw [xlatEntryOf_le (h e List.mem_cons_self), entriesOf_taken fun x hx => h x (List.mem_cons_of_mem _ hx)]
    rfl

theorem xlatLoad_refused {n start : Nat} {es : List (Byte × Byte)} (h : 1 < n ∨ ∃ e ∈ es, 1 < e.1.toNat) (s : State) :
    xlatLoad (n, start, es) s = (s, .badField, []) := by
  unfold xlatLoad
  by_cases hn : 1 < n ∨ 256 < es.length
  · exact if_pos hn
  · refine (if_neg hn).trans ?_
    dsimp only
    rw [entriesOf_refused (h.resolve_left fun h1 => hn (.inl h1))]
    rfl

theorem xlatLoad_taken {n start : Nat} {es : List (Byte × Byte)} {xs : List XlatEntry} (hn : n ≤ 1)
    (hlen : es.length ≤ 256) (hxs : entriesOf es = some xs) (s : State) : xlatLoad (n, start, es) s =
      (s.modTable n fun t => loadTable t start xs,
        if min xs.length (256 - start) = xs.length then .ok else .partial_,
        num 2 (min xs.length (256 - start)) ++ num 2 (start + min xs.length (256 - start))) := by
  unfold xlatLoad
  refine (if_neg (by dsimp only; omega)).trans ?_
  dsimp only
  rw [hxs]

theorem State.modTable_eq {n : Nat} (hn : n ≤ 1) (f : XlatTable → XlatTable) (s : State) : s.modTable n f =
    { s with t0 := if n = 0 then f s.t0 else s.t0, t1 := if n = 1 then f s.t1 else s.t1 } := by
  interval_cases n <;> rfl

/-- Settles O28: the table entry by entry, and the request's checks. -/
theorem xlatLoadWritesItsEntries : Obligations.XlatLoadWritesItsEntries := by
  refine ⟨fun t start es j => loadTable_getElem es t start j, fun s tag payload n start es hr hparse hlen => ?_⟩
  have hexec : exec (.xlatLoad tag payload) s = .next (s.request 0x23 tag (some (n, start, es)) xlatLoad) := by
    rw [← hparse]; rfl
  rw [hexec]
  refine ⟨fun hbad => congrArg _ (State.request_unchanged hr _ _ (xlatLoad_refused hbad _)),
    fun xs hn hkinds hxs => congrArg _ ?_⟩
  have hlength : xs.length = es.length := by rw [hxs, List.length_map]
  have htaken := xlatLoad_taken (start := start) hn hlen ((entriesOf_taken hkinds).trans (congrArg some hxs.symm)) s.shiftStatus
  rw [State.modTable_eq hn, hlength] at htaken
  refine (State.request_answered (u := { s with
    t0 := if n = 0 then loadTable s.t0 start xs else s.t0,
    t1 := if n = 1 then loadTable s.t1 start xs else s.t1 }) hr _ _ htaken rfl).trans ?_
  have hstart := parseXlatLoad_start hparse
  have hstatus : (if min es.length (256 - start) = es.length then Status.ok else .partial_) =
      if start + es.length ≤ 256 then .ok else .partial_ :=
    if_congr (by omega) rfl rfl
  rw [hstatus]

end Sys2Proof.Machine
end

/-! # Memory upsets and the capture of a character (R26 to R30, R66) -/

section
namespace Sys2Proof.Machine

/-! ## Upsets (R66) -/

theorem rowState_upsetRow (rs : Rows) (r q : Nat) :
    rowState (upsetRow rs r) q = if q = r then some ((rowState rs r).getD .upset) else rowState rs q := by
  unfold upsetRow
  rcases hr : rowState rs r with _ | f
  · have hsplit : ∀ (xs ys : Rows), rowState (xs ++ ys) q = (rowState xs q).or (rowState ys q) := by
      intro xs ys
      unfold rowState
      rw [List.find?_append]
      cases xs.find? fun x => x.1 == q <;> rfl
    have hlow : rowState (rs.filter fun x => decide (x.1 < r)) q = if q < r then rowState rs q else none := by
      have h := rowState_filter rs (fun x => decide (x < r)) q
      simpa only [decide_eq_true_eq] using h
    have hhigh : rowState (rs.filter fun x => decide (r < x.1)) q = if r < q then rowState rs q else none := by
      have h := rowState_filter rs (fun x => decide (r < x)) q
      simpa only [decide_eq_true_eq] using h
    rw [hsplit, hlow, rowState_cons, hhigh]
    rcases Nat.lt_trichotomy q r with h | h | h
    · rw [if_pos h, if_neg (by omega), if_neg (by omega), if_neg (by omega), Option.or_none]
    · rw [if_neg (by omega), if_pos h.symm, if_pos h]
      rfl
    · rw [if_neg (by omega), if_neg (by omega), if_pos h, if_neg (by omega), Option.none_or]
  · by_cases h : q = r
    · rw [if_pos h, h, hr]
      rfl
    · rw [if_neg h]

theorem flipBytes_length (m : Memory) (a : Nat) {flips : List Byte} (h : flips.length ≤ 64) :
    (flipBytes (readBytes m a 64) flips).length = flips.length := by
  unfold flipBytes readBytes
  rw [List.length_zipWith, List.length_map, List.length_range]
  omega

theorem flipBytes_getD (m : Memory) (a : Nat) {flips : List Byte} (h : flips.length ≤ 64) {k : Nat}
    (hk : k < flips.length) :
    (flipBytes (readBytes m a 64) flips).getD k 0 = readByte m (a + k) ^^^ flips.getD k 0 := by
  unfold flipBytes readBytes
  rw [List.getD_eq_getElem _ _ (by simp; omega), List.getD_eq_getElem _ _ hk, List.getElem_zipWith, List.getElem_map,
    List.getElem_range]

/-- Settles O56: the row's bytes and state as the store and the row's entry leave them. -/
theorem upsetsFallOnOneRow : Obligations.UpsetsFallOnOneRow := by
  refine ⟨fun s r flips hr => congrArg _ (if_pos hr), fun s r flips hr hlen =>
    ⟨s.upset r flips, congrArg _ (if_neg (Bool.eq_false_iff.1 hr)), rfl, fun k hk => ?_, fun a ha => ?_, ?_,
      fun q hq => ?_⟩⟩
  · refine (readByte_writeBytes _ _ _ _).trans ?_
    rw [flipBytes_length _ _ hlen, if_pos (by omega), Nat.add_sub_cancel_left, flipBytes_getD _ _ hlen hk]
  · refine (readByte_writeBytes _ _ _ _).trans ?_
    rw [flipBytes_length _ _ hlen, if_neg (by omega)]
  · exact (rowState_upsetRow _ _ _).trans (if_pos rfl)
  · exact (rowState_upsetRow _ _ _).trans (if_neg hq)

/-! ## The page of the next byte (R26 to R28) -/

/-- What a capture finds to write into: the port's list `pages`, whose newest page `pg` holds the byte at offset `off`,
with what the pool's supply left in `u`. -/
def State.pageFound (i : PortId) (s u : State) (pg : Fin 128) (off : Nat) (pages : List PageRec) : Prop :=
  s.pageForByte i = some { s with
    ports := vupd s.ports i fun p => { p with pages := pages },
    owners := u.owners, cache := u.cache, reclaims := u.reclaims } ∧
  ∃ r, pages.getLast? = some r ∧ r.page = pg ∧ s.ports[i].w - r.first = off

theorem State.stampPage_eq (r : PageRec) (s : State) : s.stampPage r = if r.firstTime = none
    then { r with firstTime := some s.time, firstEpoch := some s.openNumber } else r := by
  unfold State.stampPage
  rcases h : r.firstTime with _ | x <;> rfl

theorem State.pageFound_newest {i : PortId} {s : State} {r : PageRec} (hl : s.ports[i].pages.getLast? = some r)
    (hroom : s.ports[i].w - r.first < 4096) :
    s.pageFound i s r.page (s.ports[i].w - r.first) (s.ports[i].pages.dropLast ++ [if r.firstTime = none
      then { r with firstTime := some s.time, firstEpoch := some s.openNumber } else r]) := by
  refine ⟨?_, _, List.getLast?_concat, ?_, ?_⟩
  · unfold State.pageForByte
    dsimp only
    rw [hl]
    refine (if_pos hroom).trans (congrArg some (State.modPort_congr ?_))
    rw [State.stampPage_eq]
  · split <;> rfl
  · split <;> rfl

theorem State.pageFound_supplied {i : PortId} {s u : State} {r : PageRec} {pg : Fin 128}
    (hl : s.ports[i].pages.getLast? = some r) (hfull : ¬ s.ports[i].w - r.first < 4096)
    (hquota : s.ports[i].pages.length < s.ports[i].cfg.quota) (hs : s.supplyHistory i = some (pg, u)) :
    s.pageFound i u pg 0 (s.ports[i].pages ++
      [{ page := pg, first := s.ports[i].w, firstTime := some s.time, firstEpoch := some s.openNumber }]) := by
  refine ⟨?_, _, List.getLast?_concat, rfl, Nat.sub_self _⟩
  unfold State.pageForByte
  dsimp only
  rw [hl]
  refine (if_neg hfull).trans ((if_pos hquota).trans ?_)
  rw [hs]
  have hu := State.supplyHistory_frame hs
  have hports : u.ports = s.ports := by rw [hu]
  refine congrArg some ?_
  show { u with ports := vupd u.ports i _ } = _
  rw [hports, hu]
  exact congrArg (fun v => { s with
    ports := v, owners := u.owners, cache := u.cache, reclaims := u.reclaims }) (vupd_congr rfl)

theorem State.pageFound_recycled {i : PortId} {s : State} {r o : PageRec} {rest : List PageRec}
    (hl : s.ports[i].pages.getLast? = some r) (hfull : ¬ s.ports[i].w - r.first < 4096)
    (hquota : s.ports[i].cfg.quota ≤ s.ports[i].pages.length) (hp : s.ports[i].pages = o :: rest) :
    s.pageFound i s o.page 0 (rest ++
      [{ page := o.page, first := s.ports[i].w, firstTime := some s.time, firstEpoch := some s.openNumber }]) := by
  refine ⟨?_, _, List.getLast?_concat, rfl, Nat.sub_self _⟩
  unfold State.pageForByte
  dsimp only
  rw [hl]
  refine (if_neg hfull).trans ((if_neg (Nat.not_lt.2 hquota)).trans (congrArg some (State.modPort_congr ?_)))
  rw [hp]
  rfl

/-! ## The capture (R26, R30, R37) -/

/-- The next byte reaches the notify position. -/
def Port.notified (p : Port) : Bool := (p.notify.map fun q => decide (q ≤ p.w + 1)).getD false

theorem Port.notified_iff (p : Port) : p.notified = true ↔ ∃ q, p.notify = some q ∧ q ≤ p.w + 1 := by
  unfold Port.notified
  rcases p.notify with _ | q <;> simp

theorem Port.notify_left (p : Port) :
    (if p.notified then none else p.notify) = p.notify.filter fun q => decide (p.w + 1 < q) := by
  unfold Port.notified
  rcases p.notify with _ | q
  · rfl
  · by_cases h : q ≤ p.w + 1
    · have hlt : ¬ p.w + 1 < q := by omega
      simp only [Option.map_some, Option.getD_some, decide_eq_true h, if_true, Option.filter, decide_eq_false hlt]
      rfl
    · have hlt : p.w + 1 < q := by omega
      simp only [Option.map_some, Option.getD_some, decide_eq_false h, Option.filter, decide_eq_true hlt, if_true]
      rfl

/-- What W's advance leaves. -/
theorem State.advanceW_eq (i : PortId) (s : State) : s.advanceW i = { s with
    ports := vupd s.ports i fun p =>
      { p with w := p.w + 1, notify := p.notify.filter fun q => decide (p.w + 1 < q) },
    link := { s.link with flags :=
      if s.ports[i].notified = true then (if .conData i ∈ s.link.flags then s.link.flags else .conData i :: s.link.flags)
      else s.link.flags } } := by
  have hport : vupd s.ports i (fun p => { p with
      w := p.w + 1, notify := if s.ports[i].notified then none else p.notify }) =
      vupd s.ports i fun p => { p with w := p.w + 1, notify := p.notify.filter fun q => decide (p.w + 1 < q) } :=
    vupd_congr (by rw [Port.notify_left])
  have hstep : s.advanceW i = if s.ports[i].notified
      then State.setFlag (.conData i) (s.modPort i fun p => { p with
        w := p.w + 1, notify := if s.ports[i].notified then none else p.notify })
      else s.modPort i fun p => { p with w := p.w + 1, notify := if s.ports[i].notified then none else p.notify } := rfl
  rw [hstep, State.setFlag_eq]
  unfold State.modPort
  rw [hport]
  split <;> rfl

theorem State.advanceW_flags (i : PortId) (s : State) (x : Report) : x ∈ (s.advanceW i).link.flags ↔
    x ∈ s.link.flags ∨ (x = .conData i ∧ ∃ q, s.ports[i].notify = some q ∧ q ≤ s.ports[i].w + 1) := by
  rw [State.advanceW_eq, ← Port.notified_iff]
  by_cases hn : s.ports[i].notified = true
  · by_cases hf : Report.conData i ∈ s.link.flags
    · simp only [hn, if_true, if_pos hf, and_true]
      exact ⟨.inl, fun h => h.elim id fun e => e ▸ hf⟩
    · simp only [hn, if_true, if_neg hf, and_true, List.mem_cons]
      exact or_comm
  · simp only [hn, if_false, and_false, or_false, Bool.false_eq_true]

theorem State.storeByte_eq {i : PortId} {b : Byte} {s : State} {r : PageRec} (h : s.ports[i].pages.getLast? = some r) :
    s.storeByte i b = { s with
      mem := writeBytes s.mem (4096 * r.page.val + (s.ports[i].w - r.first)) [b],
      rows := if (s.ports[i].w - r.first) % 64 = 63
        then soundRows s.rows (64 * r.page.val + (s.ports[i].w - r.first) / 64) 1 else s.rows } := by
  unfold State.storeByte
  dsimp only
  rw [h]
  rfl

/-- A byte captured into the page found. -/
theorem State.capture_spec {i : PortId} {b : Byte} {s u : State} {pg : Fin 128} {off : Nat} {pages : List PageRec}
    (h : s.pageFound i u pg off pages) : ∃ t, s.capture i b = some t ∧
    t = { s with ports := t.ports, mem := t.mem, rows := t.rows, owners := u.owners, cache := u.cache,
                 reclaims := u.reclaims, link := { s.link with flags := t.link.flags } } ∧
    (∀ j : PortId, j ≠ i → t.ports[j] = s.ports[j]) ∧
    t.ports[i] = { s.ports[i] with
      pages := pages, w := s.ports[i].w + 1,
      notify := s.ports[i].notify.filter fun q => decide (s.ports[i].w + 1 < q) } ∧
    readByte t.mem (4096 * pg.val + off) = b ∧
    (∀ a, a ≠ 4096 * pg.val + off → readByte t.mem a = readByte s.mem a) ∧
    (∀ q, rowState t.rows q =
      if off % 64 = 63 ∧ q = 64 * pg.val + off / 64 then none else rowState s.rows q) ∧
    ∀ x, x ∈ t.link.flags ↔ x ∈ s.link.flags ∨
      (x = .conData i ∧ ∃ q, s.ports[i].notify = some q ∧ q ≤ s.ports[i].w + 1) := by
  obtain ⟨hpage, r, hlast, rfl, rfl⟩ := h
  generalize hv : ({ s with
    ports := vupd s.ports i fun p => { p with pages := pages },
    owners := u.owners, cache := u.cache, reclaims := u.reclaims } : State) = v at hpage
  have hvport : v.ports[i] = { s.ports[i] with pages := pages } := by rw [← hv]; exact vupd_self _ _ _
  have hvother : ∀ j : PortId, j ≠ i → v.ports[j] = s.ports[j] := fun j hj => by rw [← hv]; exact vupd_ne _ _ hj
  have hw : v.ports[i].w = s.ports[i].w := by rw [hvport]
  have hn : v.ports[i].notify = s.ports[i].notify := by rw [hvport]
  have hmem : v.mem = s.mem := by rw [← hv]
  have hrows : v.rows = s.rows := by rw [← hv]
  have hlink : v.link = s.link := by rw [← hv]
  have hstore := State.storeByte_eq (b := b) (show v.ports[i].pages.getLast? = some r by rw [hvport]; exact hlast)
  rw [hw, hmem, hrows] at hstore
  generalize hx : v.storeByte i b = x at hstore
  have hxports : x.ports = v.ports := by rw [hstore]
  have hxlink : x.link = s.link := by rw [hstore]; exact hlink
  refine ⟨x.advanceW i, ?_, ?_, fun j hj => ?_, ?_, ?_, fun a ha => ?_, fun q => ?_, fun y => ?_⟩
  · unfold State.capture
    rw [hpage, ← hx]
    rfl
  · rw [State.advanceW_eq, hstore, ← hv]
  · rw [State.advanceW_eq, hxports]
    exact (vupd_ne _ _ hj).trans (hvother j hj)
  · rw [State.advanceW_eq, hxports]
    refine (vupd_self _ _ _).trans ?_
    rw [hvport]
  · rw [State.advanceW_eq, hstore]
    refine (readByte_writeBytes _ _ _ _).trans ?_
    rw [if_pos (by simp), Nat.sub_self]
    rfl
  · rw [State.advanceW_eq, hstore]
    refine (readByte_writeBytes _ _ _ _).trans ?_
    rw [if_neg (by rw [List.length_singleton]; omega)]
  · rw [State.advanceW_eq, hstore]
    dsimp only
    by_cases hrow : (s.ports[i].w - r.first) % 64 = 63
    · rw [if_pos hrow, rowState_soundRows]
      refine if_congr ?_ rfl rfl
      constructor
      · rintro ⟨hlow, hhigh⟩; exact ⟨hrow, by omega⟩
      · rintro ⟨-, rfl⟩; omega
    · rw [if_neg hrow, if_neg fun h => hrow h.1]
  · rw [State.advanceW_flags, hxports, hvport, hxlink]

/-! ## Notices of a supply, and the matcher without markers -/

/-- No page became FREE, each line is as it was or gone, and F and the fetch slots stand: no notice. -/
theorem State.settle_unnoticed {s t : State} (hfree : ∀ p : Fin 128, t.owners[p] = .free → s.owners[p] = .free)
    (hline : ∀ g, t.line g = s.line g ∨ t.line g = none) (hm : t.committed = s.committed) (hf : t.fetch = s.fetch) :
    State.settle s t = t := by
  have hquiet : State.noticed s t = false := by
    unfold State.noticed State.floor State.committedSum
    rw [hm, hf]
    simp only [Bool.or_eq_false_iff, List.any_eq_false]
    refine ⟨⟨⟨fun p _ => ?_, fun l _ => ?_⟩, by simp⟩, fun i _ => by cases s.fetch[i].live <;> simp⟩
    · simp only [Bool.and_eq_true, decide_eq_true_eq, not_and, not_not]
      exact hfree p
    · unfold lineFreed
      rcases hline l.tag with h | h <;> rw [h] <;> cases s.line l.tag <;> simp
  unfold State.settle
  rw [hquiet]
  rfl

theorem State.supplyHistory_owners {i : PortId} {s u : State} {pg : Fin 128} (h : s.supplyHistory i = some (pg, u)) :
    u.owners = vupd s.owners pg fun _ => .history i := by
  rcases State.supplyHistory_cases h with ⟨-, rfl⟩ | ⟨l, -, -, rfl, rfl⟩ <;> rfl

theorem State.supplyHistory_line {i : PortId} {s u : State} {pg : Fin 128} (h : s.supplyHistory i = some (pg, u))
    (g : Nat) : u.line g = s.line g ∨ u.line g = none := by
  rcases State.supplyHistory_cases h with ⟨-, rfl⟩ | ⟨l, -, -, rfl, rfl⟩
  · exact .inl rfl
  · have hdrop := s.line_dropLine l.tag g
    by_cases hg : g = l.tag
    · rw [if_pos hg] at hdrop; exact .inr hdrop
    · rw [if_neg hg] at hdrop; exact .inl hdrop

/-- A page supplied to a history is no notice to the cache. -/
theorem State.settle_of_supply {i : PortId} {s u t : State} {pg : Fin 128} (h : s.supplyHistory i = some (pg, u))
    (ho : t.owners = u.owners) (hc : t.cache = u.cache) (hm : t.committed = s.committed) (hf : t.fetch = s.fetch) :
    State.settle s t = t := by
  refine State.settle_unnoticed (fun p hp => ?_) (fun g => ?_) hm hf
  · rw [ho, State.supplyHistory_owners h] at hp
    by_cases hpg : p = pg
    · rw [hpg, vupd_self] at hp; cases hp
    · rwa [vupd_ne _ _ hpg] at hp
  · have hline : t.line g = u.line g := by unfold State.line; rw [hc]
    rw [hline]
    exact State.supplyHistory_line h g

theorem State.hitList_of_disabled {port : PortId} {w : List Byte} {s : State}
    (h : ∀ m : Fin 16, s.markers[m].cfg.enabled = false) : s.hitList port w = [] := by
  unfold State.hitList
  rw [List.filter_eq_nil_iff]
  intro m _
  unfold hitsOn
  rw [h m]
  simp

/-- Without an enabled marker the path of a byte ends in the port's filter and window. -/
theorem State.matchByte_disabled {port : PortId} {pos : Nat} {b : Byte} {s : State}
    (h : ∀ m : Fin 16, s.markers[m].cfg.enabled = false) : ∃ ps, s.matchByte port pos b = { s with ports := ps } := by
  rw [State.matchByte_eq]
  dsimp only
  split
  · split
    · exact ⟨_, rfl⟩
    · rw [State.hitList_of_disabled h]
      exact ⟨_, rfl⟩
  · exact ⟨_, rfl⟩

/-! ## Good characters (R29) -/

/-- Settles O21: the page found, the capture into it, and what the matcher leaves to the fall and to the cache. -/
theorem goodCharactersAreCaptured : Obligations.GoodCharactersAreCaptured := by
  intro s i c hf hfr hpa
  refine ⟨fun htop => exec_characterReceived_quiet (State.receive_full htop) ⟨s.ports, s.link, rfl⟩,
    fun r u pg off pages hw hlast hfirst hwhere => ?_⟩
  have hfound : s.pageFound i u pg off pages ∧ (u = s ∨ s.supplyHistory i = some (pg, u)) := by
    rcases hwhere with ⟨hroom, rfl, rfl, rfl, rfl⟩ | ⟨hfull, hquota, hs, rfl, rfl⟩ | ⟨hfull, hquota, rfl, rfl, o, rest, hp, rfl, rfl⟩
    · exact ⟨State.pageFound_newest hlast (by omega), .inl rfl⟩
    · exact ⟨State.pageFound_supplied hlast (by omega) hquota hs, .inr hs⟩
    · exact ⟨State.pageFound_recycled hlast (by omega) hquota hp, .inl rfl⟩
  obtain ⟨hfound, hu⟩ := hfound
  obtain ⟨t, hcapture, hframe, hspec⟩ := State.capture_spec (b := charByte s.ports[i].cfg c) hfound
  have hreceive : s.receive i c = some ((t.matchByte i s.ports[i].w (charByte s.ports[i].cfg c)).countChar i false) := by
    rw [State.receive_good hf hw hfr hpa, hcapture]
    rfl
  have hexec := exec_characterReceived hreceive
  refine ⟨t, _, rfl, hexec, fun hpg => ?_, fun hdisabled => ?_, hframe, hspec⟩
  · rw [hexec, State.closeFall, hpg, Bool.and_not_self]
    rfl
  · have hmarkers : ∀ m : Fin 16, t.markers[m].cfg.enabled = false := by rw [hframe]; exact hdisabled
    obtain ⟨ps, hmatch⟩ := State.matchByte_disabled (port := i) (pos := s.ports[i].w) (b := charByte s.ports[i].cfg c)
      hmarkers
    obtain ⟨qs, l, hcount⟩ := State.countChar_frame i false
      (t.matchByte i s.ports[i].w (charByte s.ports[i].cfg c))
    rw [hexec, hcount, hmatch, State.closeFall_of_power (s := s) (by rw [hframe])]
    refine congrArg _ ?_
    have ho : t.owners = u.owners := by rw [hframe]
    have hc : t.cache = u.cache := by rw [hframe]
    have hm : t.committed = s.committed := by rw [hframe]
    have hft : t.fetch = s.fetch := by rw [hframe]
    rcases hu with rfl | hs
    · exact State.settle_same ho hc hm hft
    · exact State.settle_of_supply hs ho hc hm hft

end Sys2Proof.Machine
end

/-! # Epochs and the supervisor's settings (R158 to R165, R170) -/

section
namespace Sys2Proof.Machine

/-! ## The open epoch's record -/

theorem State.modOpen_none {s : State} (h : s.openEpoch = none) (f : EpochRec → EpochRec) : s.modOpen f = s := by
  unfold State.modOpen; rw [h]; rfl

theorem State.modOpen_some {s : State} {e : EpochRec} (h : s.openEpoch = some e) (f : EpochRec → EpochRec) :
    s.modOpen f = { s with sup := { s.sup with epochs := s.sup.epochs.dropLast ++ [f e] } } := by
  unfold State.modOpen
  rw [h, modNewest_of_getLast (State.mem_of_openEpoch h).1]
  rfl

/-- The newest record is the open epoch's while it has no end cause. -/
theorem openEpoch_of_newest {s : State} {es : List EpochRec} {e : EpochRec} (h : s.sup.epochs = es ++ [e])
    (hopen : e.endCause = none) : s.openEpoch = some e := by
  unfold State.openEpoch
  rw [h, List.getLast?_concat]
  simp [Option.filter, hopen]

theorem State.endCause_of_open {s : State} {e : EpochRec} (h : s.openEpoch = some e) : e.endCause = none := by
  obtain ⟨-, hcause⟩ := Option.filter_eq_some_iff.1 h
  exact Option.isNone_iff_eq_none.1 hcause

theorem State.epochs_of_open {s : State} {e : EpochRec} (h : s.openEpoch = some e) :
    s.sup.epochs = s.sup.epochs.dropLast ++ [e] := by
  obtain ⟨ys, hys⟩ := List.getLast?_eq_some_iff.1 (State.mem_of_openEpoch h).1
  rw [hys, List.dropLast_concat]

/-! ## An epoch's start (R161) -/

/-- A record as it closes (R160). -/
def EpochRec.closed (c : EndCause) (now : PartTime) (e : EpochRec) : EpochRec :=
  { e with endTime := some now, endCause := some c,
           status := if e.status = .pending then .endedUnsettled else e.status }

theorem State.closeRecord_some {s : State} {e : EpochRec} (h : s.openEpoch = some e) (c : EndCause) :
    s.closeRecord c = { s with
      sup := { s.sup with epochs := s.sup.epochs.dropLast ++ [e.closed c s.time] },
      markers := vmap s.markers fun m => { m with spent := false } } := by
  unfold State.closeRecord
  rw [if_pos (by rw [h]; rfl), State.modOpen_some h]
  rfl

/-- The epoch table with the open record closed, with room for one record more (R158, R161). -/
def State.keptEpochs (c : EndCause) (s : State) : List EpochRec :=
  if (s.closeRecord c).sup.epochs.length < 8 then (s.closeRecord c).sup.epochs else (s.closeRecord c).sup.epochs.tail

theorem State.closeRecord_length (c : EndCause) (s : State) :
    (s.closeRecord c).sup.epochs.length = s.sup.epochs.length := by
  rcases h : s.openEpoch with _ | e
  · rw [State.closeRecord_of_none h]
  · rw [State.closeRecord_some h]
    conv_rhs => rw [State.epochs_of_open h]
    rw [List.length_append, List.length_append]
    rfl

theorem State.mem_keptEpochs {s : State} {e : EpochRec} (h : s.openEpoch = some e) (hlen : s.sup.epochs.length ≤ 8)
    (c : EndCause) : e.closed c s.time ∈ s.keptEpochs c := by
  have hclosed : (s.closeRecord c).sup.epochs = s.sup.epochs.dropLast ++ [e.closed c s.time] := by
    rw [State.closeRecord_some h]
  unfold State.keptEpochs
  split
  · rw [hclosed]; simp
  · next hfull =>
    rw [State.closeRecord_length] at hfull
    have hne : s.sup.epochs.dropLast ≠ [] := by
      rw [Ne, ← List.length_eq_zero_iff, List.length_dropLast]
      omega
    rw [hclosed, List.tail_append_of_ne_nil hne]
    simp

/-- Whether an epoch's start arms supervision (R165). -/
theorem State.arms_iff (c : EpochCause) (s : State) :
    s.arms c = true ↔ s.sup.policy.enabled = true ∧ c ≠ .partStart ∧ s.sup.state ≠ .givenUp := by
  unfold State.arms
  simp only [Bool.and_eq_true, decide_eq_true_eq, and_assoc]

/-- The supervisor after an epoch's start: the counter, the table, and step 6 of R161. -/
def State.startedSup (c : EpochCause) (s : State) : Supervisor :=
  { s.sup with
    counter := nextEpochNumber s.sup.counter, epochs := s.keptEpochs .superseded ++ [s.newEpoch c], holdTimer := none,
    ret := none,
    state := if s.arms c then .waiting else if s.sup.state = .givenUp then .givenUp else .idle,
    bootTimer := if s.arms c then some s.bootDue else none }

theorem vmap_vmap_spent (v : Vector Marker 16) :
    vmap (vmap v fun m => { m with spent := false }) (fun m => ({ m with spent := false } : Marker)) =
      vmap v fun m => { m with spent := false } := by
  apply Vector.ext
  intro n hn
  rw [vmap_getElem, vmap_getElem]

/-- The matcher cleared, and the record of the epoch before closed, leave the markers alike. -/
theorem State.clearSpent_closeRecord (c : EndCause) (s : State) :
    vmap (s.closeRecord c).markers (fun m => ({ m with spent := false } : Marker)) =
      vmap s.markers fun m => { m with spent := false } := by
  rcases h : s.openEpoch with _ | e
  · rw [State.closeRecord_of_none h]
  · rw [State.closeRecord_some h]
    exact vmap_vmap_spent s.markers

theorem State.closeRecord_eq (c : EndCause) (s : State) : s.closeRecord c = { s with
    sup := { s.sup with epochs := (s.closeRecord c).sup.epochs }, markers := (s.closeRecord c).markers } := by
  rcases h : s.openEpoch with _ | e
  · rw [State.closeRecord_of_none h]
  · rw [State.closeRecord_some h]

theorem State.startEpoch_eq (c : EpochCause) (s : State) : s.startEpoch c = { s with
    sup := s.startedSup c, ports := vmap s.ports fun p => { p with window := [], filter := .normal },
    markers := vmap s.markers fun m => { m with spent := false } } := by
  have hclose := s.closeRecord_eq .superseded
  have hspent := s.clearSpent_closeRecord .superseded
  have hstep : s.startEpoch c = State.arm c (State.clearMatcher { s.closeRecord .superseded with
      sup := { (s.closeRecord .superseded).sup with
        counter := nextEpochNumber s.sup.counter, epochs := s.keptEpochs .superseded ++ [s.newEpoch c] } }) := rfl
  rw [hstep, ← hspent]
  unfold State.startedSup
  generalize s.keptEpochs .superseded = kept
  generalize s.closeRecord .superseded = v at hclose ⊢
  rw [hclose]
  unfold State.arm
  by_cases ha : s.arms c = true
  · refine (if_pos ha).trans ?_
    rw [if_pos ha, if_pos ha]
    rfl
  · refine (if_neg ha).trans ?_
    rw [if_neg ha, if_neg ha]
    rfl

theorem State.keptEpochs_length (c : EndCause) {s : State} (h : s.sup.epochs.length ≤ 8) :
    (s.keptEpochs c).length = min 7 s.sup.epochs.length := by
  have hlen := s.closeRecord_length c
  unfold State.keptEpochs
  split
  · omega
  · rw [List.length_tail]; omega

/-- Settles O30: the equation of an epoch's start, field by field. -/
theorem epochsStartWhole : Obligations.EpochsStartWhole := by
  intro s c hlen
  rw [State.startEpoch_eq]
  have hstatus : (s.newEpoch c).status = if s.sup.policy.enabled = true ∧ c ≠ .partStart ∧ s.sup.state ≠ .givenUp
      then .pending else .unsupervised := if_congr (s.arms_iff c) rfl rfl
  refine ⟨rfl, ?_, ?_, fun e he => ?_, fun i => vmap_getElem _ _ _ _, fun m => vmap_getElem _ _ _ _,
    fun h1 h2 h3 => ?_, fun hno => ?_, rfl, rfl, rfl, rfl, rfl, rfl, rfl, rfl, rfl⟩
  · show (s.keptEpochs .superseded ++ [s.newEpoch c]).length = _
    rw [List.length_append, State.keptEpochs_length _ hlen, List.length_singleton]
    omega
  · refine (openEpoch_of_newest (es := s.keptEpochs .superseded) (e := s.newEpoch c) rfl rfl).trans ?_
    rw [← hstatus]
    rfl
  · exact List.mem_append_left _ (State.mem_keptEpochs he hlen .superseded)
  · have ha := (s.arms_iff c).2 ⟨h1, h2, h3⟩
    exact ⟨if_pos ha, if_pos ha⟩
  · have ha : ¬ s.arms c = true := fun h => hno ((s.arms_iff c).1 h)
    exact ⟨if_neg ha, if_neg ha⟩

/-! ## BOOT_POLICY and BOOT_RELEASE (R163, R170) -/

/-- A number's bytes at the front of a payload are its first field. -/
theorem fields_num {k n : Nat} (h : n < 256 ^ k) (ks : List Nat) (p : List Byte) :
    fields (k :: ks) (num k n ++ p) = (fields ks p).map (n :: ·) := by
  rw [fields_append (num_length k n), leNat_num k n h]

theorem parsePolicy_eq {en wa bt ta fa ho ma ej : Nat} (hen : en < 256) (hwa : wa < 256) (hbt : bt < 65536)
    (hta : ta < 256) (hfa : fa < 256) (hho : ho < 65536) (hma : ma < 256) (hej : ej < 256) :
    parsePolicy (num 1 en ++ num 1 wa ++ num 2 bt ++ num 1 ta ++ num 1 fa ++ num 2 ho ++ num 1 ma ++ num 1 ej) =
      some { enabled := en, watched := wa, bootTimeout := bt, timeoutAct := ta, faultAct := fa, holdOff := ho,
             maxAttempts := ma, eject := ej } := by
  have hlast := fields_num (k := 1) hej [] []
  rw [List.append_nil] at hlast
  unfold parsePolicy
  simp only [List.append_assoc]
  rw [fields_num (k := 1) hen, fields_num (k := 1) hwa, fields_num (k := 2) hbt, fields_num (k := 1) hta,
    fields_num (k := 1) hfa, fields_num (k := 2) hho, fields_num (k := 1) hma, hlast]
  rfl

theorem timeoutActionOf_above {n : Nat} (h : 2 < n) : timeoutActionOf n = none := by
  match n, h with
  | n + 3, _ => rfl

theorem faultActionOf_above {n : Nat} (h : 3 < n) : faultActionOf n = none := by
  match n, h with
  | n + 4, _ => rfl

theorem toPolicy_refused {r : PolicyReq}
    (h : 15 < r.watched ∨ 2 < r.timeoutAct ∨ 3 < r.faultAct ∨ 1 < r.enabled ∨ 1 < r.eject) : toPolicy r = none := by
  rw [Option.eq_none_iff_forall_ne_some]
  intro c hc
  simp only [toPolicy, bind, Option.bind_eq_some_iff] at hc
  obtain ⟨_, hen, _, hta, _, hfa, _, hej, hc⟩ := hc
  rcases h with h | h | h | h | h
  · rw [if_pos h] at hc; cases hc
  · rw [timeoutActionOf_above h] at hta; cases hta
  · rw [faultActionOf_above h] at hfa; cases hfa
  · rw [boolOf_above h] at hen; cases hen
  · rw [boolOf_above h] at hej; cases hej

theorem toPolicy_taken {r : PolicyReq} {t f : SupAction} (hwa : r.watched ≤ 15) (hen : r.enabled ≤ 1) (hej : r.eject ≤ 1)
    (hta : timeoutActionOf r.timeoutAct = some t) (hfa : faultActionOf r.faultAct = some f) :
    toPolicy r = some {
      enabled := decide (r.enabled = 1), watched := BitVec.ofNat 4 r.watched, bootTimeout := max 30 (min 7200 r.bootTimeout),
      timeoutAction := t, faultAction := f, holdOff := min 600 r.holdOff, maxAttempts := min 7 r.maxAttempts,
      eject := decide (r.eject = 1) } := by
  unfold toPolicy
  rw [boolOf_eq hen, boolOf_eq hej, hta, hfa]
  refine (if_neg (Nat.not_lt.2 hwa)).trans ?_
  unfold clamp
  rw [Nat.zero_max, Nat.zero_max]

/-- The epoch table once an open PENDING epoch is unsupervised (R165). -/
theorem State.settlePending_epochs (b : BootStatus) (s : State) : (s.settlePending b).sup.epochs =
    match s.openEpoch with
    | none => s.sup.epochs
    | some e => s.sup.epochs.dropLast ++ [{ e with status := if e.status = .pending then b else e.status }] := by
  unfold State.settlePending
  rcases h : s.openEpoch with _ | e
  · rw [State.modOpen_none h]
  · rw [State.modOpen_some h]
    by_cases hp : e.status = .pending
    · simp only [if_pos hp]
    · simp only [if_neg hp]

theorem bootPolicy_refused {r : PolicyReq} (h : toPolicy r = none) (s : State) :
    bootPolicy r s = (s, .badField, []) := by
  unfold bootPolicy; rw [h]; rfl

theorem bootPolicy_taken {r : PolicyReq} {p : BootPolicy} (h : toPolicy r = some p) (s : State) :
    bootPolicy r s = (s.setPolicy p, .ok, encPolicy p ++ (s.setPolicy p).encBoot) := by
  unfold bootPolicy; rw [h]

/-- Settles O31, by the ranges of BOOT_POLICY's fields. -/
theorem policyAndRelease : Obligations.PolicyAndRelease := by
  intro s tag hr
  refine ⟨fun en wa bt ta fa ho ma ej payload hen hwa hbt hta hfa hho hma hej hpayload => ?_, fun u hu => ?_⟩
  · have hexec : exec (.bootPolicy tag payload) s = .next (s.request 0x44 tag (some
        { enabled := en, watched := wa, bootTimeout := bt, timeoutAct := ta, faultAct := fa, holdOff := ho,
          maxAttempts := ma, eject := ej }) bootPolicy) := by
      rw [← parsePolicy_eq hen hwa hbt hta hfa hho hma hej, ← hpayload]
      rfl
    rw [hexec]
    refine ⟨fun hbad => congrArg _ (State.request_unchanged hr _ _ (bootPolicy_refused (toPolicy_refused hbad) _)),
      fun p t f es hwa hen hej hta hfa hp hes u hu => congrArg _ ?_⟩
    have htimeout : timeoutActionOf ta = some t := by
      rcases hta with ⟨rfl, rfl⟩ | ⟨rfl, rfl⟩ | ⟨rfl, rfl⟩ <;> rfl
    have hfault : faultActionOf fa = some f := by
      rcases hfa with ⟨rfl, rfl⟩ | ⟨rfl, rfl⟩ | ⟨rfl, rfl⟩ | ⟨rfl, rfl⟩ <;> rfl
    have htaken := bootPolicy_taken ((toPolicy_taken (r :=
      { enabled := en, watched := wa, bootTimeout := bt, timeoutAct := ta, faultAct := fa, holdOff := ho,
        maxAttempts := ma, eject := ej }) hwa hen hej htimeout hfault).trans (congrArg some hp.symm)) s.shiftStatus
    have hepochs : (State.settlePending .unsupervised s.shiftStatus).sup.epochs = es := by
      rw [State.settlePending_epochs, hes]
      rfl
    rw [State.setPolicy_eq, hepochs] at htaken
    subst hu
    exact State.request_answered hr _ _ htaken rfl
  · subst hu
    exact congrArg _ (State.request_answered hr 0x45 tag (a := ()) (f := bootRelease) rfl rfl)

end Sys2Proof.Machine
end

/-! # The attachment and its extents: MED_CONFIG, MED_ATTACH, MED_PRESENT, MED_EXTENT_ADD -/

section

namespace Sys2Proof.Machine

/-! ## MED_CONFIG (R119, R120, R138) -/

theorem toMedConfig_refused {r : MedConfigReq} (h : 1 < r.enable) : toMedConfig r = none := by
  rw [toMedConfig, boolOf_above h]
  rfl

theorem toMedConfig_taken {r : MedConfigReq} (h : r.enable ≤ 1) :
    toMedConfig r = some
      { fetchTimeout := max 100 (min 60000 r.fetchTimeout), readAhead := min 7 r.readAhead,
        threshold := max 1 (min 992 r.threshold), syncTimeout := max 1 (min 600 r.syncTimeout),
        portEnable := decide (r.enable = 1) } := by
  rw [toMedConfig, boolOf_eq h, Option.map_some, clamp, clamp, clamp, clamp, Nat.zero_max]

/-- The connection depends on the port's own record and the three conditions of R120 alone. -/
theorem State.updateConnection_shifted (b : Byte) (s : State) :
    State.updateConnection { s with link := { s.link with statusOut := b } } =
      { s.updateConnection with link := { s.updateConnection.link with statusOut := b } } := by
  rw [State.updateConnection_eq, State.updateConnection_eq]
  rfl

/-- Settles O33. -/
theorem medConfigIsWrittenAndConnects : Obligations.MedConfigIsWrittenAndConnects := by
  refine ⟨fun s => ?_, fun s tag payload r hr hp => ?_⟩
  · have hon : (s.power.pg.level && !s.serverInReset && s.medCfg.portEnable) = s.shouldConnect := rfl
    rw [hon, State.updateConnection_eq, ServerPort.followed]
    refine ⟨?_, fun h => ?_, fun h hc => ?_, fun h hc => ?_⟩
    · by_cases h : s.shouldConnect = s.usb.connected
      · rw [if_pos h, h]
      · cases hs : s.shouldConnect <;> simp_all
    · rw [if_pos h]
    · rw [h, hc]
      rfl
    · rw [h, hc]
      rfl
  · have hexec : exec (.medConfig tag payload) s = .next (s.request 0x30 tag (some r) medConfig) := by
      rw [← hp]
      rfl
    rw [hexec]
    refine ⟨fun h => congrArg _ (State.request_unchanged hr _ _ ?_), fun c h hc => congrArg _ ?_⟩
    · rw [medConfig, toMedConfig_refused h]
      rfl
    · have htaken : medConfig r s.shiftStatus =
          (State.updateConnection { s.shiftStatus with medCfg := c }, .ok, encMedConfig c) := by
        rw [medConfig, toMedConfig_taken h, hc]
      exact State.request_answered hr _ _ htaken
        (State.updateConnection_shifted s.statusByte { s with medCfg := c })

/-! ## MED_ATTACH and MED_PRESENT (R72, R81) -/

theorem accessOf_eq {n : Nat} (h : n ≤ 1) : accessOf n = some (if n = 0 then .ro else .rw) := by
  obtain rfl | rfl : n = 0 ∨ n = 1 := by omega
  all_goals rfl

theorem accessOf_above {n : Nat} (h : 1 < n) : accessOf n = none := by
  match n, h with
  | n + 2, _ => rfl

theorem num_one_accessCode {a : Byte} (h : a.toNat ≤ 1) :
    num 1 (accessCode (if a.toNat = 0 then .ro else .rw)) = [a] := by
  have hcode : accessCode (if a.toNat = 0 then .ro else .rw) = a.toNat := by
    obtain h | h : a.toNat = 0 ∨ a.toNat = 1 := by omega
    · rw [h]; rfl
    · rw [h]; rfl
  rw [hcode, num_toNat]

theorem fields2_num_byte {k n : Nat} (h : n < 256 ^ k) (b : Byte) :
    fields2 k 1 (num k n ++ [b]) = some (n, b.toNat) := by
  rw [fields2, fields_append (num_length k n), fields_cons_byte, fields_nil, leNat_num k n h]
  rfl

theorem medAttach_taken {s : State} {n a : Nat} {x : Access} (hs : s.media.state = .detached) (hn : 0 < n)
    (ha : accessOf a = some x) :
    medAttach (n, a) s =
      ({ s with media := { s.media with state := .attached, capacity := some n, access := some x } }, .ok,
        num 4 n ++ num 1 (accessCode x) ++ num 1 (attachCode .attached)) := by
  refine (if_neg (not_not.2 hs)).trans ?_
  dsimp only
  rw [ha]
  exact if_neg (Nat.pos_iff_ne_zero.1 hn)

theorem medAttach_refused {s : State} {n a : Nat} (hs : s.media.state = .detached) (h : n = 0 ∨ 1 < a) :
    medAttach (n, a) s = (s, .badField, []) := by
  refine (if_neg (not_not.2 hs)).trans ?_
  dsimp only
  rcases h with rfl | ha
  · cases accessOf a <;> rfl
  · rw [accessOf_above ha]
    rfl

theorem medPresent_taken {s : State} {n : Nat} {a : Access} (hs : s.media.state = .attached)
    (hn : s.media.capacity = some n) (ha : s.media.access = some a) :
    medPresent () s =
      (s.present, .ok, [2] ++ num 4 n ++ num 1 (accessCode a) ++ num 1 s.extentsInUse) := by
  refine (if_pos hs).trans ?_
  rw [hn, ha]
  rfl

/-- Settles O34. -/
theorem attachAndPresent : Obligations.AttachAndPresent := by
  intro s tag hr
  refine ⟨fun n a hn => ?_, fun hs => ?_, fun n a hs hn ha => ?_⟩
  · have hexec : exec (.medAttach tag (num 4 n ++ [a])) s =
        .next (s.request 0x31 tag (some (n, a.toNat)) medAttach) := by
      rw [← fields2_num_byte (k := 4) hn]
      rfl
    rw [hexec]
    refine ⟨fun hs => congrArg _ (State.request_unchanged hr _ _ (if_pos hs)),
      fun hs hbad => congrArg _ (State.request_unchanged hr _ _ (medAttach_refused hs hbad)),
      fun hs hpos hle => congrArg _ ?_⟩
    have htaken := medAttach_taken (s := s.shiftStatus) hs hpos (accessOf_eq hle)
    rw [num_one_accessCode hle, List.append_assoc] at htaken
    exact State.request_answered hr _ _ htaken rfl
  · exact congrArg _ (State.request_unchanged hr 0x34 tag (a := ()) (f := medPresent) (if_neg hs))
  · exact congrArg _ (State.request_answered hr 0x34 tag (a := ())
      (medPresent_taken (s := s.shiftStatus) hs hn ha) rfl)

/-! ## MED_EXTENT_ADD (R74) -/

theorem extentOf_val (i : Fin 32) : extentOf i.val = some i := dif_pos i.isLt

theorem extentKindOf_eq {n : Nat} (h : n ≤ 1) : extentKindOf n = some (if n = 0 then .data else .zero) := by
  obtain rfl | rfl : n = 0 ∨ n = 1 := by omega
  all_goals rfl

theorem extentKindOf_above {n : Nat} (h : 1 < n) : extentKindOf n = none := by
  match n, h with
  | n + 2, _ => rfl

/-- Check 2 of R74. -/
theorem extentFields_none {r : ExtentReq} (h : 31 < r.index ∨ 1 < r.kind ∨ 1 < r.access) : extentFields r = none := by
  refine Option.eq_none_iff_forall_ne_some.2 fun x hx => ?_
  simp only [extentFields, bind, Option.bind_eq_some_iff] at hx
  obtain ⟨i, hi, k, hk, a, ha, -⟩ := hx
  rcases h with h | h | h
  · rw [extentOf_above h] at hi; cases hi
  · rw [extentKindOf_above h] at hk; cases hk
  · rw [accessOf_above h] at ha; cases ha

theorem extentFields_some {r : ExtentReq} {i : Fin 32} (hi : r.index = i.val) (hk : r.kind ≤ 1) (ha : r.access ≤ 1) :
    extentFields r =
      some (i, if r.kind = 0 then .data else .zero, if r.access = 0 then .ro else .rw) := by
  rw [extentFields, hi, extentOf_val, extentKindOf_eq hk, accessOf_eq ha]
  rfl

/-- Checks 3 to 7 of R74. -/
theorem extentRefused_iff (r : ExtentReq) (capacity : Nat) :
    extentRefused r (if r.kind = 0 then .data else .zero) (if r.access = 0 then .ro else .rw) capacity = true ↔
      r.count = 0 ∨ (r.kind = 0 ∧ r.object = 0) ∨ capacity < r.first + r.count ∨ (r.kind ≠ 0 ∧ r.access ≠ 0) ∨
        (r.kind = 0 ∧ 2 ^ 40 - 1 < r.base + r.count - 1) := by
  simp only [extentRefused, Bool.or_eq_true, Bool.and_eq_true, decide_eq_true_eq, or_assoc]
  by_cases hk : r.kind = 0 <;> by_cases ha : r.access = 0 <;> simp [hk, ha]

theorem Extent.shares_iff (a b : Extent) :
    a.shares b = true ↔ a.first < b.first + b.count ∧ b.first < a.first + a.count := decide_eq_true_iff

/-- Check 9 of R74. -/
theorem extents_overlap_iff (v : Vector (Option Extent) 32) (e : Extent) :
    v.toList.any (fun x => (x.map e.shares).getD false) = true ↔
      ∃ x, some x ∈ v.toList ∧ x.first < e.first + e.count ∧ e.first < x.first + x.count := by
  rw [List.any_eq_true]
  constructor
  · rintro ⟨x, hx, hs⟩
    cases x with
    | none => cases hs
    | some x => exact ⟨x, hx, ((Extent.shares_iff e x).1 hs).symm⟩
  · rintro ⟨x, hx, hs⟩
    exact ⟨some x, hx, (Extent.shares_iff e x).2 hs.symm⟩

section
variable {s : State} {r : ExtentReq} (hs : s.media.state = .attached ∨ s.media.state = .presented)
include hs

/-- The attachment's state passes check 1 of R74. -/
theorem not_detached_or_ejecting : ¬ (s.media.state = .detached ∨ s.media.state = .ejecting) := by
  rcases hs with h | h <;> simp [h]

theorem medExtentAdd_badFields (h : extentFields r = none) : medExtentAdd r s = (s, .badField, []) := by
  rw [medExtentAdd, if_neg (not_detached_or_ejecting hs), h]
  rfl

/-- Checks 3 to 9 of R74, for a request with a known index, kind and access. -/
theorem medExtentAdd_checked {i : Fin 32} {k : ExtentKind} {a : Access} (h : extentFields r = some (i, k, a)) :
    medExtentAdd r s =
      if extentRefused r k a (s.media.capacity.getD 0) then (s, .badField, [])
      else if s.media.extents[i].isSome then (s, .wrongState, [])
      else if s.media.extents.toList.any (fun x => (x.map (storedExtent r k a).shares).getD false)
        then (s, .overlap, [])
      else (s.setExtent i (some (storedExtent r k a)), .ok, encExtent i.val (storedExtent r k a)) := by
  rw [medExtentAdd, if_neg (not_detached_or_ejecting hs), h]
  rfl

end

/-- Settles O36. -/
theorem extentAddChecksInOrder : Obligations.ExtentAddChecksInOrder := by
  intro s tag payload r hr hp
  have hexec : exec (.medExtentAdd tag payload) s = .next (s.request 0x32 tag (some r) medExtentAdd) := by
    rw [← hp]
    rfl
  rw [hexec]
  refine ⟨fun hs => congrArg _ (State.request_unchanged hr _ _ (if_pos hs)),
    fun hs hbad => congrArg _ (State.request_unchanged hr _ _ ?_),
    fun i e hs hi hk ha hcount hobj hcap hzero hbase he => ?_⟩
  · cases hf : extentFields r with
    | none => exact medExtentAdd_badFields (s := s.shiftStatus) hs hf
    | some x =>
      have hle : r.index ≤ 31 ∧ r.kind ≤ 1 ∧ r.access ≤ 1 := by
        by_contra hc
        rw [extentFields_none (by omega)] at hf
        cases hf
      obtain ⟨hi, hk, ha⟩ := hle
      refine (medExtentAdd_checked (s := s.shiftStatus) hs
        (extentFields_some (i := ⟨r.index, by omega⟩) rfl hk ha)).trans (if_pos ((extentRefused_iff _ _).2 ?_))
      rcases hbad with h | h | h | h | h | h | h | h
      · omega
      · omega
      · omega
      · exact .inl h
      · exact .inr (.inl h)
      · exact .inr (.inr (.inl h))
      · exact .inr (.inr (.inr (.inl ⟨by omega, by omega⟩)))
      · exact .inr (.inr (.inr (.inr h)))
  · have hnot : ¬ extentRefused r (if r.kind = 0 then .data else .zero) (if r.access = 0 then .ro else .rw)
        (s.media.capacity.getD 0) = true := by
      rw [extentRefused_iff]
      rintro (h | ⟨hk0, h⟩ | h | ⟨hk1, h⟩ | ⟨hk0, h⟩)
      · omega
      · exact hobj hk0 h
      · omega
      · exact h (hzero (by omega))
      · exact absurd (hbase hk0) (by omega)
    have hstored : storedExtent r (if r.kind = 0 then .data else .zero) (if r.access = 0 then .ro else .rw) = e := by
      rw [he, storedExtent]
      by_cases hk0 : r.kind = 0 <;> simp [hk0]
    have hchecked := (medExtentAdd_checked (s := s.shiftStatus) hs (extentFields_some hi hk ha)).trans (if_neg hnot)
    rw [hstored] at hchecked
    refine ⟨fun hused => congrArg _ (State.request_unchanged hr _ _ (hchecked.trans (if_pos ?_))),
      fun hfree hshared => congrArg _ (State.request_unchanged hr _ _
        (hchecked.trans ((if_neg ?_).trans (if_pos ((extents_overlap_iff _ _).2 hshared))))),
      fun hfree hapart => congrArg _ (State.request_answered hr _ _
        (hchecked.trans ((if_neg ?_).trans (if_neg ?_))) rfl)⟩
    · exact Option.isSome_iff_ne_none.2 hused
    · exact Bool.eq_false_iff.1 (Option.isSome_eq_false_iff.2 (Option.isNone_iff_eq_none.2 hfree))
    · exact Bool.eq_false_iff.1 (Option.isSome_eq_false_iff.2 (Option.isNone_iff_eq_none.2 hfree))
    · rw [extents_overlap_iff]
      rintro ⟨x, hx, h1, h2⟩
      rcases hapart x hx with h | h <;> omega

end Sys2Proof.Machine
end

/-! # Ends of attachments and of extents: MED_EJECT and MED_EXTENT_DEL -/

section

namespace Sys2Proof.Machine

/-- A request taken: the handler's state with its reply at the tail. -/
theorem State.request_pushed {α : Type} {s t : State} (hr : s.inReady = true) (kind tag : Byte) {a : α} {f : Handler α}
    {st : Status} {body : List Byte} (h : f a s.shiftStatus = (t, st, body)) :
    s.request kind tag (some a) f = t.pushReply (mkReply kind tag st body) := by
  rw [State.request, State.whenReady_taken hr]
  dsimp only
  rw [h]

/-- With no command in progress a notice to the cache brings no retry. -/
theorem State.settle_idle {t : State} (h : t.usb.current = none) (s : State) : State.settle s t = t := by
  rw [State.settle]
  split
  · rw [State.retry, h]
  · rfl

/-! ## The end of a command and of an attachment (R80, R84 to R86) -/

theorem State.endCurrent_idle {s : State} (h : s.usb.current = none) (st : CmdStatus) : s.endCurrent st = s := by
  rw [State.endCurrent, h]

/-- The retirement of fetches leaves the link's replies and its pending reports. -/
theorem retireAll_link (is : List (Fin 8)) : ∀ s : State, ∃ n h,
    (is.foldl (fun (s : State) i => if s.fetch[i].live.isSome then s.retire i else s) s).link =
      { s.link with notices := n, held := h } := by
  induction is with
  | nil => exact fun s => ⟨s.link.notices, s.link.held, rfl⟩
  | cons i is ih =>
    intro s
    rw [List.foldl_cons]
    split
    · obtain ⟨n, h, hl⟩ := ih (s.retire i)
      exact ⟨n, h, hl⟩
    · exact ih s

theorem retireAll_usb (is : List (Fin 8)) (s : State) :
    (is.foldl (fun (s : State) i => if s.fetch[i].live.isSome then s.retire i else s) s).usb = s.usb := by
  obtain ⟨f, l, h⟩ := retireAll_frame is s
  rw [h]

theorem State.cancelFetches_link (s : State) : ∃ n h, s.cancelFetches.link = { s.link with notices := n, held := h } := by
  obtain ⟨c, a, e, hend⟩ := s.endCurrent_frame .noMedium
  obtain ⟨n, h, hl⟩ := retireAll_link (List.finRange 8) (if s.readWaits then s.endCurrent .noMedium else s)
  refine ⟨n, h, hl.trans ?_⟩
  split
  · rw [hend]
  · rfl

theorem State.cancelFetches_usb (s : State) :
    s.cancelFetches.usb = (if s.readWaits then s.endCurrent .noMedium else s).usb := retireAll_usb _ _

/-- What the end of an attachment leaves behind, and what it keeps (R86). -/
structure State.Detached (s t : State) : Prop where
  media : t.media = resetAttachment
  cache : t.cache = []
  dirty : t.usb.dirty = []
  drains : t.usb.drains = []
  fetch : ∀ i : Fin 8, t.fetch[i].live = none
  owners : ∀ p : Fin 128, t.owners[p] = if s.owners[p] = .line then .free else s.owners[p]
  ports : t.ports = s.ports
  mem : t.mem = s.mem
  rows : t.rows = s.rows
  committed : t.committed = s.committed
  mediumChanged : t.usb.mediumChanged = s.usb.mediumChanged
  flag : Report.media ∈ t.link.flags
  replies : t.link.replies = s.link.replies

theorem State.endAttachment_detached (s : State) : s.Detached s.endAttachment := by
  obtain ⟨f, l, u, hframe⟩ := s.cancelFetches_frame
  obtain ⟨n, h, hlink⟩ := s.cancelFetches_link
  have husb := s.cancelFetches_usb
  have hlive := s.cancelFetches_live
  obtain ⟨c, a, e, hend⟩ := s.endCurrent_frame .noMedium
  have hchanged : (if s.readWaits then s.endCurrent .noMedium else s).usb.mediumChanged = s.usb.mediumChanged := by
    split
    · rw [hend]
    · rfl
  unfold State.endAttachment
  rw [State.setFlag_eq]
  rw [hframe] at hlink husb hlive ⊢
  have hl : l = { s.link with notices := n, held := h } := hlink
  have hu : u = (if s.readWaits then s.endCurrent .noMedium else s).usb := husb
  subst hl hu
  refine ⟨rfl, rfl, rfl, rfl, hlive, fun p => ?_, rfl, rfl, rfl, rfl, hchanged, ?_, rfl⟩
  · exact vmap_getElem _ _ _ _
  · dsimp only
    split
    · assumption
    · exact List.mem_cons_self

theorem State.endAttachment_faults (s : State) : s.endAttachment.faults = s.faults := by
  obtain ⟨f, l, u, o, h⟩ := s.endAttachment_frame
  rw [h]

/-- With no command in progress the server port keeps all but the dirty list and the drains. -/
theorem State.endAttachment_usb {s : State} (h : s.usb.current = none) :
    s.endAttachment.usb = { s.usb with dirty := [], drains := [] } := by
  have husb : s.cancelFetches.usb = s.usb := by
    rw [State.cancelFetches_usb, State.endCurrent_idle h, ite_self]
  unfold State.endAttachment
  rw [State.setFlag_eq]
  dsimp only
  rw [husb]

/-- The end seen from an earlier state that agrees on what the attachment keeps. -/
theorem State.Detached.of_frame {s u t : State} (h : u.Detached t) (ho : u.owners = s.owners) (hp : u.ports = s.ports)
    (hm : u.mem = s.mem) (hrows : u.rows = s.rows) (hc : u.committed = s.committed)
    (hch : u.usb.mediumChanged = s.usb.mediumChanged) (hrep : u.link.replies = s.link.replies) : s.Detached t where
  media := h.media
  cache := h.cache
  dirty := h.dirty
  drains := h.drains
  fetch := h.fetch
  owners := ho ▸ h.owners
  ports := h.ports.trans hp
  mem := h.mem.trans hm
  rows := h.rows.trans hrows
  committed := h.committed.trans hc
  mediumChanged := h.mediumChanged.trans hch
  flag := h.flag
  replies := h.replies.trans hrep

theorem State.completeEject_dirty {s : State} (h : s.usb.dirty ≠ []) : s.completeEject = s :=
  if_neg fun hs => h hs.2

theorem State.completeEject_clean {s : State} (hs : s.media.state = .ejecting) (h : s.usb.dirty = []) :
    s.completeEject = s.endAttachment := if_pos ⟨hs, h⟩

/-! ## MED_EJECT (R82 to R86) -/

/-- A soft eject before its completion: EJECTING, the command in progress ended, MEDIA pending (R83). -/
def State.ejectBegun (s : State) : State :=
  State.setFlag .media (State.endCurrent .noMedium { s with media := { s.media with state := .ejecting } })

theorem State.softEject_eq (s : State) : s.softEject = s.ejectBegun.completeEject := rfl

theorem State.ejectBegun_frame (s : State) : ∃ c a e, s.ejectBegun = { s with
    media := { s.media with state := .ejecting },
    usb := { s.usb with current := c, lastAnswer := a, sense := e },
    link := { s.link with flags := if .media ∈ s.link.flags then s.link.flags else .media :: s.link.flags } } := by
  obtain ⟨c, a, e, h⟩ := State.endCurrent_frame .noMedium { s with media := { s.media with state := .ejecting } }
  refine ⟨c, a, e, ?_⟩
  rw [State.ejectBegun, State.setFlag_eq, h]

theorem State.ejectBegun_current (s : State) : s.ejectBegun.usb.current = none := by
  rw [State.ejectBegun, State.setFlag_eq]
  exact State.endCurrent_current _ _

theorem State.mem_ejectBegun (s : State) : Report.media ∈ s.ejectBegun.link.flags :=
  (State.mem_setFlag _ _ _).2 (.inl rfl)

/-- A soft eject with an empty dirty list (R84). -/
theorem State.softEject_detached {s : State} (h : s.usb.dirty = []) :
    s.Detached s.softEject ∧ s.softEject.usb.current = none ∧ s.softEject.faults = s.faults := by
  have hcur := s.ejectBegun_current
  obtain ⟨c, a, e, hf⟩ := s.ejectBegun_frame
  have hstate : s.ejectBegun.media.state = .ejecting := by rw [hf]
  have hdirty : s.ejectBegun.usb.dirty = [] := by rw [hf]; exact h
  rw [State.softEject_eq, State.completeEject_clean hstate hdirty]
  refine ⟨(State.endAttachment_detached _).of_frame ?_ ?_ ?_ ?_ ?_ ?_ ?_, ?_, ?_⟩
  rotate_right 2
  · rw [State.endAttachment_usb hcur]
    exact hcur
  · rw [State.endAttachment_faults, hf]
  all_goals rw [hf]

/-- The state in which a force eject ends the attachment: the command ended, the discarded blocks recorded (R85). -/
def State.forced (s : State) : State :=
  if s.usb.dirty.length = 0 then s.endCurrent .noMedium
  else (s.endCurrent .noMedium).recordFault (.dirtyDiscarded s.usb.dirty.length)

theorem State.forceEject_eq (s : State) : s.forceEject = s.forced.endAttachment := by
  rw [State.forced, State.forceEject]

theorem State.forceEject_detached (s : State) :
    s.Detached s.forceEject ∧ s.forceEject.usb.current = none ∧
      s.forceEject.faults =
        if s.usb.dirty = [] then s.faults else (s.recordFault (.dirtyDiscarded s.usb.dirty.length)).faults := by
  obtain ⟨c, a, e, h⟩ := s.endCurrent_frame .noMedium
  have hcur : s.forced.usb.current = none := by
    rw [State.forced]
    split
    · exact State.endCurrent_current _ _
    · rw [State.recordFault_usb]
      exact State.endCurrent_current _ _
  rw [State.forceEject_eq]
  refine ⟨(State.endAttachment_detached _).of_frame ?_ ?_ ?_ ?_ ?_ ?_ ?_, ?_, ?_⟩
  rotate_right 2
  · rw [State.endAttachment_usb hcur]
    exact hcur
  · rw [State.endAttachment_faults, State.forced, h, State.recordFault_eq, State.recordFault_eq]
    cases s.usb.dirty <;> rfl
  all_goals
    rw [State.forced, h, State.recordFault_eq]
    split <;> rfl

theorem medEject_waits {s : State} (hs : s.media.state = .presented) : medEject 0 s = ejected 0 s.softEject := by
  refine (if_neg (by omega)).trans ?_
  rw [hs]
  rfl

theorem medEject_attached {s : State} {mode : Nat} (hm : mode ≤ 1) (hs : s.media.state = .attached) :
    medEject mode s = ejected 0 s.endAttachment := by
  refine (if_neg (by omega)).trans ?_
  rw [hs]

theorem medEject_force {s : State} (hs : s.media.state = .presented ∨ s.media.state = .ejecting) :
    medEject 1 s = ejected s.usb.dirty.length s.forceEject := by
  refine (if_neg (by omega)).trans ?_
  rcases hs with hs | hs <;> rw [hs] <;> rfl

theorem medEject_refused {s : State} {mode : Nat}
    (h : 1 < mode ∨ s.media.state = .detached ∨ (s.media.state = .ejecting ∧ mode = 0)) :
    medEject mode s = (s, if 1 < mode then .badField else .wrongState, []) := by
  by_cases hm : 1 < mode
  · rw [if_pos hm]
    exact if_pos hm
  · rw [if_neg hm]
    refine (if_neg hm).trans ?_
    rcases h with h | h | ⟨h, rfl⟩
    · exact absurd h hm
    · rw [h]
      rfl
    · rw [h]
      rfl

theorem toNat_eq_zero {b : Byte} : b.toNat = 0 ↔ b = 0 := by
  rw [← BitVec.toNat_inj]
  rfl

/-- The reply of an eject that ended the attachment. -/
theorem ejected_detached {s t : State} (h : s.Detached t) (n : Nat) :
    ejected n t = (t, .ok, [0, 0, 0] ++ num 2 n) := by
  rw [ejected, h.media, h.dirty]
  rfl

/-- An eject that ended the attachment, as a request. -/
theorem State.request_ejected {s t : State} (hr : s.inReady = true) (tag : Byte) {mode n : Nat}
    (he : medEject mode s.shiftStatus = ejected n t) (hd : s.shiftStatus.Detached t) :
    s.request 0x35 tag (some mode) medEject = t.pushReply (mkReply 0x35 tag .ok ([0, 0, 0] ++ num 2 n)) :=
  State.request_pushed hr _ _ (he.trans (ejected_detached hd n))

theorem State.request_ejectEnds {s : State} (hr : s.inReady = true) (tag : Byte) {b : Byte}
    (h : (b = 1 ∧ (s.media.state = .presented ∨ s.media.state = .ejecting)) ∨
      (b.toNat ≤ 1 ∧ s.media.state = .attached) ∨ (b = 0 ∧ s.media.state = .presented ∧ s.usb.dirty = [])) :
    ∃ t : State, s.request 0x35 tag (some b.toNat) medEject = t.pushReply (mkReply 0x35 tag .ok
        ([0, 0, 0] ++ num 2 (if s.media.state = .attached then 0 else s.usb.dirty.length))) ∧
      s.shiftStatus.Detached t ∧ (s.media.state ≠ .attached → t.usb.current = none) ∧
      t.faults = (if b = 1 ∧ s.media.state ≠ .attached ∧ s.usb.dirty ≠ []
        then (s.recordFault (.dirtyDiscarded s.usb.dirty.length)).faults else s.faults) := by
  rcases h with ⟨rfl, hs⟩ | ⟨hb, hs⟩ | ⟨rfl, hs, hd⟩
  · obtain ⟨hdet, hcur, hf⟩ := s.shiftStatus.forceEject_detached
    have hna : s.media.state ≠ .attached := by rcases hs with h | h <;> simp [h]
    refine ⟨_, ?_, hdet, fun _ => hcur, hf.trans ?_⟩
    · rw [if_neg hna]
      exact State.request_ejected hr tag (medEject_force (s := s.shiftStatus) hs) hdet
    · by_cases hdirty : s.usb.dirty = []
      · exact (if_pos hdirty).trans (if_neg (by simp [hdirty])).symm
      · refine (if_neg hdirty).trans (Eq.trans ?_ (if_pos ⟨rfl, hna, hdirty⟩).symm)
        rw [State.recordFault_eq, State.recordFault_eq]
        rfl
  · have hdet := s.shiftStatus.endAttachment_detached
    refine ⟨_, ?_, hdet, fun h => absurd hs h, ?_⟩
    · rw [if_pos hs]
      exact State.request_ejected hr tag (medEject_attached (s := s.shiftStatus) hb hs) hdet
    · rw [State.endAttachment_faults, if_neg (by simp [hs])]
      rfl
  · obtain ⟨hdet, hcur, hf⟩ := State.softEject_detached (s := s.shiftStatus) hd
    refine ⟨_, ?_, hdet, fun _ => hcur, hf.trans ?_⟩
    · rw [hd, List.length_nil, ite_self]
      exact State.request_ejected hr tag (medEject_waits (s := s.shiftStatus) hs) hdet
    · rw [if_neg (by simp)]
      rfl

/-- Settles O35. -/
theorem ejectsEndTheAttachment : Obligations.EjectsEndTheAttachment := by
  intro s tag hr
  have hexec (b : Byte) : exec (.medEject tag [b]) s = .next (s.request 0x35 tag (some b.toNat) medEject) := rfl
  refine ⟨fun b hb => ?_, fun hs hd => ?_, fun b hb => ?_⟩
  · rw [hexec]
    refine congrArg _ (State.request_unchanged hr _ _ (medEject_refused (s := s.shiftStatus) ?_))
    rcases hb with h | h | ⟨h, rfl⟩
    · exact .inl h
    · exact .inr (.inl h)
    · exact .inr (.inr ⟨h, rfl⟩)
  · have hcur := s.shiftStatus.ejectBegun_current
    have hflag := s.shiftStatus.mem_ejectBegun
    obtain ⟨c, a, e, hf⟩ := s.shiftStatus.ejectBegun_frame
    have hdirty : s.shiftStatus.ejectBegun.usb.dirty ≠ [] := by rw [hf]; exact hd
    have htaken := medEject_waits (s := s.shiftStatus) hs
    rw [State.softEject_eq, State.completeEject_dirty hdirty] at htaken
    rw [hf] at hcur hflag htaken
    have htaken := State.request_pushed hr 0x35 tag htaken
    rw [hexec]
    exact ⟨_, congrArg _ htaken, rfl, rfl, hcur, rfl, rfl, rfl, rfl, rfl, hflag, rfl⟩
  · obtain ⟨t, ht, hd, hcur, hf⟩ := State.request_ejectEnds hr tag hb
    rw [hexec]
    refine ⟨_, congrArg _ ht, hd.media, hd.cache, hd.dirty, hd.drains, hd.fetch, hd.owners, fun i => ?_, hd.mem, hd.rows,
      hd.committed, hd.mediumChanged, hd.flag, hcur, hf, ?_⟩
    · exact congrArg (·[i]) hd.ports
    · exact congrArg (· ++ _) hd.replies

/-! ## MED_EXTENT_DEL (R78, R79) -/

theorem covers_block {e : Extent} {l : CacheLine} {b : Nat} (h : l.tag = tagOf b) :
    lineBlockIn e l (idxOf b) = e.covers b := by
  rw [lineBlockIn, h, show 8 * tagOf b + (idxOf b).val = b from Nat.div_add_mod b 8]

theorem dropBlocks_getBlock (e : Extent) (l : CacheLine) (i : Fin 8) :
    (dropBlocks e l).blocks[i] =
      if lineBlockIn e l i && decide (l.blocks[i] = .valid) then .invalid else l.blocks[i] := by
  refine (vgen_getElem _ _ _).trans ?_
  simp only [Nat.mod_eq_of_lt i.isLt]

theorem find_map_tag {f : CacheLine → CacheLine} (hf : ∀ l, (f l).tag = l.tag) (t : Nat) (c : List CacheLine) :
    (c.map f).find? (fun l => l.tag == t) = (c.find? fun l => l.tag == t).map f := by
  rw [List.find?_map]
  congr 2
  exact funext fun l => congrArg (· == t) (hf l)

/-- The blocks after step 2 of R79. -/
theorem State.block_dropBlocks (e : Extent) (b : Nat) (s : State) :
    State.block b { s with cache := s.cache.map (dropBlocks e) } =
      if e.covers b = true ∧ s.block b = .valid then .invalid else s.block b := by
  rw [State.block, State.block, State.line, State.line, find_map_tag (f := dropBlocks e) fun _ => rfl]
  cases h : s.cache.find? fun l => l.tag == tagOf b with
  | none => simp
  | some l =>
    have htag : l.tag = tagOf b := State.line_tag h
    refine (dropBlocks_getBlock e l (idxOf b)).trans ?_
    rw [covers_block htag]
    simp only [Bool.and_eq_true, decide_eq_true_eq]

theorem releaseAll_block (ts : List Nat) (b : Nat) : ∀ s : State,
    (ts.foldl (fun s t => s.releaseIfEmpty t) s).block b = s.block b := by
  induction ts with
  | nil => exact fun _ => rfl
  | cons t ts ih => exact fun s => (ih _).trans (s.block_releaseIfEmpty t b)

theorem releaseAll_frame (ts : List Nat) : ∀ s : State, ∃ o c,
    ts.foldl (fun s t => s.releaseIfEmpty t) s = { s with owners := o, cache := c } := by
  induction ts with
  | nil => exact fun s => ⟨s.owners, s.cache, rfl⟩
  | cons t ts ih =>
    intro s
    obtain ⟨o, c, h⟩ := ih (s.releaseIfEmpty t)
    exact ⟨o, c, by rw [List.foldl_cons, h, State.releaseIfEmpty_frame]⟩

/-- Steps 2 to 4 of R79: the extent table, the lines and the page owners alone change. -/
theorem State.removeExtent_frame (i : Fin 32) (e : Extent) (s : State) : ∃ o c,
    s.removeExtent i e = { s with
      owners := o, cache := c, media := { s.media with extents := vupd s.media.extents i fun _ => none } } := by
  obtain ⟨o, c, h⟩ := releaseAll_frame ((s.cache.map (dropBlocks e)).map (·.tag))
    { s with cache := s.cache.map (dropBlocks e) }
  refine ⟨o, c, ?_⟩
  rw [State.removeExtent, h]
  rfl

theorem State.removeExtent_block (i : Fin 32) (e : Extent) (b : Nat) (s : State) :
    (s.removeExtent i e).block b = if e.covers b = true ∧ s.block b = .valid then .invalid else s.block b :=
  (releaseAll_block _ _ _).trans (s.block_dropBlocks e b)

theorem medExtentDel_wrongState {i : Fin 32} {s : State} (hs : s.media.state ≠ .attached) :
    medExtentDel i.val s = (s, .wrongState, []) := by
  rw [medExtentDel, extentOf_val]
  exact if_pos hs

theorem medExtentDel_notFound {i : Fin 32} {s : State} (hs : s.media.state = .attached)
    (he : s.media.extents[i] = none) : medExtentDel i.val s = (s, .notFound, []) := by
  rw [medExtentDel, extentOf_val]
  refine (if_neg (not_not.2 hs)).trans ?_
  rw [he]
  rfl

/-- The checks of R78 passed up to the extent's record. -/
theorem medExtentDel_found {i : Fin 32} {s : State} {e : Extent} (hs : s.media.state = .attached)
    (he : s.media.extents[i] = some e) :
    medExtentDel i.val s =
      if s.extentUnclean e then (s, .dirty, []) else (s.removeExtent i e, .ok, encExtent i.val e) := by
  rw [medExtentDel, extentOf_val]
  refine (if_neg (not_not.2 hs)).trans ?_
  rw [he]
  rfl

theorem fields1_byteOf {n : Nat} (h : n < 256) : fields1 1 [byteOf n] = some n :=
  (fields1_of_byte rfl).trans (congrArg some (byteOf_toNat h))

/-- Settles O37. -/
theorem extentDelInvalidatesItsBlocks : Obligations.ExtentDelInvalidatesItsBlocks := by
  intro s tag i hr
  have hexec : exec (.medExtentDel tag [byteOf i.val]) s =
      .next (State.settle s (s.request 0x33 tag (some i.val) medExtentDel)) := by
    rw [← fields1_byteOf (n := i.val) (by omega)]
    rfl
  have hrefused {st : Status} (h : medExtentDel i.val s.shiftStatus = (s.shiftStatus, st, [])) :
      exec (.medExtentDel tag [byteOf i.val]) s = .next (s.answered 0x33 tag st [] s) := by
    rw [hexec, State.request_unchanged hr _ _ h, State.settle_answered]
  refine ⟨fun hs => hrefused ?_, fun hs he => hrefused ?_, fun e hs he => ⟨fun hu => hrefused ?_, fun hc hcur => ?_⟩⟩
  · exact medExtentDel_wrongState (s := s.shiftStatus) hs
  · exact medExtentDel_notFound (s := s.shiftStatus) hs he
  · exact (medExtentDel_found (s := s.shiftStatus) hs he).trans (if_pos hu)
  · have hblock := fun b => s.shiftStatus.removeExtent_block i e b
    have htaken := (medExtentDel_found (s := s.shiftStatus) hs he).trans (if_neg (Bool.eq_false_iff.1 hc))
    obtain ⟨o, c, hf⟩ := s.shiftStatus.removeExtent_frame i e
    rw [hf] at htaken hblock
    have hpushed := State.request_pushed hr 0x33 tag htaken
    rw [hexec, hpushed, State.settle_idle (by exact hcur)]
    refine ⟨_, rfl, vupd_self _ _ _, fun j hj => vupd_ne _ _ hj, fun b hb hv => ?_, fun b hb => ?_,
      rfl, rfl, rfl, rfl, rfl, rfl⟩
    · exact (hblock b).trans (if_pos ⟨hb, hv⟩)
    · refine (hblock b).trans (if_neg ?_)
      rintro ⟨hcov, hv⟩
      rcases hb with hb | hb
      · rw [hb] at hcov; cases hcov
      · exact hb hv

end Sys2Proof.Machine
end

/-! # The server's commands: dispatch, answers, checks, SYNC and USB reset -/

section

namespace Sys2Proof.Machine

/-! ## Dispatch (R123; log 8) -/

theorem State.serve_refused {s : State} (h : s.usb.connected = false ∨ s.usb.current ≠ none) (run : State → State) :
    s.serve run = s := by
  refine if_neg ?_
  rw [State.takesCommand, Bool.and_eq_true, Option.isNone_iff_eq_none]
  rintro ⟨hc, hn⟩
  rcases h with h | h
  · rw [h] at hc; cases hc
  · exact h hn

theorem State.serve_taken {s : State} (hc : s.usb.connected = true) (hn : s.usb.current = none)
    (run : State → State) : s.serve run = run s :=
  if_pos (by rw [State.takesCommand, hc, hn]; rfl)

theorem State.dispatch_noMedium {s : State} (h : s.media.state ≠ .presented) (k : CmdKind) (lba : Nat)
    (perform : State → State) : State.dispatch k lba perform s = s.complete k .noMedium lba 0 .none := if_pos h

theorem State.dispatch_changed {s : State} (h : s.media.state = .presented) (hc : s.usb.mediumChanged = true)
    (k : CmdKind) (lba : Nat) (perform : State → State) :
    State.dispatch k lba perform s =
      State.complete k .mediumChanged lba 0 .none { s with usb := { s.usb with mediumChanged := false } } :=
  (if_neg (not_not.2 h)).trans (if_pos hc)

theorem State.dispatch_performed {s : State} (h : s.media.state = .presented) (hc : s.usb.mediumChanged = false)
    (k : CmdKind) (lba : Nat) (perform : State → State) : State.dispatch k lba perform s = perform s :=
  (if_neg (not_not.2 h)).trans (if_neg (Bool.eq_false_iff.1 hc))

/-- A medium-touching command is a dispatch of its kind and LBA to its own rule. -/
theorem exec_dispatched {c : Instr} {k : CmdKind} {lba : Nat} (h :
    c = .ready ∧ k = .ready ∧ lba = 0 ∨ c = .capacity ∧ k = .capacity ∧ lba = 0 ∨ c = .mode ∧ k = .mode ∧ lba = 0 ∨
      c = .eject ∧ k = .eject ∧ lba = 0 ∨ c = .sync ∧ k = .sync ∧ lba = 0 ∨
      (∃ (a : BitVec 32) (n : Nat), c = .read a n ∧ k = .read ∧ lba = a.toNat) ∨
      (∃ (a : BitVec 32) (n : Nat), c = .write a n ∧ k = .write ∧ lba = a.toNat)) (s : State) :
    ∃ perform, exec c s = .next (s.serve (State.dispatch k lba perform)) := by
  rcases h with ⟨rfl, rfl, rfl⟩ | ⟨rfl, rfl, rfl⟩ | ⟨rfl, rfl, rfl⟩ | ⟨rfl, rfl, rfl⟩ | ⟨rfl, rfl, rfl⟩ |
    ⟨a, n, rfl, rfl, rfl⟩ | ⟨a, n, rfl, rfl, rfl⟩
  all_goals exact ⟨_, rfl⟩

/-- Settles O42. -/
theorem mediumCommandsAreDispatched : Obligations.MediumCommandsAreDispatched := by
  intro s c k lba hc
  obtain ⟨perform, hexec⟩ := exec_dispatched hc s
  rw [hexec]
  refine ⟨fun h => congrArg _ (State.serve_refused h _), fun hcon hn hs => congrArg _ ?_,
    fun hcon hn hs hch => congrArg _ ?_⟩
  · rw [State.serve_taken hcon hn, State.dispatch_noMedium hs]
    rfl
  · rw [State.serve_taken hcon hn, State.dispatch_changed hs hch]
    rfl

/-! ## Commands that carry no blocks (R124, R125) -/

/-- The current command, where none is in progress, as a completion rewrites it. -/
theorem usb_current_none {u : ServerPort} (h : u.current = none) : { u with current := none } = u := by
  rw [← h]

/-- A completion with GOOD, no command in progress: the last answer alone is new. -/
theorem State.complete_good {s : State} (h : s.usb.current = none) (k : CmdKind) (lba n : Nat) (d : AnswerData) :
    s.complete k .good lba n d =
      { s with usb := { s.usb with lastAnswer := some { kind := k, status := .good, data := d } } } := by
  conv_rhs => rw [← usb_current_none h]
  rfl

/-- A completion with another status, no command in progress: the sense record is new too. -/
theorem State.complete_bad {s : State} (h : s.usb.current = none) (k : CmdKind) {st : CmdStatus} (hst : st ≠ .good)
    (lba n : Nat) (d : AnswerData) :
    s.complete k st lba n d = { s with usb := { s.usb with
      lastAnswer := some { kind := k, status := st, data := d },
      sense := some { kind := k, status := st, lba := lba, count := n } } } := by
  conv_rhs => rw [← usb_current_none h]
  rw [State.complete, if_neg hst]

/-- Settles O43. -/
theorem simpleCommandsAreAnswered : Obligations.SimpleCommandsAreAnswered := by
  intro s hcon hn
  refine ⟨?_, ?_, fun code => ?_, fun hs hch => ⟨?_, fun n hcap => ?_, fun a hacc => ?_, fun hd => ?_, fun hd => ?_⟩⟩
  · exact congrArg _ ((State.serve_taken hcon hn _).trans (State.complete_good hn ..))
  · refine congrArg _ ((State.serve_taken hcon hn _).trans ?_)
    rw [State.complete_good hn]
  · exact congrArg _ ((State.serve_taken hcon hn _).trans (State.complete_bad hn _ (by decide) ..))
  · exact congrArg _ ((State.serve_taken hcon hn _).trans
      ((State.dispatch_performed hs hch _ _ _).trans (State.complete_good hn ..)))
  · refine congrArg _ ((State.serve_taken hcon hn _).trans
      ((State.dispatch_performed hs hch _ _ _).trans ((State.complete_good hn ..).trans ?_)))
    rw [hcap]
    rfl
  · refine congrArg _ ((State.serve_taken hcon hn _).trans
      ((State.dispatch_performed hs hch _ _ _).trans ((State.complete_good hn ..).trans ?_)))
    rw [hacc]
    congr 5
    simp
  · refine congrArg _ ((State.serve_taken hcon hn _).trans ((State.dispatch_performed hs hch _ _ _).trans ?_))
    have hbegun : s.ejectBegun = State.setFlag .media { s with media := { s.media with state := .ejecting } } := by
      rw [State.ejectBegun, State.endCurrent_idle (by exact hn)]
    rw [State.setFlag_eq] at hbegun
    rw [State.softEject_eq, State.completeEject_dirty (by rw [hbegun]; exact hd), hbegun, State.setFlag_eq,
      State.complete_good (by exact hn)]
  · obtain ⟨hdet, hcur, -⟩ := State.softEject_detached hd
    have hsense : s.softEject.usb.sense = s.usb.sense := by
      have hbegun : s.ejectBegun = State.setFlag .media { s with media := { s.media with state := .ejecting } } := by
        rw [State.ejectBegun, State.endCurrent_idle (by exact hn)]
      rw [State.setFlag_eq] at hbegun
      rw [State.softEject_eq, State.completeEject_clean (by rw [hbegun]) (by rw [hbegun]; exact hd),
        State.endAttachment_usb (by rw [hbegun]; exact hn), hbegun]
    exact ⟨_, congrArg Host.Outcome.next ((State.serve_taken hcon hn _).trans (State.dispatch_performed hs hch _ _ _)), hdet.media,
      hdet.cache, rfl, hsense, rfl, hdet.flag, hdet.mem, hdet.ports⟩

/-! ## READ's and WRITE's checks (R104, R127) -/

section
variable {s : State} {a n : Nat} (k : CmdKind) (go : State → State)

theorem State.rangeChecked_zero (h : n = 0) : State.rangeChecked k a n go s = s.complete k .good 0 0 .none := if_pos h

theorem State.rangeChecked_long (h : 256 < n) :
    State.rangeChecked k a n go s = s.complete k .badCommand a 0 .none := (if_neg (by omega)).trans (if_pos h)

theorem State.rangeChecked_beyond (hn : 0 < n) (hle : n ≤ 256) (h : s.media.capacity.getD 0 < a + n) :
    State.rangeChecked k a n go s = s.complete k .outOfRange a 0 .none :=
  (if_neg (by omega)).trans ((if_neg (by omega)).trans (if_pos h))

theorem State.rangeChecked_passed (hn : 0 < n) (hle : n ≤ 256) (h : a + n ≤ s.media.capacity.getD 0) :
    State.rangeChecked k a n go s = go s :=
  (if_neg (by omega)).trans ((if_neg (by omega)).trans (if_neg (by omega)))

end

theorem State.beginWrite_protected {s : State} {a n k : Nat} (hk : k < n) (h : s.writable (a + k) = false) :
    s.beginWrite a n = s.complete .write .writeProtected a 0 .none := by
  refine if_neg fun hall => ?_
  rw [List.all_eq_true.1 hall k (List.mem_range.2 hk)] at h
  cases h

theorem State.beginWrite_begun {s : State} {a n : Nat} (h : ∀ k, k < n → s.writable (a + k) = true) :
    s.beginWrite a n = s.setCurrent (.write { first := a, count := n, taken := 0, stall := none }) :=
  if_pos (List.all_eq_true.2 fun k hk => h k (List.mem_range.1 hk))

/-- A scan pass over blocks that need no fetch issues nothing (R106). -/
theorem scanFrom_present (c : ReadCmd) (s : State) : ∀ (fuel b : Nat),
    (∀ x, b ≤ x → x < c.stop → s.dataExtent x = none ∨ s.block x ≠ .invalid) →
    scanFrom c fuel b s = (s, .complete)
  | 0, _, _ => rfl
  | fuel + 1, b, h => by
    have hrest := scanFrom_present c s fuel (b + 1) fun x hx => h x (by omega)
    rw [scanFrom]
    by_cases hb : c.stop ≤ b
    · exact if_pos hb
    · rw [if_neg hb]
      cases he : s.dataExtent b with
      | none => exact hrest
      | some e =>
        refine (if_neg ?_).trans hrest
        rcases h b (Nat.le_refl b) (by omega) with h | h
        · rw [he] at h; cases h
        · exact h

theorem State.scanPass_read {s : State} {c : ReadCmd} (h : s.usb.current = some (.read c)) :
    s.scanPass = (scanFrom c (c.stop - c.cursor) c.cursor s).1.setCurrent
      (.read { c with scan := (scanFrom c (c.stop - c.cursor) c.cursor s).2 }) := by
  rw [State.scanPass, h]

/-- Settles O44. -/
theorem transfersAreChecked : Obligations.TransfersAreChecked := by
  intro s a n hcon hn hs hch
  have hread : exec (.read a n) s =
      .next (State.rangeChecked .read a.toNat n (State.beginRead a.toNat n) s) :=
    congrArg _ ((State.serve_taken hcon hn _).trans (State.dispatch_performed hs hch _ _ _))
  have hwrite : exec (.write a n) s =
      .next (State.rangeChecked .write a.toNat n (State.beginWrite a.toNat n) s) :=
    congrArg _ ((State.serve_taken hcon hn _).trans (State.dispatch_performed hs hch _ _ _))
  refine ⟨fun c k hc => ?_, fun hpos hle hcap => ⟨fun ⟨k, hk, hp⟩ => ?_, fun hw => ?_, fun hpres => ?_⟩⟩
  · obtain ⟨go, hexec⟩ : ∃ go, exec c s = .next (State.rangeChecked k a.toNat n go s) := by
      rcases hc with ⟨rfl, rfl⟩ | ⟨rfl, rfl⟩
      · exact ⟨_, hread⟩
      · exact ⟨_, hwrite⟩
    rw [hexec]
    refine ⟨fun h => congrArg _ ?_, fun h => congrArg _ ?_, fun hpos hle h => congrArg _ ?_⟩
    · rw [State.rangeChecked_zero k go h, State.complete_good hn]
    · rw [State.rangeChecked_long k go h, State.complete_bad hn k (by decide)]
    · rw [State.rangeChecked_beyond k go hpos hle h, State.complete_bad hn k (by decide)]
  · rw [hwrite, State.rangeChecked_passed _ _ hpos hle hcap, State.beginWrite_protected hk hp,
      State.complete_bad hn _ (by decide)]
  · rw [hwrite, State.rangeChecked_passed _ _ hpos hle hcap, State.beginWrite_begun hw]
    rfl
  · rw [hread, State.rangeChecked_passed _ _ hpos hle hcap, State.beginRead, State.scanPass_read rfl,
      scanFrom_present _ _ _ _ hpres]
    rfl

/-! ## SYNC and USB reset (R121, R136) -/

/-- Settles O49. -/
theorem syncWaitsForTheList : Obligations.SyncWaitsForTheList := by
  intro s
  refine ⟨fun hcon hn hs hch => ?_, fun d hd hreach => ?_, fun hcon => ?_, fun hcon => ?_⟩
  · have hexec : exec .sync s = .next s.beginSync :=
      congrArg _ ((State.serve_taken hcon hn _).trans (State.dispatch_performed hs hch _ _ _))
    rw [hexec]
    refine ⟨fun hl => congrArg _ ((if_pos hl).trans (State.complete_bad hn _ (by decide) ..)),
      fun hl hd => congrArg _ ((if_neg (by omega)).trans ((if_pos hd).trans (State.complete_good hn ..))),
      fun hl hd => congrArg _ ((if_neg (by omega)).trans (if_neg hd))⟩
  · have hdue : syncDue s.usb.current = some d := by rw [hd]; rfl
    have hend : State.endCurrent .notReadyRetry { s with time := d } =
        State.complete .sync .notReadyRetry 0 0 .none { s with time := d } := by
      rw [State.endCurrent]
      dsimp only
      rw [hd]
    refine congrArg Host.Outcome.next ?_
    rw [hdue, State.atDeadline_due hreach, hend]
    rfl
  · have husb : { s.usb with connected := true } = s.usb := by rw [← hcon]
    refine congrArg Host.Outcome.next ((if_pos hcon).trans ?_)
    conv_rhs => rw [← husb]
    rfl
  · exact congrArg _ (if_neg (Bool.eq_false_iff.1 hcon))

end Sys2Proof.Machine
end

/-! # The power sequencer's actions: settings, requests, phases and ends (R143 to R150, R153) -/

section

namespace Sys2Proof.Machine

/-! ## The action in progress -/

theorem State.action_of_phase {s : State} {a : ActionRec} {p : Phase} (h : s.power.last = some a)
    (hp : a.phase = some p) : s.action = some a := by
  rw [State.action, h, Option.filter_some, hp]
  rfl

theorem State.action_of_ended {s : State} {a : ActionRec} (h : s.power.last = some a) (hp : a.phase = none) :
    s.action = none := by
  rw [State.action, h, Option.filter_some, hp]
  rfl

theorem State.last_of_action {s : State} {a : ActionRec} (h : s.action = some a) :
    s.power.last = some a ∧ ∃ p, a.phase = some p := by
  obtain ⟨hlast, hphase⟩ := Option.filter_eq_some_iff.1 h
  exact ⟨hlast, Option.isSome_iff_exists.1 hphase⟩

/-! ## The connection after power changes (R120) -/

theorem ServerPort.followed_connected (on : Bool) (u : ServerPort) : (u.followed on).connected = on := by
  rw [ServerPort.followed]
  by_cases h : on = u.connected
  · rw [if_pos h, h]
  · rw [if_neg h]
    cases on <;> rfl

theorem State.updateConnection_connected (s : State) : s.updateConnection.usb.connected = s.shouldConnect := by
  rw [State.updateConnection_eq]
  exact ServerPort.followed_connected _ _

/-! ## The end of an action (R148, R150, R153) -/

/-- The record of an action that ends. -/
def ActionRec.finished (r : ActResult) (now : PartTime) (a : ActionRec) : ActionRec :=
  { a with phase := none, result := some r, ended := some now }

/-- The end of an action, without what follows its output's release: LAST, the POWER report, the result's fault. -/
def State.recordEnd (r : ActResult) (a : ActionRec) (s : State) : State :=
  let s' := State.setFlag .power (s.modPower fun p => { p with last := some (a.finished r s.time) })
  match resultFault a r with
  | some k => s'.recordFault k
  | none => s'

theorem State.recordEnd_spec (r : ActResult) (a : ActionRec) (s : State) : ∃ fa fl,
    s.recordEnd r a = { s with
      power := { s.power with last := some (a.finished r s.time) }, faults := fa,
      link := { s.link with flags := fl } } ∧
    Report.power ∈ fl ∧ (resultFault a r = none → fa = s.faults) ∧
    ∀ k, resultFault a r = some k → fa.latest = some { kind := k, time := s.time } := by
  rw [State.recordEnd]
  dsimp only
  have hflag : Report.power ∈ (State.setFlag .power
      (s.modPower fun p => { p with last := some (a.finished r s.time) })).link.flags :=
    (State.mem_setFlag _ _ _).2 (.inl rfl)
  cases resultFault a r with
  | none =>
    dsimp only
    rw [State.setFlag_eq] at hflag ⊢
    exact ⟨s.faults, _, rfl, hflag, fun _ => rfl, fun k h => absurd h.symm (Option.some_ne_none k)⟩
  | some k =>
    have hflag' := (State.mem_recordFault k Report.power _).2 (.inr hflag)
    dsimp only
    rw [State.recordFault_eq, State.setFlag_eq] at hflag' ⊢
    refine ⟨_, _, rfl, hflag', fun h => absurd h (Option.some_ne_none k), fun k' h => ?_⟩
    cases h
    rfl

theorem State.endAction_other {s : State} {a : ActionRec} (ha : s.action = some a) (hp : a.phase ≠ some .resetPulse)
    (r : ActResult) : s.endAction r = (s.recordEnd r a).updateConnection := by
  rw [State.endAction, ha]
  exact congrArg State.updateConnection (if_neg hp)

theorem State.endAction_reset {s : State} {a : ActionRec} (ha : s.action = some a) (hp : a.phase = some .resetPulse)
    (r : ActResult) : s.endAction r = (s.recordEnd r a).releaseReset.updateConnection := by
  rw [State.endAction, ha]
  exact congrArg State.updateConnection (if_pos hp)

theorem State.releaseReset_on {s : State} (h : s.power.pg.level = true) :
    s.releaseReset = State.startEpoch .resetAction
      { s with power := { s.power with mask := .tail (s.after s.power.cfg.debounce) } } := if_pos h

theorem State.releaseReset_low {s : State} (h : s.power.pg.level = false) :
    s.releaseReset = { s with power := { s.power with mask := .tail (s.after s.power.cfg.debounce) } } :=
  if_neg (Bool.eq_false_iff.1 h)

/-- What an epoch's start leaves of the state beside the supervisor, the matcher and the ports. -/
theorem State.startEpoch_openEpoch (c : EpochCause) (s : State) :
    (s.startEpoch c).openEpoch = some (s.newEpoch c) := by
  rw [State.startEpoch_eq]
  exact openEpoch_of_newest (es := s.keptEpochs .superseded) rfl rfl

/-- What the end of an action in progress does, and what it leaves (R148, R153). -/
structure State.Finished (r : ActResult) (a : ActionRec) (s t : State) : Prop where
  time : t.time = s.time
  inReset : t.inReset = s.inReset
  last : t.power.last = some (a.finished r s.time)
  prior : t.power.prior = s.power.prior
  pg : t.power.pg = s.power.pg
  rsts : t.power.rsts = s.power.rsts
  cfg : t.power.cfg = s.power.cfg
  episode : t.power.episode = s.power.episode
  latest : t.power.latest = s.power.latest
  previous : t.power.previous = s.power.previous
  flag : Report.power ∈ t.link.flags
  sound : resultFault a r = none → t.faults = s.faults
  fault : ∀ k, resultFault a r = some k → t.faults.latest = some { kind := k, time := s.time }
  mem : t.mem = s.mem
  restore : t.restore = s.restore
  medCfg : t.medCfg = s.medCfg
  policy : t.sup.policy = s.sup.policy
  replies : t.link.replies = s.link.replies
  other : a.phase ≠ some .resetPulse →
    t.power.mask = s.power.mask ∧ t.sup = s.sup ∧ t.ports = s.ports ∧ t.markers = s.markers
  tail : a.phase = some .resetPulse → t.power.mask = .tail (s.after s.power.cfg.debounce)
  opened : a.phase = some .resetPulse → s.power.pg.level = true →
    t.openEpoch.map (·.cause) = some .resetAction
  closed : s.power.pg.level = false → t.sup = s.sup ∧ t.ports = s.ports ∧ t.markers = s.markers

theorem State.endAction_finished {s : State} {a : ActionRec} (ha : s.action = some a) (r : ActResult) :
    s.Finished r a (s.endAction r) := by
  obtain ⟨fa, fl, hrec, hflag, hsound, hfault⟩ := s.recordEnd_spec r a
  by_cases hp : a.phase = some .resetPulse
  · rw [State.endAction_reset ha hp, hrec]
    cases hpg : s.power.pg.level with
    | false =>
      rw [State.releaseReset_low (by exact hpg), State.updateConnection_eq]
      exact ⟨rfl, rfl, rfl, rfl, rfl, rfl, rfl, rfl, rfl, rfl, hflag, hsound, hfault, rfl, rfl, rfl, rfl, rfl,
        fun h => absurd hp h, fun _ => rfl, fun _ h => absurd (hpg.symm.trans h) (by decide), fun _ => ⟨rfl, rfl, rfl⟩⟩
    | true =>
      rw [State.releaseReset_on (by exact hpg)]
      have hopen : ∀ u : State, (State.updateConnection (u.startEpoch .resetAction)).openEpoch.map (·.cause) =
          some .resetAction := by
        intro u
        rw [State.updateConnection_eq]
        exact congrArg (Option.map (·.cause)) (u.startEpoch_openEpoch .resetAction)
      refine ⟨?_, ?_, ?_, ?_, ?_, ?_, ?_, ?_, ?_, ?_, ?_, ?_, ?_, ?_, ?_, ?_, ?_, ?_, fun h => absurd hp h, fun _ => ?_,
        fun _ _ => hopen _, fun h => absurd (hpg.symm.trans h) (by decide)⟩
      all_goals rw [State.updateConnection_eq, State.startEpoch_eq]
      case refine_11 => exact hflag
      case refine_12 => exact hsound
      case refine_13 => exact hfault
      all_goals rfl
  · rw [State.endAction_other ha hp, hrec, State.updateConnection_eq]
    exact ⟨rfl, rfl, rfl, rfl, rfl, rfl, rfl, rfl, rfl, rfl, hflag, hsound, hfault, rfl, rfl, rfl, rfl, rfl,
      fun _ => ⟨rfl, rfl, rfl, rfl⟩, fun h => absurd h hp, fun h => absurd h hp, fun _ => ⟨rfl, rfl, rfl⟩⟩

/-! ## The entry of a phase (R145, R148) -/

/-- What LAST's entry of a phase does, and what it leaves. -/
structure State.Entered (p : Phase) (s t : State) : Prop where
  time : t.time = s.time
  last : t.power.last = s.power.last.map (s.inPhase p)
  prior : t.power.prior = s.power.prior
  pg : t.power.pg = s.power.pg
  cfg : t.power.cfg = s.power.cfg
  flags : ∀ q, q ∈ s.link.flags → q ∈ t.link.flags
  faults : t.faults = s.faults
  mem : t.mem = s.mem
  restore : t.restore = s.restore
  sup : t.sup = s.sup
  ports : t.ports = s.ports
  markers : t.markers = s.markers
  replies : t.link.replies = s.link.replies
  pulse : p = .resetPulse → t.power.mask = .pulse ∧ t.power.episode = false
  held : p = .resetPulse → s.power.last ≠ none → t.usb.connected = false
  other : p ≠ .resetPulse → t.power.mask = s.power.mask ∧ t.power.episode = s.power.episode

theorem State.setMask_spec (s : State) : ∃ fl, s.setMask = { s with
      power := { s.power with mask := .pulse, episode := false }, link := { s.link with flags := fl } } ∧
    ∀ q, q ∈ s.link.flags → q ∈ fl := by
  rw [State.setMask]
  dsimp only
  split
  · rw [State.setFlag_eq]
    refine ⟨_, rfl, fun q hq => ?_⟩
    split
    · exact hq
    · exact List.mem_cons_of_mem _ hq
  · exact ⟨s.link.flags, rfl, fun _ h => h⟩

/-- RESET_OUT ACTIVE holds the media port disconnected (R120). -/
theorem State.shouldConnect_resetPulse {s : State} (h : s.phase = some .resetPulse) : s.shouldConnect = false := by
  rw [State.shouldConnect, State.serverInReset, h, decide_eq_true rfl, Bool.or_true, Bool.not_true, Bool.and_false,
    Bool.false_and]

theorem State.enterPhase_entered (p : Phase) (s : State) : s.Entered p (s.enterPhase p) := by
  rw [State.enterPhase]
  by_cases hp : p = .resetPulse
  · rw [if_pos hp]
    obtain ⟨fl, hmask, hfl⟩ :=
      (s.modPower fun w => { w with last := w.last.map fun a => s.inPhase p a }).setMask_spec
    have hheld : s.power.last ≠ none → State.shouldConnect
        (s.modPower fun w => { w with last := w.last.map fun a => s.inPhase p a }).setMask = false := by
      intro hl
      obtain ⟨a, ha⟩ := Option.ne_none_iff_exists'.1 hl
      refine State.shouldConnect_resetPulse ?_
      rw [hmask, State.phase]
      dsimp only [State.modPower]
      rw [ha, hp]
      rfl
    have hcon := State.updateConnection_connected
      (s.modPower fun w => { w with last := w.last.map fun a => s.inPhase p a }).setMask
    rw [hmask] at hheld hcon ⊢
    rw [State.updateConnection_eq] at hcon ⊢
    exact ⟨rfl, rfl, rfl, rfl, rfl, hfl, rfl, rfl, rfl, rfl, rfl, rfl, rfl, fun _ => ⟨rfl, rfl⟩,
      fun _ hl => hcon.trans (hheld hl), fun h => absurd hp h⟩
  · rw [if_neg hp, State.updateConnection_eq]
    exact ⟨rfl, rfl, rfl, rfl, rfl, fun _ h => h, rfl, rfl, rfl, rfl, rfl, rfl, rfl, fun h => absurd h hp,
      fun h => absurd h hp, fun _ => ⟨rfl, rfl⟩⟩

/-! ## Phase deadlines (R145) -/

theorem State.atPhaseDeadline {s : State} {a : ActionRec} {p : Phase} (ha : s.power.last = some a)
    (hp : a.phase = some p) (hreach : s.reaches a.deadline = true) :
    exec .phaseDeadline s = .next (State.phaseExpired { s with time := a.deadline }) := by
  have hdue : s.phaseDue = some a.deadline := by rw [State.phaseDue, State.action_of_phase ha hp]; rfl
  refine congrArg Host.Outcome.next ?_
  rw [hdue, State.atDeadline_due hreach]

/-- The table of R145, by the phase of the action in progress. -/
theorem State.phaseExpired_of {s : State} {a : ActionRec} {p : Phase} (ha : s.power.last = some a) :
    a.phase = some p → s.phaseExpired = match p with
      | .pressOn => s.enterPhase .waitUp
      | .waitUp => s.endAction .noPowerGood
      | .pressSoft => s.enterPhase .waitDown
      | .waitDown => if a.escalate then s.escalate else s.endAction .softTimeout
      | .force => s.endAction .stuckOn
      | .resetPulse => s.endAction .done
      | .diagPulse => s.endAction .done
      | .dwell => s.enterPhase .pressOn := by
  intro hp
  rw [State.phaseExpired, State.action_of_phase ha hp]
  dsimp only
  rw [hp]
  cases p <;> rfl

/-- The phase that follows a phase's deadline, where the action goes on (the table of R145). -/
def nextPhase (escalate : Bool) : Phase → Option Phase
  | .pressOn => some .waitUp
  | .pressSoft => some .waitDown
  | .dwell => some .pressOn
  | .waitDown => if escalate then some .force else none
  | .waitUp | .force | .resetPulse | .diagPulse => none

/-- The result an action ends with at a phase's deadline, where it does not go on (the table of R145). -/
def deadlineResult : Phase → ActResult
  | .waitDown => .softTimeout
  | .waitUp => .noPowerGood
  | .force => .stuckOn
  | .pressOn | .pressSoft | .dwell | .resetPulse | .diagPulse => .done

theorem nextPhase_iff {p q : Phase} {escalate : Bool} :
    (p = .pressOn ∧ q = Phase.waitUp) ∨ (p = .pressSoft ∧ q = .waitDown) ∨ (p = .dwell ∧ q = .pressOn) ∨
      (p = .waitDown ∧ escalate = true ∧ q = .force) ↔ nextPhase escalate p = some q := by
  cases p <;> cases escalate <;> simp [nextPhase, eq_comm]

theorem deadlineResult_iff {p : Phase} {r : ActResult} {escalate : Bool} :
    (p = .waitDown ∧ escalate = false ∧ r = ActResult.softTimeout) ∨ ((p = .resetPulse ∨ p = .diagPulse) ∧ r = .done) ∨
      (p = .waitUp ∧ r = .noPowerGood) ∨ (p = .force ∧ r = .stuckOn) ↔
      nextPhase escalate p = none ∧ r = deadlineResult p := by
  cases p <;> cases escalate <;> simp [nextPhase, deadlineResult]

theorem State.phaseExpired_moves {s : State} {a : ActionRec} {p q : Phase} (ha : s.power.last = some a)
    (hp : a.phase = some p) (h : nextPhase a.escalate p = some q) :
    s.phaseExpired = State.enterPhase q { s with power := { s.power with
      last := some { a with escalated := a.escalated || decide (p = .waitDown) } } } := by
  have hsame : { s with power := { s.power with last := some { a with escalated := a.escalated || false } } } = s := by
    rw [Bool.or_false, ← ha]
  rcases nextPhase_iff.2 h with ⟨rfl, rfl⟩ | ⟨rfl, rfl⟩ | ⟨rfl, rfl⟩ | ⟨rfl, hesc, rfl⟩
  · exact (State.phaseExpired_of ha hp).trans (congrArg (State.enterPhase .waitUp) hsame.symm)
  · exact (State.phaseExpired_of ha hp).trans (congrArg (State.enterPhase .waitDown) hsame.symm)
  · exact (State.phaseExpired_of ha hp).trans (congrArg (State.enterPhase .pressOn) hsame.symm)
  · refine (State.phaseExpired_of ha hp).trans ((if_pos hesc).trans ?_)
    rw [State.escalate, State.modPower, ha, decide_eq_true rfl, Bool.or_true]
    rfl

theorem State.phaseExpired_ends {s : State} {a : ActionRec} {p : Phase} (ha : s.power.last = some a)
    (hp : a.phase = some p) (h : nextPhase a.escalate p = none) : s.phaseExpired = s.endAction (deadlineResult p) := by
  refine (State.phaseExpired_of ha hp).trans ?_
  rcases deadlineResult_iff.2 ⟨h, rfl⟩ with ⟨rfl, hesc, -⟩ | ⟨rfl | rfl, -⟩ | ⟨rfl, -⟩ | ⟨rfl, -⟩
  · exact if_neg (Bool.eq_false_iff.1 hesc)
  all_goals rfl

/-- A phase that ends otherwise than at WAIT_UP and FORCE records no fault at its deadline (R153). -/
theorem resultFault_deadline {p : Phase} (hu : p ≠ .waitUp) (hf : p ≠ .force) (a : ActionRec) :
    resultFault a (deadlineResult p) = none := by
  cases p <;> first | rfl | contradiction

/-- Settles O55: the action goes on to the next phase, or ends. -/
theorem phasesMoveAtTheirDeadlines : Obligations.PhasesMoveAtTheirDeadlines := by
  intro s a p ha hp hreach
  rw [State.atPhaseDeadline ha hp hreach]
  cases hnext : nextPhase a.escalate p with
  | some q =>
    have hne : p ≠ .resetPulse := by rintro rfl; cases hnext
    rw [State.phaseExpired_moves (s := { s with time := a.deadline }) ha hp hnext]
    have hin := State.enterPhase_entered q { s with
      time := a.deadline,
      power := { s.power with last := some { a with escalated := a.escalated || decide (p = .waitDown) } } }
    refine ⟨_, rfl, hin.time, hin.prior, hin.pg, hin.mem, fun q' hq' => ?_, fun r hr => ?_, fun h => absurd h hne⟩
    · obtain rfl : q' = q := Option.some.inj ((nextPhase_iff.1 hq').symm.trans hnext)
      exact ⟨hin.last, hin.faults⟩
    · rw [(deadlineResult_iff.1 hr).1] at hnext
      cases hnext
  | none =>
    rw [State.phaseExpired_ends (s := { s with time := a.deadline }) ha hp hnext]
    have hend := State.endAction_finished (s := { s with time := a.deadline }) (State.action_of_phase ha hp)
      (deadlineResult p)
    refine ⟨_, rfl, hend.time, hend.prior, hend.pg, hend.mem, fun q hq => ?_, fun r hr => ?_, fun h => ?_⟩
    · rw [nextPhase_iff.1 hq] at hnext
      cases hnext
    · obtain ⟨-, rfl⟩ := deadlineResult_iff.1 hr
      refine ⟨hend.last, hend.flag, fun h => hend.fault _ ?_, fun h => hend.fault _ ?_,
        fun hu hf => hend.sound (resultFault_deadline hu hf a)⟩
      · rw [h]; rfl
      · rw [h]; rfl
    · have hreset : a.phase = some .resetPulse := hp.trans (congrArg some h)
      exact ⟨hend.tail hreset, hend.opened hreset⟩

end Sys2Proof.Machine
end

/-! # Power requests: PWR_CONFIG, PWR_ABORT and PWR_ACTION (R143, R146, R149, R150, R156) -/

section

namespace Sys2Proof.Machine

/-! ## PWR_CONFIG (R143, R156) -/

theorem activeLevelOf_eq {n : Nat} (h : n ≤ 1) : activeLevelOf n = some (if n = 0 then .low else .high) := by
  obtain rfl | rfl : n = 0 ∨ n = 1 := by omega
  all_goals rfl

theorem activeLevelOf_above {n : Nat} (h : 1 < n) : activeLevelOf n = none := by
  match n, h with
  | n + 2, _ => rfl

theorem restModeOf_eq {n : Nat} (h : n ≤ 1) : restModeOf n = some (if n = 0 then .release else .driveInactive) := by
  obtain rfl | rfl : n = 0 ∨ n = 1 := by omega
  all_goals rfl

theorem restModeOf_above {n : Nat} (h : 1 < n) : restModeOf n = none := by
  match n, h with
  | n + 2, _ => rfl

theorem restorePolicyOf_eq {n : Nat} (h : n ≤ 1) :
    restorePolicyOf n = some (if n = 0 then .stayOff else .powerOn) := by
  obtain rfl | rfl : n = 0 ∨ n = 1 := by omega
  all_goals rfl

theorem restorePolicyOf_above {n : Nat} (h : 1 < n) : restorePolicyOf n = none := by
  match n, h with
  | n + 2, _ => rfl

/-- The settings of output `i` as PWR_CONFIG carries them: its active level and its rest mode (R156). -/
def PowerReq.output (r : PowerReq) (i : Nat) : Option OutputCfg :=
  (activeLevelOf (r.levels.getD i 2)).bind fun a =>
    (restModeOf (r.rests.getD i 2)).bind fun m => some { active := a, rest := m }

theorem PowerReq.output_eq {r : PowerReq} {i : Nat} (hl : r.levels.getD i 2 ≤ 1) (hr : r.rests.getD i 2 ≤ 1) :
    r.output i = some { active := if r.levels.getD i 2 = 0 then .low else .high,
                        rest := if r.rests.getD i 2 = 0 then .release else .driveInactive } := by
  rw [PowerReq.output, activeLevelOf_eq hl, restModeOf_eq hr]
  rfl

theorem PowerReq.output_none {r : PowerReq} {i : Nat} (h : 1 < r.levels.getD i 2 ∨ 1 < r.rests.getD i 2) :
    r.output i = none := by
  rw [PowerReq.output]
  rcases h with h | h
  · rw [activeLevelOf_above h]
    rfl
  · rw [restModeOf_above h]
    cases activeLevelOf (r.levels.getD i 2) <;> rfl

/-- The settings a request asks for, from its outputs and its policy (R156). -/
def PowerReq.settings (r : PowerReq) (po ro dg : OutputCfg) (rp : RestorePolicy) : PowerCfg :=
  { debounce := clamp 1 255 (r.durations.getD 0 0), press := clamp 50 2000 (r.durations.getD 1 0),
    onWait := clamp 500 30000 (r.durations.getD 2 0), softOff := clamp 5 1800 (r.durations.getD 3 0),
    maxHold := clamp 4000 15000 (r.durations.getD 4 0), resetPulse := clamp 20 2000 (r.durations.getD 5 0),
    diagPulse := clamp 20 2000 (r.durations.getD 6 0), dwell := clamp 1000 60000 (r.durations.getD 7 0),
    powerOut := po, resetOut := ro, diagOut := dg, restore := rp, restoreDelay := clamp 0 255 r.delay }

theorem toPowerCfg_eq (r : PowerReq) : toPowerCfg r =
    (r.output 0).bind fun po => (r.output 1).bind fun ro => (r.output 2).bind fun dg =>
      (restorePolicyOf r.policy).bind fun rp => some (r.settings po ro dg rp) := rfl

/-- A payload of PWR_CONFIG carries three levels and three rest modes (R156, R178). -/
theorem parsePwrConfig_lists {p : List Byte} {r : PowerReq} (h : parsePwrConfig p = some r) :
    ∃ l0 l1 l2 r0 r1 r2, r.levels = [l0, l1, l2] ∧ r.rests = [r0, r1, r2] := by
  unfold parsePwrConfig at h
  split at h
  · cases h
    exact ⟨_, _, _, _, _, _, rfl, rfl⟩
  · cases h

theorem toPowerCfg_refused {p : List Byte} {r : PowerReq} (hp : parsePwrConfig p = some r)
    (h : ∃ x ∈ r.levels ++ r.rests ++ [r.policy], 1 < x) : toPowerCfg r = none := by
  obtain ⟨l0, l1, l2, r0, r1, r2, hl, hr⟩ := parsePwrConfig_lists hp
  obtain ⟨x, hx, hlt⟩ := h
  refine Option.eq_none_iff_forall_ne_some.2 fun c hc => ?_
  simp only [toPowerCfg_eq, Option.bind_eq_some_iff] at hc
  obtain ⟨po, hpo, ro, hro, dg, hdg, rp, hrp, -⟩ := hc
  have hout {i : Nat} {o : OutputCfg} (ho : r.output i = some o) :
      r.levels.getD i 2 ≤ 1 ∧ r.rests.getD i 2 ≤ 1 := by
    by_contra hbad
    rw [PowerReq.output_none (by omega)] at ho
    cases ho
  have h0 := hout hpo
  have h1 := hout hro
  have h2 := hout hdg
  have hpol : r.policy ≤ 1 := by
    by_contra hbad
    rw [restorePolicyOf_above (by omega)] at hrp
    cases hrp
  rw [hl, hr] at h0 h1 h2 hx
  simp only [List.getD_cons_zero, List.getD_cons_succ, List.cons_append, List.nil_append, List.mem_cons,
    List.not_mem_nil, or_false] at h0 h1 h2 hx
  rcases hx with rfl | rfl | rfl | rfl | rfl | rfl | rfl <;> omega

theorem toPowerCfg_taken {p : List Byte} {r : PowerReq} (hp : parsePwrConfig p = some r) {o : Nat → OutputCfg}
    (h : ∀ x ∈ r.levels ++ r.rests ++ [r.policy], x ≤ 1)
    (ho : ∀ k, o k = { active := if r.levels.getD k 0 = 0 then .low else .high,
                       rest := if r.rests.getD k 0 = 0 then .release else .driveInactive }) :
    toPowerCfg r = some (r.settings (o 0) (o 1) (o 2) (if r.policy = 0 then .stayOff else .powerOn)) := by
  obtain ⟨l0, l1, l2, r0, r1, r2, hl, hr⟩ := parsePwrConfig_lists hp
  rw [hl, hr] at h
  have hout (k : Nat) (hk : k < 3) : r.output k = some (o k) := by
    obtain rfl | rfl | rfl : k = 0 ∨ k = 1 ∨ k = 2 := by omega
    all_goals
      rw [ho, hl, hr]
      refine (PowerReq.output_eq ?_ ?_).trans ?_
      · rw [hl]; exact h _ (by simp)
      · rw [hr]; exact h _ (by simp)
      · rw [hl, hr]; rfl
  rw [toPowerCfg_eq, hout 0 (by omega), hout 1 (by omega), hout 2 (by omega),
    restorePolicyOf_eq (h r.policy (by simp))]
  rfl

/-- At rest each output follows its rest mode and its active level (R143). -/
theorem State.outputLevel_rest {s : State} (hreset : s.inReset = false) (ha : s.action = none) (x : Output) :
    s.outputLevel x = match (outputCfg s.power.cfg x).rest, (outputCfg s.power.cfg x).active with
      | .release, _ => none
      | .driveInactive, .low => some true
      | .driveInactive, .high => some false := by
  have hphase : s.phase = none := by
    rw [State.phase]
    cases hl : s.power.last with
    | none => rfl
    | some a =>
      rw [State.action, hl] at ha
      cases hp : a.phase with
      | none => exact hp
      | some p => rw [Option.filter_some, hp] at ha; cases ha
  rw [State.outputLevel, State.outputCond, hreset, hphase, if_neg (by simp), if_neg (by simp)]
  rcases outputCfg s.power.cfg x with ⟨a, m⟩
  cases a <;> cases m <;> rfl

theorem State.inReset_of_inReady {s : State} (h : s.inReady = true) : s.inReset = false := by
  rw [State.inReady, Bool.and_eq_true, Bool.not_eq_true'] at h
  exact h.1

/-! ## PWR_ABORT (R150) -/

theorem pwrAbort_none {s : State} (h : s.action = none) : pwrAbort () s = (s, .wrongState, []) := by
  rw [pwrAbort, h]
  rfl

theorem pwrAbort_some {s : State} {a : ActionRec} {p : Phase} (h : s.action = some a) (hp : a.phase = some p) :
    pwrAbort () s = (s.endAction .aborted, .ok,
      num 1 (actionCode a.kind) ++ num 1 (requesterCode a.requester) ++ num 1 (phaseCode p)) := by
  rw [pwrAbort, h]
  dsimp only
  rw [hp]
  rfl

/-- Settles O50. -/
theorem powerIsConfiguredAndAborted : Obligations.PowerIsConfiguredAndAborted := by
  intro s tag hr
  refine ⟨fun payload r hp => ?_, fun h => ?_, fun a p ha hp => ?_⟩
  · have hexec : exec (.pwrConfig tag payload) s = .next (s.request 0x40 tag (some r) pwrConfig) := by
      rw [← hp]
      rfl
    rw [hexec]
    refine ⟨fun hbusy => congrArg _ (State.request_unchanged hr _ _ (if_pos hbusy)),
      fun hfree hbad => congrArg _ (State.request_unchanged hr _ _ ?_), fun c d o hfree hok hd ho hc => ?_⟩
    · refine (if_neg (by rw [show s.shiftStatus.action = none from hfree]; simp)).trans ?_
      rw [toPowerCfg_refused hp hbad]
      rfl
    · have hcfg : toPowerCfg r = some c := by
        rw [toPowerCfg_taken hp hok ho, hc]
        simp only [PowerReq.settings, hd, clamp, Nat.zero_max]
      have htaken : pwrConfig r s.shiftStatus =
          (s.shiftStatus.modPower fun p => { p with cfg := c }, .ok, encPowerCfg c) := by
        refine (if_neg (by rw [show s.shiftStatus.action = none from hfree]; simp)).trans ?_
        rw [hcfg]
      refine ⟨_, rfl, State.request_answered hr _ _ htaken (u := { s with power := { s.power with cfg := c } }) rfl,
        fun x => ?_⟩
      rw [State.request_answered hr _ _ htaken (u := { s with power := { s.power with cfg := c } }) rfl]
      have hreset := State.inReset_of_inReady hr
      exact State.outputLevel_rest (s := s.answered 0x40 tag .ok (encPowerCfg c)
        { s with power := { s.power with cfg := c } }) hreset hfree x
  · exact congrArg _ (State.request_unchanged hr 0x42 tag (a := ()) (pwrAbort_none (s := s.shiftStatus) h))
  · have hact : s.shiftStatus.action = some a := State.action_of_phase ha hp
    have hend := State.endAction_finished hact .aborted
    have hpushed := State.request_pushed hr 0x42 tag (a := ()) (pwrAbort_some hact hp)
    refine ⟨_, congrArg Host.Outcome.next hpushed, hend.last, State.action_of_ended hend.last rfl, hend.flag, hend.pg,
      hend.prior, fun hne => ?_, fun he => ⟨hend.tail ?_, hend.opened ?_, fun hlow => (hend.closed hlow).1⟩,
      hend.sound rfl, hend.mem, hend.restore, congrArg (· ++ _) hend.replies⟩
    · obtain ⟨hmask, hsup, -, -⟩ := hend.other (by rw [hp]; simpa using hne)
      exact ⟨hmask, hsup⟩
    · rw [hp, he]
    · rw [hp, he]

/-! ## An accepted action (R144, R146, R170, R188) -/

/-- The restore state after an accepted LINK action (R188). -/
def RestoreState.given : RestoreState → RestoreState
  | .waiting _ => .cancelled
  | r => r

theorem State.linkAccepted_eq (s : State) : s.linkAccepted = { s with
    sup := { s.sup with attempts := 0, state := if s.sup.state = .givenUp then .idle else s.sup.state },
    restore := s.restore.given } := by
  obtain ⟨p0, p1, p2, p3, p4, r, p6⟩ := s
  cases r <;> rfl

/-- The record of a LINK action that ended ALREADY (R146). -/
def alreadyRecord (k : ActionKind) (esc : Bool) (now : PartTime) : ActionRec :=
  { kind := k, escalate := esc, requester := .link, start := now, phase := none, deadline := 0, escalated := false,
    result := some .already, ended := some now, pressedAt := 0 }

/-- What a LINK action's acceptance leaves, whatever its course (R144, R146). -/
structure State.Accepted (a : ActionRec) (s t : State) : Prop where
  last : t.power.last = some a
  prior : t.power.prior = s.power.last
  pg : t.power.pg = s.power.pg
  attempts : t.sup.attempts = 0
  state : t.sup.state = if s.sup.state = .givenUp then .idle else s.sup.state
  epochs : t.sup.epochs = s.sup.epochs
  restore : t.restore = s.restore.given
  flags : ∀ q, q ∈ s.link.flags → q ∈ t.link.flags
  faults : t.faults = s.faults
  mem : t.mem = s.mem
  replies : t.link.replies = s.link.replies

theorem State.alreadyAction_accepted (k : ActionKind) (esc : Bool) (s : State) :
    s.Accepted (alreadyRecord k esc s.time) (s.alreadyAction k esc .link).linkAccepted := by
  rw [State.linkAccepted_eq, State.alreadyAction_eq, State.setFlag_eq]
  refine ⟨rfl, rfl, rfl, rfl, rfl, rfl, rfl, fun q hq => ?_, rfl, rfl, rfl⟩
  dsimp only
  split
  · exact hq
  · exact List.mem_cons_of_mem _ hq

theorem State.alreadyAction_kept (k : ActionKind) (esc : Bool) (s : State) :
    (s.alreadyAction k esc .link).linkAccepted.usb = s.usb ∧
      (s.alreadyAction k esc .link).linkAccepted.power.mask = s.power.mask ∧
      Report.power ∈ (s.alreadyAction k esc .link).linkAccepted.link.flags := by
  have hflag : Report.power ∈ (s.alreadyAction k esc .link).link.flags := by
    rw [State.alreadyAction_eq]
    exact (State.mem_setFlag _ _ _).2 (.inl rfl)
  rw [State.linkAccepted_eq]
  rw [State.alreadyAction_eq, State.setFlag_eq] at hflag ⊢
  exact ⟨rfl, rfl, hflag⟩

theorem State.beginAction_entered (k : ActionKind) (esc : Bool) (r : Requester) (p : Phase) (s : State) :
    (s.pushAction (s.newAction k esc r)).Entered p (s.beginAction k esc r p) := State.enterPhase_entered _ _

theorem State.beginAction_accepted (k : ActionKind) (esc : Bool) (p : Phase) (s : State) :
    s.Accepted (begunRecord k esc .link p s.time s.power.cfg) (s.beginAction k esc .link p).linkAccepted := by
  have hin := s.beginAction_entered k esc .link p
  rw [State.linkAccepted_eq]
  refine ⟨hin.last, hin.prior, hin.pg, rfl, ?_, ?_, ?_, hin.flags, hin.faults, hin.mem, hin.replies⟩
  · dsimp only
    rw [hin.sup]
    rfl
  · dsimp only
    rw [hin.sup]
    rfl
  · exact congrArg RestoreState.given hin.restore

/-- RESET_OUT ACTIVE sets the mask and ends an episode; another phase leaves both (R141). -/
theorem State.beginAction_mask (k : ActionKind) (esc : Bool) (p : Phase) (s : State) :
    (p = .resetPulse → (s.beginAction k esc .link p).linkAccepted.power.mask = .pulse ∧
      (s.beginAction k esc .link p).linkAccepted.power.episode = false ∧
      (s.beginAction k esc .link p).linkAccepted.usb.connected = false) ∧
    (p ≠ .resetPulse → (s.beginAction k esc .link p).linkAccepted.power.mask = s.power.mask ∧
      (s.beginAction k esc .link p).linkAccepted.power.episode = s.power.episode) := by
  have hin := s.beginAction_entered k esc .link p
  rw [State.linkAccepted_eq]
  refine ⟨fun h => ?_, hin.other⟩
  obtain ⟨hmask, hep⟩ := hin.pulse h
  exact ⟨hmask, hep, hin.held h (Option.some_ne_none _)⟩

theorem State.openEpoch_congr {s t : State} (h : t.sup.epochs = s.sup.epochs) : t.openEpoch = s.openEpoch := by
  rw [State.openEpoch, State.openEpoch, h]

/-! ## PWR_ACTION's answers (R146, R149) -/

theorem exec_pwrAction (tag k e : Byte) (s : State) :
    exec (.pwrAction tag [k, e]) s = .next (s.request 0x41 tag (some (k.toNat, e.toNat)) pwrAction) := rfl

theorem refuseAction_eq (k : Byte) (st : Status) (s : State) :
    refuseAction k.toNat st s = (s, st, [k, if s.power.pg.level then 1 else 0]) := by
  rw [refuseAction, num_toNat]
  rfl

theorem actionKindOf_above {n : Nat} (h : 5 < n) : actionKindOf n = none := by
  match n, h with
  | n + 6, _ => rfl

theorem pwrAction_badField {k e : Nat} (h : actionKindOf k = none ∨ boolOf e = none) (s : State) :
    pwrAction (k, e) s = refuseAction k .badField s := by
  rw [pwrAction]
  dsimp only
  rcases h with h | h
  · rw [h]
  · rw [h]
    cases actionKindOf k with
    | none => rfl
    | some x => cases x <;> rfl

theorem pwrAction_offHard {e : Nat} (h : e ≤ 1) (s : State) : pwrAction (2, e) s = offHard (decide (e = 1)) s := by
  rw [pwrAction, boolOf_eq h]
  rfl

/-- The five kinds that R146 dispatches. -/
theorem pwrAction_kind {k : Byte} {kind : ActionKind} (hk : actionKindOf k.toNat = some kind)
    (hne : kind ≠ .offHard) {e : Nat} (h : e ≤ 1) (s : State) :
    pwrAction (k.toNat, e) s = linkAction kind (decide (e = 1)) s ∧ actionCode kind = k.toNat := by
  rw [pwrAction, boolOf_eq h]
  dsimp only
  rw [hk]
  have hcode : actionCode kind = k.toNat := by
    match hn : k.toNat, hk with
    | 0, hk => cases hk; rfl
    | 1, hk => cases hk; rfl
    | 2, hk => cases hk; rfl
    | 3, hk => cases hk; rfl
    | 4, hk => cases hk; rfl
    | 5, hk => cases hk; rfl
  refine ⟨?_, hcode⟩
  cases kind <;> first | rfl | contradiction

theorem State.answerTo_busy {s : State} (h : s.action.isSome = true) (k : ActionKind) : s.answerTo k = .busy :=
  if_pos h

theorem State.answerTo_free {s : State} (h : s.action = none) (k : ActionKind) :
    s.answerTo k = actionTable k s.power.pg.level := if_neg (by simp [h])

/-- A PWR_ACTION in no action, by the outcome of R146's table: OFF_HARD too. -/
theorem pwrAction_free {s : State} (ha : s.action = none) {k : Byte} {kind : ActionKind}
    (hk : actionKindOf k.toNat = some kind) {e : Nat} (he : e ≤ 1) {o : ReqOutcome}
    (ho : actionTable kind s.power.pg.level = o) (hacc : (∃ p, o = .begun p) ∨ o = .already) :
    ∃ body, pwrAction (k.toNat, e) s = ((s.accept kind (decide (e = 1)) .link o).linkAccepted, .ok, body) := by
  have hend : s.endAction .aborted = s := by rw [State.endAction, ha]
  by_cases hkind : kind = .offHard
  · subst hkind
    have hk2 : k.toNat = 2 := by
      match hn : k.toNat, hk with
      | 2, _ => rfl
      | 3, hk => cases hk
      | 4, hk => cases hk
      | 5, hk => cases hk
    rw [hk2, pwrAction_offHard he, offHard, if_neg (by simp [ha]), hend]
    exact ⟨_, by rw [← ho]; rfl⟩
  · rw [(pwrAction_kind hk hkind he s).1, linkAction, State.answerTo_free ha, ho]
    rcases hacc with ⟨p, rfl⟩ | rfl
    · exact ⟨_, rfl⟩
    · exact ⟨_, rfl⟩

/-- An OFF_HARD that preempts another action (R149). -/
theorem offHard_preempts {s : State} {a : ActionRec} (ha : s.action = some a) (hne : a.kind ≠ .offHard) (esc : Bool) :
    ∃ body, offHard esc s = (((s.endAction .aborted).accept .offHard esc .link
      (actionTable .offHard s.power.pg.level)).linkAccepted, .ok, body) := by
  rw [offHard, if_neg (by rw [ha]; simpa using hne)]
  exact ⟨_, rfl⟩

/-- A PWR_ACTION refused with the kind and the power state in its reply. -/
theorem exec_pwrAction_refused {s : State} (hr : s.inReady = true) {tag k e : Byte} {st : Status}
    (h : pwrAction (k.toNat, e.toNat) s.shiftStatus = refuseAction k.toNat st s.shiftStatus) :
    exec (.pwrAction tag [k, e]) s =
      .next (s.answered 0x41 tag st [k, if s.power.pg.level then 1 else 0] s) := by
  rw [refuseAction_eq] at h
  exact congrArg _ (State.request_unchanged hr _ _ h)

theorem linkAction_refused {k : ActionKind} {esc : Bool} {s : State} {n : Nat} (hn : actionCode k = n) :
    (s.answerTo k = .busy → linkAction k esc s = refuseAction n .busy s) ∧
      (s.answerTo k = .wrongState → linkAction k esc s = refuseAction n .wrongState s) := by
  rw [linkAction, ← hn]
  exact ⟨fun h => by rw [h], fun h => by rw [h]⟩

/-- A taken PWR_ACTION is the handler's state with an OK reply at the tail. -/
theorem exec_pwrAction_taken {s t : State} (hr : s.inReady = true) {tag k e : Byte} {body : List Byte}
    (h : pwrAction (k.toNat, e.toNat) s.shiftStatus = (t, .ok, body)) :
    exec (.pwrAction tag [k, e]) s = .next (t.pushReply (mkReply 0x41 tag .ok body)) :=
  congrArg _ (State.request_pushed hr _ _ h)

theorem lastReply_pushed (s : State) (kind tag : Byte) (st : Status) (body : List Byte) :
    (s.pushReply (mkReply kind tag st body)).link.replies.getLast?.map (·.status) = some st := by
  rw [State.pushReply, List.getLast?_concat]
  rfl

/-- The table of R146 where it begins an action. -/
theorem actionTable_begun {k : Byte} {kind : ActionKind} {p : Phase} {on : Bool} (h :
    (k = 0 ∧ kind = .on ∧ p = .pressOn ∧ on = false) ∨ (k = 1 ∧ kind = .offSoft ∧ p = .pressSoft ∧ on = true) ∨
      (k = 2 ∧ kind = .offHard ∧ p = .force ∧ on = true) ∨ (k = 3 ∧ kind = .reset ∧ p = .resetPulse ∧ on = true) ∨
      (k = 4 ∧ kind = .diag ∧ p = .diagPulse ∧ on = true) ∨ (k = 5 ∧ kind = .cycle ∧ p = .pressOn ∧ on = false) ∨
      (k = 5 ∧ kind = .cycle ∧ p = .force ∧ on = true)) :
    actionKindOf k.toNat = some kind ∧ actionTable kind on = .begun p := by
  rcases h with ⟨rfl, rfl, rfl, rfl⟩ | ⟨rfl, rfl, rfl, rfl⟩ | ⟨rfl, rfl, rfl, rfl⟩ | ⟨rfl, rfl, rfl, rfl⟩ |
    ⟨rfl, rfl, rfl, rfl⟩ | ⟨rfl, rfl, rfl, rfl⟩ | ⟨rfl, rfl, rfl, rfl⟩
  all_goals exact ⟨rfl, rfl⟩

theorem actionTable_already {k : Byte} {kind : ActionKind} {on : Bool} (h : (k = 0 ∧ kind = .on ∧ on = true) ∨
      (k = 1 ∧ kind = .offSoft ∧ on = false) ∨ (k = 2 ∧ kind = .offHard ∧ on = false)) :
    actionKindOf k.toNat = some kind ∧ actionTable kind on = .already := by
  rcases h with ⟨rfl, rfl, rfl⟩ | ⟨rfl, rfl, rfl⟩ | ⟨rfl, rfl, rfl⟩
  all_goals exact ⟨rfl, rfl⟩

/-- The course of an OFF_HARD, by the power state (R149). -/
def offHardRecord (on esc : Bool) (s : State) : ActionRec :=
  if on then begunRecord .offHard esc .link .force s.time s.power.cfg else alreadyRecord .offHard esc s.time

theorem State.accept_offHard (on esc : Bool) {s : State} (hflag : Report.power ∈ s.link.flags) :
    s.Accepted (offHardRecord on esc s) (s.accept .offHard esc .link (actionTable .offHard on)).linkAccepted ∧
      (s.accept .offHard esc .link (actionTable .offHard on)).linkAccepted.power.mask = s.power.mask ∧
      Report.power ∈ (s.accept .offHard esc .link (actionTable .offHard on)).linkAccepted.link.flags := by
  cases on with
  | false => exact ⟨s.alreadyAction_accepted .offHard esc, (s.alreadyAction_kept .offHard esc).2⟩
  | true =>
    have hacc := s.beginAction_accepted .offHard esc .force
    exact ⟨hacc, ((s.beginAction_mask .offHard esc .force).2 (by decide)).1, hacc.flags _ hflag⟩

/-- Settles O51. -/
theorem powerActionsFollowTheTable : Obligations.PowerActionsFollowTheTable := by
  refine ⟨fun s tag k e hr he => exec_pwrAction_refused hr (pwrAction_badField (.inr (boolOf_above he)) _),
    fun s tag e hr he => ⟨fun k hk => exec_pwrAction_refused hr (pwrAction_badField (.inl (actionKindOf_above hk)) _),
      fun k hk hbusy => exec_pwrAction_refused hr ?_, fun k hk hfree hoff => ?_, fun a ha hkind => ?_,
      fun a p ha hp hkind => ?_, fun k kind p hfree htable => ?_, fun k kind hfree htable => ?_⟩⟩
  · obtain ⟨kind, hkind, hne⟩ : ∃ kind, actionKindOf k.toNat = some kind ∧ kind ≠ .offHard := by
      rcases hk with rfl | rfl | rfl | rfl | rfl
      all_goals exact ⟨_, rfl, by decide⟩
    obtain ⟨hlink, hcode⟩ := pwrAction_kind hkind hne he s.shiftStatus
    exact hlink.trans ((linkAction_refused hcode).1 (State.answerTo_busy (s := s.shiftStatus) hbusy _))
  · obtain ⟨kind, hkind, hne, htable⟩ : ∃ kind, actionKindOf k.toNat = some kind ∧ kind ≠ .offHard ∧
        actionTable kind false = .wrongState := by
      rcases hk with rfl | rfl
      all_goals exact ⟨_, rfl, by decide, rfl⟩
    obtain ⟨hlink, hcode⟩ := pwrAction_kind hkind hne he s.shiftStatus
    have hanswer : s.shiftStatus.answerTo kind = .wrongState := by
      rw [State.answerTo_free (s := s.shiftStatus) hfree, show s.shiftStatus.power.pg.level = false from hoff, htable]
    have hrefused := exec_pwrAction_refused hr (tag := tag) (k := k) (e := e)
      (hlink.trans ((linkAction_refused hcode).2 hanswer))
    rw [hoff] at hrefused
    exact hrefused
  · refine exec_pwrAction_refused hr (k := 2) ((pwrAction_offHard he _).trans (if_pos ?_))
    rw [show s.shiftStatus.action = some a from ha, Option.map_some, hkind]
  · have hact : s.shiftStatus.action = some a := State.action_of_phase ha hp
    obtain ⟨body, htaken⟩ := offHard_preempts hact hkind (decide (e.toNat = 1))
    have hend := State.endAction_finished hact .aborted
    obtain ⟨hacc, hmask, hflag⟩ :=
      State.accept_offHard s.power.pg.level (decide (e.toNat = 1)) hend.flag
    refine ⟨_, exec_pwrAction_taken hr (k := 2) ((pwrAction_offHard he _).trans htaken), hacc.prior.trans hend.last,
      hacc.last.trans ?_, fun hp' => ⟨hmask.trans (hend.tail ?_), fun hon => ?_⟩, fun hp' => ?_, ?_,
      hacc.attempts, hflag, hacc.faults.trans (hend.sound rfl), hacc.mem.trans hend.mem, lastReply_pushed _ _ _ _ _⟩
    · rw [offHardRecord, begunRecord, alreadyRecord, hend.time, hend.cfg]
      rfl
    · rw [hp, hp']
    · rw [← hend.opened (by rw [hp, hp']) hon]
      exact congrArg _ (State.openEpoch_congr hacc.epochs)
    · obtain ⟨hm, hsup, -, -⟩ := hend.other (by rw [hp]; simpa using hp')
      exact ⟨hmask.trans hm, hacc.epochs.trans (congrArg Supervisor.epochs hsup)⟩
    · refine (hacc.restore.trans (congrArg RestoreState.given hend.restore)).trans ?_
      cases h : s.restore <;> rw [show s.shiftStatus.restore = _ from h] <;> rfl
  · obtain ⟨hkind, hbegun⟩ := actionTable_begun htable
    obtain ⟨body, htaken⟩ := pwrAction_free (s := s.shiftStatus) hfree hkind he hbegun (.inl ⟨p, rfl⟩)
    have hacc := s.shiftStatus.beginAction_accepted kind (decide (e.toNat = 1)) p
    obtain ⟨hpulse, hother⟩ := s.shiftStatus.beginAction_mask kind (decide (e.toNat = 1)) p
    refine ⟨_, exec_pwrAction_taken hr htaken, hacc.last, hacc.prior, hacc.attempts, hacc.state, ?_, hpulse, hother,
      hacc.faults, hacc.mem, hacc.epochs, hacc.pg, lastReply_pushed _ _ _ _ _⟩
    refine hacc.restore.trans ?_
    cases h : s.restore <;> rw [show s.shiftStatus.restore = _ from h] <;> rfl
  · obtain ⟨hkind, halready⟩ := actionTable_already htable
    obtain ⟨body, htaken⟩ := pwrAction_free (s := s.shiftStatus) hfree hkind he halready (.inr rfl)
    have hacc := s.shiftStatus.alreadyAction_accepted kind (decide (e.toNat = 1))
    obtain ⟨husb, hmask, hflag⟩ := s.shiftStatus.alreadyAction_kept kind (decide (e.toNat = 1))
    refine ⟨_, exec_pwrAction_taken hr htaken, hacc.last, hacc.prior, hacc.attempts, hacc.state, ?_, hflag, hacc.faults,
      husb, hacc.mem, hmask⟩
    refine hacc.restore.trans ?_
    cases h : s.restore <;> rw [show s.shiftStatus.restore = _ from h] <;> rfl

end Sys2Proof.Machine
end

/-! # The sense inputs: pins, reset episodes, and the edges of power-good (R140 to R142, R151, R152, R154) -/

section

namespace Sys2Proof.Machine

/-! ## Pins and edges (R140) -/

theorem settlesTo_eq {v : Bool} {p : SenseIn} (hpin : p.pin = v) (hlevel : p.level ≠ v) : settlesTo v p = p.settling :=
  if_pos ⟨hpin, hlevel⟩

theorem State.takeEdge_rsts {s : State} {v : Bool} (h : s.power.rsts.pin = v) : s.takeEdge .rsts =
    { s with power := { s.power with rsts := { pin := v, level := v, settling := none } } } := by
  rw [← h]
  rfl

theorem State.takeEdge_pg {s : State} {v : Bool} (h : s.power.pg.pin = v) : s.takeEdge .pg =
    { s with power := { s.power with pg := { pin := v, level := v, settling := none } } } := by
  rw [← h]
  rfl

theorem State.rstsEdge_due {s : State} {d : PartTime} {v : Bool} (hreach : s.reaches d = true)
    (hs : s.power.rsts.settling = some d) (hpin : s.power.rsts.pin = v) (hlevel : s.power.rsts.level ≠ v)
    (take : State → State) : s.atDeadline (settlesTo v s.power.rsts) take = take { s with time := d } := by
  rw [settlesTo_eq hpin hlevel, hs, State.atDeadline_due hreach]

theorem State.pgEdge_due {s : State} {d : PartTime} {v : Bool} (hreach : s.reaches d = true)
    (hs : s.power.pg.settling = some d) (hpin : s.power.pg.pin = v) (hlevel : s.power.pg.level ≠ v)
    (take : State → State) : s.atDeadline (settlesTo v s.power.pg) take = take { s with time := d } := by
  rw [settlesTo_eq hpin hlevel, hs, State.atDeadline_due hreach]

/-! ## Reset episodes (R141, R142) -/

/-- An unmasked edge to active with PG high (R142): the port leaves the server with it (R120). -/
theorem State.resetSeen_begins {s : State} (hpin : s.power.rsts.pin = false) (hpg : s.power.pg.level = true)
    (hmask : s.power.mask = .clear) : ∃ fl u, s.resetSeen = { s with
      power := { s.power with rsts := { pin := false, level := false, settling := none }, episode := true },
      link := { s.link with flags := fl }, usb := u } ∧ Report.power ∈ fl ∧ u.connected = false := by
  have hcond : (!s.maskSet && s.pgHigh) = true := by
    rw [State.maskSet, State.pgHigh, hmask, hpg]
    rfl
  have hseen : s.resetSeen = State.updateConnection (State.setFlag .power { s with
      power := { s.power with rsts := { pin := false, level := false, settling := none }, episode := true } }) := by
    rw [State.resetSeen, if_pos hcond, State.takeEdge_rsts hpin]
    rfl
  have hoff : State.shouldConnect (State.setFlag .power { s with
      power := { s.power with rsts := { pin := false, level := false, settling := none }, episode := true } }) =
      false := by
    rw [State.setFlag_eq, State.shouldConnect, State.serverInReset, State.rstsActive, State.maskSet]
    dsimp only
    rw [hmask]
    simp
  have hflag : Report.power ∈ (State.setFlag .power { s with
      power := { s.power with rsts := { pin := false, level := false, settling := none }, episode := true } }).link.flags :=
    (State.mem_setFlag _ _ _).2 (.inl rfl)
  rw [hseen, State.updateConnection_eq, hoff]
  rw [State.setFlag_eq] at hflag ⊢
  exact ⟨_, _, rfl, hflag, ServerPort.followed_connected _ _⟩

theorem State.resetSeen_masked {s : State} (hpin : s.power.rsts.pin = false)
    (h : (s.power.pg.level && decide (s.power.mask = .clear)) = false) : ∃ u, s.resetSeen = { s with
      power := { s.power with rsts := { pin := false, level := false, settling := none } }, usb := u } := by
  have hcond : (!s.maskSet && s.pgHigh) = false := by
    rw [← h, State.maskSet, State.pgHigh, Bool.and_comm, decide_not, Bool.not_not]
  rw [State.resetSeen, if_neg (Bool.eq_false_iff.1 hcond), State.takeEdge_rsts hpin]
  exact ⟨_, State.updateConnection_eq _⟩

/-- An unmasked edge to inactive in an episode (R142). -/
theorem State.resetGone_ends {s : State} (hpin : s.power.rsts.pin = true) (hep : s.power.episode = true)
    (hmask : s.power.mask = .clear) : ∃ u : State, s.resetGone = { u with
      time := s.time, mem := s.mem,
      power := { s.power with
        rsts := { pin := true, level := true, settling := none }, episode := false,
        extResets := satInc 65535 s.power.extResets } } ∧
      Report.power ∈ u.link.flags ∧ u.openEpoch.map (·.cause) = some .resetExternal := by
  have hcond : (!s.maskSet && s.power.episode) = true := by
    rw [State.maskSet, hmask, hep]
    rfl
  have hgone : s.resetGone = State.updateConnection (State.setFlag .power (State.startEpoch .resetExternal { s with
      power := { s.power with
        rsts := { pin := true, level := true, settling := none }, episode := false,
        extResets := satInc 65535 s.power.extResets } })) := by
    rw [State.resetGone, if_pos hcond, State.takeEdge_rsts hpin]
    rfl
  refine ⟨s.resetGone, ?_, ?_, ?_⟩
  · rw [hgone, State.updateConnection_eq, State.setFlag_eq, State.startEpoch_eq]
  · rw [hgone, State.updateConnection_eq]
    exact (State.mem_setFlag _ _ _).2 (.inl rfl)
  · rw [hgone, State.updateConnection_eq, State.setFlag_eq]
    exact congrArg (Option.map (·.cause)) (State.startEpoch_openEpoch _ _)

theorem State.resetGone_masked {s : State} (hpin : s.power.rsts.pin = true)
    (h : (s.power.episode && decide (s.power.mask = .clear)) = false) : ∃ u, s.resetGone = { s with
      power := { s.power with rsts := { pin := true, level := true, settling := none } }, usb := u } := by
  have hcond : (!s.maskSet && s.power.episode) = false := by
    rw [← h, State.maskSet, Bool.and_comm, decide_not, Bool.not_not]
  rw [State.resetGone, if_neg (Bool.eq_false_iff.1 hcond), State.takeEdge_rsts hpin]
  exact ⟨_, State.updateConnection_eq _⟩

/-- Settles O52. -/
theorem pinsSettleAndEpisodesFollow : Obligations.PinsSettleAndEpisodesFollow := by
  refine ⟨fun s v h => ?_, fun s v h => ?_, fun s d hreach => ⟨fun hs hpin hlevel b hb => ?_,
    fun hs hpin hlevel b hb => ?_, fun hm => ?_⟩⟩
  · have hexec (pin : SensePin) : exec (.pinChange pin v) s =
        .next (s.modPin pin (SenseIn.moved v (s.after s.power.cfg.debounce))) :=
      congrArg (fun f => Host.Outcome.next (s.modPin pin f)) (if_neg (Bool.eq_false_iff.1 h))
    exact ⟨hexec .pg, hexec .rsts⟩
  · have hexec (pin : SensePin) : exec (.pinChange pin v) s = .next (s.modPin pin fun p => { p with pin := v }) :=
      congrArg (fun f => Host.Outcome.next (s.modPin pin f)) (if_pos h)
    exact ⟨hexec .pg, hexec .rsts⟩
  · have hexec : exec .rstsEdgeActive s = .next (State.resetSeen { s with time := d }) :=
      congrArg Host.Outcome.next (State.rstsEdge_due hreach hs hpin (by rw [hlevel]; decide) _)
    rw [hexec]
    subst hb
    cases hb : s.power.pg.level && decide (s.power.mask = .clear) with
    | true =>
      obtain ⟨hpg, hmask⟩ := Bool.and_eq_true_iff.1 hb
      obtain ⟨fl, u, hseen, hflag, hcon⟩ :=
        State.resetSeen_begins (s := { s with time := d }) hpin hpg (of_decide_eq_true hmask)
      rw [hseen]
      exact ⟨_, rfl, rfl, rfl, fun _ => ⟨hflag, hcon⟩, rfl, rfl⟩
    | false =>
      obtain ⟨u, hseen⟩ := State.resetSeen_masked (s := { s with time := d }) hpin hb
      rw [hseen]
      exact ⟨_, rfl, rfl, rfl, fun h => absurd h (by decide), rfl, rfl⟩
  · have hexec : exec .rstsEdgeInactive s = .next (State.resetGone { s with time := d }) :=
      congrArg Host.Outcome.next (State.rstsEdge_due hreach hs hpin (by rw [hlevel]; decide) _)
    rw [hexec]
    subst hb
    cases hb : s.power.episode && decide (s.power.mask = .clear) with
    | true =>
      obtain ⟨hep, hmask⟩ := Bool.and_eq_true_iff.1 hb
      obtain ⟨u, hgone, hflag, hcause⟩ :=
        State.resetGone_ends (s := { s with time := d }) hpin hep (of_decide_eq_true hmask)
      rw [hgone]
      refine ⟨_, rfl, rfl, ?_, fun _ => ⟨hflag, hcause⟩, fun h => absurd h (by decide), rfl⟩
      simp only [satInc, if_true, true_and]
    | false =>
      obtain ⟨u, hgone⟩ := State.resetGone_masked (s := { s with time := d }) hpin hb
      rw [hgone]
      refine ⟨_, rfl, rfl, ?_, fun h => absurd h (by decide), fun _ => rfl, rfl⟩
      simp
  · refine congrArg Host.Outcome.next ?_
    rw [hm]
    exact State.atDeadline_due hreach _

/-! ## A rise of power-good (R151, R154) -/

theorem State.cancelRestore_eq (s : State) : s.cancelRestore = { s with restore := s.restore.given } := by
  obtain ⟨p0, p1, p2, p3, p4, r, p6⟩ := s
  cases r <;> rfl

/-- The state in which a rise's epoch starts, and the epoch's cause (the table of R151). -/
structure State.Rising (s w : State) (c : EpochCause) : Prop where
  time : w.time = s.time
  pg : w.power.pg = s.power.pg
  restore : w.restore = s.restore
  faults : w.faults = s.faults
  mem : w.mem = s.mem
  medCfg : w.medCfg = s.medCfg
  ports : w.ports = s.ports
  free : s.action = none → w = s ∧ c = .powerUpExternal
  up : ∀ a, s.power.last = some a → a.phase = some .pressOn ∨ a.phase = some .waitUp →
    w.power.last = some (a.finished .done s.time) ∧ c = .onAction ∧
      w.power.latest = some (s.time - a.pressedAt) ∧ w.power.previous = s.power.latest
  dwell : ∀ a, s.power.last = some a → a.phase = some .dwell →
    w.power.last = some (a.finished .externalOn s.time) ∧ c = .powerUpExternal ∧ w.power.latest = s.power.latest

theorem State.riseAction_none {s : State} (h : s.action = none) : s.riseAction = s.startEpoch .powerUpExternal := by
  rw [State.riseAction, h]

theorem State.riseAction_up {s : State} {a : ActionRec} (h : s.action = some a)
    (hp : a.phase = some .pressOn ∨ a.phase = some .waitUp) :
    s.riseAction = ((s.capture_ a).endAction .done).startEpoch .onAction := by
  rw [State.riseAction, h]
  dsimp only
  rcases hp with hp | hp <;> rw [hp]

theorem State.riseAction_dwell {s : State} {a : ActionRec} (h : s.action = some a) (hp : a.phase = some .dwell) :
    s.riseAction = (s.endAction .externalOn).startEpoch .powerUpExternal := by
  rw [State.riseAction, h]
  dsimp only
  rw [hp]

theorem State.riseAction_other {s : State} {a : ActionRec} (h : s.action = some a)
    (hp : a.phase ≠ some .pressOn ∧ a.phase ≠ some .waitUp ∧ a.phase ≠ some .dwell) :
    s.riseAction = s.startEpoch .powerUpExternal := by
  rw [State.riseAction, h]
  dsimp only
  split
  · next hph => exact absurd hph hp.1
  · next hph => exact absurd hph hp.2.1
  · next hph => exact absurd hph hp.2.2
  · rfl

theorem State.action_iff {s : State} {a : ActionRec} :
    s.action = some a ↔ s.power.last = some a ∧ a.phase ≠ none := by
  rw [State.action, Option.filter_eq_some_iff, Option.isSome_iff_ne_none]

theorem State.riseAction_rising (s : State) : ∃ w c, s.riseAction = w.startEpoch c ∧ s.Rising w c := by
  cases ha : s.action with
  | none =>
    have hphase {a : ActionRec} (hl : s.power.last = some a) : a.phase = none := by
      by_contra hne
      rw [State.action_iff.2 ⟨hl, hne⟩] at ha
      cases ha
    refine ⟨s, _, State.riseAction_none ha, rfl, rfl, rfl, rfl, rfl, rfl, rfl, fun _ => ⟨rfl, rfl⟩,
      fun a hl hp => ?_, fun a hl hp => ?_⟩
    · rw [hphase hl] at hp
      rcases hp with hp | hp <;> cases hp
    · rw [hphase hl] at hp
      cases hp
  | some b =>
    have hsame {a : ActionRec} (hl : s.power.last = some a) : a = b :=
      Option.some.inj (hl.symm.trans (State.action_iff.1 ha).1)
    by_cases hup : b.phase = some .pressOn ∨ b.phase = some .waitUp
    · have hend := State.endAction_finished (s := s.capture_ b) (a := b) ha .done
      have hother := hend.other (by rcases hup with h | h <;> rw [h] <;> decide)
      obtain ⟨hmask, hsup, hports, hmarkers⟩ := hother
      refine ⟨_, _, State.riseAction_up ha hup, hend.time, hend.pg, hend.restore, hend.sound rfl, hend.mem, hend.medCfg,
        hports, fun h => ?_, fun a hl _ => ?_, fun a hl hp => ?_⟩
      · rw [ha] at h; cases h
      · rw [hsame hl]
        exact ⟨hend.last, rfl, hend.latest, hend.previous⟩
      · rw [hsame hl] at hp
        rcases hup with h | h <;> rw [h] at hp <;> cases hp
    · by_cases hdw : b.phase = some .dwell
      · have hend := State.endAction_finished ha .externalOn
        obtain ⟨hmask, hsup, hports, hmarkers⟩ := hend.other (by rw [hdw]; decide)
        refine ⟨_, _, State.riseAction_dwell ha hdw, hend.time, hend.pg, hend.restore, hend.sound rfl, hend.mem,
          hend.medCfg, hports, fun h => ?_, fun a hl hp => ?_, fun a hl _ => ?_⟩
        · rw [ha] at h; cases h
        · rw [hsame hl] at hp
          exact absurd hp hup
        · rw [hsame hl]
          exact ⟨hend.last, rfl, hend.latest⟩
      · refine ⟨s, _, State.riseAction_other ha ⟨fun h => hup (.inl h), fun h => hup (.inr h), hdw⟩, rfl, rfl, rfl, rfl,
          rfl, rfl, rfl, fun h => ?_, fun a hl hp => ?_, fun a hl hp => ?_⟩
        · rw [ha] at h; cases h
        · rw [hsame hl] at hp
          exact absurd hp hup
        · rw [hsame hl] at hp
          exact absurd hp hdw

/-- An epoch's start, the POWER report, the ports' transmitters and the connection, at a rise (R151). -/
theorem State.risen_spec (w : State) (c : EpochCause) : ∃ ps fl,
    (State.kickAll (State.setFlag .power (w.startEpoch c))).updateConnection = { w.startEpoch c with
      ports := ps, link := { w.link with flags := fl },
      usb := w.usb.followed w.shouldConnect } ∧ Report.power ∈ fl ∧
    ∀ i : PortId, ps[i] =
      if w.framing { w.ports[i] with window := [], filter := .normal }
      then Port.begin_ w.time { w.ports[i] with window := [], filter := .normal }
      else { w.ports[i] with window := [], filter := .normal } := by
  have hflag : Report.power ∈ (State.setFlag .power (w.startEpoch c)).link.flags :=
    (State.mem_setFlag _ _ _).2 (.inl rfl)
  have hport := fun i => State.kickAll_port (State.setFlag .power (w.startEpoch c)) i
  obtain ⟨ps, hkick⟩ := State.kickAll_frame (State.setFlag .power (w.startEpoch c))
  rw [State.updateConnection_eq]
  rw [hkick] at hport ⊢
  rw [State.setFlag_eq, State.startEpoch_eq] at hflag hport ⊢
  refine ⟨ps, _, rfl, hflag, fun i => (hport i).trans ?_⟩
  have hcleared : (vmap w.ports fun p => { p with window := [], filter := .normal })[i] =
      { w.ports[i] with window := [], filter := .normal } := vmap_getElem _ _ _ _
  dsimp only
  rw [hcleared]
  rfl

/-- A transmitter that is busy, or has nothing to send, begins nothing (R16). -/
theorem Port.begin_idle {p : Port} (h : p.sending ≠ none ∨ p.queue = []) (now : PartTime) : p.begin_ now = p := by
  rw [Port.begin_]
  split
  · next hs hq =>
    rcases h with h | h
    · exact absurd hs h
    · rw [hq] at h; cases h
  · rfl

theorem State.framing_on {s : State} (h : s.power.pg.level = true) (p : Port) :
    s.framing p = (p.enabled && p.rate.isSome) := by
  rw [State.framing, State.gated, State.pgHigh, h, Bool.not_true, Bool.and_false, Bool.not_false, Bool.and_true]

/-- Settles O53. -/
theorem powerRisesOpenAnEpoch : Obligations.PowerRisesOpenAnEpoch := by
  intro s d hs hpin hlevel hreach
  have hexec : exec .pgRise s = .next (State.rise { s with time := d }) :=
    congrArg Host.Outcome.next (State.pgEdge_due hreach hs hpin (by rw [hlevel]; decide) _)
  have hedge : State.cancelRestore (State.takeEdge .pg { s with time := d }) = { s with
      time := d, restore := s.restore.given,
      power := { s.power with pg := { pin := true, level := true, settling := none } } } := by
    rw [State.takeEdge_pg (s := { s with time := d }) hpin, State.cancelRestore_eq]
  obtain ⟨w, c, hrise, hw⟩ := State.riseAction_rising { s with
    time := d, restore := s.restore.given,
    power := { s.power with pg := { pin := true, level := true, settling := none } } }
  obtain ⟨ps, fl, hrisen, hflag, hports⟩ := w.risen_spec c
  have hopen : (w.startEpoch c).openEpoch.map (·.cause) = some c := by
    rw [State.startEpoch_openEpoch]
    rfl
  have hon : w.power.pg.level = true := by rw [hw.pg]
  rw [hexec, State.rise, hedge, hrise, hrisen]
  rw [State.startEpoch_eq] at hopen ⊢
  refine ⟨_, rfl, hw.time, hw.pg, hflag, ?_, ?_, hw.faults, hw.mem, fun i p hp => ⟨fun h => (hports i).trans ?_,
    fun he hrate => (hports i).trans ?_⟩, fun hfree => ?_, fun a ha => ⟨fun hup => ?_, fun hdw => ?_⟩⟩
  · refine hw.restore.trans ?_
    cases s.restore <;> rfl
  · refine (ServerPort.followed_connected _ _).trans ?_
    rw [State.shouldConnect, State.pgHigh, hon, hw.medCfg, Bool.true_and]
    rfl
  · rw [hw.ports, ← hp]
    split
    · next hf =>
      rw [State.framing_on hon, Bool.and_eq_true] at hf
      obtain ⟨he, hrate⟩ := hf
      refine Port.begin_idle ?_ _
      rcases h with h | h | h | h
      · rw [h] at he; cases he
      · rw [h] at hrate; cases hrate
      · exact .inl h
      · exact .inr h
    · rfl
  · rw [hw.ports, ← hp, State.framing_on hon, he, hw.time]
    exact if_pos (Option.isSome_iff_ne_none.2 hrate)
  · obtain ⟨hsame, rfl⟩ := hw.free hfree
    exact ⟨by rw [hsame], hopen, by rw [hsame]⟩
  · obtain ⟨hlast, rfl, hlatest, hprevious⟩ := hw.up a ha hup
    exact ⟨hlast, hopen, hlatest, hprevious⟩
  · obtain ⟨hlast, rfl, hlatest⟩ := hw.dwell a ha hdw
    exact ⟨hlast, hopen, hlatest⟩

/-! ## A fall of power-good (R10, R152) -/

/-- What the action in progress becomes at a fall, and what the sequencer leaves (the table of R152). -/
structure State.Fallen (s v : State) : Prop where
  time : v.time = s.time
  pg : v.power.pg = s.power.pg
  episode : v.power.episode = s.power.episode
  sup : v.sup = s.sup
  markers : v.markers = s.markers
  ports : v.ports = s.ports
  mem : v.mem = s.mem
  restore : v.restore = s.restore
  free : s.action = none →
    v.power.last = s.power.last ∧ v.faults.latest = some { kind := .powerLost none, time := s.time }
  done : ∀ a, s.action = some a →
    a.phase = some .pressSoft ∨ a.phase = some .waitDown ∨ (a.phase = some .force ∧ a.kind ≠ .cycle) →
    v.power.last = some (a.finished .done s.time) ∧ v.faults = s.faults
  dwell : ∀ a, s.action = some a → a.phase = some .force → a.kind = .cycle →
    v.power.last = some { a with
      phase := some .dwell, deadline := s.time + BitVec.ofNat 32 s.power.cfg.dwell } ∧ v.faults = s.faults
  lost : ∀ a, s.action = some a → a.phase = some .resetPulse ∨ a.phase = some .diagPulse →
    v.power.last = some (a.finished .powerLost s.time) ∧
      v.faults.latest = some { kind := .powerLost (some (a.kind, a.requester)), time := s.time }

theorem State.endAtFall_none {s : State} (h : s.action = none) : s.endAtFall = s.recordFault (.powerLost none) := by
  rw [State.endAtFall, h]

theorem State.endAtFall_done {s : State} {a : ActionRec} (h : s.action = some a)
    (hp : a.phase = some .pressSoft ∨ a.phase = some .waitDown ∨ (a.phase = some .force ∧ a.kind ≠ .cycle)) :
    s.endAtFall = s.endAction .done := by
  rw [State.endAtFall, h]
  dsimp only
  rcases hp with hp | hp | ⟨hp, hk⟩
  · rw [hp]
  · rw [hp]
  · rw [hp]
    exact if_neg hk

theorem State.endAtFall_dwell {s : State} {a : ActionRec} (h : s.action = some a) (hp : a.phase = some .force)
    (hk : a.kind = .cycle) : s.endAtFall = s.enterPhase .dwell := by
  rw [State.endAtFall, h]
  dsimp only
  rw [hp]
  exact if_pos hk

theorem State.endAtFall_lost {s : State} {a : ActionRec} (h : s.action = some a)
    (hp : a.phase = some .resetPulse ∨ a.phase = some .diagPulse) :
    s.endAtFall = (s.endAction .powerLost).recordFault (.powerLost (some (a.kind, a.requester))) := by
  rw [State.endAtFall, h]
  dsimp only
  rcases hp with hp | hp <;> rw [hp]

theorem State.endAtFall_other {s : State} {a : ActionRec} (h : s.action = some a)
    (hdone : ¬ (a.phase = some .pressSoft ∨ a.phase = some .waitDown ∨ (a.phase = some .force ∧ a.kind ≠ .cycle)))
    (hdwell : ¬ (a.phase = some .force ∧ a.kind = .cycle))
    (hlost : ¬ (a.phase = some .resetPulse ∨ a.phase = some .diagPulse)) : s.endAtFall = s := by
  rw [State.endAtFall, h]
  dsimp only
  split
  · next hp => exact absurd (.inl hp) hdone
  · next hp => exact absurd (.inr (.inl hp)) hdone
  · next hp =>
    by_cases hk : a.kind = .cycle
    · exact absurd ⟨hp, hk⟩ hdwell
    · exact absurd (.inr (.inr ⟨hp, hk⟩)) hdone
  · next hp => exact absurd (.inl hp) hlost
  · next hp => exact absurd (.inr hp) hlost
  · rfl

/-- The three rows of R152's table exclude each other. -/
theorem fall_rows_exclusive {a : ActionRec} :
    ((a.phase = some .pressSoft ∨ a.phase = some .waitDown ∨ (a.phase = some .force ∧ a.kind ≠ .cycle)) →
      ¬ (a.phase = some .force ∧ a.kind = .cycle) ∧ ¬ (a.phase = some .resetPulse ∨ a.phase = some .diagPulse)) ∧
    ((a.phase = some .force ∧ a.kind = .cycle) → ¬ (a.phase = some .resetPulse ∨ a.phase = some .diagPulse)) := by
  constructor
  · rintro (h | h | ⟨h, hk⟩) <;> simp [h]
    exact hk
  · rintro ⟨h, -⟩
    simp [h]

theorem State.endAtFall_fallen {s : State} (hpg : s.power.pg.level = false) : s.Fallen s.endAtFall := by
  cases ha : s.action with
  | none =>
    rw [State.endAtFall_none ha, State.recordFault_eq]
    exact ⟨rfl, rfl, rfl, rfl, rfl, rfl, rfl, rfl, fun _ => ⟨rfl, rfl⟩, fun a h => absurd (ha.symm.trans h) (by simp),
      fun a h => absurd (ha.symm.trans h) (by simp), fun a h => absurd (ha.symm.trans h) (by simp)⟩
  | some b =>
    have hfree : s.action ≠ none := by rw [ha]; exact Option.some_ne_none _
    have hsame {a : ActionRec} (h : s.action = some a) : a = b := Option.some.inj (h.symm.trans ha)
    by_cases hdone : b.phase = some .pressSoft ∨ b.phase = some .waitDown ∨ (b.phase = some .force ∧ b.kind ≠ .cycle)
    · obtain ⟨hnd, hnl⟩ := fall_rows_exclusive.1 hdone
      have hend := State.endAction_finished ha .done
      obtain ⟨hsup, hports, hmarkers⟩ := hend.closed hpg
      rw [State.endAtFall_done ha hdone]
      refine ⟨hend.time, hend.pg, hend.episode, hsup, hmarkers, hports, hend.mem, hend.restore, fun h => absurd h hfree, fun a h _ => ?_,
        fun a h hp hk => ?_, fun a h hp => ?_⟩
      · rw [hsame h]
        exact ⟨hend.last, hend.sound rfl⟩
      · rw [hsame h] at hp hk
        exact absurd ⟨hp, hk⟩ hnd
      · rw [hsame h] at hp
        exact absurd hp hnl
    · by_cases hdwell : b.phase = some .force ∧ b.kind = .cycle
      · have hin := s.enterPhase_entered .dwell
        rw [State.endAtFall_dwell ha hdwell.1 hdwell.2]
        refine ⟨hin.time, hin.pg, (hin.other (by decide)).2, hin.sup, hin.markers, hin.ports, hin.mem, hin.restore,
          fun h => absurd h hfree, fun a h hp => ?_, fun a h _ _ => ?_, fun a h hp => ?_⟩
        · rw [hsame h] at hp
          exact absurd hp hdone
        · rw [hsame h]
          refine ⟨hin.last.trans ?_, hin.faults⟩
          rw [(State.last_of_action ha).1]
          rfl
        · rw [hsame h] at hp
          exact absurd hp (fall_rows_exclusive.2 hdwell)
      · by_cases hlost : b.phase = some .resetPulse ∨ b.phase = some .diagPulse
        · have hend := State.endAction_finished ha .powerLost
          obtain ⟨hsup, hports, hmarkers⟩ := hend.closed hpg
          rw [State.endAtFall_lost ha hlost, State.recordFault_eq]
          refine ⟨hend.time, hend.pg, hend.episode, hsup, hmarkers, hports, hend.mem, hend.restore, fun h => absurd h hfree,
            fun a h hp => ?_, fun a h hp hk => ?_, fun a h _ => ?_⟩
          · rw [hsame h] at hp
            exact absurd hp hdone
          · rw [hsame h] at hp hk
            exact absurd ⟨hp, hk⟩ hdwell
          · rw [hsame h, ← hend.time]
            exact ⟨by rw [hend.time]; exact hend.last, rfl⟩
        · rw [State.endAtFall_other ha hdone hdwell hlost]
          refine ⟨rfl, rfl, rfl, rfl, rfl, rfl, rfl, rfl, fun h => absurd h hfree, fun a h hp => ?_, fun a h hp hk => ?_,
            fun a h hp => ?_⟩
          · rw [hsame h] at hp
            exact absurd hp hdone
          · rw [hsame h] at hp hk
            exact absurd ⟨hp, hk⟩ hdwell
          · rw [hsame h] at hp
            exact absurd hp hlost

theorem State.Fallen.setFlag {s v : State} (h : s.Fallen v) (r : Report) : s.Fallen (v.setFlag r) := by
  rw [State.setFlag_eq]
  exact ⟨h.time, h.pg, h.episode, h.sup, h.markers, h.ports, h.mem, h.restore, h.free, h.done, h.dwell, h.lost⟩

theorem State.closeEpoch_none {s : State} (h : s.openEpoch = none) (c : EndCause) : s.closeEpoch c = s := by
  rw [State.closeEpoch, h]
  rfl

theorem State.closeEpoch_some {s : State} {e : EpochRec} (h : s.openEpoch = some e) (c : EndCause) :
    s.closeEpoch c = { s with
      sup := { s.sup with
        epochs := s.sup.epochs.dropLast ++ [e.closed c s.time], bootTimer := none, holdTimer := none, ret := none,
        state := if s.sup.state = .givenUp then .givenUp else .idle },
      markers := vmap s.markers fun m => { m with spent := false } } := by
  rw [State.closeEpoch, if_pos (by rw [h]; rfl), State.closeRecord_some h]
  rfl

theorem Port.gateBegin_eq (p : Port) : p.gateBegin =
    if p.enabled = true ∧ p.cfg.gating = true
    then { p with
      ivCount := 0, ivMin := 65535, counting := false, cwCount := 0, cwErrors := 0,
      sending := match p.sending with
        | some (.brk _) => none
        | x => x }
    else p := by
  by_cases h : p.enabled = true ∧ p.cfg.gating = true
  · rw [if_pos h]
    refine (if_pos (Bool.and_eq_true_iff.2 h)).trans ?_
    obtain ⟨p0, p1, p2, p3, p4, p5, p6, p7, p8, p9, x, p11⟩ := p
    rcases x with _ | x | x | x <;> rfl
  · rw [if_neg h]
    exact if_neg fun hc => h (Bool.and_eq_true_iff.1 hc)

/-- What a fall brings beside the sequencer: the epoch's close, the ports gated, the port disconnected (R10, R152). -/
theorem State.fallClose_eq (c : EndCause) (v : State) : ∃ u, v.fallClose c = { v with
      sup := (v.closeEpoch c).sup, markers := (v.closeEpoch c).markers,
      ports := vmap v.ports Port.gateBegin, usb := u } ∧
    (v.power.pg.level = false → u.connected = false) := by
  have hclose : v.closeEpoch c = { v with sup := (v.closeEpoch c).sup, markers := (v.closeEpoch c).markers } := by
    cases h : v.openEpoch with
    | none => rw [State.closeEpoch_none h]
    | some e => rw [State.closeEpoch_some h]
  have hcon (hpg : v.power.pg.level = false) : (State.gateAll (v.closeEpoch c)).shouldConnect = false := by
    rw [hclose, State.shouldConnect, State.pgHigh, State.gateAll]
    dsimp only
    rw [hpg]
    rfl
  generalize (v.closeEpoch c).sup = u at hclose ⊢
  generalize (v.closeEpoch c).markers = m at hclose ⊢
  rw [State.fallClose, State.updateConnection_eq]
  rw [hclose] at hcon ⊢
  exact ⟨_, rfl, fun hpg => (ServerPort.followed_connected _ _).trans (hcon hpg)⟩

/-- The end cause of the epoch a fall closes (R152). -/
theorem fallCause_of {a : ActionRec} :
    (a.phase = some .pressSoft ∨ a.phase = some .waitDown ∨ a.phase = some .force →
      fallCause a.phase = .powerOffAction) ∧
    (a.phase = some .resetPulse ∨ a.phase = some .diagPulse → fallCause a.phase = .powerLost) := by
  constructor
  · rintro (h | h | h) <;> rw [h] <;> rfl
  · rintro (h | h) <;> rw [h] <;> rfl

theorem State.phase_of_free {s : State} (h : s.action = none) : s.phase = none := by
  rw [State.phase]
  cases hl : s.power.last with
  | none => rfl
  | some a =>
    by_contra hne
    rw [State.action_iff.2 ⟨hl, hne⟩] at h
    cases h

/-- Settles O54. -/
theorem powerFallsCloseTheEpoch : Obligations.PowerFallsCloseTheEpoch := by
  intro s d hs hpin hlevel hreach
  have hexec : exec .pgFall s = .next (State.fall { s with time := d }) :=
    congrArg Host.Outcome.next (State.pgEdge_due hreach hs hpin (by rw [hlevel]; decide) _)
  have hedge : (State.takeEdge .pg { s with time := d }).modPower (fun p => { p with episode := false }) = { s with
      time := d,
      power := { s.power with pg := { pin := false, level := false, settling := none }, episode := false } } := by
    rw [State.takeEdge_pg (s := { s with time := d }) hpin]
    rfl
  have hf := State.endAtFall_fallen (s := { s with
      time := d,
      power := { s.power with pg := { pin := false, level := false, settling := none }, episode := false } }) rfl
  have hv := hf.setFlag .power
  have hflag : Report.power ∈ (State.setFlag .power (State.endAtFall { s with
      time := d,
      power := { s.power with pg := { pin := false, level := false, settling := none }, episode := false } })).link.flags :=
    (State.mem_setFlag _ _ _).2 (.inl rfl)
  rw [hexec, State.fall, State.fallAction, hedge]
  generalize State.setFlag .power (State.endAtFall _) = v at hv hflag
  obtain ⟨u, hclose, hcon⟩ := v.fallClose_eq (fallCause s.phase)
  have hlow : v.power.pg.level = false := by rw [hv.pg]
  have hsup : v.sup = s.sup := hv.sup
  have hopen : v.openEpoch = s.openEpoch := State.openEpoch_congr (congrArg Supervisor.epochs hsup)
  have hnone (h : s.openEpoch = none) : v.closeEpoch (fallCause s.phase) = v :=
    State.closeEpoch_none (hopen.trans h) _
  have hsome {e : EpochRec} (h : s.openEpoch = some e) := State.closeEpoch_some (hopen.trans h) (fallCause s.phase)
  have hcause {e : EpochRec} (h : s.openEpoch = some e) :
      ((v.closeEpoch (fallCause s.phase)).sup.epochs.getLast?.bind (·.endCause)) = some (fallCause s.phase) := by
    rw [hsome h]
    dsimp only
    rw [List.getLast?_concat]
    rfl
  have hphase {a : ActionRec} (ha : s.power.last = some a) : s.phase = a.phase := by
    rw [State.phase, ha]
    rfl
  refine ⟨_, congrArg Host.Outcome.next hclose, hv.time, hv.pg, hv.episode, ?_, hflag, hcon hlow, hv.mem, hv.restore,
    fun i => ?_, fun h => ?_, fun e h => ⟨⟨fallCause s.phase, ?_⟩, ?_, fun m => ?_⟩, fun h => ?_,
    fun a ha => ⟨fun hp => ?_, fun hp hk => ?_, fun hp => ?_⟩⟩
  · rw [State.openEpoch]
    dsimp only
    cases h : s.openEpoch with
    | none =>
      rw [hnone h]
      exact hopen.trans h
    | some e =>
      rw [hsome h]
      dsimp only
      rw [List.getLast?_concat]
      rfl
  · refine (vmap_getElem _ _ _ _).trans ?_
    rw [Port.gateBegin_eq, hv.ports]
    rfl
  · dsimp only
    rw [hnone h]
    exact ⟨hsup, hv.markers⟩
  · dsimp only
    rw [hsome h, List.getLast?_concat, EpochRec.closed, hv.time]
  · dsimp only
    rw [hsome h, hsup]
  · dsimp only
    rw [hsome h]
    refine (vmap_getElem _ _ _ _).trans ?_
    rw [hv.markers]
    rfl
  · obtain ⟨hlast, hfault⟩ := hv.free h
    refine ⟨hlast, hfault, fun e he => (hcause he).trans ?_⟩
    rw [State.phase_of_free h]
    rfl
  · have hact : s.action = some a := by
      rcases hp with hp | hp | ⟨hp, -⟩ <;> exact State.action_of_phase ha hp
    obtain ⟨hlast, hfault⟩ := hv.done a hact hp
    refine ⟨hlast, hfault, fun e he => (hcause he).trans (congrArg some ?_)⟩
    rw [hphase ha]
    exact fallCause_of.1 (by rcases hp with hp | hp | ⟨hp, -⟩ <;> simp [hp])
  · obtain ⟨hlast, hfault⟩ := hv.dwell a (State.action_of_phase ha hp) hp hk
    refine ⟨hlast, hfault, fun e he => (hcause he).trans (congrArg some ?_)⟩
    rw [hphase ha]
    exact fallCause_of.1 (.inr (.inr hp))
  · have hact : s.action = some a := by
      rcases hp with hp | hp <;> exact State.action_of_phase ha hp
    obtain ⟨hlast, hfault⟩ := hv.lost a hact hp
    refine ⟨hlast, hfault, fun e he => (hcause he).trans (congrArg some ?_)⟩
    rw [hphase ha]
    exact fallCause_of.2 hp

end Sys2Proof.Machine
end

/-! # Placing and pinning lines: MED_PUT, MED_PIN, MED_UNPIN (R90 to R99, R114) -/

section

namespace Sys2Proof.Machine

/-! ## The status byte shifted out: operations on lines and fetches do not see it -/

theorem State.setOwner_shifted (p : Fin 128) (o : Owner) (b : Byte) (s : State) :
    State.setOwner p o { s with link := { s.link with statusOut := b } } =
      { s.setOwner p o with link := { s.link with statusOut := b } } := rfl

theorem State.allocate_shifted {tag : Nat} {s u : State} (b : Byte) (h : s.allocate tag = some u) :
    State.allocate tag { s with link := { s.link with statusOut := b } } =
      some { u with link := { u.link with statusOut := b } } := by
  obtain ⟨p, v, hv, rfl⟩ := State.allocate_cases h
  have hsupply : State.supplyLine { s with link := { s.link with statusOut := b } } =
      some (p, { v with link := { v.link with statusOut := b } }) := by
    rw [State.supplyLine] at hv ⊢
    rw [show State.lowestFree { s with link := { s.link with statusOut := b } } = s.lowestFree from rfl,
      show State.victim { s with link := { s.link with statusOut := b } } = s.victim from rfl]
    cases hf : s.lowestFree with
    | some q =>
      rw [hf] at hv
      cases hv
      rfl
    | none =>
      rw [hf] at hv
      cases hl : s.victim with
      | some l =>
        rw [hl] at hv
        cases hv
        rfl
      | none =>
        rw [hl] at hv
        cases hv
  rw [State.allocate, hsupply]

theorem State.writeSlot_some {lba : Nat} {l : CacheLine} {s : State} (h : s.line (tagOf lba) = some l)
    (data : List Byte) : s.writeSlot lba data = { s with
      mem := writeBytes s.mem (slotAddr l lba) data,
      rows := soundRows s.rows (rowOf l.page (8 * (lba % 8))) 8 } := by
  rw [State.writeSlot, h]

theorem State.writeSlot_none {lba : Nat} {s : State} (h : s.line (tagOf lba) = none) (data : List Byte) :
    s.writeSlot lba data = s := by
  rw [State.writeSlot, h]

theorem State.writeSlot_shifted (lba : Nat) (data : List Byte) (b : Byte) (s : State) :
    State.writeSlot lba data { s with link := { s.link with statusOut := b } } =
      { s.writeSlot lba data with link := { (s.writeSlot lba data).link with statusOut := b } } := by
  cases h : s.line (tagOf lba) with
  | none =>
    rw [State.writeSlot_none h]
    exact State.writeSlot_none (s := { s with link := { s.link with statusOut := b } }) h data
  | some l =>
    rw [State.writeSlot_some h]
    exact State.writeSlot_some (s := { s with link := { s.link with statusOut := b } }) h data

theorem State.settleRunBlock_shifted (i : Fin 8) (r : FetchRec) (k : Nat) (x : RunBlock) (b : Byte) (s : State) :
    State.settleRunBlock i r k x { s with link := { s.link with statusOut := b } } =
      { s.settleRunBlock i r k x with link := { (s.settleRunBlock i r k x).link with statusOut := b } } := by
  rw [State.settleRunBlock, State.settleRunBlock]
  dsimp only
  by_cases h : ({ r with blocks := r.blocks.set k x } : FetchRec).awaited = 0
  · rw [if_pos h, if_pos h]
    rfl
  · rw [if_neg h, if_neg h]

theorem State.releaseAwait_some {lba : Nat} {s : State} {i : Fin 8} {r : FetchRec} (h : s.awaiter lba = some i)
    (hr : s.fetch[i].live = some r) : s.releaseAwait lba = s.settleRunBlock i r (lba - r.lba 0) .released := by
  rw [State.releaseAwait, h]
  dsimp only
  rw [hr]

theorem State.releaseAwait_none {lba : Nat} {s : State}
    (h : s.awaiter lba = none ∨ ∃ i, s.awaiter lba = some i ∧ s.fetch[i].live = none) : s.releaseAwait lba = s := by
  rw [State.releaseAwait]
  rcases h with h | ⟨i, h, hr⟩
  · rw [h]
  · rw [h]
    dsimp only
    rw [hr]

theorem State.releaseAwait_shifted (lba : Nat) (b : Byte) (s : State) :
    State.releaseAwait lba { s with link := { s.link with statusOut := b } } =
      { s.releaseAwait lba with link := { (s.releaseAwait lba).link with statusOut := b } } := by
  cases h : s.awaiter lba with
  | none =>
    rw [State.releaseAwait_none (.inl h)]
    exact State.releaseAwait_none (s := { s with link := { s.link with statusOut := b } }) (.inl h)
  | some i =>
    cases hr : s.fetch[i].live with
    | none =>
      rw [State.releaseAwait_none (.inr ⟨i, h, hr⟩)]
      exact State.releaseAwait_none (s := { s with link := { s.link with statusOut := b } }) (.inr ⟨i, h, hr⟩)
    | some r =>
      rw [State.releaseAwait_some h hr]
      exact (State.releaseAwait_some (s := { s with link := { s.link with statusOut := b } }) h hr).trans
        (State.settleRunBlock_shifted _ _ _ _ _ _)

theorem State.place_shifted (lba : Nat) (data : List Byte) (b : Byte) (s : State) :
    State.place lba data { s with link := { s.link with statusOut := b } } =
      { s.place lba data with link := { (s.place lba data).link with statusOut := b } } := by
  rw [State.place, State.place, State.writeSlot_shifted]
  by_cases h : s.block lba = .pending
  · refine (if_pos h).trans ?_
    rw [if_pos h]
    exact State.releaseAwait_shifted lba b ((s.writeSlot lba data).setBlock lba .valid)
  · refine (if_neg h).trans ?_
    rw [if_neg h]
    rfl

theorem State.releaseIfEmpty_shifted (tag : Nat) (b : Byte) (s : State) :
    State.releaseIfEmpty tag { s with link := { s.link with statusOut := b } } =
      { s.releaseIfEmpty tag with link := { (s.releaseIfEmpty tag).link with statusOut := b } } := by
  rw [State.releaseIfEmpty, State.releaseIfEmpty,
    show State.line tag { s with link := { s.link with statusOut := b } } = s.line tag from rfl]
  cases s.line tag with
  | none => rfl
  | some l =>
    dsimp only
    split <;> rfl

/-! ## MED_PUT (R99) -/

/-- The line an allocation makes (R94). -/
theorem State.allocate_line {tag : Nat} {s u : State} (hn : s.line tag = none) (h : s.allocate tag = some u) :
    ∃ p, u.line tag = some (newLine tag p) := by
  have hnew (c : List CacheLine) (p : Fin 128) (hc : c.find? (fun l => l.tag == tag) = none) :
      (c ++ [newLine tag p]).find? (fun l => l.tag == tag) = some (newLine tag p) := by
    rw [List.find?_append, hc, List.find?_cons_of_pos (by exact beq_self_eq_true tag)]
    rfl
  rcases allocate_cases' h with ⟨p, -, rfl⟩ | ⟨l, -, -, rfl⟩
  · exact ⟨p, hnew _ _ hn⟩
  · refine ⟨l.page, hnew _ _ ?_⟩
    rw [find_filter_ne]
    split
    · rfl
    · exact hn

/-- The line of a MED_PUT that is placed is present. -/
theorem State.lineForPut_line {s u : State} {lba : Nat}
    (h : s.line (lba / 8) ≠ none ∧ u = s ∨ s.line (lba / 8) = none ∧ s.allocate (lba / 8) = some u) :
    ∃ l, u.line (tagOf lba) = some l := by
  rcases h with ⟨hl, rfl⟩ | ⟨hl, ha⟩
  · exact Option.ne_none_iff_exists'.1 hl
  · obtain ⟨p, hp⟩ := State.allocate_line hl ha
    exact ⟨_, hp⟩

theorem State.lineForPut_eq {s u : State} {lba : Nat}
    (h : s.line (lba / 8) ≠ none ∧ u = s ∨ s.line (lba / 8) = none ∧ s.allocate (lba / 8) = some u) (b : Byte) :
    State.lineForPut lba { s with link := { s.link with statusOut := b } } =
      some { u with link := { u.link with statusOut := b } } := by
  rw [State.lineForPut, show State.line (tagOf lba) { s with link := { s.link with statusOut := b } } =
    s.line (lba / 8) from rfl]
  rcases h with ⟨hl, rfl⟩ | ⟨hl, ha⟩
  · exact if_pos (Option.isSome_iff_ne_none.2 hl)
  · rw [hl]
    exact State.allocate_shifted b ha

theorem State.line_writeSlot (lba t : Nat) (data : List Byte) (s : State) :
    (s.writeSlot lba data).line t = s.line t := by
  rw [State.writeSlot_frame]
  rfl

theorem State.block_writeSlot (lba b : Nat) (data : List Byte) (s : State) :
    (s.writeSlot lba data).block b = s.block b := by
  rw [State.writeSlot_frame]
  rfl

/-- The frame of a placed block: beside the fetch that awaited it and the link, its own slot and state alone. -/
theorem State.place_frame (lba : Nat) (data : List Byte) (s : State) : ∃ f l,
    s.place lba data = { (s.writeSlot lba data).setBlock lba .valid with fetch := f, link := l } := by
  rw [State.place]
  dsimp only
  split
  · exact State.releaseAwait_frame _ _
  · exact ⟨s.fetch, s.link, by rw [State.writeSlot_frame]; rfl⟩

theorem State.place_block {lba : Nat} {l : CacheLine} {s : State} (hl : s.line (tagOf lba) = some l)
    (data : List Byte) (b : Nat) : (s.place lba data).block b = if b = lba then .valid else s.block b := by
  obtain ⟨f, k, hp⟩ := s.place_frame lba data
  have hsome : ((s.writeSlot lba data).line (tagOf lba)).isSome = true := by rw [State.line_writeSlot, hl]; rfl
  rw [hp]
  refine (State.block_congr (s := (s.writeSlot lba data).setBlock lba .valid) rfl b).trans ?_
  rw [State.block_setBlock, hsome, State.block_writeSlot]
  simp only [and_true]

/-- A block's bytes depend on memory and on the page of its line. -/
theorem State.blockData_congr {s t : State} {b : Nat} (hm : t.mem = s.mem)
    (hp : (t.line (tagOf b)).map (·.page) = (s.line (tagOf b)).map (·.page)) : t.blockData b = s.blockData b := by
  rw [State.blockData, State.blockData]
  cases hs : s.line (tagOf b) with
  | none =>
    rw [hs] at hp
    rw [Option.map_eq_none_iff.1 hp]
  | some l =>
    rw [hs] at hp
    obtain ⟨l', ht, hpage⟩ := Option.map_eq_some_iff.1 hp
    rw [ht]
    dsimp only
    rw [slotAddr, slotAddr, hpage, hm]

theorem State.blockData_setBlock (lba b : Nat) (x : BlockState) (s : State) :
    (s.setBlock lba x).blockData b = s.blockData b :=
  State.blockData_congr rfl (State.page_setBlock lba (tagOf b) x s)

theorem State.place_blockData {lba : Nat} {l : CacheLine} {s : State} (hl : s.line (tagOf lba) = some l)
    {data : List Byte} (hd : data.length = 512) : (s.place lba data).blockData lba = data := by
  obtain ⟨f, k, hp⟩ := s.place_frame lba data
  rw [hp]
  refine (State.blockData_congr (s := (s.writeSlot lba data).setBlock lba .valid) rfl rfl).trans ?_
  rw [State.blockData_setBlock]
  exact State.blockData_writeSlot hd (by rw [hl]; rfl)

theorem State.place_mem {lba : Nat} {l : CacheLine} {s : State} (hl : s.line (tagOf lba) = some l)
    (data : List Byte) : (s.place lba data).mem = writeBytes s.mem (slotAddr l lba) data := by
  obtain ⟨f, k, hp⟩ := s.place_frame lba data
  rw [hp, State.writeSlot_some hl]
  rfl

theorem State.placeable_iff (s : State) :
    s.placeable = true ↔ s.media.state = .attached ∨ s.media.state = .presented := by
  rw [State.placeable, Bool.or_eq_true, decide_eq_true_eq, decide_eq_true_eq]

theorem parsePut_num {lba : Nat} (h : lba < 2 ^ 32) {data : List Byte} (hd : data.length = 512) :
    parsePut (num 4 lba ++ data) = some (lba, data) := by
  rw [parsePut, parseBlock, if_pos (by rw [List.length_append, num_length, hd])]
  rw [Option.map_some, List.take_left' (num_length 4 lba), List.drop_left' (num_length 4 lba), leNat_num 4 lba h]

section
variable {s : State} {lba : Nat} {data : List Byte}

theorem medPut_wrongState (h : s.placeable = false) : medPut (lba, data) s = (s, .wrongState, []) :=
  if_neg (Bool.eq_false_iff.1 h)

variable (h : s.placeable = true)
include h

theorem medPut_noExtent (he : s.dataExtent lba = none) : medPut (lba, data) s = (s, .badField, []) :=
  (if_pos h).trans (if_pos (by rw [he]; rfl))

theorem medPut_dirty (he : s.dataExtent lba ≠ none) (hb : (s.block lba).isUnclean = true) :
    medPut (lba, data) s = (s, .dirty, []) :=
  (if_pos h).trans ((if_neg (by simpa using he)).trans (if_pos hb))

theorem medPut_checked (he : s.dataExtent lba ≠ none) (hb : (s.block lba).isUnclean = false) :
    medPut (lba, data) s = match s.lineForPut lba with
      | none => alone .noSpace s
      | some s' => (s'.place lba data, .ok, num 4 lba ++ num 1 (blockStateCode (s.block lba)) ++
          num 1 (blockStateCode ((s'.place lba data).block lba)) ++ flag (s.line (tagOf lba)).isNone) := by
  refine (if_pos h).trans ((if_neg (by simpa using he)).trans ((if_neg (Bool.eq_false_iff.1 hb)).trans ?_))
  cases s.lineForPut lba <;> rfl

theorem medPut_noSpace (he : s.dataExtent lba ≠ none) (hb : (s.block lba).isUnclean = false)
    (hl : s.lineForPut lba = none) : medPut (lba, data) s = (s, .noSpace, []) := by
  rw [medPut_checked h he hb, hl]
  rfl

theorem medPut_placed {u : State} (he : s.dataExtent lba ≠ none) (hb : (s.block lba).isUnclean = false)
    (hl : s.lineForPut lba = some u) (hv : (u.place lba data).block lba = .valid) :
    medPut (lba, data) s = (u.place lba data, .ok,
      num 4 lba ++ num 1 (blockStateCode (s.block lba)) ++ [2] ++
        [if s.line (lba / 8) = none then 1 else 0]) := by
  rw [medPut_checked h he hb, hl]
  dsimp only
  rw [hv]
  cases s.line (lba / 8) <;> rfl

end

/-- Settles O38. -/
theorem putPlacesABlock : Obligations.PutPlacesABlock := by
  intro s tag lba data hr hlba hd
  have hexec : exec (.medPut tag (num 4 lba ++ data)) s =
      .next (State.settle s (s.request 0x38 tag (some (lba, data)) medPut)) := by
    rw [← parsePut_num hlba hd]
    rfl
  have hrefused {st : Status} (h : medPut (lba, data) s.shiftStatus = (s.shiftStatus, st, [])) :
      exec (.medPut tag (num 4 lba ++ data)) s = .next (s.answered 0x38 tag st [] s) := by
    rw [hexec, State.request_unchanged hr _ _ h, State.settle_answered]
  refine ⟨fun ha hp => hrefused (medPut_wrongState (s := s.shiftStatus) ?_), fun hs => ?_⟩
  · rw [Bool.eq_false_iff, Ne, State.placeable_iff]
    rintro (h | h)
    · exact ha h
    · exact hp h
  · have hplace : s.shiftStatus.placeable = true := (State.placeable_iff _).2 hs
    refine ⟨fun he => hrefused (medPut_noExtent hplace he), fun he hb => hrefused (medPut_dirty hplace he hb),
      fun he hl hfree hvictim => hrefused (medPut_noSpace hplace he ?_ ?_), fun u he hb hu => ?_⟩
    · rw [State.block, show s.shiftStatus.line (tagOf lba) = none from hl]
      rfl
    · refine (if_neg (by rw [show s.shiftStatus.line (tagOf lba) = none from hl]; simp)).trans ?_
      exact State.allocate_none.2 ⟨hfree, hvictim⟩
    · obtain ⟨l, hl⟩ := State.lineForPut_line hu
      have hmem : u.mem = s.mem := by
        rcases hu with ⟨-, rfl⟩ | ⟨-, ha⟩
        · rfl
        · rw [State.allocate_frame ha]
      refine ⟨?_, ?_, State.place_blockData hl hd, fun b hb => ?_, fun l' hl' a ha => ?_⟩
      · rw [hexec]
        refine congrArg (fun t => Host.Outcome.next (State.settle s t)) (State.request_answered (t :=
          State.place lba data { u with link := { u.link with statusOut := s.statusByte } }) hr _ _ ?_ ?_)
        · refine medPut_placed hplace he hb (State.lineForPut_eq hu s.statusByte) ?_
          exact (State.place_block (s := { u with link := { u.link with statusOut := s.statusByte } }) (l := l) hl
            data lba).trans (if_pos rfl)
        · exact State.place_shifted lba data s.statusByte u
      · rw [State.place_block hl, if_pos rfl]
      · rw [State.place_block hl, if_neg hb]
      · obtain rfl : l = l' := Option.some.inj (hl.symm.trans hl')
        rw [State.place_mem hl, readByte_writeBytes, if_neg, hmem]
        rw [slotAddr, pageAddr, hd]
        have hpage : pageBytes = 4096 := rfl
        have hblock : blockBytes = 512 := rfl
        rw [hpage, hblock]
        omega

/-! ## MED_PIN and MED_UNPIN (R97, R98) -/

/-- A line's weight in a class count: 0 where it is counted already. -/
theorem notYet_eq (counted : CacheLine → Bool) (l : Option CacheLine) :
    notYet counted l = if l.any counted = true then 0 else 1 := by
  cases l <;> rfl

theorem State.pinTest_iff {s : State} {t : Nat} (h : ∀ l, s.line t = some l → l.pinned = false) :
    s.pinTest t = true ↔ s.pinnedCount + 1 ≤ 8 ∧
      s.dirtyOrPinnedCount + (if (s.line t).any (·.dirtyOrPinned) = true then 0 else 1) + 4 ≤ s.floor ∧
      s.heldCount + (if (s.line t).any (·.held) = true then 0 else 1) ≤ s.floor := by
  have hpin : notYet (·.pinned) (s.line t) = 1 := by
    cases hl : s.line t with
    | none => rfl
    | some l =>
      rw [notYet, h l hl]
      rfl
  rw [State.pinTest, hpin, notYet_eq, notYet_eq, Bool.and_eq_true, Bool.and_eq_true, decide_eq_true_eq,
    decide_eq_true_eq, decide_eq_true_eq, and_assoc]

section
variable {s : State} {t : Nat}

theorem medPin_wrongState (h : s.placeable = false) : medPin t s = (s, .wrongState, []) :=
  if_neg (Bool.eq_false_iff.1 h)

variable (h : s.placeable = true)
include h

theorem medPin_beyond {n : Nat} (hn : s.media.capacity = some n) (ht : (n - 1) / 8 < t) :
    medPin t s = (s, .badField, []) := by
  refine (if_pos h).trans (if_pos ?_)
  rw [hn]
  exact ht

/-- The checks of R97 after the tag's. -/
theorem medPin_checked {n : Nat} (hn : s.media.capacity = some n) (ht : t ≤ (n - 1) / 8) :
    medPin t s = match s.line t with
      | some l =>
        if l.pinned then pinReply t false true s
        else if s.pinTest t then pinReply t false false (s.setPin t true) else alone .noSpace s
      | none =>
        if s.pinTest t then
          match s.allocate t with
          | some s' => pinReply t true false (s'.setPin t true)
          | none => alone .noSpace s
        else alone .noSpace s := by
  refine (if_pos h).trans ((if_neg ?_).trans ?_)
  · rw [hn]
    exact Nat.not_lt.2 ht
  · cases s.line t with
    | some l => rfl
    | none => cases s.pinTest t <;> cases s.allocate t <;> rfl

theorem medPin_already {n : Nat} (hn : s.media.capacity = some n) (ht : t ≤ (n - 1) / 8) {l : CacheLine}
    (hl : s.line t = some l) (hp : l.pinned = true) : medPin t s = pinReply t false true s := by
  rw [medPin_checked h hn ht, hl]
  exact if_pos hp

theorem medPin_refused {n : Nat} (hn : s.media.capacity = some n) (ht : t ≤ (n - 1) / 8)
    (hp : ∀ l, s.line t = some l → l.pinned = false)
    (hno : s.pinTest t = false ∨ (s.line t = none ∧ s.allocate t = none)) : medPin t s = (s, .noSpace, []) := by
  rw [medPin_checked h hn ht]
  cases hl : s.line t with
  | some l =>
    refine (if_neg (Bool.eq_false_iff.1 (hp l hl))).trans ?_
    rcases hno with hno | ⟨hnone, -⟩
    · exact if_neg (Bool.eq_false_iff.1 hno)
    · rw [hl] at hnone; cases hnone
  | none =>
    dsimp only
    split
    · rcases hno with hno | ⟨-, ha⟩
      · next hyes => rw [hno] at hyes; cases hyes
      · rw [ha]
        rfl
    · rfl

theorem medPin_pinned {n : Nat} (hn : s.media.capacity = some n) (ht : t ≤ (n - 1) / 8)
    (hp : ∀ l, s.line t = some l → l.pinned = false) (htest : s.pinTest t = true) {u : State}
    (hu : s.line t ≠ none ∧ u = s ∨ s.line t = none ∧ s.allocate t = some u) :
    medPin t s = pinReply t (decide (s.line t = none)) false (u.setPin t true) := by
  rw [medPin_checked h hn ht]
  rcases hu with ⟨hl, rfl⟩ | ⟨hl, ha⟩
  · obtain ⟨l, hl⟩ := Option.ne_none_iff_exists'.1 hl
    rw [hl]
    exact (if_neg (Bool.eq_false_iff.1 (hp l hl))).trans (if_pos htest)
  · rw [hl]
    dsimp only
    rw [if_pos htest, ha]
    rfl

end

theorem medUnpin_notFound {s : State} {t : Nat} (ht : t ≤ 536870911)
    (h : ∀ l, s.line t = some l → l.pinned = false) : medUnpin t s = (s, .notFound, []) := by
  refine (if_neg (by omega)).trans ?_
  cases hl : s.line t with
  | none => rfl
  | some l => exact if_neg (Bool.eq_false_iff.1 (h l hl))

theorem medUnpin_taken {s : State} {t : Nat} (ht : t ≤ 536870911) {l : CacheLine} (hl : s.line t = some l)
    (hp : l.pinned = true) : medUnpin t s =
      ((s.setPin t false).releaseIfEmpty t, .ok, num 4 t ++ ((s.setPin t false).releaseIfEmpty t).encStates t ++
        ((s.setPin t false).releaseIfEmpty t).encCounts) := by
  refine (if_neg (by omega)).trans ?_
  rw [hl]
  exact if_pos hp

/-- Settles O39. -/
theorem pinsAreSetAndTaken : Obligations.PinsAreSetAndTaken := by
  intro s tag t hr ht32
  have hpin : exec (.medPin tag (num 4 t)) s = .next (s.request 0x39 tag (some t) medPin) := by
    rw [← fields1_num (k := 4) (n := t) ht32]
    rfl
  have hunpin : exec (.medUnpin tag (num 4 t)) s = .next (State.settle s (s.request 0x3A tag (some t) medUnpin)) := by
    rw [← fields1_num (k := 4) (n := t) ht32]
    rfl
  have hrefused {st : Status} (h : medPin t s.shiftStatus = (s.shiftStatus, st, [])) :
      exec (.medPin tag (num 4 t)) s = .next (s.answered 0x39 tag st [] s) := by
    rw [hpin, State.request_unchanged hr _ _ h]
  have hunrefused {st : Status} (h : medUnpin t s.shiftStatus = (s.shiftStatus, st, [])) :
      exec (.medUnpin tag (num 4 t)) s = .next (s.answered 0x3A tag st [] s) := by
    rw [hunpin, State.request_unchanged hr _ _ h, State.settle_answered]
  refine ⟨fun ha hp => hrefused (medPin_wrongState (s := s.shiftStatus) ?_), fun n a b hs hn ha hb => ?_,
    fun ht => hunrefused (if_pos ht), fun ht hl => hunrefused (medUnpin_notFound (s := s.shiftStatus) ht hl),
    fun l v ht hl hp hv => ?_⟩
  · rw [Bool.eq_false_iff, Ne, State.placeable_iff]
    rintro (h | h)
    · exact ha h
    · exact hp h
  · have hplace : s.shiftStatus.placeable = true := (State.placeable_iff _).2 hs
    refine ⟨fun ht => hrefused (medPin_beyond hplace hn ht), fun l ht hl hp => ?_,
      fun ht hp hno => hrefused (medPin_refused hplace hn ht hp (.inl ?_)),
      fun ht hl hno => hrefused (medPin_refused hplace hn ht (fun l h => ?_) (.inr ⟨hl, ?_⟩)),
      fun u ht hp h8 hdirty hheld hu => ⟨_, rfl, ?_⟩⟩
    · rw [hpin]
      refine congrArg _ (State.request_unchanged hr _ _ ((medPin_already hplace hn ht hl hp).trans ?_))
      rw [pinReply, List.append_assoc (num 4 t)]
      rfl
    · rw [Bool.eq_false_iff, Ne, State.pinTest_iff (s := s.shiftStatus) hp]
      rw [ha, hb] at hno
      exact hno
    · rw [show s.line t = some l from h] at hl
      cases hl
    · exact State.allocate_none.2 (State.allocate_none (s := s).1 hno)
    · have htest : s.shiftStatus.pinTest t = true := by
        rw [State.pinTest_iff (s := s.shiftStatus) hp]
        rw [ha] at hdirty
        rw [hb] at hheld
        exact ⟨h8, hdirty, hheld⟩
      have hu' : s.shiftStatus.line t ≠ none ∧
            { u with link := { u.link with statusOut := s.statusByte } } = s.shiftStatus ∨
          s.shiftStatus.line t = none ∧
            s.shiftStatus.allocate t = some { u with link := { u.link with statusOut := s.statusByte } } := by
        rcases hu with ⟨hl, rfl⟩ | ⟨hl, hal⟩
        · exact .inl ⟨hl, rfl⟩
        · exact .inr ⟨hl, State.allocate_shifted _ hal⟩
      rw [hpin]
      refine congrArg _ (State.request_answered hr _ _ ((medPin_pinned hplace hn ht hp htest hu').trans ?_) rfl)
      rw [pinReply, flag_decide, List.append_assoc (num 4 t)]
      rfl
  · rw [hunpin]
    refine congrArg (fun w => Host.Outcome.next (State.settle s w)) ?_
    subst hv
    have hshift := State.releaseIfEmpty_shifted t s.statusByte (s.setPin t false)
    have htaken := medUnpin_taken (s := s.shiftStatus) ht hl hp
    rw [show State.setPin t false s.shiftStatus = { s.setPin t false with
      link := { (s.setPin t false).link with statusOut := s.statusByte } } from rfl, hshift] at htaken
    exact State.request_answered hr _ _ htaken rfl

end Sys2Proof.Machine
end

/-! # Fills, failures and expiries of fetches (R111 to R117) -/

section

namespace Sys2Proof.Machine

/-! ## Fetch records (R111) -/

theorem State.handle_some {i : Fin 8} {gen : Byte} {s : State} {r : FetchRec} (h : s.handle i gen = some r) :
    s.fetch[i].gen = gen ∧ s.fetch[i].live = some r := by
  rw [State.handle] at h
  split at h
  · next hg => exact ⟨hg, h⟩
  · cases h

theorem State.retire_slot (i : Fin 8) (s : State) :
    (s.retire i).fetch[i] = { gen := s.fetch[i].gen + 1, live := none } := vupd_self _ _ _

/-- What an awaited block's new state makes of the count of blocks still AWAITED. -/
theorem FetchRec.awaited_set {r : FetchRec} {k : Nat} {x : RunBlock} (hx : x ≠ .awaited)
    (hk : r.blocks[k]? = some .awaited) :
    ({ r with blocks := r.blocks.set k x } : FetchRec).awaited = r.awaited - 1 ∧ 1 ≤ r.awaited := by
  obtain ⟨hlt, hget⟩ := List.getElem?_eq_some_iff.1 hk
  have hmem : RunBlock.awaited ∈ r.blocks := List.mem_of_getElem? hk
  refine ⟨?_, List.count_pos_iff.2 hmem⟩
  show (r.blocks.set k x).count .awaited = r.blocks.count .awaited - 1
  rw [List.count_set hlt, hget, if_pos (beq_self_eq_true _), if_neg (by simpa using hx), Nat.add_zero]

theorem State.settleRunBlock_last {i : Fin 8} {r : FetchRec} {k : Nat} {x : RunBlock} {s : State}
    (h : ({ r with blocks := r.blocks.set k x } : FetchRec).awaited = 0) : s.settleRunBlock i r k x = s.retire i :=
  if_pos h

theorem State.settleRunBlock_more {i : Fin 8} {r : FetchRec} {k : Nat} {x : RunBlock} {s : State}
    (h : ({ r with blocks := r.blocks.set k x } : FetchRec).awaited ≠ 0) : s.settleRunBlock i r k x = { s with
      fetch := vupd s.fetch i fun f => { f with live := some { r with blocks := r.blocks.set k x } } } := if_neg h

/-! ## MED_FILL (R115) -/

theorem slotOf_val (i : Fin 8) : slotOf i.val = some i := dif_pos i.isLt

theorem slotOf_above {n : Nat} (h : 7 < n) : slotOf n = none := dif_neg (by omega)

theorem parseFill_bytes (slot gen k : Byte) {data : List Byte} (hd : data.length = 512) :
    parseFill ([slot, gen, k] ++ data) = some (slot.toNat, gen, k.toNat, data) := by
  rw [parseFill, parseBlock, if_pos (by rw [List.length_append, hd]; rfl)]
  rfl

theorem fillReply_eq (slot gen k : Byte) (n : Nat) (retired : Bool) (st : Status) (s : State) :
    fillReply slot.toNat gen k.toNat n retired st s =
      (s, st, [slot, gen, k] ++ num 1 n ++ [if retired then 1 else 0]) := by
  rw [fillReply, num_toNat, num_toNat]
  rfl

section
variable {s : State} {i : Fin 8} {gen : Byte} (k : Nat) (data : List Byte)

theorem medFill_slot {n : Nat} (h : 7 < n) : medFill (n, gen, k, data) s = fillReply n gen k 0 false .badField s := by
  rw [medFill]
  dsimp only
  rw [slotOf_above h]

/-- The checks of R115 after the slot's. -/
theorem medFill_val : medFill (i.val, gen, k, data) s =
    if 7 < k then fillReply i.val gen k (((s.handle i gen).map (·.awaited)).getD 0) false .badField s
    else match s.handle i gen with
      | none => fillReply i.val gen k 0 false .late s
      | some r =>
        match r.blocks[k]? with
        | none => fillReply i.val gen k r.awaited false .badField s
        | some .filled => fillReply i.val gen k r.awaited false .duplicate s
        | some .released => fillReply i.val gen k r.awaited false .superseded s
        | some .awaited =>
          fillReply i.val gen k (r.awaited - 1) (decide (r.awaited = 1)) .ok (s.fill i r k data) := by
  rw [medFill]
  dsimp only
  rw [slotOf_val]
  dsimp only
  split
  · rfl
  · cases s.handle i gen with
    | none => rfl
    | some r =>
      dsimp only
      cases r.blocks[k]? with
      | none => rfl
      | some x => cases x <;> rfl

theorem medFill_late (h : s.handle i gen = none) : medFill (i.val, gen, k, data) s =
    fillReply i.val gen k 0 false (if 7 < k then .badField else .late) s := by
  rw [medFill_val, h]
  by_cases hk : 7 < k
  · rw [if_pos hk, if_pos hk]
    rfl
  · rw [if_neg hk, if_neg hk]

theorem medFill_beyond {r : FetchRec} (h : s.handle i gen = some r) (hk : 7 < k ∨ r.blocks.length ≤ k) :
    medFill (i.val, gen, k, data) s = fillReply i.val gen k r.awaited false .badField s := by
  rw [medFill_val, h]
  by_cases h7 : 7 < k
  · exact if_pos h7
  · rw [if_neg h7]
    dsimp only
    rw [List.getElem?_eq_none (hk.resolve_left h7)]

theorem medFill_block {r : FetchRec} (h : s.handle i gen = some r) (hk : k ≤ 7) {x : RunBlock} :
    r.blocks[k]? = some x → medFill (i.val, gen, k, data) s = match x with
      | .filled => fillReply i.val gen k r.awaited false .duplicate s
      | .released => fillReply i.val gen k r.awaited false .superseded s
      | .awaited =>
        fillReply i.val gen k (r.awaited - 1) (decide (r.awaited = 1)) .ok (s.fill i r k data) := by
  intro hx
  rw [medFill_val, h, if_neg (by omega)]
  dsimp only
  rw [hx]
  cases x <;> rfl

end

theorem State.fill_shifted (i : Fin 8) (r : FetchRec) (k : Nat) (data : List Byte) (b : Byte) (s : State) :
    State.fill i r k data { s with link := { s.link with statusOut := b } } =
      { s.fill i r k data with link := { (s.fill i r k data).link with statusOut := b } } := by
  rw [State.fill, State.fill, State.writeSlot_shifted]
  exact State.settleRunBlock_shifted i r k .filled b ((s.writeSlot (r.lba k) data).setBlock (r.lba k) .valid)

theorem State.fill_frame (i : Fin 8) (r : FetchRec) (k : Nat) (data : List Byte) (s : State) : ∃ f l,
    s.fill i r k data = { (s.writeSlot (r.lba k) data).setBlock (r.lba k) .valid with fetch := f, link := l } :=
  State.settleRunBlock_frame _ _ _ _ _

theorem State.fill_block {i : Fin 8} {r : FetchRec} {k : Nat} {l : CacheLine} {s : State}
    (hl : s.line (tagOf (r.lba k)) = some l) (data : List Byte) : (s.fill i r k data).block (r.lba k) = .valid := by
  obtain ⟨f, m, hf⟩ := s.fill_frame i r k data
  rw [hf]
  refine (State.block_congr (s := (s.writeSlot (r.lba k) data).setBlock (r.lba k) .valid) rfl _).trans ?_
  rw [State.block_setBlock, State.line_writeSlot, hl]
  exact if_pos ⟨rfl, rfl⟩

theorem State.fill_blockData {i : Fin 8} {r : FetchRec} {k : Nat} {l : CacheLine} {s : State}
    (hl : s.line (tagOf (r.lba k)) = some l) {data : List Byte} (hd : data.length = 512) :
    (s.fill i r k data).blockData (r.lba k) = data := by
  obtain ⟨f, m, hf⟩ := s.fill_frame i r k data
  rw [hf]
  refine (State.blockData_congr (s := (s.writeSlot (r.lba k) data).setBlock (r.lba k) .valid) rfl rfl).trans ?_
  rw [State.blockData_setBlock]
  exact State.blockData_writeSlot hd (by rw [hl]; rfl)

theorem State.filled_fetch (lba : Nat) (data : List Byte) (s : State) :
    ((s.writeSlot lba data).setBlock lba .valid).fetch = s.fetch := by
  rw [State.writeSlot_frame]
  rfl

section
variable {s : State} {i : Fin 8} {r : FetchRec} {k : Nat} (hk : r.blocks[k]? = some .awaited) (data : List Byte)
include hk

/-- The fill of the last AWAITED block retires the record (R111). -/
theorem State.fill_last (h1 : r.awaited = 1) : s.fill i r k data =
    ((s.writeSlot (r.lba k) data).setBlock (r.lba k) .valid).retire i :=
  State.settleRunBlock_last (by rw [(FetchRec.awaited_set (by decide) hk).1, h1])

theorem State.fill_more (h1 : r.awaited ≠ 1) : s.fill i r k data =
    { (s.writeSlot (r.lba k) data).setBlock (r.lba k) .valid with
      fetch := vupd s.fetch i fun f => { f with live := some { r with blocks := r.blocks.set k .filled } } } := by
  obtain ⟨hset, hpos⟩ := FetchRec.awaited_set (x := .filled) (by decide) hk
  refine (State.settleRunBlock_more (by omega)).trans ?_
  rw [State.filled_fetch]

end

/-- Settles O40. -/
theorem fillsAreCheckedInOrder : Obligations.FillsAreCheckedInOrder := by
  intro s tag slot gen k data hr hd
  have hexec : exec (.medFill tag ([slot, gen, k] ++ data)) s =
      .next (State.settle s (s.request 0x36 tag (some (slot.toNat, gen, k.toNat, data)) medFill)) := by
    rw [← parseFill_bytes slot gen k hd]
    rfl
  have hrefused {n : Nat} {st : Status} (h : medFill (slot.toNat, gen, k.toNat, data) s.shiftStatus =
        fillReply slot.toNat gen k.toNat n false st s.shiftStatus) :
      exec (.medFill tag ([slot, gen, k] ++ data)) s =
        .next (s.answered 0x36 tag st ([slot, gen, k] ++ num 1 n ++ [0]) s) := by
    rw [fillReply_eq] at h
    rw [hexec, State.request_unchanged hr _ _ h, State.settle_answered]
    rfl
  refine ⟨fun h => hrefused (medFill_slot _ _ h), fun i hi => ⟨fun h => hrefused ?_, fun r h => ?_⟩⟩
  · rw [hi]
    exact medFill_late (s := s.shiftStatus) _ _ h
  · have hh : s.shiftStatus.handle i gen = some r := h
    obtain ⟨hgen, hlive⟩ := State.handle_some h
    refine ⟨fun hk => hrefused ?_, fun hk hx => hrefused ?_, fun hk hx => hrefused ?_, fun hk hx => ⟨?_, fun l hl => ?_,
      fun h1 => ?_, fun h1 => ?_, fun j hj => ?_⟩⟩
    · rw [hi]
      exact medFill_beyond _ _ hh hk
    · rw [hi]
      exact medFill_block _ _ hh hk hx
    · rw [hi]
      exact medFill_block _ _ hh hk hx
    · have htaken : medFill (slot.toNat, gen, k.toNat, data) s.shiftStatus =
          ({ s.fill i r k.toNat data with
              link := { (s.fill i r k.toNat data).link with statusOut := s.statusByte } }, .ok,
            [slot, gen, k] ++ num 1 (r.awaited - 1) ++ [if r.awaited = 1 then 1 else 0]) := by
        rw [hi]
        refine (medFill_block _ data hh hk hx).trans ?_
        dsimp only
        rw [← hi, fillReply_eq, ← State.fill_shifted]
        simp only [decide_eq_true_eq]
        rfl
      rw [hexec]
      exact congrArg (fun t => Host.Outcome.next (State.settle s t)) (State.request_answered hr _ _ htaken rfl)
    · exact ⟨State.fill_block hl data, State.fill_blockData hl hd⟩
    · rw [State.fill_last hx data h1, State.retire_slot, State.filled_fetch, hgen]
    · rw [State.fill_more hx data h1]
      refine (vupd_self _ _ _).trans ?_
      rw [hgen]
    · by_cases h1 : r.awaited = 1
      · rw [State.fill_last hx data h1, retire_fetch_ne hj, State.filled_fetch]
      · rw [State.fill_more hx data h1]
        exact vupd_ne _ _ hj

/-! ## Failures and expiries (R116, R117, R183) -/

/-- A block made INVALID: also where its line is absent it reads so (R90). -/
theorem State.block_setInvalid (lba b : Nat) (s : State) :
    (s.setBlock lba .invalid).block b = if b = lba then .invalid else s.block b := by
  rw [State.block_setBlock]
  by_cases hb : b = lba
  · subst hb
    rw [if_pos rfl]
    split
    · rfl
    · next hl =>
      have hnone : s.line (tagOf b) = none := Option.not_isSome_iff_eq_none.1 fun hs => hl ⟨rfl, hs⟩
      rw [State.block, hnone]
  · rw [if_neg hb, if_neg fun h => hb h.1]

theorem State.block_invalidate (lbas : List Nat) : ∀ (s : State) (b : Nat),
    (s.invalidate lbas).block b = if b ∈ lbas then .invalid else s.block b := by
  induction lbas with
  | nil => exact fun s b => (if_neg List.not_mem_nil).symm
  | cons x xs ih =>
    intro s b
    refine (ih (s.setBlock x .invalid) b).trans ?_
    rw [State.block_setInvalid]
    by_cases hx : b ∈ xs <;> by_cases hb : b = x <;> simp [hx, hb]

theorem State.invalidate_shifted (lbas : List Nat) (b : Byte) : ∀ s : State,
    State.invalidate lbas { s with link := { s.link with statusOut := b } } =
      { s.invalidate lbas with link := { (s.invalidate lbas).link with statusOut := b } } := by
  induction lbas with
  | nil => exact fun _ => rfl
  | cons x xs ih => exact fun s => ih (s.setBlock x .invalid)

theorem State.lowerFailure_read {s : State} {c : ReadCmd} (h : s.usb.current = some (.read c)) (lbas : List Nat) :
    s.lowerFailure lbas = s.setCurrent (.read (failAt c lbas)) := by
  rw [State.lowerFailure, h]

theorem State.lowerFailure_other {s : State} (h : ∀ c, s.usb.current ≠ some (.read c)) (lbas : List Nat) :
    s.lowerFailure lbas = s := by
  rw [State.lowerFailure]
  split
  · next c hc => exact absurd hc (h c)
  · rfl

theorem State.lowerFailure_frame (lbas : List Nat) (s : State) : ∃ c,
    s.lowerFailure lbas = { s with usb := { s.usb with current := c } } := by
  rw [State.lowerFailure]
  split
  · exact ⟨_, rfl⟩
  · exact ⟨s.usb.current, rfl⟩

theorem State.lowerFailure_shifted (lbas : List Nat) (b : Byte) (s : State) :
    State.lowerFailure lbas { s with link := { s.link with statusOut := b } } =
      { s.lowerFailure lbas with link := { (s.lowerFailure lbas).link with statusOut := b } } := by
  rw [State.lowerFailure, State.lowerFailure]
  dsimp only
  rcases s.usb.current with _ | c | w | d <;> rfl

theorem State.failFetch_shifted (i : Fin 8) (r : FetchRec) (b : Byte) (s : State) :
    State.failFetch i r { s with link := { s.link with statusOut := b } } =
      { s.failFetch i r with link := { (s.failFetch i r).link with statusOut := b } } := by
  rw [State.failFetch, State.failFetch, State.invalidate_shifted, State.lowerFailure_shifted]
  exact State.releaseIfEmpty_shifted r.tag b (((s.invalidate r.awaitedLbas).lowerFailure r.awaitedLbas).retire i)

/-- A failed fetch: beside the lines and the page owners, the record, its notice and the failure point alone. -/
theorem State.failFetch_frame (i : Fin 8) (r : FetchRec) (s : State) : ∃ o k, s.failFetch i r = { s.retire i with
    usb := (s.lowerFailure r.awaitedLbas).usb, owners := o, cache := k } := by
  obtain ⟨k, hk⟩ := s.invalidate_frame r.awaitedLbas
  have husb : State.lowerFailure r.awaitedLbas { s with cache := k } =
      { s with cache := k, usb := (s.lowerFailure r.awaitedLbas).usb } := by
    rw [State.lowerFailure, State.lowerFailure]
    dsimp only
    rcases s.usb.current with _ | c | w | d <;> rfl
  rw [State.failFetch, hk, husb, State.releaseIfEmpty_frame]
  exact ⟨_, _, rfl⟩

theorem State.failFetch_block {r : FetchRec} {b : Nat} (hb : b ∈ r.awaitedLbas) (i : Fin 8) (s : State) :
    (s.failFetch i r).block b = .invalid := by
  rw [State.failFetch, State.block_releaseIfEmpty]
  obtain ⟨c, hc⟩ := (s.invalidate r.awaitedLbas).lowerFailure_frame r.awaitedLbas
  refine (State.block_congr (s := s.invalidate r.awaitedLbas) ?_ b).trans ?_
  · rw [hc]
    rfl
  · rw [State.block_invalidate, if_pos hb]

/-- The failure point of a waiting READ (R116): the lowest failed block of its undelivered range, or an earlier one. -/
theorem failAt_lowest {c : ReadCmd} {lbas : List Nat} {m : Nat} (hm : m ∈ lbas) (hlo : c.cursor ≤ m)
    (hhi : m < c.first + c.count) (hmin : ∀ b ∈ lbas, c.cursor ≤ b → b < c.first + c.count → m ≤ b) :
    failAt c lbas = { c with failure := match c.failure with
      | some q => some (min q m)
      | none => some m } := by
  have hfound : (lbas.filter fun b => decide (c.cursor ≤ b ∧ b < c.first + c.count)).min? = some m := by
    rw [List.min?_eq_some_iff]
    simp only [List.mem_filter, decide_eq_true_eq]
    exact ⟨⟨hm, hlo, hhi⟩, fun b hb => hmin b hb.1 hb.2.1 hb.2.2⟩
  rw [failAt, hfound]
  dsimp only
  cases c.failure with
  | none => rw [Option.getD_none, Nat.min_self]
  | some q => rw [Option.getD_some, Nat.min_comm]

/-- What a READ transaction holds once a fetch is retired (R183). -/
theorem withdraw_held (i : Fin 8) (gen : Byte) (h : Option Held) : h.map (Held.withdraw i gen) = match h with
    | some (.notice n) => if n.slot = i ∧ n.gen = gen then some .withdrawn else some (.notice n)
    | h => h := by
  rcases h with _ | n | n | n | n | n
  all_goals try rfl
  rw [Option.map_some, Held.withdraw]
  simp only [Notice.names, Bool.and_eq_true, decide_eq_true_eq]
  split <;> rfl

theorem Notice.not_names_iff (i : Fin 8) (gen : Byte) (n : Notice) :
    (!n.names i gen) = true ↔ ¬(n.slot = i ∧ n.gen = gen) := by
  rw [Notice.names, Bool.not_eq_true', ← Bool.not_eq_true, Bool.and_eq_true, decide_eq_true_eq, decide_eq_true_eq]

theorem medFillFail_late {s : State} {i : Fin 8} {gen : Byte} (h : s.handle i gen = none) :
    medFillFail (i.val, gen) s = (s, .late, []) := by
  rw [medFillFail]
  dsimp only
  rw [slotOf_val]
  dsimp only
  rw [h]
  rfl

theorem medFillFail_slot {n : Nat} (h : 7 < n) (gen : Byte) (s : State) :
    medFillFail (n, gen) s = (s, .badField, []) := by
  rw [medFillFail]
  dsimp only
  rw [slotOf_above h]
  rfl

theorem medFillFail_taken {s : State} {i : Fin 8} {gen : Byte} {r : FetchRec} (h : s.handle i gen = some r) :
    medFillFail (i.val, gen) s = (s.failFetch i r, .ok, num 1 i.val ++ [gen] ++ num 1 r.awaited) := by
  rw [medFillFail]
  dsimp only
  rw [slotOf_val]
  dsimp only
  rw [h]

/-- An expiry up to the end of its READ (R117). -/
def State.expiredRead (i : Fin 8) (r : FetchRec) (s : State) : State :=
  if s.waitedOn r then ((s.invalidate r.awaitedLbas).retire i).endCurrent .notReadyRetry
  else (s.invalidate r.awaitedLbas).retire i

theorem State.expireFetch_eq {i : Fin 8} {r : FetchRec} {s : State} (h : s.fetch[i].live = some r) :
    s.expireFetch i =
      ((s.expiredRead i r).recordFault (.fetchExpired i s.fetch[i].gen (r.lba 0))).releaseIfEmpty r.tag := by
  rw [State.expireFetch, h]
  rfl

theorem State.expiredRead_frame (i : Fin 8) (r : FetchRec) (s : State) : ∃ k c a e,
    s.expiredRead i r = { s.retire i with
      cache := k, usb := { s.usb with current := c, lastAnswer := a, sense := e } } ∧
    (s.waitedOn r = false → c = s.usb.current) ∧
    ∀ cmd, s.usb.current = some (.read cmd) → s.waitedOn r = true → c = none ∧
      e = some { kind := .read, status := .notReadyRetry, lba := cmd.cursor, count := cmd.cursor - cmd.first } := by
  obtain ⟨k, hk⟩ := s.invalidate_frame r.awaitedLbas
  rw [State.expiredRead, hk]
  cases hw : s.waitedOn r with
  | false =>
    exact ⟨k, s.usb.current, s.usb.lastAnswer, s.usb.sense, rfl, fun _ => rfl, fun _ _ h => absurd h (by decide)⟩
  | true =>
    obtain ⟨c, a, e, hend⟩ := State.endCurrent_frame .notReadyRetry (State.retire i { s with cache := k })
    refine ⟨k, c, a, e, ?_, fun h => absurd h (by decide), fun cmd hcmd _ => ?_⟩
    · refine (if_pos rfl).trans hend
    · have hread : State.endCurrent .notReadyRetry (State.retire i { s with cache := k }) =
          State.complete .read .notReadyRetry cmd.cursor (cmd.cursor - cmd.first) .none
            (State.retire i { s with cache := k }) := by
        rw [State.endCurrent]
        dsimp only [State.retire]
        rw [hcmd]
      rw [hread] at hend
      have husb := congrArg State.usb hend
      exact ⟨(congrArg ServerPort.current husb).symm, (congrArg ServerPort.sense husb).symm⟩

theorem State.expiredRead_block {r : FetchRec} {b : Nat} (hb : b ∈ r.awaitedLbas) (i : Fin 8) (s : State) :
    (s.expiredRead i r).block b = .invalid := by
  refine (State.block_congr (s := s.invalidate r.awaitedLbas) ?_ b).trans ?_
  · rw [State.expiredRead]
    obtain ⟨c, a, e, hend⟩ := State.endCurrent_frame .notReadyRetry ((s.invalidate r.awaitedLbas).retire i)
    split
    · rw [hend]
      rfl
    · rfl
  · rw [State.block_invalidate, if_pos hb]

/-- Settles O41. -/
theorem fetchesFailAndExpire : Obligations.FetchesFailAndExpire := by
  intro s i
  have hexec (tag slot gen : Byte) : exec (.medFillFail tag [slot, gen]) s =
      .next (State.settle s (s.request 0x37 tag (some (slot.toNat, gen)) medFillFail)) := rfl
  have hrefused {tag slot gen : Byte} {st : Status} (hr : s.inReady = true)
      (h : medFillFail (slot.toNat, gen) s.shiftStatus = (s.shiftStatus, st, [])) :
      exec (.medFillFail tag [slot, gen]) s = .next (s.answered 0x37 tag st [] s) := by
    rw [hexec, State.request_unchanged hr _ _ h, State.settle_answered]
  refine ⟨fun tag slot gen hr hi h => hrefused hr ?_, fun tag slot gen hr h => hrefused hr (medFillFail_slot h _ _),
    fun tag slot gen r hr hi h => ?_, fun r h hreach => ?_⟩
  · rw [hi]
    exact medFillFail_late (s := s.shiftStatus) h
  · obtain ⟨hgen, hlive⟩ := State.handle_some h
    obtain ⟨o, k, hf⟩ := s.failFetch_frame i r
    refine ⟨?_, ?_, fun b hb => State.failFetch_block hb i s, ?_, ?_, ?_, fun c m hc hm hlo hhi hmin => ?_⟩
    · have htaken := medFillFail_taken (s := s.shiftStatus) h
      rw [show s.shiftStatus.failFetch i r = _ from State.failFetch_shifted i r s.statusByte s, ← hi, num_toNat]
        at htaken
      rw [hexec]
      exact congrArg (fun t => Host.Outcome.next (State.settle s t)) (State.request_answered hr _ _ htaken rfl)
    · rw [hf, ← hgen]
      exact s.retire_slot i
    · rw [hf]
      rfl
    · rw [hf]
      rfl
    · rw [hf]
      dsimp only [State.retire]
      rw [withdraw_held, hgen]
      congr 1
    · rw [hf]
      dsimp only
      rw [State.lowerFailure_read hc, failAt_lowest hm hlo hhi hmin]
      rfl
  · have hdue : exec (.fetchExpiry i) s =
        .next (State.settle s (State.expireFetch i { s with time := r.expiry })) := by
      refine congrArg (fun t => Host.Outcome.next (State.settle s t)) ?_
      rw [h]
      exact State.atDeadline_due hreach _
    have heq := State.expireFetch_eq (s := { s with time := r.expiry }) h
    obtain ⟨k, c, a, e, hf, hother, hread⟩ := State.expiredRead_frame i r { s with time := r.expiry }
    have hblock (b : Nat) (hb : b ∈ r.awaitedLbas) : (State.expireFetch i { s with time := r.expiry }).block b =
        .invalid := by
      rw [heq, State.block_releaseIfEmpty, State.recordFault_eq]
      exact State.expiredRead_block hb i _
    have hwaits {cmd : ReadCmd} (hc : s.usb.current = some (.read cmd)) :
        State.waitedOn r { s with time := r.expiry } = waitsOn cmd r := by
      rw [State.waitedOn]
      dsimp only
      rw [hc]
    rw [heq, State.releaseIfEmpty_frame, hf, State.recordFault_eq] at hblock
    rw [hdue, heq, State.releaseIfEmpty_frame, hf, State.recordFault_eq]
    refine ⟨_, rfl, rfl, s.retire_slot i, hblock, rfl, fun n => ?_, fun n hn => ?_, rfl, fun cmd hc hw => ?_,
      fun cmd hc hw => ?_⟩
    · exact List.mem_filter.trans (and_congr_right fun _ => Notice.not_names_iff i s.fetch[i].gen n)
    · refine (withdraw_held i s.fetch[i].gen s.link.held).trans ?_
      rw [hn]
    · exact hread cmd hc ((hwaits hc).trans hw)
    · exact hother ((hwaits hc).trans hw)

end Sys2Proof.Machine
end

/-! # Scan passes and intake: the fetches of a READ, the blocks of a WRITE (R92, R106 to R108, R128, R129) -/

section

namespace Sys2Proof.Machine

/-! ## One block's run (R106, R107) -/

theorem State.block_absent {s : State} {b : Nat} (h : s.line (tagOf b) = none) : s.block b = .invalid := by
  rw [State.block, h]

/-- An allocated line's blocks are INVALID, as they read while it was absent (R90, R94). -/
theorem State.block_append {s : State} {tag : Nat} {p : Fin 128} (hn : s.line tag = none) (o : Vector Owner 128)
    (b : Nat) : State.block b { s with owners := o, cache := s.cache ++ [newLine tag p] } = s.block b := by
  rw [State.block, State.line, List.find?_append]
  by_cases ht : tagOf b = tag
  · subst ht
    rw [State.block_absent hn, show s.cache.find? (fun l => l.tag == tagOf b) = none from hn, Option.none_or,
      List.find?_cons_of_pos (by exact beq_self_eq_true _)]
    exact newLine_block _ _ _
  · rw [List.find?_cons_of_neg (by simpa [newLine] using fun h => ht h.symm), List.find?_nil, Option.or_none]
    rfl

theorem State.allocate_free {s : State} {p : Fin 128} (h : s.lowestFree = some p) (tag : Nat) :
    s.allocate tag = some { s.setOwner p .line with cache := s.cache ++ [newLine tag p] } := by
  rw [State.allocate, State.supplyLine, h]
  rfl

/-- The class test of a fetch run for an absent line (R92). -/
theorem State.fetchTest_absent {s : State} {tag : Nat} (hn : s.line tag = none) :
    s.fetchTest tag = decide (s.heldCount + 1 ≤ s.floor) := by
  rw [State.fetchTest, hn]
  rfl

theorem State.issueRun_refused {s : State} {b : Nat}
    (h : s.freeSlot = none ∨ (s.line (b / 8) = none ∧ s.floor < s.heldCount + 1)) (e : Extent) (n : Nat) :
    s.issueRun e b n = none := by
  rw [State.issueRun]
  rcases h with h | ⟨hn, hf⟩
  · rw [h]
  · cases s.freeSlot with
    | none => rfl
    | some i =>
      dsimp only
      rw [State.fetchTest_absent (tag := tagOf b) hn, if_neg (by simpa using hf)]

/-- The run's record, as its slot holds it (R111). -/
def FetchRec.ofOne (s : State) (e : Extent) (b : Nat) : FetchRec :=
  { tag := b / 8, first := b % 8, object := e.object, offset := e.base + (b - e.first), blocks := [.awaited],
    issue := s.time, expiry := s.time + BitVec.ofNat 32 s.medCfg.fetchTimeout }

section
variable {s : State} {e : Extent} {b : Nat} {i : Fin 8} {p : Fin 128} (hn : s.line (b / 8) = none)
  (hi : s.freeSlot = some i) (hp : s.lowestFree = some p) (hroom : s.heldCount + 1 ≤ s.floor)
include hn hi hp hroom

theorem State.issueRun_one : s.issueRun e b 1 = some
    { State.setBlock b .pending { s.setOwner p .line with cache := s.cache ++ [newLine (b / 8) p] } with
      fetch := vupd s.fetch i fun f => { f with live := some (FetchRec.ofOne s e b) },
      link := { s.link with notices := s.link.notices ++
        [{ slot := i, gen := s.fetch[i].gen, lba := b, count := 1, object := e.object,
           offset := e.base + (b - e.first), issue := s.time }] } } := by
  rw [State.issueRun, hi]
  dsimp only
  rw [if_pos (by rw [State.fetchTest_absent (tag := tagOf b) hn]; exact decide_eq_true hroom),
    show s.line (tagOf b) = none from hn, Option.isSome_none, if_neg (by decide), State.allocate_free hp]
  rfl

theorem State.issueRun_issuesOne {t : State} (ht : s.issueRun e b 1 = some t) (c : Option Current) :
    s.issuesOne b e i p { t with usb := { s.usb with current := c } } := by
  rw [State.issueRun_one hn hi hp hroom] at ht
  cases ht
  have hblock (x : Nat) : (State.setBlock b .pending
      { s.setOwner p .line with cache := s.cache ++ [newLine (b / 8) p] }).block x =
        if x = b then .pending else s.block x := by
    have hline : (State.line (tagOf b)
        { s.setOwner p .line with cache := s.cache ++ [newLine (b / 8) p] }).isSome = true := by
      rw [State.line, List.find?_append, List.find?_cons_of_pos (by exact beq_self_eq_true _)]
      cases s.cache.find? fun l => l.tag == tagOf b <;> rfl
    rw [State.block_setBlock, hline]
    simp only [and_true]
    split
    · rfl
    · exact State.block_append hn _ x
  have hslot : (vupd s.fetch i fun f => { f with live := some (FetchRec.ofOne s e b) })[i] =
      { s.fetch[i] with live := some (FetchRec.ofOne s e b) } := vupd_self _ _ _
  refine ⟨by dsimp only; rw [hslot], by dsimp only; rw [hslot]; rfl, fun j hj => vupd_ne _ _ hj, rfl,
    (hblock b).trans (if_pos rfl), fun x hx => (hblock x).trans (if_neg hx), vupd_self _ _ _,
    fun q hq => vupd_ne _ _ hq, rfl, rfl⟩

end

theorem growRun_stops {ok : Nat → Bool} {b : Nat} (h : ok (b + 1) = false) (n : Nat) : growRun ok n b = b := by
  cases n with
  | zero => rfl
  | succ n => rw [growRun, if_neg (Bool.eq_false_iff.1 h)]

/-- With read-ahead 0 the last block of a range makes a run of itself alone (R106). -/
theorem State.runEnd_last {s : State} {c : ReadCmd} {b : Nat} (hstop : c.stop = b + 1) (hra : s.medCfg.readAhead = 0)
    (e : Extent) : s.runEnd c e b = b := by
  have hgrow : growRun (fun n => decide (n < c.stop) && s.extends_ e n) 7 b = b :=
    growRun_stops (by rw [hstop, decide_eq_false (Nat.lt_irrefl _), Bool.false_and]) 7
  rw [State.runEnd, hgrow, hra]
  split <;> rfl

/-- A pass at a block that needs a fetch (R106, R107). -/
theorem scanFrom_needed {c : ReadCmd} {fuel b : Nat} {s : State} {e : Extent} (hb : b < c.stop)
    (he : s.dataExtent b = some e) (hinv : s.block b = .invalid) :
    scanFrom c (fuel + 1) b s = match s.issueRun e b (s.runEnd c e b + 1 - b) with
      | none => (s, .paused)
      | some s' => scanFrom c fuel (s.runEnd c e b + 1) s' := by
  rw [scanFrom, if_neg (by omega), he]
  dsimp only
  rw [if_pos hinv] <;> cases s.issueRun e b (s.runEnd c e b + 1 - b) <;> rfl

section
variable {s : State} {c : ReadCmd} {e : Extent} (hc : s.usb.current = some (.read c)) (hstop : c.cursor < c.stop)
  (he : s.dataExtent c.cursor = some e) (hinv : s.block c.cursor = .invalid)
include hc hstop he hinv

theorem State.scanPass_pauses (hno : s.issueRun e c.cursor (s.runEnd c e c.cursor + 1 - c.cursor) = none) :
    s.scanPass = s.setCurrent (.read { c with scan := .paused }) := by
  obtain ⟨n, hn⟩ : ∃ n, c.stop - c.cursor = n + 1 := ⟨c.stop - c.cursor - 1, by omega⟩
  rw [State.scanPass_read hc, hn, scanFrom_needed hstop he hinv, hno]

/-- A pass over one last block, that is issued, completes (R106, R108). -/
theorem State.scanPass_completes (hlast : c.stop = c.cursor + 1) (hra : s.medCfg.readAhead = 0) {t : State}
    (ht : s.issueRun e c.cursor 1 = some t) : s.scanPass = t.setCurrent (.read { c with scan := .complete }) := by
  have hone : c.cursor + 1 - c.cursor = 1 := by omega
  rw [State.scanPass_read hc, hlast, hone, scanFrom_needed (fuel := 0) hstop he hinv, State.runEnd_last hlast hra, hone,
    ht]
  rfl

end

theorem State.scanPass_issuesOne {s : State} {c : ReadCmd} {e : Extent} {i : Fin 8} {p : Fin 128}
    (hc : s.usb.current = some (.read c)) (hlast : c.stop = c.cursor + 1) (he : s.dataExtent c.cursor = some e)
    (hn : s.line (c.cursor / 8) = none) (hi : s.freeSlot = some i) (hp : s.lowestFree = some p)
    (hroom : s.heldCount + 1 ≤ s.floor) (hra : s.medCfg.readAhead = 0) :
    s.issuesOne c.cursor e i p s.scanPass ∧ s.scanPass.usb.current = some (.read { c with scan := .complete }) := by
  have ht := State.issueRun_one (e := e) hn hi hp hroom
  have hpass := State.scanPass_completes hc (by omega) he (State.block_absent hn) hlast hra ht
  rw [hpass]
  exact ⟨State.issueRun_issuesOne hn hi hp hroom ht _, rfl⟩

/-! ## The retry (R108, R129) -/

theorem lineFreed_iff (x y : Option CacheLine) : lineFreed x y = true ↔ ∃ a b, x = some a ∧ y = some b ∧
    ((a.held = true ∧ b.held = false) ∨ (a.dirtyOrPinned = true ∧ b.dirtyOrPinned = false)) := by
  cases x <;> cases y <;> simp [lineFreed]

theorem State.noticed_iff (before s : State) : State.noticed before s = true ↔
    (∃ p : Fin 128, s.owners[p] = .free ∧ before.owners[p] ≠ .free) ∨
    (∃ l ∈ before.cache, ∃ x y, before.line l.tag = some x ∧ s.line l.tag = some y ∧
      ((x.held = true ∧ y.held = false) ∨ (x.dirtyOrPinned = true ∧ y.dirtyOrPinned = false))) ∨
    before.floor < s.floor ∨ ∃ i : Fin 8, before.fetch[i].live ≠ none ∧ s.fetch[i].live = none := by
  rw [State.noticed]
  simp only [Bool.or_eq_true, List.any_eq_true, Bool.and_eq_true, decide_eq_true_eq, lineFreed_iff, or_assoc,
    List.mem_finRange, true_and, Option.isSome_iff_ne_none, Option.isNone_iff_eq_none]

theorem State.settle_quiet {before s : State} (h : State.noticed before s = false) : State.settle before s = s :=
  if_neg (Bool.eq_false_iff.1 h)

theorem State.settle_noticed {before s : State} (h : State.noticed before s = true) :
    State.settle before s = s.retry := if_pos h

/-- Where the retry does nothing, a notice brings nothing. -/
theorem State.settle_of_retry {s : State} (h : s.retry = s) (before : State) : State.settle before s = s := by
  rw [State.settle, h, ite_self]

theorem State.retry_sync {s : State} {d : PartTime} (h : s.usb.current = some (.sync d)) : s.retry = s := by
  rw [State.retry, h]

theorem State.retry_read {s : State} {c : ReadCmd} (h : s.usb.current = some (.read c)) :
    s.retry = if c.scan = .paused then s.scanPass else s := by
  rw [State.retry, h]

/-- Settles O45. -/
theorem readsIssueFetches : Obligations.ReadsIssueFetches := by
  have hbegin (s : State) (a : BitVec 32) (n : Nat) (hcon : s.usb.connected = true) (hn : s.usb.current = none)
      (hs : s.media.state = .presented) (hch : s.usb.mediumChanged = false) (hpos : 0 < n) (hle : n ≤ 256)
      (hcap : a.toNat + n ≤ s.media.capacity.getD 0) : exec (.read a n) s = .next (State.beginRead a.toNat n s) := by
    refine congrArg Host.Outcome.next ?_
    rw [State.serve_taken hcon hn, State.dispatch_performed hs hch, State.rangeChecked_passed _ _ hpos hle hcap]
  refine ⟨hbegin, fun s a e i p hcon hn hs hch hcap he hl hi hp hroom hra => ?_,
    fun s a n hcon hn hs hch hpos hle hcap he hinv hno => ?_, State.noticed_iff, fun before s => ⟨fun h => ?_,
    fun c hc => ⟨fun hscan => ?_, fun hscan hnot => ?_⟩⟩, fun s c e i p hc hfail hlast he hl hi hp hroom hra => ?_⟩
  · rw [hbegin s a 1 hcon hn hs hch (by omega) (by omega) hcap]
    obtain ⟨hissue, hcur⟩ := State.scanPass_issuesOne (s := s.setCurrent (.read
      { first := a.toNat, count := 1, cursor := a.toNat, failure := none, scan := .running })) rfl rfl he hl hi hp hroom
      hra
    exact ⟨_, rfl, hissue, hcur⟩
  · rw [hbegin s a n hcon hn hs hch hpos hle hcap]
    obtain ⟨e, he⟩ := Option.ne_none_iff_exists'.1 he
    have hrefused := State.issueRun_refused (s := s.setCurrent (.read
      { first := a.toNat, count := n, cursor := a.toNat, failure := none, scan := .running })) (b := a.toNat) hno e
    refine congrArg Host.Outcome.next (State.scanPass_pauses (s := s.setCurrent (.read
      { first := a.toNat, count := n, cursor := a.toNat, failure := none, scan := .running })) rfl ?_ he hinv
      (hrefused _))
    show a.toNat < a.toNat + n
    omega
  · rcases h with h | h | ⟨d, h⟩
    · exact State.settle_quiet h
    · exact State.settle_idle h before
    · exact State.settle_of_retry (State.retry_sync h) before
  · exact State.settle_of_retry ((State.retry_read hc).trans (if_neg hscan)) before
  · exact (State.settle_noticed hnot).trans ((State.retry_read hc).trans (if_pos hscan))
  · have hstop : c.stop = c.cursor + 1 := by
      rw [ReadCmd.stop, hfail]
      exact hlast.symm
    exact State.scanPass_issuesOne hc hstop he hl hi hp hroom hra

/-! ## The line of a WRITE block (R92, R128) -/

theorem notYet_eq_zero (counted : CacheLine → Bool) (l : Option CacheLine) :
    (notYet counted l == 0) = l.any counted := by
  cases l with
  | none => rfl
  | some l =>
    rw [notYet, Option.any_some]
    cases counted l <;> rfl

theorem State.writeTest_iff (s : State) (t : Nat) : s.writeTest t = true ↔
    (s.line t).any (·.dirtyOrPinned) = true ∨
      (s.dirtyOrPinnedCount + 1 + 4 ≤ s.floor ∧
        s.heldCount + (if (s.line t).any (·.held) = true then 0 else 1) ≤ s.floor) := by
  rw [State.writeTest, notYet_eq_zero, notYet_eq, Bool.or_eq_true, Bool.and_eq_true, decide_eq_true_eq,
    decide_eq_true_eq]

theorem State.lineForWrite_iff (s u : State) (lba : Nat) : s.lineForWrite lba = some u ↔
    s.writeTest (lba / 8) = true ∧
      (s.line (lba / 8) ≠ none ∧ u = s ∨ s.line (lba / 8) = none ∧ s.allocate (lba / 8) = some u) := by
  rw [State.lineForWrite]
  by_cases ht : s.writeTest (lba / 8) = true
  · rw [if_pos ht]
    cases hl : s.line (lba / 8) with
    | none => simp [ht]
    | some l => simp [ht, eq_comm]
  · rw [if_neg ht]
    simp [ht]

/-- The line of a WRITE block is present, its block as before, and beside owners and lines nothing is new. -/
theorem State.lineForWrite_spec {s u : State} {lba : Nat} (h : s.lineForWrite lba = some u) :
    (∃ l, u.line (tagOf lba) = some l) ∧ u.block lba = s.block lba ∧ u.usb = s.usb := by
  obtain ⟨-, hu⟩ := (State.lineForWrite_iff s u lba).1 h
  refine ⟨State.lineForPut_line hu, ?_, ?_⟩
  · rcases hu with ⟨-, rfl⟩ | ⟨hn, ha⟩
    · rfl
    · obtain ⟨p, hp⟩ := State.allocate_line hn ha
      rw [State.block_absent hn, State.block, hp]
      exact newLine_block _ _ _
  · rcases hu with ⟨-, rfl⟩ | ⟨hn, ha⟩
    · rfl
    · rw [State.allocate_frame ha]

/-! ## A block taken (R128) -/

/-- A block's slot written and its state and its line's place set (R93, R128). -/
def State.written (lba : Nat) (data : List Byte) (u : State) : State :=
  ((u.writeSlot lba data).setBlock lba (writtenState (u.block lba))).touch (tagOf lba)

theorem State.touch_last {s : State} {tag : Nat} {l : CacheLine} (h : s.line tag = some l) :
    (s.touch tag).cache.getLast?.map (·.tag) = some tag := by
  rw [State.touch_eq, h, Option.map_some, Option.getD_some, List.getLast?_concat, Option.map_some, State.line_tag h]

section
variable {u : State} {lba : Nat} {l : CacheLine} (hl : u.line (tagOf lba) = some l) (data : List Byte)
include hl

theorem State.written_block (b : Nat) :
    (u.written lba data).block b = if b = lba then writtenState (u.block lba) else u.block b := by
  rw [State.written, State.block_touch, State.block_setBlock, State.line_writeSlot, hl, State.block_writeSlot]
  simp only [Option.isSome_some, and_true]

theorem State.written_last : (u.written lba data).cache.getLast?.map (·.tag) = some (tagOf lba) := by
  have hsome : ((u.writeSlot lba data).setBlock lba (writtenState (u.block lba))).line (tagOf lba) ≠ none := by
    rw [← Option.isSome_iff_ne_none, State.line_setBlock_isSome, State.line_writeSlot, hl]
    rfl
  obtain ⟨l', hl'⟩ := Option.ne_none_iff_exists'.1 hsome
  exact State.touch_last hl'

theorem State.written_blockData {data : List Byte} (hd : data.length = 512) :
    (u.written lba data).blockData lba = data := by
  refine (State.blockData_congr (s := (u.writeSlot lba data).setBlock lba (writtenState (u.block lba)))
    (by rw [State.written, State.touch_frame]) (by rw [State.written, State.line_touch])).trans ?_
  rw [State.blockData_setBlock]
  exact State.blockData_writeSlot hd (by rw [hl]; rfl)

end

theorem State.written_frame (lba : Nat) (data : List Byte) (u : State) : ∃ m r c,
    u.written lba data = { u with mem := m, rows := r, cache := c } := by
  rw [State.written, State.touch_eq, State.writeSlot_frame]
  exact ⟨_, _, _, rfl⟩

theorem State.takeBlock_none {s : State} {lba : Nat} (h : s.lineForWrite lba = none) (data : List Byte) :
    s.takeBlock lba data = none := by
  rw [State.takeBlock, h]
  rfl

theorem State.takeBlock_some {s u : State} {lba : Nat} (h : s.lineForWrite lba = some u) (data : List Byte) :
    ∃ f l, s.takeBlock lba data = some { u.written lba data with
      fetch := f, link := l,
      usb := { u.usb with
        dirty := if (u.block lba).isListed then u.usb.dirty else u.usb.dirty ++ [lba] } } := by
  obtain ⟨m, r, c, hw⟩ := u.written_frame lba data
  obtain ⟨f, l, hrel⟩ : ∃ f l, (if u.block lba = .pending then (u.written lba data).releaseAwait lba
      else u.written lba data) = { u.written lba data with fetch := f, link := l } := by
    split
    · exact State.releaseAwait_frame _ _
    · exact ⟨_, _, rfl⟩
  have htake : s.takeBlock lba data = some (if (u.block lba).isListed
      then (if u.block lba = .pending then (u.written lba data).releaseAwait lba else u.written lba data)
      else State.appendDirty lba
        (if u.block lba = .pending then (u.written lba data).releaseAwait lba else u.written lba data)) := by
    rw [State.takeBlock, h]
    rfl
  rw [htake, hrel]
  by_cases hlist : (u.block lba).isListed = true
  · rw [if_pos hlist, if_pos hlist, hw]
    exact ⟨f, l, rfl⟩
  · obtain ⟨l', happ⟩ := State.appendDirty_frame lba { u.written lba data with fetch := f, link := l }
    rw [if_neg hlist, if_neg hlist, happ, hw]
    exact ⟨f, l', rfl⟩

theorem writtenState_eq (b : BlockState) : writtenState b = match b with
    | .draining => .redirtied
    | .redirtied => .redirtied
    | _ => .dirty := by
  cases b <;> rfl

theorem State.offerBlock_some {s u : State} {w : WriteCmd} {data : List Byte}
    (h : s.takeBlock (w.first + w.taken) data = some u) : s.offerBlock w data =
      if w.taken + 1 = w.count then u.complete .write .good 0 0 .none
      else u.setCurrent (.write { w with taken := w.taken + 1, stall := none }) := by
  rw [State.offerBlock, h]

/-- A block offered whose line is available is taken (R128). -/
theorem State.offerBlock_takes {s u : State} {w : WriteCmd} {data : List Byte}
    (h : s.lineForWrite (w.first + w.taken) = some u) (hd : data.length = 512) :
    s.takesBlock w data u (s.offerBlock w data) := by
  obtain ⟨⟨l, hl⟩, hblock, husb⟩ := State.lineForWrite_spec h
  obtain ⟨f, k, htake⟩ := State.takeBlock_some h data
  have hdata := State.written_blockData hl hd
  have hstates := State.written_block hl data
  have hlast := State.written_last hl data
  have hself := (hstates (w.first + w.taken)).trans (if_pos rfl)
  rw [State.offerBlock_some htake, husb, hblock]
  by_cases hcount : w.taken + 1 = w.count
  · rw [if_pos hcount]
    refine ⟨hdata, hself.trans ?_, fun b hb => (hstates b).trans (if_neg hb), rfl, rfl, hlast,
      (if_pos hcount).symm, fun _ => rfl⟩
    rw [hblock]
    exact writtenState_eq _
  · rw [if_neg hcount]
    refine ⟨hdata, hself.trans ?_, fun b hb => (hstates b).trans (if_neg hb), rfl, rfl, hlast,
      (if_neg hcount).symm, fun h => absurd h hcount⟩
    rw [hblock]
    exact writtenState_eq _

theorem State.offerBlock_stalls {s : State} {w : WriteCmd} {data : List Byte}
    (h : s.lineForWrite (w.first + w.taken) = none) (hw : w.stall = none) :
    s.offerBlock w data = s.setCurrent
      (.write { w with stall := some { deadline := s.after s.medCfg.fetchTimeout, data := data } }) := by
  rw [State.offerBlock, State.takeBlock_none h]
  dsimp only
  rw [hw]

theorem State.offerBlock_stalled {s : State} {w : WriteCmd} {data : List Byte} {st : StallRec}
    (h : s.lineForWrite (w.first + w.taken) = none) (hw : w.stall = some st) : s.offerBlock w data = s := by
  rw [State.offerBlock, State.takeBlock_none h]
  dsimp only
  rw [hw]

theorem State.retry_write {s : State} {w : WriteCmd} (h : s.usb.current = some (.write w)) :
    s.retry = match w.stall with
      | some st => s.offerBlock w st.data
      | none => s := by
  rw [State.retry, h] <;> dsimp only <;> cases w.stall <;> rfl

theorem exec_writeBlock {s : State} {w : WriteCmd} (hc : s.usb.current = some (.write w)) (data : List Byte) :
    exec (.writeBlock data) s =
      .next (if w.stall.isNone ∧ data.length = blockBytes then s.offerBlock w data else s) := by
  refine congrArg Host.Outcome.next ?_
  rw [hc]

/-- Settles O47. -/
theorem writesAreTakenOrStall : Obligations.WritesAreTakenOrStall := by
  refine ⟨fun s u lba => ?_, fun s w data hc hd => ⟨fun hw hno => ?_, fun st d hw => ?_, fun st hw hreach => ?_,
    fun u hw hu => ?_, fun before st => ⟨fun hw => ?_, fun hw hno => ?_, fun u hw hst hu hnot => ?_⟩⟩⟩
  · rw [State.lineForWrite_iff, State.writeTest_iff]
  · rw [exec_writeBlock hc, if_pos ⟨by rw [hw]; rfl, hd⟩, State.offerBlock_stalls hno hw]
    rfl
  · rw [exec_writeBlock hc, if_neg]
    rw [hw]
    simp
  · have hdue : stallDue s.usb.current = some st.deadline := by
      rw [hc, stallDue, hw]
      rfl
    have hend : State.endCurrent .notReadyRetry { s with time := st.deadline } =
        State.complete .write .notReadyRetry (w.first + w.taken) w.taken .none { s with time := st.deadline } := by
      rw [State.endCurrent]
      dsimp only
      rw [hc]
    refine congrArg Host.Outcome.next ?_
    rw [hdue, State.atDeadline_due hreach, hend]
    rfl
  · rw [exec_writeBlock hc, if_pos ⟨by rw [hw]; rfl, hd⟩]
    exact ⟨_, rfl, State.offerBlock_takes hu hd⟩
  · refine State.settle_of_retry ((State.retry_write hc).trans ?_) before
    rw [hw]
  · refine State.settle_of_retry ((State.retry_write hc).trans ?_) before
    rw [hw]
    exact State.offerBlock_stalled hno hw
  · have hretry : s.retry = s.offerBlock w data := by
      rw [State.retry_write hc, hw, ← hst]
    rw [State.settle_noticed hnot, hretry]
    exact State.offerBlock_takes hu hd

end Sys2Proof.Machine
end

/-! # A READ's block delivered (R66, R69, R101, R102, R109) -/

section
namespace Sys2Proof.Machine

/-! ## A block's rows read (R66) -/

theorem State.inError_iff {s : State} {lba : Nat} {l : CacheLine} (hl : s.line (tagOf lba) = some l) :
    s.inError lba ↔ ∃ x ∈ s.rows, blockRows l lba x.1 = true := by
  rw [State.inError, hl]
  exact ⟨fun ⟨m, x, hm, hx, hr⟩ => ⟨x, hx, by rw [Option.some.inj hm]; exact hr⟩, fun ⟨x, hx, hr⟩ => ⟨l, x, rfl, hx, hr⟩⟩

theorem State.line_of_inError {s : State} {lba : Nat} (h : s.inError lba) : ∃ l, s.line (tagOf lba) = some l := by
  obtain ⟨l, -, hl, -⟩ := h
  exact ⟨l, hl⟩

theorem State.readRows_inError {s : State} {lba : Nat} (h : s.inError lba) :
    s.readRows lba = (true, { s with rows := s.rowsRead lba }) := by
  obtain ⟨l, hl⟩ := State.line_of_inError h
  obtain ⟨x, hx, hr⟩ := (State.inError_iff hl).1 h
  have hfound : rowsInError s.rows (blockRows l lba) ≠ [] :=
    List.ne_nil_of_mem (mem_rowsInError.2 ⟨x, hx, hr, rfl⟩)
  rw [State.readRows, State.rowsRead, hl]
  refine Prod.ext ?_ rfl
  simpa using hfound

theorem State.readRows_clean {s : State} {lba : Nat} (h : ¬s.inError lba) : s.readRows lba = (false, s) := by
  rw [State.readRows]
  cases hl : s.line (tagOf lba) with
  | none => rfl
  | some l =>
    have huntouched : ∀ x ∈ s.rows, blockRows l lba x.1 = false := fun x hx =>
      Bool.eq_false_iff.2 fun hr => h ((State.inError_iff hl).2 ⟨x, hx, hr⟩)
    have hnone : rowsInError s.rows (blockRows l lba) = [] := by
      refine List.eq_nil_iff_forall_not_mem.2 fun row hrow => ?_
      obtain ⟨x, hx, hr, -⟩ := mem_rowsInError.1 hrow
      exact absurd hr (Bool.eq_false_iff.1 (huntouched x hx))
    dsimp only
    rw [hnone, markRows_of_untouched huntouched]
    rfl

/-! ## A listed block lost (R69, R102) -/

/-- The block LOST, off the list, its drain gone and its fault recorded; what waits on it is as before. -/
def State.blockLost (lba : Nat) (s : State) : State :=
  (((s.setBlock lba .lost).removeDirty lba).dropDrain lba).recordFault (.dirtyLost lba)

theorem State.blockLost_eq (lba : Nat) (s : State) : ∃ f, s.blockLost lba = { s with
    cache := (s.setBlock lba .lost).cache
    usb := { s.usb with dirty := s.usb.dirty.filter (· ≠ lba), drains := s.usb.drains.filter (·.lba ≠ lba) }
    faults := { first := s.faults.first.or (some { kind := .dirtyLost lba, time := s.time })
                latest := some { kind := .dirtyLost lba, time := s.time }, count := satInc 65535 s.faults.count }
    link := { s.link with flags := f } } ∧ Report.fault ∈ f := by
  refine ⟨_, State.recordFault_eq _ _, ?_⟩
  split
  · assumption
  · simp

theorem State.blockLost_block {s : State} {lba : Nat} {l : CacheLine} (hl : s.line (tagOf lba) = some l) (b : Nat) :
    (s.blockLost lba).block b = if b = lba then .lost else s.block b := by
  have hset := State.block_setBlock lba b .lost s
  rw [hl] at hset
  simp only [Option.isSome_some, and_true] at hset
  refine Eq.trans ?_ hset
  obtain ⟨f, hf, -⟩ := s.blockLost_eq lba
  rw [hf]
  rfl

theorem State.loseBlock_eq (lba : Nat) (s : State) : s.loseBlock lba =
    (if s.syncWaits then (s.blockLost lba).endCurrent .mediumError else s.blockLost lba).completeEject := by
  have hwaits : (s.blockLost lba).syncWaits = s.syncWaits := by
    obtain ⟨f, hf, -⟩ := s.blockLost_eq lba
    rw [hf]
    rfl
  rw [← hwaits]
  rfl

theorem State.completeEject_off {s : State} (h : s.media.state ≠ .ejecting ∨ s.usb.dirty ≠ []) :
    s.completeEject = s :=
  if_neg fun ⟨hs, hd⟩ => h.elim (· hs) (· hd)

theorem State.loseBlock_unwaited {s : State} {lba : Nat} (hw : s.syncWaits = false)
    (h : s.media.state ≠ .ejecting ∨ s.usb.dirty.filter (· ≠ lba) ≠ []) : s.loseBlock lba = s.blockLost lba := by
  rw [State.loseBlock_eq, hw, if_neg (by decide)]
  refine State.completeEject_off ?_
  obtain ⟨f, hf, -⟩ := s.blockLost_eq lba
  rw [hf]
  exact h

/-! ## The block at the cursor (R109) -/

section
variable {s : State} {c : ReadCmd}

theorem exec_blockDelivery (hc : s.usb.current = some (.read c)) :
    exec .blockDelivery s = .next (State.settle s (s.deliver c)) := by
  refine congrArg Host.Outcome.next ?_
  rw [hc]

theorem State.deliver_zeros (h : s.dataExtent c.cursor = none) :
    s.deliver c = s.sendBlock c (List.replicate 512 0) :=
  if_pos (by rw [h]; rfl)

theorem State.deliver_failed (h : s.dataExtent c.cursor ≠ none) (hf : c.failure = some c.cursor) :
    s.deliver c = s.endCurrent .mediumError :=
  (if_neg (by simpa using h)).trans (if_pos hf)

theorem State.deliver_checked (h : s.dataExtent c.cursor ≠ none) (hf : c.failure ≠ some c.cursor) :
    s.deliver c = match s.block c.cursor with
      | .valid => s.deliverValid c
      | .dirty => s.deliverListed c
      | .draining => s.deliverListed c
      | .redirtied => s.deliverListed c
      | .lost => s.endCurrent .mediumError
      | .pending => s
      | .invalid => s.scanPass :=
  (if_neg (by simpa using h)).trans ((if_neg hf).trans (by cases s.block c.cursor <;> rfl))

theorem State.deliver_listed (h : s.dataExtent c.cursor ≠ none) (hf : c.failure ≠ some c.cursor)
    (hb : (s.block c.cursor).isListed = true) : s.deliver c = s.deliverListed c := by
  rw [State.deliver_checked h hf]
  cases hs : s.block c.cursor with
  | dirty | draining | redirtied => rfl
  | _ =>
    rw [hs] at hb
    exact absurd hb (by decide)

theorem State.endCurrent_read (hc : s.usb.current = some (.read c)) (st : CmdStatus) :
    s.endCurrent st = s.complete .read st c.cursor (c.cursor - c.first) .none := by
  rw [State.endCurrent, hc]

/-- A block sent from its slot without error (R93, R109). -/
theorem State.deliver_sent (h : s.dataExtent c.cursor ≠ none) (hf : c.failure ≠ some c.cursor)
    (hb : s.block c.cursor = .valid ∨ (s.block c.cursor).isListed = true) (he : ¬s.inError c.cursor) :
    s.deliver c = (s.touch (tagOf c.cursor)).sendBlock c (s.blockData c.cursor) := by
  rcases hb with hv | hl
  · rw [State.deliver_checked h hf, hv]
    dsimp only
    rw [State.deliverValid, State.readRows_clean he]
    rfl
  · rw [State.deliver_listed h hf hl, State.deliverListed, State.readRows_clean he]
    rfl

theorem State.sendBlock_frame (c : ReadCmd) (data : List Byte) (s : State) : ∃ u, s.sendBlock c data =
    { s with usb := u } ∧ u.sentBlock = some (c.cursor, data) ∧ u.dirty = s.usb.dirty ∧
    (u.current = if c.cursor + 1 = c.first + c.count then none
      else some (.read { c with cursor := c.cursor + 1 })) ∧
    (c.cursor + 1 = c.first + c.count →
      u.lastAnswer = some { kind := .read, status := .good, data := .none }) := by
  rw [State.sendBlock]
  by_cases hend : c.cursor + 1 = c.first + c.count
  · rw [if_pos hend, if_pos hend]
    exact ⟨_, rfl, rfl, rfl, rfl, fun _ => rfl⟩
  · rw [if_neg hend, if_neg hend]
    exact ⟨_, rfl, rfl, rfl, rfl, fun h => absurd h hend⟩

end

theorem State.line_of_block {s : State} {lba : Nat} (h : s.block lba ≠ .invalid) :
    ∃ l, s.line (tagOf lba) = some l :=
  Option.ne_none_iff_exists'.1 fun hn => h (State.block_absent hn)

/-- Settles O46. -/
theorem deliveryFollowsTheTable : Obligations.DeliveryFollowsTheTable := by
  refine fun s c hc => ⟨fun he => ?_, fun he hf => ?_, fun he hf => ⟨fun hb => ?_, fun hb => ?_, fun hb => ?_,
    fun hb hok => ?_, fun hb herr => ?_, fun hb herr hej => ?_⟩⟩ <;> rw [exec_blockDelivery hc]
  · obtain ⟨u, hu, hsent, -, hcur, -⟩ := s.sendBlock_frame c (List.replicate 512 0)
    rw [State.deliver_zeros he, hu, State.settle_same (before := s) (s := { s with usb := u }) rfl rfl rfl rfl]
    exact ⟨_, rfl, hsent, rfl, rfl, rfl, hcur⟩
  · rw [State.deliver_failed he hf, State.endCurrent_read hc, State.settle_idle rfl]
    rfl
  · rw [State.deliver_checked he hf, hb, State.settle_same rfl rfl rfl rfl]
  · rw [State.deliver_checked he hf, hb]
  · rw [State.deliver_checked he hf, hb]
    dsimp only
    rw [State.endCurrent_read hc, State.settle_idle rfl]
    rfl
  · have hne : s.block c.cursor ≠ .invalid := fun hi => by
      rw [hi] at hb
      exact absurd hb (by decide)
    obtain ⟨l, hl⟩ := State.line_of_block hne
    obtain ⟨u, hu, hsent, hdirty, hcur, hlast⟩ := (s.touch (tagOf c.cursor)).sendBlock_frame c (s.blockData c.cursor)
    have hlines : ∀ g, (s.touch (tagOf c.cursor)).line g = s.line g := fun g => State.line_touch _ g s
    have hframe := State.touch_frame (tagOf c.cursor) s
    have hquiet : State.settle s { s.touch (tagOf c.cursor) with usb := u } = { s.touch (tagOf c.cursor) with usb := u } :=
      State.settle_unnoticed (by rw [hframe]; exact fun _ h => h) (fun g => .inl (hlines g)) (by rw [hframe])
        (by rw [hframe])
    rw [State.deliver_sent he hf hb hok, hu, hquiet]
    refine ⟨_, rfl, hsent, State.block_touch _ _ s, ?_, State.touch_last hl, ?_, hdirty.trans ?_,
      fun h => hcur.trans (if_neg (by omega)), fun h => ⟨hcur.trans (if_pos h), hlast h⟩⟩ <;> rw [hframe]
  · rw [State.deliver_checked he hf, hb]
    dsimp only
    rw [State.deliverValid, State.readRows_inError herr]
    obtain ⟨l, hl⟩ := State.line_of_inError herr
    refine ⟨_, rfl, ?_, fun b hne => ?_, ?_⟩
    · rw [State.block_releaseIfEmpty, State.block_setInvalid, if_pos rfl]
    · rw [State.block_releaseIfEmpty, State.block_setInvalid, if_neg hne]
      rfl
    · rw [State.releaseIfEmpty_frame]
      exact ⟨rfl, rfl, rfl, rfl, rfl, rfl⟩
  · rw [State.deliver_listed he hf hb, State.deliverListed, State.readRows_inError herr]
    obtain ⟨l, hl⟩ := State.line_of_inError herr
    let r : State := { s with rows := s.rowsRead c.cursor }
    have hwaits : r.syncWaits = false := by
      rw [State.syncWaits, show r.usb.current = _ from hc]
    have hlose : r.loseBlock c.cursor = r.blockLost c.cursor := State.loseBlock_unwaited hwaits hej
    have hstates : ∀ b, (r.blockLost c.cursor).block b = if b = c.cursor then .lost else s.block b :=
      State.blockLost_block (s := r) hl
    obtain ⟨f, hlost, hfault⟩ := r.blockLost_eq c.cursor
    have hcur : (r.blockLost c.cursor).usb.current = some (.read c) := by
      rw [hlost]
      exact hc
    refine ⟨(r.blockLost c.cursor).complete .read .mediumError c.cursor (c.cursor - c.first) .none, ?_,
      (hstates _).trans (if_pos rfl), fun b hne => (hstates b).trans (if_neg hne), ?_⟩
    · rw [← State.endCurrent_read hcur, ← hlose]
      exact congrArg Host.Outcome.next (State.settle_idle (by rw [hlose, State.endCurrent_read hcur]; rfl) s)
    · rw [hlost]
      exact ⟨rfl, rfl, rfl, rfl, rfl, rfl, rfl, rfl, hfault⟩

end Sys2Proof.Machine
end

/-! # Write-back: drains, cleans and expiries (R69, R84, R131 to R136) -/

section
namespace Sys2Proof.Machine

/-! ## Lines that stay held and dirty (R91) -/

/-- What a notice asks of a line: whether it is held, and whether it is dirty-or-pinned. -/
def State.lineClass (g : Nat) (s : State) : Option (Bool × Bool) := (s.line g).map fun l => (l.held, l.dirtyOrPinned)

theorem lineFreed_same {x y : Option CacheLine}
    (h : (x.map fun l => (l.held, l.dirtyOrPinned)) = y.map fun l => (l.held, l.dirtyOrPinned)) :
    lineFreed x y = false := by
  cases x with
  | none => rfl
  | some a =>
    cases y with
    | none => rfl
    | some b =>
      obtain ⟨hheld, hdop⟩ := Prod.ext_iff.1 (Option.some.inj h)
      dsimp only at hheld hdop
      rw [lineFreed, hheld, hdop]
      simp

theorem State.settle_of_classes {s t : State} (ho : t.owners = s.owners) (hm : t.committed = s.committed)
    (hf : t.fetch = s.fetch) (hl : ∀ g, s.lineClass g = t.lineClass g) : State.settle s t = t := by
  refine State.settle_quiet ?_
  have hlines : s.cache.any (fun l => lineFreed (s.line l.tag) (t.line l.tag)) = false :=
    List.any_eq_false.2 fun l _ => Bool.eq_false_iff.1 (lineFreed_same (hl l.tag))
  rw [State.noticed, hlines, State.floor, State.floor, State.committedSum, State.committedSum, ho, hm, hf]
  simp only [Bool.or_false, Bool.or_eq_false_iff, List.any_eq_false, Bool.and_eq_true, decide_eq_true_eq, not_and,
    not_not, lt_self_iff_false, decide_false]
  exact ⟨fun _ _ h => h, fun i _ hi hn => absurd hn (by simpa [Option.isSome_iff_ne_none] using hi)⟩

theorem dirtyOrPinned_of_block {l : CacheLine} {i : Fin 8} (h : l.blocks[i].isUnclean = true) :
    l.dirtyOrPinned = true := by
  rw [CacheLine.dirtyOrPinned, Bool.or_eq_true, List.any_eq_true]
  exact .inr ⟨l.blocks[i], by simp, h⟩

/-- A block that stays DIRTY, DRAINING, REDIRTIED or LOST frees nothing of its line. -/
theorem State.lineClass_setBlock {s : State} {lba : Nat} {x : BlockState} (hb : (s.block lba).isUnclean = true)
    (hx : x.isUnclean = true) (g : Nat) : (s.setBlock lba x).lineClass g = s.lineClass g := by
  rw [State.lineClass, State.lineClass, State.setBlock, State.line_modLine (by intro l; rfl)]
  split
  · next hg =>
    subst hg
    cases hl : s.line (tagOf lba) with
    | none => rfl
    | some l =>
      have hold : l.dirtyOrPinned = true := by
        rw [State.block, hl] at hb
        exact dirtyOrPinned_of_block hb
      have hnew : CacheLine.dirtyOrPinned { l with blocks := vupd l.blocks (idxOf lba) fun _ => x } = true := by
        refine dirtyOrPinned_of_block (i := idxOf lba) ?_
        rw [vupd_self]
        exact hx
      rw [Option.map_some, Option.map_some, Option.map_some, hold, hnew, dop_held hold, dop_held hnew]
  · rfl

/-! ## A block lost while nothing is ejected (R69, R136) -/

/-- A listed block lost, the attachment kept: the block, its lists, its fault, and the end of a waiting SYNC. -/
theorem State.loseBlock_kept {s : State} {lba : Nat}
    (h : s.media.state ≠ .ejecting ∨ s.usb.dirty.filter (· ≠ lba) ≠ []) : ∃ f c a e, s.loseBlock lba = { s with
      cache := (s.setBlock lba .lost).cache
      usb := { s.usb with dirty := s.usb.dirty.filter (· ≠ lba), drains := s.usb.drains.filter (·.lba ≠ lba),
                          current := c, lastAnswer := a, sense := e }
      faults := { first := s.faults.first.or (some { kind := .dirtyLost lba, time := s.time })
                  latest := some { kind := .dirtyLost lba, time := s.time }, count := satInc 65535 s.faults.count }
      link := { s.link with flags := f } } ∧ Report.fault ∈ f ∧
      (∀ x, s.usb.current = some (.sync x) →
        c = none ∧ a = some { kind := .sync, status := .mediumError, data := .none }) ∧
      ((∀ x, s.usb.current ≠ some (.sync x)) → c = s.usb.current) := by
  obtain ⟨f, hf, hfault⟩ := s.blockLost_eq lba
  by_cases hw : ∃ x, s.usb.current = some (.sync x)
  · obtain ⟨x, hx⟩ := hw
    have hwaits : s.syncWaits = true := by rw [State.syncWaits, hx]
    have hend : (s.blockLost lba).endCurrent .mediumError = (s.blockLost lba).complete .sync .mediumError 0 0 .none := by
      have hcur : (s.blockLost lba).usb.current = some (.sync x) := by rw [hf]; exact hx
      rw [State.endCurrent, hcur]
    rw [State.loseBlock_eq, hwaits, if_pos rfl, hend, State.completeEject_off (by rw [hf]; exact h), hf]
    exact ⟨_, _, _, _, rfl, hfault, fun _ _ => ⟨rfl, rfl⟩, fun hno => absurd hx (hno x)⟩
  · have hno : ∀ x, s.usb.current ≠ some (.sync x) := fun x hx => hw ⟨x, hx⟩
    have hwaits : s.syncWaits = false := by
      rw [State.syncWaits]
      split
      · next hx => exact absurd hx (hno _)
      · rfl
    rw [State.loseBlock_unwaited hwaits h, hf]
    exact ⟨_, _, _, _, rfl, hfault, fun x hx => absurd hx (hno x), fun _ => rfl⟩

/-! ## The search of MED_DRAIN (R132) -/

theorem drainFrom_skip {s : State} {pre : List Nat} (h : ∀ x ∈ pre, s.block x ≠ .dirty) (rest : List Nat) :
    drainFrom (pre ++ rest) s = drainFrom rest s := by
  induction pre with
  | nil => rfl
  | cons x xs ih =>
    exact (if_neg (h x (List.mem_cons_self ..))).trans (ih fun y hy => h y (List.mem_cons_of_mem _ hy))

theorem drainFrom_none {s : State} {l : List Nat} (h : ∀ x ∈ l, s.block x ≠ .dirty) : drainFrom l s = (s, none) := by
  have hskip := drainFrom_skip h []
  rw [List.append_nil] at hskip
  exact hskip

theorem drainFrom_found {s : State} {b : Nat} (hb : s.block b = .dirty) (he : ¬s.inError b) (rest : List Nat) :
    drainFrom (b :: rest) s = (s, some b) := by
  refine (if_pos hb).trans ?_
  rw [State.readRows_clean he]
  rfl

theorem drainFrom_lost {s : State} {b : Nat} (hb : s.block b = .dirty) (he : s.inError b) (rest : List Nat) :
    drainFrom (b :: rest) s = drainFrom rest (State.loseBlock b { s with rows := s.rowsRead b }) := by
  refine (if_pos hb).trans ?_
  rw [State.readRows_inError he]
  rfl

section
variable {s t : State} (hroom : s.usb.drains.length < 8)
include hroom

theorem medDrain_none (h : drainFrom s.usb.dirty s = (t, none)) :
    medDrain () s = (t, .notFound, num 2 t.usb.dirty.length) := by
  refine (if_neg (by omega)).trans ?_
  rw [h]

theorem medDrain_some {b : Nat} (h : drainFrom s.usb.dirty s = (t, some b)) :
    medDrain () s = (t.beginDrain b, .ok, t.encDrain b) := by
  refine (if_neg (by omega)).trans ?_
  rw [h]

end

/-- The reply of a drain, its object read through the extent. -/
theorem State.encDrain_eq {s : State} {b : Nat} {e : Extent} (he : s.dataExtent b = some e) : s.encDrain b =
    num 4 b ++ num 2 e.object ++ num 5 (e.base + (b - e.first)) ++ num 2 s.usb.nextTag.toNat ++
      num 4 (s.time + BitVec.ofNat 32 s.medCfg.fetchTimeout).toNat ++ num 2 s.usb.dirty.length ++ s.blockData b := by
  rw [State.encDrain, State.objectOf, he]
  rfl

/-! ## A block lost in the search (R69, R132) -/

theorem mem_rowsRead {s : State} {b : Nat} {x : Nat × RowFault} (h : x ∈ s.rowsRead b) : ∃ y ∈ s.rows, y.1 = x.1 := by
  rw [State.rowsRead] at h
  split at h
  · obtain ⟨y, hy, rfl⟩ := List.mem_map.1 h
    refine ⟨y, hy, ?_⟩
    split <;> rfl
  · exact ⟨x, h, rfl⟩

/-- A block lost by a read of its rows while the attachment stays, and what stays with it. -/
structure State.BlockLost (s : State) (b : Nat) (t : State) : Prop where
  loses : s.losesBlock b t
  blocks : ∀ x, t.block x = if x = b then .lost else s.block x
  drains : t.usb.drains = s.usb.drains.filter (·.lba ≠ b)
  nextTag : t.usb.nextTag = s.usb.nextTag
  time : t.time = s.time
  medCfg : t.medCfg = s.medCfg
  media : t.media = s.media
  owners : t.owners = s.owners
  committed : t.committed = s.committed
  fetch : t.fetch = s.fetch
  replies : t.link.replies = s.link.replies
  pages : ∀ g, (t.line g).map (·.page) = (s.line g).map (·.page)
  classes : ∀ g, s.lineClass g = t.lineClass g

theorem State.loseBlock_lost {s : State} {b : Nat} (hb : (s.block b).isUnclean = true) (he : s.inError b)
    (hk : s.media.state ≠ .ejecting ∨ s.usb.dirty.filter (· ≠ b) ≠ []) :
    s.BlockLost b (State.loseBlock b { s with rows := s.rowsRead b }) := by
  obtain ⟨l, hl⟩ := State.line_of_inError he
  obtain ⟨f, c, a, e, ht, hf, hsync, hother⟩ := State.loseBlock_kept (s := { s with rows := s.rowsRead b }) hk
  have hset : ∀ x, (s.setBlock b .lost).block x = if x = b then .lost else s.block x := by
    intro x
    rw [State.block_setBlock, hl]
    simp only [Option.isSome_some, and_true]
  rw [ht]
  exact {
    loses := ⟨(hset b).trans (if_pos rfl), rfl, rfl, rfl, rfl, hf, fun x hx => hsync x hx, hother⟩
    blocks := hset
    drains := rfl
    nextTag := rfl
    time := rfl
    medCfg := rfl
    media := rfl
    owners := rfl
    committed := rfl
    fetch := rfl
    replies := rfl
    pages := fun g => State.page_setBlock b g .lost s
    classes := fun g => (State.lineClass_setBlock hb rfl g).symm }

section
variable {s t : State} {b c : Nat} (h : s.BlockLost b t)
include h

theorem State.BlockLost.not_dirty {x : Nat} (hx : s.block x ≠ .dirty) : t.block x ≠ .dirty := by
  rw [h.blocks]
  split
  · exact fun h => by cases h
  · exact hx

theorem State.BlockLost.not_inError (hc : ¬s.inError c) : ¬t.inError c := by
  rintro ⟨l, x, hl, hx, hr⟩
  have hpage := h.pages (tagOf c)
  rw [hl] at hpage
  obtain ⟨l', hl', hp⟩ := Option.map_eq_some_iff.1 hpage.symm
  have hrows := h.loses.2.2.1
  rw [hrows] at hx
  obtain ⟨y, hy, hyx⟩ := mem_rowsRead hx
  refine hc ⟨l', y, hl', hy, ?_⟩
  rw [hyx, blockRows, hp]
  exact hr

theorem State.BlockLost.encDrain {e : Extent} (he : s.dataExtent c = some e) : t.encDrain c =
    num 4 c ++ num 2 e.object ++ num 5 (e.base + (c - e.first)) ++ num 2 s.usb.nextTag.toNat ++
      num 4 (s.time + BitVec.ofNat 32 s.medCfg.fetchTimeout).toNat ++
      num 2 (s.usb.dirty.filter (· ≠ b)).length ++ s.blockData c := by
  obtain ⟨-, hdirty, -, hmem, -⟩ := h.loses
  have hext : t.dataExtent c = some e := by
    rw [State.dataExtent, h.media]
    exact he
  rw [State.encDrain_eq hext, h.nextTag, h.time, h.medCfg, hdirty, State.blockData_congr hmem (h.pages _)]

end

/-! ## An eject completed by the loss of the list's last block (R84) -/

theorem State.loseBlock_ejects {s : State} {b : Nat} (hs : s.media.state = .ejecting)
    (hd : s.usb.dirty.filter (· ≠ b) = []) (hc : s.usb.current = none) :
    s.loseBlock b = (s.blockLost b).endAttachment := by
  have hwaits : s.syncWaits = false := by rw [State.syncWaits, hc]
  rw [State.loseBlock_eq, hwaits, if_neg (by decide)]
  obtain ⟨f, hf, -⟩ := s.blockLost_eq b
  exact State.completeEject_clean (by rw [hf]; exact hs) (by rw [hf]; exact hd)

theorem State.blockLost_keeps (b : Nat) (s : State) :
    (s.blockLost b).usb.current = s.usb.current ∧ (s.blockLost b).owners = s.owners ∧ (s.blockLost b).rows = s.rows ∧
    (s.blockLost b).mem = s.mem ∧ (s.blockLost b).link.replies = s.link.replies ∧
    (s.blockLost b).faults.latest = some { kind := .dirtyLost b, time := s.time } ∧
    Report.fault ∈ (s.blockLost b).link.flags := by
  obtain ⟨f, hf, hfault⟩ := s.blockLost_eq b
  rw [hf]
  exact ⟨rfl, rfl, rfl, rfl, rfl, rfl, hfault⟩

/-- The end of an attachment adds MEDIA to the pending reports and keeps the status byte. -/
theorem State.endAttachment_link (s : State) : ∃ n h f, s.endAttachment.link = { s.link with
    notices := n, held := h, flags := f } ∧ ∀ q ∈ s.link.flags, q ∈ f := by
  obtain ⟨n, h, hlink⟩ := s.cancelFetches_link
  rw [State.endAttachment, State.setFlag_eq]
  dsimp only
  rw [hlink]
  refine ⟨n, h, _, rfl, fun q hq => ?_⟩
  split
  · exact hq
  · exact List.mem_cons_of_mem _ hq

theorem block_of_empty {s : State} (h : s.cache = []) (b : Nat) : s.block b = .invalid := by
  rw [State.block, State.line, h]
  rfl

/-! ## MED_CLEAN (R133) -/

theorem medClean_late {s : State} {lba t : Nat} (h : s.drainRec lba t = none) :
    medClean (lba, t) s = (s, .late, []) := by
  refine Eq.trans (b := cleanReply lba .late s) ?_ rfl
  rw [medClean, h]

theorem medClean_live {s : State} {d : DrainRec} (h : d ∈ s.usb.drains) :
    medClean (d.lba, d.tag.toNat) s = cleanReply d.lba (s.clean d.lba).1 (s.clean d.lba).2 := by
  have hfound : s.drainRec d.lba d.tag.toNat ≠ none := by
    rw [State.drainRec, Ne, List.find?_eq_none]
    exact fun hno => hno d h (by simp)
  obtain ⟨x, hx⟩ := Option.ne_none_iff_exists'.1 hfound
  rw [medClean, hx]

/-- The block VALID, off the list, its drain gone (R133). -/
def State.cleaned (lba : Nat) (s : State) : State :=
  { s.setBlock lba .valid with usb := { s.usb with
      drains := s.usb.drains.filter (·.lba ≠ lba), dirty := s.usb.dirty.filter (· ≠ lba) } }

theorem State.clean_stale {s : State} {lba : Nat} (h : s.block lba = .redirtied) :
    s.clean lba = (.stale, { s.setBlock lba .dirty with
      usb := { s.usb with drains := s.usb.drains.filter (·.lba ≠ lba) } }) := if_pos h

theorem State.clean_ok {s : State} {lba : Nat} (h : s.block lba = .draining) :
    s.clean lba = (.ok, (s.cleaned lba).afterClean) := if_neg (by rw [h]; decide)

theorem State.cleaned_block {s : State} {lba : Nat} (h : s.block lba = .draining) :
    (s.cleaned lba).block lba = .valid := by
  obtain ⟨l, hl⟩ := State.line_of_block (s := s) (lba := lba) (by rw [h]; decide)
  refine (State.block_setBlock lba lba .valid s).trans (if_pos ⟨rfl, ?_⟩)
  rw [hl]
  rfl

theorem State.afterClean_waits {u : State} (h : u.usb.dirty ≠ [] ∨
    (u.media.state ≠ .ejecting ∧ (0 < u.lostCount ∨ ∀ x, u.usb.current ≠ some (.sync x)))) : u.afterClean = u := by
  have hend : ¬(u.usb.dirty = [] ∧ u.lostCount = 0 ∧ u.syncWaits = true) := by
    rintro ⟨hd, hl, hw⟩
    rcases h with hne | ⟨-, hlost | hno⟩
    · exact hne hd
    · omega
    · rw [State.syncWaits] at hw
      split at hw
      · next hx => exact hno _ hx
      · cases hw
  rw [State.afterClean, if_neg hend]
  exact State.completeEject_off (h.symm.imp_left And.left)

theorem State.afterClean_sync {u : State} {x : PartTime} (hd : u.usb.dirty = []) (hs : u.media.state ≠ .ejecting)
    (hl : u.lostCount = 0) (hx : u.usb.current = some (.sync x)) : u.afterClean = { u with usb := { u.usb with
      current := none, lastAnswer := some { kind := .sync, status := .good, data := .none } } } := by
  have hwaits : u.syncWaits = true := by rw [State.syncWaits, hx]
  have hgood : u.endCurrent .good = u.complete .sync .good 0 0 .none := by rw [State.endCurrent, hx]
  rw [State.afterClean, if_pos ⟨hd, hl, hwaits⟩, hgood]
  exact State.completeEject_off (.inl hs)

theorem State.afterClean_ejects {u : State} (hd : u.usb.dirty = []) (hs : u.media.state = .ejecting)
    (hc : u.usb.current = none) : u.afterClean = u.endAttachment := by
  rw [State.afterClean, State.endCurrent_idle hc, ite_self]
  exact State.completeEject_clean hs hd

theorem fields2_num {j k m n : Nat} (hm : m < 256 ^ j) (hn : n < 256 ^ k) :
    fields2 j k (num j m ++ num k n) = some (m, n) := by
  have hrest := fields_append (num_length k n) [] []
  rw [List.append_nil, leNat_num k n hn] at hrest
  rw [fields2, fields_append (num_length j m), hrest, leNat_num j m hm]
  rfl

/-! ## The requests whole (R132, R133) -/

theorem exec_medDrain (tag : Byte) (s : State) :
    exec (.medDrain tag []) s = .next (State.settle s (s.request 0x3B tag (some ()) medDrain)) := rfl

theorem exec_medClean {lba dt : Nat} (hl : lba < 2 ^ 32) (hd : dt < 65536) (tag : Byte) (s : State) :
    exec (.medClean tag (num 4 lba ++ num 2 dt)) s =
      .next (State.settle s (s.request 0x3C tag (some (lba, dt)) medClean)) := by
  rw [← fields2_num (j := 4) (k := 2) hl hd]
  rfl

section
variable {s : State} {b : Nat} {pre post : List Nat} (hr : s.inReady = true) (hroom : s.usb.drains.length < 8)
  (hdirty : s.usb.dirty = pre ++ b :: post) (hpre : ∀ x ∈ pre, s.block x ≠ .dirty) (hb : s.block b = .dirty)
include hdirty hpre hb

theorem drainFrom_first (he : ¬s.inError b) : drainFrom s.usb.dirty s = (s, some b) := by
  rw [hdirty, drainFrom_skip hpre, drainFrom_found hb he]

theorem drainFrom_next (he : s.inError b) :
    drainFrom s.usb.dirty s = drainFrom post (State.loseBlock b { s with rows := s.rowsRead b }) := by
  rw [hdirty, drainFrom_skip hpre, drainFrom_lost hb he]

include hr hroom

/-- A drain of the first DIRTY block, its rows without error (R132). -/
theorem State.drain_found (he : ¬s.inError b) {e : Extent} (hext : s.dataExtent b = some e) {u : State}
    (hu : u = s.beginDrain b) (tag : Byte) :
    exec (.medDrain tag []) s = .next (s.answered 0x3B tag .ok
      (num 4 b ++ num 2 e.object ++ num 5 (e.base + (b - e.first)) ++ num 2 s.usb.nextTag.toNat ++
        num 4 (s.time + BitVec.ofNat 32 s.medCfg.fetchTimeout).toNat ++ num 2 s.usb.dirty.length ++
        s.blockData b) u) ∧ u.block b = .draining := by
  have hunclean : (s.block b).isUnclean = true := by rw [hb]; rfl
  have hdrain := medDrain_some (s := s.shiftStatus) hroom
    (drainFrom_first (s := s.shiftStatus) hdirty hpre hb he)
  rw [State.encDrain_eq (s := s.shiftStatus) hext] at hdrain
  rw [exec_medDrain, State.request_answered (u := s.beginDrain b) hr _ _ hdrain rfl, hu]
  refine ⟨congrArg Host.Outcome.next (State.settle_of_classes rfl rfl rfl fun g => ?_), ?_⟩
  · exact (State.lineClass_setBlock hunclean rfl g).symm
  · obtain ⟨l, hl⟩ := State.line_of_block (s := s) (lba := b) (by rw [hb]; decide)
    refine (State.block_setBlock b b .draining s).trans (if_pos ⟨rfl, ?_⟩)
    rw [hl]
    rfl

variable (he : s.inError b)
include he

/-- The only DIRTY block lost, nothing is drained (R69, R132). -/
theorem State.drain_lost (hpost : ∀ x ∈ post, s.block x ≠ .dirty)
    (hk : s.media.state ≠ .ejecting ∨ s.usb.dirty.filter (· ≠ b) ≠ []) (tag : Byte) : ∃ t : State,
    exec (.medDrain tag []) s = .next t ∧ s.losesBlock b t ∧ t.usb.drains = s.usb.drains.filter (·.lba ≠ b) ∧
    t.link.replies = s.link.replies ++
      [mkReply 0x3B tag .notFound (num 2 (s.usb.dirty.filter (· ≠ b)).length)] := by
  have hlost := State.loseBlock_lost (s := s.shiftStatus) (b := b) (congrArg BlockState.isUnclean hb) he hk
  have hnone := (drainFrom_next (s := s.shiftStatus) hdirty hpre hb he).trans
    (drainFrom_none fun x hx => hlost.not_dirty (hpost x hx))
  have hdrain := medDrain_none (s := s.shiftStatus) hroom hnone
  obtain ⟨-, hlist, -⟩ := hlost.loses
  rw [hlist] at hdrain
  rw [exec_medDrain, State.request_pushed hr _ _ hdrain]
  refine ⟨_, congrArg Host.Outcome.next (State.settle_of_classes hlost.owners hlost.committed hlost.fetch hlost.classes),
    hlost.loses, hlost.drains, congrArg (· ++ _) hlost.replies⟩

/-- After a lost block the search goes on to the next DIRTY one (R69, R132). -/
theorem State.drain_lost_found {mid rest : List Nat} {c : Nat} {e : Extent} (hpost : post = mid ++ c :: rest)
    (hmid : ∀ x ∈ mid, s.block x ≠ .dirty) (hne : c ≠ b) (hc : s.block c = .dirty) (hce : ¬s.inError c)
    (hext : s.dataExtent c = some e) (tag : Byte) : ∃ t : State,
    exec (.medDrain tag []) s = .next t ∧ s.losesBlock b t ∧ t.block c = .draining ∧
    t.usb.drains = s.usb.drains.filter (·.lba ≠ b) ++
      [{ lba := c, tag := s.usb.nextTag, expiry := s.time + BitVec.ofNat 32 s.medCfg.fetchTimeout }] ∧
    t.link.replies = s.link.replies ++ [mkReply 0x3B tag .ok
      (num 4 c ++ num 2 e.object ++ num 5 (e.base + (c - e.first)) ++ num 2 s.usb.nextTag.toNat ++
        num 4 (s.time + BitVec.ofNat 32 s.medCfg.fetchTimeout).toNat ++
        num 2 (s.usb.dirty.filter (· ≠ b)).length ++ s.blockData c)] := by
  have hk : s.usb.dirty.filter (· ≠ b) ≠ [] := by
    refine List.ne_nil_of_mem (a := c) (List.mem_filter.2 ⟨?_, by simpa using hne⟩)
    rw [hdirty, hpost]
    simp
  have hlost := State.loseBlock_lost (s := s.shiftStatus) (b := b) (congrArg BlockState.isUnclean hb) he (.inr hk)
  generalize htdef : State.loseBlock b { s.shiftStatus with rows := s.shiftStatus.rowsRead b } = t at hlost
  have hct : t.block c = .dirty := ((hlost.blocks c).trans (if_neg hne)).trans hc
  have hfound : drainFrom s.shiftStatus.usb.dirty s.shiftStatus = (t, some c) := by
    rw [drainFrom_next (s := s.shiftStatus) hdirty hpre hb he, htdef, hpost,
      drainFrom_skip fun x hx => hlost.not_dirty (hmid x hx), drainFrom_found hct (hlost.not_inError hce)]
  have hdrain := medDrain_some (s := s.shiftStatus) hroom hfound
  rw [hlost.encDrain hext] at hdrain
  have hclasses : ∀ g, s.lineClass g = (t.beginDrain c).lineClass g := fun g =>
    (hlost.classes g).trans (State.lineClass_setBlock (by rw [hct]; rfl) rfl g).symm
  obtain ⟨l, hl⟩ := State.line_of_block (s := t) (lba := c) (by rw [hct]; decide)
  have hset : ∀ x, (t.beginDrain c).block x = if x = c then .draining else t.block x := fun x => by
    refine (State.block_setBlock c x .draining t).trans ?_
    rw [hl]
    simp only [Option.isSome_some, and_true]
  obtain ⟨hself, hlist, hrows, hmem, hlatest, hfault, hsync, hother⟩ := hlost.loses
  rw [exec_medDrain, State.request_pushed hr _ _ hdrain]
  refine ⟨_, congrArg Host.Outcome.next (State.settle_of_classes hlost.owners hlost.committed hlost.fetch hclasses),
    ⟨((hset b).trans (if_neg hne.symm)).trans hself, hlist, hrows, hmem, hlatest, hfault, hsync, hother⟩,
    (hset c).trans (if_pos rfl), ?_, congrArg (· ++ _) hlost.replies⟩
  refine congrArg₂ (· ++ ·) hlost.drains ?_
  change ([{ lba := c, tag := t.usb.nextTag, expiry := t.time + BitVec.ofNat 32 t.medCfg.fetchTimeout }] :
    List DrainRec) = _
  rw [hlost.nextTag, hlost.time, hlost.medCfg]
  rfl

/-- The list's last block lost in EJECTING completes the eject (R69, R84). -/
theorem State.drain_lost_ejects (hs : s.media.state = .ejecting) (hd : s.usb.dirty.filter (· ≠ b) = [])
    (hc : s.usb.current = none) (tag : Byte) : ∃ t : State,
    exec (.medDrain tag []) s = .next t ∧ t.media = State.reset.media ∧ t.cache = [] ∧ t.usb.dirty = [] ∧
    t.usb.drains = [] ∧ (∀ i : Fin 8, t.fetch[i].live = none) ∧
    (∀ p : Fin 128, t.owners[p] = if s.owners[p] = .line then .free else s.owners[p]) ∧
    t.rows = s.rowsRead b ∧ t.mem = s.mem ∧ Report.media ∈ t.link.flags ∧ Report.fault ∈ t.link.flags ∧
    t.faults.latest = some { kind := .dirtyLost b, time := s.time } ∧
    t.link.replies = s.link.replies ++ [mkReply 0x3B tag .notFound (num 2 0)] := by
  have hlose := State.loseBlock_ejects (s := { s.shiftStatus with rows := s.shiftStatus.rowsRead b }) hs hd hc
  obtain ⟨hcur, howners, hrows, hmem, hreplies, hlatest, hfault⟩ :=
    State.blockLost_keeps b { s.shiftStatus with rows := s.shiftStatus.rowsRead b }
  have hsearch := drainFrom_next (s := s.shiftStatus) hdirty hpre hb he
  rw [hlose] at hsearch
  generalize State.blockLost b { s.shiftStatus with rows := s.shiftStatus.rowsRead b } = u at *
  have hdet := u.endAttachment_detached
  have hidle : u.endAttachment.usb.current = none := by
    rw [State.endAttachment_usb (s := u) (hcur.trans hc)]
    exact hcur.trans hc
  have hflts := u.endAttachment_faults
  obtain ⟨n, h, f, hlink, hkept⟩ := u.endAttachment_link
  have hpend : Report.fault ∈ u.endAttachment.link.flags := by
    rw [hlink]
    exact hkept _ hfault
  generalize u.endAttachment = t at *
  have hnone : drainFrom s.shiftStatus.usb.dirty s.shiftStatus = (t, none) :=
    hsearch.trans (drainFrom_none fun x _ => by rw [block_of_empty hdet.cache]; decide)
  have hdrain := medDrain_none (s := s.shiftStatus) hroom hnone
  rw [hdet.dirty] at hdrain
  rw [exec_medDrain, State.request_pushed hr _ _ hdrain]
  refine ⟨t.pushReply (mkReply 0x3B tag .notFound (num 2 0)),
    congrArg Host.Outcome.next (State.settle_idle (t := t.pushReply _) hidle s), hdet.media, hdet.cache, hdet.dirty,
    hdet.drains, hdet.fetch, fun p => ?_, hdet.rows.trans hrows, hdet.mem.trans hmem, hdet.flag, hpend,
    (congrArg FaultRecord.latest hflts).trans hlatest, congrArg (· ++ _) (hdet.replies.trans hreplies)⟩
  refine (hdet.owners p).trans ?_
  rw [howners]
  rfl

end

/-- The last clean in EJECTING completes the eject (R84, R133). -/
theorem State.clean_ejects {s : State} {d : DrainRec} (hr : s.inReady = true) (hd : d ∈ s.usb.drains)
    (hl : d.lba < 2 ^ 32) (hb : s.block d.lba = .draining) (hlist : (s.cleaned d.lba).usb.dirty = [])
    (hs : s.media.state = .ejecting) (hc : s.usb.current = none) (tag : Byte) : ∃ t : State,
    exec (.medClean tag (num 4 d.lba ++ num 2 d.tag.toNat)) s = .next (s.answered 0x3C tag .ok
      (num 4 d.lba ++ [0, 0, 0, 0]) t) ∧ t.media = State.reset.media ∧ t.cache = [] ∧ t.usb.dirty = [] ∧
    t.usb.drains = [] ∧ (∀ i : Fin 8, t.fetch[i].live = none) ∧
    (∀ p : Fin 128, t.owners[p] = if s.owners[p] = .line then .free else s.owners[p]) ∧
    Report.media ∈ t.link.flags ∧ t.faults = s.faults ∧ t.mem = s.mem ∧ t.rows = s.rows := by
  have hafter := State.afterClean_ejects (u := s.shiftStatus.cleaned d.lba) hlist hs hc
  have hdet := (s.shiftStatus.cleaned d.lba).endAttachment_detached
  have husb := State.endAttachment_usb (s := s.shiftStatus.cleaned d.lba) hc
  have hflts := (s.shiftStatus.cleaned d.lba).endAttachment_faults
  obtain ⟨n, h, f, hlink, -⟩ := (s.shiftStatus.cleaned d.lba).endAttachment_link
  have hclean := medClean_live (s := s.shiftStatus) hd
  rw [State.clean_ok (s := s.shiftStatus) hb, hafter] at hclean
  generalize (s.shiftStatus.cleaned d.lba).endAttachment = t at hdet husb hflts hlink hclean
  have hreply : cleanReply d.lba .ok t = (t, .ok, num 4 d.lba ++ [0, 0, 0, 0]) := by
    rw [cleanReply, if_pos rfl, block_of_empty hdet.cache, hdet.drains, hdet.dirty]
    simp only [List.append_assoc]
    rfl
  have hstatus : t = { t with link := { t.link with statusOut := s.statusByte } } := by
    have hout : t.link.statusOut = s.statusByte := by rw [hlink]; rfl
    rw [← hout]
  refine ⟨t, ?_, hdet.media, hdet.cache, hdet.dirty, hdet.drains, hdet.fetch, hdet.owners, hdet.flag, hflts, hdet.mem,
    hdet.rows⟩
  rw [exec_medClean hl d.tag.isLt, State.request_answered hr _ _ (hclean.trans hreply) hstatus]
  refine congrArg Host.Outcome.next (State.settle_idle ?_ s)
  change t.usb.current = none
  rw [husb]
  exact hc

/-- Settles O48. -/
theorem drainsAreConfirmed : Obligations.DrainsAreConfirmed := by
  refine fun s tag => ⟨fun hr hfull => ?_, fun hr hroom hno => ?_, fun pre b post hr hroom hdirty hpre hb =>
    ⟨fun e u he hext hu => ?_, fun he hpost hk => ?_, fun he hpost hs hd hc => ?_,
      fun mid c rest e he hpost hmid hne hc hce hext => ?_⟩, fun lba dt hr hl hdt hno => ?_, fun d hr hd hl hb => ?_,
    fun d u body hr hd hl hb hu hbody => ⟨fun hwait => ?_, fun x hlist hs hlost hx => ?_, fun hlist hs hc => ?_⟩,
    fun d hfind hreach => ?_⟩
  · rw [exec_medDrain, State.request_unchanged hr _ _ (if_pos hfull), State.settle_answered]
    rfl
  · rw [exec_medDrain,
      State.request_unchanged hr _ _ (medDrain_none (s := s.shiftStatus) hroom (drainFrom_none hno)),
      State.settle_answered]
    rfl
  · exact State.drain_found hr hroom hdirty hpre hb he hext hu tag
  · exact State.drain_lost hr hroom hdirty hpre hb he hpost hk tag
  · exact State.drain_lost_ejects hr hroom hdirty hpre hb he hs hd hc tag
  · exact State.drain_lost_found hr hroom hdirty hpre hb he hpost hmid hne hc hce hext tag
  · have hnone : s.shiftStatus.drainRec lba dt = none := by
      refine List.find?_eq_none.2 fun d hd => ?_
      rcases hno d hd with h | h <;> simp [h]
    rw [exec_medClean hl hdt, State.request_unchanged hr _ _ (medClean_late hnone), State.settle_answered]
  · have hclean := medClean_live (s := s.shiftStatus) hd
    rw [State.clean_stale (s := s.shiftStatus) hb] at hclean
    rw [exec_medClean hl d.tag.isLt]
    exact congrArg (fun t => Host.Outcome.next (State.settle s t)) (State.request_answered hr _ _ hclean rfl)
  · have hclean := medClean_live (s := s.shiftStatus) hd
    have hafter := State.afterClean_waits (u := s.shiftStatus.cleaned d.lba) (by rw [hu] at hwait; exact hwait)
    rw [State.clean_ok (s := s.shiftStatus) hb, hafter] at hclean
    have hreply : cleanReply d.lba .ok (s.shiftStatus.cleaned d.lba) = (s.shiftStatus.cleaned d.lba, .ok, body) := by
      rw [cleanReply, if_pos rfl, State.cleaned_block (s := s.shiftStatus) hb, hbody, hu]
      rfl
    rw [exec_medClean hl d.tag.isLt, hu]
    exact congrArg (fun t => Host.Outcome.next (State.settle s t))
      (State.request_answered hr _ _ (hclean.trans hreply) rfl)
  · have hclean := medClean_live (s := s.shiftStatus) hd
    have hafter := State.afterClean_sync (u := s.shiftStatus.cleaned d.lba) (by rw [hu] at hlist; exact hlist) hs
      (by rw [hu] at hlost; exact hlost) hx
    have hvalid := State.cleaned_block (s := s.shiftStatus) hb
    rw [State.clean_ok (s := s.shiftStatus) hb, hafter] at hclean
    have hreply : cleanReply d.lba .ok { s.shiftStatus.cleaned d.lba with usb := { (s.shiftStatus.cleaned d.lba).usb with
        current := none, lastAnswer := some { kind := .sync, status := .good, data := .none } } } =
        ({ s.shiftStatus.cleaned d.lba with usb := { (s.shiftStatus.cleaned d.lba).usb with
        current := none, lastAnswer := some { kind := .sync, status := .good, data := .none } } }, .ok, body) := by
      rw [cleanReply, if_pos rfl, hbody, hu]
      refine congrArg (fun b => (_, Status.ok, num 4 d.lba ++ num 1 (blockStateCode b) ++ _ ++ _)) hvalid
    rw [exec_medClean hl d.tag.isLt, hu]
    refine congrArg Host.Outcome.next ((congrArg (State.settle s)
      (State.request_answered hr _ _ (hclean.trans hreply) rfl)).trans (State.settle_idle rfl s))
  · subst hu hbody
    exact State.clean_ejects hr hd hl hb hlist hs hc tag
  · have hexec : exec (.drainExpiry d.tag) s = .next (s.atDeadline (some d.expiry) (State.expireDrain d)) := by
      refine congrArg Host.Outcome.next ?_
      rw [hfind]
    rw [hexec, State.atDeadline_due hreach]
    rfl

end Sys2Proof.Machine
end

/-! # The timers of boot supervision (R167 to R169, R172) -/

section
namespace Sys2Proof.Machine

/-! ## What an escalation records (R167, R168) -/

theorem State.escalated_eq (t : Trigger) (a : SupAction) (o : EscOutcome) (n : Nat) (s : State) : ∃ fl,
    s.escalated t a o n = { s with
      sup := { s.sup with lastEsc := some { trigger := t, action := a, outcome := o, time := s.time, epoch := n } }
      link := { s.link with flags := fl } } ∧ Report.boot ∈ fl ∧ ∀ q ∈ s.link.flags, q ∈ fl := by
  rw [State.escalated, State.setFlag_eq]
  refine ⟨_, rfl, ?_, fun q hq => ?_⟩
  · split
    · assumption
    · simp
  · split
    · exact hq
    · exact List.mem_cons_of_mem _ hq

/-- Where the table is that of a settled open record, a PENDING epoch is FAILED. -/
theorem State.failsPending_of {s u t : State} (hu : u.sup.epochs = s.sup.epochs)
    (ht : t.sup.epochs = (u.settlePending .failed).sup.epochs) : s.failsPending t := by
  intro e he
  have hopen : u.openEpoch = some e := (State.openEpoch_congr hu).trans he
  rw [State.settlePending_epochs, hopen] at ht
  exact openEpoch_of_newest ht (show e.endCause = none from State.endCause_of_open he)

theorem State.supBegun_eq (s : State) : s.supBegun = { s with sup := { s.sup with
    epochs := (s.settlePending .failed).sup.epochs, attempts := s.sup.attempts + 1, state := .idle, ret := none,
    bootTimer := none, holdTimer := none } } := by
  obtain ⟨es, h⟩ := s.settlePending_frame .failed
  rw [State.supBegun, h]
  rfl

theorem State.giveUp_eq (a : SupAction) (s : State) : s.giveUp a =
    State.recordFault (.bootFailed s.openNumber a) { s with sup := { s.sup with
      epochs := (s.settlePending .failed).sup.epochs, state := .givenUp, ret := none, bootTimer := none,
      holdTimer := none } } := by
  obtain ⟨es, h⟩ := s.settlePending_frame .failed
  rw [State.giveUp, h]
  rfl

/-! ## A request of the supervisor (R146, R168, R169) -/

section
variable {s : State} {t : Trigger} {a : SupAction} {k : ActionKind} {refused : State → State}

theorem State.supRequest_spent (h : s.sup.policy.maxAttempts ≤ s.sup.attempts) :
    s.supRequest t a k refused = (s.giveUp a).escalated t a .givenUp s.openNumber :=
  if_neg (by omega)

variable (h : s.sup.attempts < s.sup.policy.maxAttempts)
include h

theorem State.supRequest_begun {p : Phase} (hans : s.asFallLeft.answerTo k = .begun p) :
    s.supRequest t a k refused =
      ((s.asFallLeft.beginAction k false .supervisor p).supBegun).escalated t a .taken s.openNumber := by
  have hreq : s.asFallLeft.requestAction k false .supervisor = s.asFallLeft.beginAction k false .supervisor p := by
    rw [State.requestAction, hans]
    rfl
  rw [← hreq]
  refine (if_pos h).trans ?_
  dsimp only
  rw [hans]

theorem State.supRequest_skipped (hans : s.asFallLeft.answerTo k = .busy ∨ s.asFallLeft.answerTo k = .wrongState) :
    s.supRequest t a k refused = (refused s.asFallLeft).escalated t a .skipped s.openNumber := by
  refine (if_pos h).trans ?_
  dsimp only
  rcases hans with h | h <;> rw [h]

end

/-- The boot timer started again by a request that was skipped (R167). -/
def State.restartBoot (s : State) : State := s.modSup fun u => { u with bootTimer := some s.bootDue }

section
variable {s : State} {a : SupAction} {k : ActionKind} (h : a = .reset ∧ k = .reset ∨ a = .cycle ∧ k = .cycle)
include h

theorem State.bootExpired_request (ha : s.sup.policy.timeoutAction = a) :
    s.bootExpired = s.supRequest .bootTimeout a k State.restartBoot := by
  rw [State.bootExpired, ha]
  rcases h with ⟨rfl, rfl⟩ | ⟨rfl, rfl⟩ <;> rfl

theorem State.holdExpired_request (ha : s.sup.policy.faultAction = a) :
    s.holdExpired = s.supRequest .faultHoldoff a k State.returnSup := by
  rw [State.holdExpired, ha]
  rcases h with ⟨rfl, rfl⟩ | ⟨rfl, rfl⟩ <;> rfl

end

theorem State.holdExpired_diag {s : State} (ha : s.sup.policy.faultAction = .diag) : s.holdExpired =
    ((s.asFallLeft.accept .diag false .supervisor (s.asFallLeft.answerTo .diag)).returnSup).escalated .faultHoldoff .diag
      (match s.asFallLeft.answerTo .diag with
        | .begun _ => .taken
        | _ => .skipped) s.openNumber := by
  rw [State.holdExpired, ha] <;> rfl

/-! ## The outcomes with no fall of PG (R167 to R169) -/

/-- GIVEN_UP at part time `d` (R167, R168). -/
theorem State.giveUp_givesUp (tr : Trigger) (a : SupAction) (d : PartTime) (s : State) :
    s.givesUp tr a d ((State.giveUp a { s with time := d }).escalated tr a .givenUp s.openNumber) ∧
    ((State.giveUp a { s with time := d }).escalated tr a .givenUp s.openNumber).time = d := by
  rw [State.giveUp_eq, State.recordFault_eq]
  obtain ⟨fl, hesc, hboot, hkept⟩ := State.escalated_eq tr a .givenUp s.openNumber _
  rw [hesc]
  refine ⟨⟨⟨rfl, rfl, rfl, rfl⟩, rfl, State.failsPending_of (u := { s with time := d }) rfl rfl, ⟨rfl, hboot⟩, rfl,
    hkept _ ?_, rfl, rfl, rfl⟩, rfl⟩
  dsimp only
  split
  · assumption
  · simp

theorem State.outputCond_phase {s : State} {a : ActionRec} {p : Phase} (ha : s.power.last = some a)
    (hp : a.phase = some p) {o : Output} (ho : phaseOutput p = some o) :
    s.outputCond o = if s.inReset = true then .released else .active := by
  have hphase : s.phase.bind phaseOutput = some o := by
    rw [State.phase, ha]
    dsimp only [Option.bind]
    rw [hp]
    exact ho
  rw [State.outputCond, hphase, if_pos rfl]

theorem State.beginAction_frame (k : ActionKind) (esc : Bool) (r : Requester) (p : Phase) (s : State) :
    ∃ w l u, s.beginAction k esc r p = { s with power := w, link := l, usb := u } :=
  s.accept_frame k esc r (.begun p)

/-- A RESET or CYCLE begun at part time `d` (R169). -/
theorem State.supBegun_begins (tr : Trigger) (a : SupAction) (k : ActionKind) (p : Phase) (d : PartTime) (s : State) :
    s.supBegins tr a k p d (((State.beginAction k false .supervisor p { s with time := d }).supBegun).escalated tr a
      .taken s.openNumber) ∧
    (((State.beginAction k false .supervisor p { s with time := d }).supBegun).escalated tr a
      .taken s.openNumber).time = d ∧
    (((State.beginAction k false .supervisor p { s with time := d }).supBegun).escalated tr a
      .taken s.openNumber).pgHigh = s.pgHigh := by
  have hin := State.beginAction_entered k false .supervisor p { s with time := d }
  obtain ⟨w, l, u, hframe⟩ := State.beginAction_frame k false .supervisor p { s with time := d }
  have hreset : (State.beginAction k false .supervisor p { s with time := d }).inReset = s.inReset := by rw [hframe]
  generalize State.beginAction k false .supervisor p { s with time := d } = v at hin hreset
  obtain ⟨fl, hesc, hboot, -⟩ := State.escalated_eq tr a .taken s.openNumber v.supBegun
  rw [hesc, State.supBegun_eq]
  have hsup : v.sup = s.sup := hin.sup
  have hlast : v.power.last = some (begunRecord k false .supervisor p d s.power.cfg) := hin.last
  refine ⟨⟨⟨rfl, rfl, rfl, rfl⟩, ?_, State.failsPending_of (congrArg Supervisor.epochs hsup) rfl, ⟨?_, hboot⟩,
    ⟨hlast, hin.prior⟩, fun o ho => ?_, fun hp => ?_, hin.other, hin.faults, hin.mem⟩, hin.time,
    congrArg SenseIn.level hin.pg⟩
  · dsimp only
    rw [hsup]
  · dsimp only
    rw [hin.time]
    rfl
  · refine (State.outputCond_phase (s := { v with sup := _, link := _ }) hlast rfl ho).trans ?_
    rw [← hreset]
  · obtain ⟨hmask, hep⟩ := hin.pulse hp
    exact ⟨hmask, hep, hin.held hp (Option.some_ne_none _)⟩

/-- The return from a hold-off, seen from a state that agrees on the supervisor (R168). -/
theorem State.returnSup_returns {s v : State} {d : PartTime} (ht : v.time = d) (hs : v.sup = s.sup) :
    s.returnsAt d v.returnSup := by
  refine ⟨rfl, rfl, ?_, ?_, fun hr => ?_, fun hr => ?_⟩
  · exact show v.sup.attempts = s.sup.attempts by rw [hs]
  · exact show v.sup.epochs = s.sup.epochs by rw [hs]
  · rw [State.returnSup, State.modSup, State.bootDue, State.after, hs, ht, hr]
    exact ⟨rfl, rfl⟩
  · rw [State.returnSup, State.modSup, hs, hr]
    exact ⟨rfl, rfl⟩

/-! ## The expiries (R166 to R168) -/

theorem State.not_settlesTo {s : State} {d : PartTime} (h : ¬s.fallDue d) : settlesTo false s.power.pg ≠ some d := by
  intro hs
  rw [settlesTo] at hs
  split at hs
  · next hc =>
    obtain ⟨hpin, hlevel⟩ := hc
    refine h ?_
    rw [State.fallDue]
    cases hpg : s.power.pg with
    | mk pin level settling =>
      rw [hpg] at hpin hlevel hs
      rw [show pin = false from hpin, show level = true from Bool.eq_true_of_not_eq_false hlevel,
        show settling = some d from hs]
  · cases hs

section
variable {s : State} {d : PartTime} (hreach : s.reaches d = true)
include hreach

theorem exec_bootTimerExpiry (hb : s.sup.bootTimer = some d) (hw : s.sup.state = .waiting) :
    exec .bootTimerExpiry s = .next (State.closeFall s (State.bootExpired { s with time := d })) := by
  refine congrArg Host.Outcome.next ((if_pos hw).trans ?_)
  rw [hb, State.atDeadline_due hreach]
  obtain ⟨w, l, u, v, fa, h⟩ := State.bootExpired_frame { s with time := d }
  rw [h]
  obtain ⟨u', m, p, x, h⟩ := State.closeFall_frame s _
  rw [h]
  exact State.settle_same rfl rfl rfl rfl

theorem exec_holdOffExpiry (hh : s.sup.holdTimer = some d) :
    exec .holdOffExpiry s = .next (State.closeFall s (State.holdExpired { s with time := d })) := by
  refine congrArg Host.Outcome.next ?_
  rw [hh, State.atDeadline_due hreach]
  obtain ⟨w, l, u, v, fa, h⟩ := State.holdExpired_frame { s with time := d }
  rw [h]
  obtain ⟨u', m, p, x, h⟩ := State.closeFall_frame s _
  rw [h]
  exact State.settle_same rfl rfl rfl rfl

/-- An expiry that leaves PG as it was. -/
theorem State.bootTimer_expires (hb : s.sup.bootTimer = some d) (hw : s.sup.state = .waiting) {t : State}
    (ht : State.bootExpired { s with time := d } = t) (hpg : t.pgHigh = s.pgHigh) : exec .bootTimerExpiry s = .next t := by
  rw [exec_bootTimerExpiry hreach hb hw, ht, State.closeFall_of_same hpg]

theorem State.holdOff_expires (hh : s.sup.holdTimer = some d) {t : State}
    (ht : State.holdExpired { s with time := d } = t) (hpg : t.pgHigh = s.pgHigh) : exec .holdOffExpiry s = .next t := by
  rw [exec_holdOffExpiry hreach hh, ht, State.closeFall_of_same hpg]

end

/-- The answer to a RESET or CYCLE of the supervisor that begins (R146). -/
theorem State.answerTo_begun {s : State} {a : SupAction} {k : ActionKind} {p : Phase} (h : s.supPhase a k p)
    (hfree : s.action = none) : s.answerTo k = .begun p ∧ (a = .reset ∧ k = .reset ∨ a = .cycle ∧ k = .cycle) := by
  rw [State.answerTo_free hfree]
  rcases h with ⟨rfl, rfl, rfl, hpg⟩ | ⟨rfl, rfl, ⟨rfl, hpg⟩ | ⟨rfl, hpg⟩⟩
  · exact ⟨by rw [show s.power.pg.level = true from hpg]; rfl, .inl ⟨rfl, rfl⟩⟩
  · exact ⟨by rw [show s.power.pg.level = true from hpg]; rfl, .inr ⟨rfl, rfl⟩⟩
  · exact ⟨by rw [show s.power.pg.level = false from hpg]; rfl, .inr ⟨rfl, rfl⟩⟩

/-- The answer to a request of the supervisor that is refused (R146). -/
theorem State.answerTo_refused {s : State} {k : ActionKind}
    (h : s.action.isSome = true ∨ (k = .reset ∨ k = .diag) ∧ s.pgHigh = false) :
    s.answerTo k = .busy ∨ s.answerTo k = .wrongState := by
  rcases h with h | ⟨hk, hpg⟩
  · exact .inl (State.answerTo_busy h k)
  · obtain ⟨hdiag, hreset, -⟩ := State.answerTo_off hpg
    rcases hk with rfl | rfl
    · exact hreset
    · exact hdiag

theorem State.holdExpired_notify {s : State} (ha : s.sup.policy.faultAction = .notify) :
    s.holdExpired = s.returnSup.escalated .faultHoldoff .notify .taken s.openNumber := by
  rw [State.holdExpired, ha]

theorem State.bootExpired_notify {s : State} (ha : s.sup.policy.timeoutAction = .notify) :
    s.bootExpired = ((s.settlePending .failed).modSup fun u => { u with state := .idle, bootTimer := none }).escalated
      .bootTimeout .notify .taken s.openNumber := by
  rw [State.bootExpired, ha]

/-- A skipped request of the hold-off, and NOTIFY: the return alone (R168). -/
theorem State.returnSup_escalated (a : SupAction) (o : EscOutcome) (d : PartTime) (s : State) :
    ((State.returnSup { s with time := d }).escalated .faultHoldoff a o s.openNumber).time = d ∧
    s.returnsAt d ((State.returnSup { s with time := d }).escalated .faultHoldoff a o s.openNumber) ∧
    s.escalatedAs .faultHoldoff a o d ((State.returnSup { s with time := d }).escalated .faultHoldoff a o s.openNumber) ∧
    ((State.returnSup { s with time := d }).escalated .faultHoldoff a o s.openNumber).power = s.power ∧
    ((State.returnSup { s with time := d }).escalated .faultHoldoff a o s.openNumber).faults = s.faults ∧
    ((State.returnSup { s with time := d }).escalated .faultHoldoff a o s.openNumber).usb = s.usb ∧
    ((State.returnSup { s with time := d }).escalated .faultHoldoff a o s.openNumber).mem = s.mem := by
  have hret : s.returnsAt d (State.returnSup { s with time := d }) :=
    State.returnSup_returns (v := { s with time := d }) rfl rfl
  obtain ⟨fl, hesc, hboot, -⟩ := State.escalated_eq .faultHoldoff a o s.openNumber (State.returnSup { s with time := d })
  rw [hesc]
  exact ⟨rfl, hret, ⟨rfl, hboot⟩, rfl, rfl, rfl, rfl⟩

/-- A DIAG begun at the hold-off's end (R168). -/
theorem State.diag_begins (d : PartTime) (s : State) : ∃ t : State,
    ((State.beginAction .diag false .supervisor .diagPulse { s with time := d }).returnSup).escalated .faultHoldoff .diag
      .taken s.openNumber = t ∧ t.pgHigh = s.pgHigh ∧ t.time = d ∧ s.returnsAt d t ∧
    s.escalatedAs .faultHoldoff .diag .taken d t ∧ s.supActs .diag .diagPulse d t ∧
    t.power.mask = s.power.mask ∧ t.faults = s.faults ∧ t.mem = s.mem := by
  have hin := State.beginAction_entered .diag false .supervisor .diagPulse { s with time := d }
  generalize State.beginAction .diag false .supervisor .diagPulse { s with time := d } = v at hin
  have htime : v.time = d := hin.time
  have hret : s.returnsAt d v.returnSup := State.returnSup_returns htime hin.sup
  obtain ⟨hmask, -⟩ := hin.other (by decide)
  obtain ⟨fl, hesc, hboot, -⟩ := State.escalated_eq .faultHoldoff .diag .taken s.openNumber v.returnSup
  refine ⟨_, rfl, ?_⟩
  rw [hesc]
  refine ⟨congrArg SenseIn.level hin.pg, htime, hret, ⟨?_, hboot⟩, ⟨hin.last, hin.prior⟩, hmask, hin.faults, hin.mem⟩
  rw [← htime]
  rfl

/-! ## An expiry at the moment of a PG fall (R172) -/

/-- The close of a fall with an epoch open, whole. -/
theorem State.fallClose_open {v : State} {e : EpochRec} (he : v.openEpoch = some e) (c : EndCause) :
    v.fallClose c = { v with
      sup := { v.sup with
        epochs := v.sup.epochs.dropLast ++ [e.closed c v.time], bootTimer := none, holdTimer := none, ret := none,
        state := if v.sup.state = .givenUp then .givenUp else .idle }
      markers := vmap v.markers fun m => { m with spent := false }
      ports := vmap v.ports Port.gateBegin
      usb := v.usb.followed v.shouldConnect } := by
  rw [State.fallClose, State.closeEpoch_some he, State.updateConnection_eq]
  rfl

/-- What a skipped request may change: the supervisor's timers, its return state, and its state but for GIVEN_UP. -/
def State.skips (v t : State) : Prop :=
  ∃ b h r x, t = { v with sup := { v.sup with bootTimer := b, holdTimer := h, ret := r, state := x } } ∧
    (x = .givenUp ↔ v.sup.state = .givenUp)

theorem State.skips_restartBoot (v : State) : v.skips v.restartBoot := ⟨_, _, _, _, rfl, Iff.rfl⟩

theorem State.skips_returnSup {v : State} (h : v.sup.state ≠ .givenUp) : v.skips v.returnSup := by
  refine ⟨_, _, _, _, rfl, iff_of_false ?_ h⟩
  split
  · exact fun h => by cases h
  · exact fun h => by cases h
  · exact h

/-- The close of a fall undoes what a skipped request left of the supervisor, but for its escalation record. -/
theorem State.fallClose_skipped {v t : State} {e : EpochRec} (he : v.openEpoch = some e) (ht : v.skips t) (c : EndCause)
    (tr : Trigger) (a : SupAction) (n : Nat) :
    State.fallClose c (t.escalated tr a .skipped n) = State.setFlag .boot { v.fallClose c with
      sup := { (v.fallClose c).sup with
        lastEsc := some { trigger := tr, action := a, outcome := .skipped, time := v.time, epoch := n } } } := by
  obtain ⟨b, h, r, x, rfl, hx⟩ := ht
  rw [State.fallClose_open he]
  generalize hw : State.escalated tr a .skipped n _ = w
  rw [State.escalated, State.setFlag_eq] at hw
  have hopen : w.openEpoch = some e := by
    rw [← hw]
    exact he
  have hstate : (if x = .givenUp then SupState.givenUp else .idle) =
      if v.sup.state = .givenUp then .givenUp else .idle := if_congr hx rfl rfl
  rw [State.fallClose_open hopen, State.setFlag_eq, ← hstate, ← hw]
  rfl

/-- The sequencer at a fall that is due, and the pin as it then stands. -/
theorem State.fallAction_due {s : State} {d : PartTime} (h : s.fallDue d) :
    State.asFallLeft { s with time := d } = State.fallAction { s with time := d } ∧
    ∃ w l fa u, State.fallAction { s with time := d } =
      { s with time := d, power := w, link := l, faults := fa, usb := u } ∧ w.pg.level = false := by
  have hpg : s.power.pg = { pin := false, level := true, settling := some d } := h
  obtain ⟨w, l, fa, u, hframe⟩ := State.fallAction_frame (s := { s with time := d }) (congrArg SenseIn.pin hpg)
  have hlow := State.fallAction_pg (s := { s with time := d }) (congrArg SenseIn.pin hpg)
  refine ⟨State.asFallLeft_of_due ?_, w, l, fa, u, hframe, ?_⟩
  · rw [show (State.power { s with time := d }).pg = _ from hpg]
    rfl
  · rw [hframe] at hlow
    exact congrArg SenseIn.level hlow

theorem exec_pgFall_due {s : State} {d : PartTime} (h : s.fallDue d) (hreach : s.reaches d = true) :
    exec .pgFall s = .next ((State.fallAction { s with time := d }).fallClose (fallCause s.phase)) := by
  have hpg : s.power.pg = { pin := false, level := true, settling := some d } := h
  refine congrArg Host.Outcome.next (State.pgEdge_due (v := false) hreach ?_ ?_ ?_ State.fall)
  · rw [hpg]
  · rw [hpg]
  · rw [hpg]
    exact Bool.false_ne_true.symm

theorem State.closeFall_fallen {s t : State} {d : PartTime} (h : s.fallDue d) (ht : t.pgHigh = false) :
    State.closeFall s t = t.fallClose (fallCause s.phase) := by
  have hpg : s.pgHigh = true := congrArg SenseIn.level (show s.power.pg = _ from h)
  exact if_pos (by rw [hpg, ht]; rfl)

/-- A CYCLE begun at the moment of a fall, the close after it (R169, R172): `v` is the state with the sequencer as the
fall left it. -/
theorem State.cycle_at_fall {v : State} {e : EpochRec} (he : v.openEpoch = some e) (hpg : v.power.pg.level = false)
    (tr : Trigger) (a : SupAction) (c : EndCause) : ∃ t : State,
    State.fallClose c (((State.beginAction .cycle false .supervisor .pressOn v).supBegun).escalated tr a .taken e.number)
      = t ∧ t.time = v.time ∧ t.supStopped .idle ∧ t.sup.attempts = v.sup.attempts + 1 ∧
    t.sup.lastEsc = some { trigger := tr, action := a, outcome := .taken, time := v.time, epoch := e.number } ∧
    Report.boot ∈ t.link.flags ∧ (v.fallClose c).supActs .cycle .pressOn v.time t ∧
    (∀ o, phaseOutput .pressOn = some o → t.outputCond o = if v.inReset = true then .released else .active) ∧
    t.sup.epochs.getLast? = some { e with
      endTime := some v.time, endCause := some c, status := if e.status = .pending then .failed else e.status } ∧
    t.openEpoch = none ∧ t.power.pg = v.power.pg ∧ t.power.mask = v.power.mask ∧ t.usb.connected = false ∧
    t.ports = (v.fallClose c).ports ∧ t.markers = (v.fallClose c).markers ∧ t.faults = v.faults ∧ t.mem = v.mem := by
  have hin := State.beginAction_entered .cycle false .supervisor .pressOn v
  obtain ⟨w, l, u, hframe⟩ := State.beginAction_frame .cycle false .supervisor .pressOn v
  have hreset : (State.beginAction .cycle false .supervisor .pressOn v).inReset = v.inReset := by rw [hframe]
  generalize State.beginAction .cycle false .supervisor .pressOn v = x at hin hreset
  have hsup : x.sup = v.sup := hin.sup
  have htime : x.time = v.time := hin.time
  have hlast : x.power.last = some (begunRecord .cycle false .supervisor .pressOn v.time v.power.cfg) := hin.last
  obtain ⟨hmask, -⟩ := hin.other (by decide)
  have hopen := State.failsPending_of (s := v) (u := x) (t := x.supBegun) (congrArg Supervisor.epochs hsup)
    (by rw [State.supBegun_eq]) e he
  obtain ⟨fl, hw, hboot, -⟩ := State.escalated_eq tr a .taken e.number x.supBegun
  generalize x.supBegun.escalated tr a .taken e.number = w at hw
  have hwopen : w.openEpoch = some { e with status := if e.status = .pending then .failed else e.status } :=
    (State.openEpoch_congr (by rw [hw])).trans hopen
  have hwtime : w.time = v.time := by rw [hw, ← htime, State.supBegun_eq]
  have hattempts : w.sup.attempts = v.sup.attempts + 1 := by rw [hw, ← hsup, State.supBegun_eq]
  have hstate : w.sup.state = .idle := by rw [hw, State.supBegun_eq]
  have hrec : w.sup.lastEsc = some
      { trigger := tr, action := a, outcome := .taken, time := v.time, epoch := e.number } := by
    rw [hw, ← htime, State.supBegun_eq]
  have hpower : w.power = x.power := by rw [hw, State.supBegun_eq]
  have hports : w.ports = v.ports := by rw [hw, State.supBegun_eq]; exact hin.ports
  have hmarkers : w.markers = v.markers := by rw [hw, State.supBegun_eq]; exact hin.markers
  have hfaults : w.faults = v.faults := by rw [hw, State.supBegun_eq]; exact hin.faults
  have hmem : w.mem = v.mem := by rw [hw, State.supBegun_eq]; exact hin.mem
  have hwreset : w.inReset = v.inReset := by rw [hw, State.supBegun_eq]; exact hreset
  have hflag : Report.boot ∈ w.link.flags := by rw [hw]; exact hboot
  have hcon : w.shouldConnect = false := by
    rw [State.shouldConnect, State.pgHigh, hpower, hin.pg]
    exact (congrArg (fun b => b && !w.serverInReset && w.medCfg.portEnable) hpg).trans rfl
  have hstatus : (if (if e.status = .pending then BootStatus.failed else e.status) = .pending then .endedUnsettled
      else if e.status = .pending then .failed else e.status) = if e.status = .pending then .failed else e.status := by
    by_cases hp : e.status = .pending
    · rw [if_pos hp]
      rfl
    · rw [if_neg hp, if_neg hp]
  refine ⟨_, State.fallClose_open hwopen c, hwtime, ⟨?_, rfl, rfl, rfl⟩, hattempts, hrec, hflag, ⟨?_, ?_⟩, fun o ho => ?_,
    ?_, ?_, ?_, ?_, ?_, ?_, ?_, hfaults, hmem⟩
  · dsimp only
    rw [hstate]
    rfl
  · rw [State.fallClose_open he c]
    exact (congrArg PowerSeq.last hpower).trans hlast
  · rw [State.fallClose_open he c]
    exact (congrArg PowerSeq.prior hpower).trans hin.prior
  · refine (State.outputCond_phase (s := { w with sup := _, markers := _, ports := _, usb := _ })
      ((congrArg PowerSeq.last hpower).trans hlast) rfl ho).trans ?_
    rw [← hwreset]
  · dsimp only
    rw [List.getLast?_concat, EpochRec.closed, hwtime, hstatus]
  · rw [State.openEpoch]
    dsimp only
    rw [List.getLast?_concat]
    rfl
  · exact (congrArg PowerSeq.pg hpower).trans hin.pg
  · exact (congrArg PowerSeq.mask hpower).trans hmask
  · dsimp only
    rw [hcon]
    exact ServerPort.followed_connected false _
  · rw [State.fallClose_open he c]
    dsimp only
    rw [hports]
  · rw [State.fallClose_open he c]
    dsimp only
    rw [hmarkers]

/-! ## The obligation, by the timer and by what is due with it -/

/-- A RESET or CYCLE with no fall due, for either timer: given up at the limit, or begun (R167 to R169). -/
theorem State.request_expires {s : State} {d : PartTime} {tr : Trigger} {c : Instr} {a : SupAction} {k : ActionKind} {refused : State → State}
    (hak : a = .reset ∧ k = .reset ∨ a = .cycle ∧ k = .cycle)
    (hexec : ∀ t, State.supRequest tr a k refused { s with time := d } = t → t.pgHigh = s.pgHigh → exec c s = .next t) :
    (s.sup.policy.maxAttempts ≤ s.sup.attempts →
      ∃ t : State, exec c s = .next t ∧ t.time = d ∧ s.givesUp tr a d t) ∧
    (∀ p, s.supPhase a k p → s.action = none → s.sup.attempts < s.sup.policy.maxAttempts → ¬s.fallDue d →
      ∃ t : State, exec c s = .next t ∧ t.time = d ∧ s.supBegins tr a k p d t) ∧
    (a = .reset ∧ (s.action.isSome = true ∨ s.pgHigh = false) ∨ a = .cycle ∧ s.action.isSome = true →
      s.sup.attempts < s.sup.policy.maxAttempts → ¬s.fallDue d →
      ∀ t, (refused { s with time := d }).escalated tr a .skipped s.openNumber = t → t.pgHigh = s.pgHigh →
        exec c s = .next t) := by
  refine ⟨fun hmax => ?_, fun p hp hfree hlt hno => ?_, fun hskip hlt hno t ht hpg => ?_⟩
  · obtain ⟨hgives, htime⟩ := State.giveUp_givesUp tr a d s
    obtain ⟨-, -, -, -, -, -, hpower, -⟩ := id hgives
    exact ⟨_, hexec _ (State.supRequest_spent hmax) (congrArg (fun w => w.pg.level) hpower), htime, hgives⟩
  · have hleft := State.asFallLeft_of_none (s := { s with time := d }) (State.not_settlesTo hno)
    obtain ⟨hans, -⟩ := State.answerTo_begun hp hfree
    obtain ⟨hbegins, htime, hpg⟩ := State.supBegun_begins tr a k p d s
    refine ⟨_, hexec _ ?_ hpg, htime, hbegins⟩
    rw [State.supRequest_begun (s := { s with time := d }) hlt (by rw [hleft]; exact hans), hleft]
    rfl
  · have hleft := State.asFallLeft_of_none (s := { s with time := d }) (State.not_settlesTo hno)
    have hans : s.answerTo k = .busy ∨ s.answerTo k = .wrongState := by
      refine State.answerTo_refused ?_
      rcases hak with ⟨rfl, rfl⟩ | ⟨rfl, rfl⟩
      · simpa using hskip
      · simpa using hskip
    refine hexec t ?_ hpg
    rw [State.supRequest_skipped (s := { s with time := d }) hlt (by rw [hleft]; exact hans), hleft]
    exact ht

section
variable {s : State} {d : PartTime} (hreach : s.reaches d = true)
include hreach

theorem bootTimer_expiries {a : SupAction} (hb : s.sup.bootTimer = some d) (hw : s.sup.state = .waiting)
    (ha : s.sup.policy.timeoutAction = a) :
    (a = .notify → ∃ t : State, exec .bootTimerExpiry s = .next t ∧ t.time = d ∧ t.sup.state = .idle ∧
      t.sup.bootTimer = none ∧ t.sup.attempts = s.sup.attempts ∧ s.failsPending t ∧
      s.escalatedAs .bootTimeout a .taken d t ∧ t.power = s.power ∧ t.faults = s.faults ∧ t.usb = s.usb ∧
      t.mem = s.mem) ∧
    (a = .reset ∨ a = .cycle → s.sup.policy.maxAttempts ≤ s.sup.attempts → ∃ t : State,
      exec .bootTimerExpiry s = .next t ∧ t.time = d ∧ s.givesUp .bootTimeout a d t) ∧
    (a = .reset ∧ (s.action.isSome = true ∨ s.pgHigh = false) ∨ a = .cycle ∧ s.action.isSome = true →
      s.sup.attempts < s.sup.policy.maxAttempts → ¬s.fallDue d →
      exec .bootTimerExpiry s = .next (State.setFlag .boot { s with time := d, sup := { s.sup with
        bootTimer := some (d + BitVec.ofNat 32 (1000 * s.sup.policy.bootTimeout)),
        lastEsc := some { trigger := .bootTimeout, action := a, outcome := .skipped, time := d,
                          epoch := s.openNumber } } })) ∧
    ∀ k p, s.supPhase a k p → s.action = none → s.sup.attempts < s.sup.policy.maxAttempts → ¬s.fallDue d →
      ∃ t : State, exec .bootTimerExpiry s = .next t ∧ t.time = d ∧ s.supBegins .bootTimeout a k p d t := by
  have hrequest {k : ActionKind} (hak : a = .reset ∧ k = .reset ∨ a = .cycle ∧ k = .cycle) :=
    State.request_expires (k := k) (refused := State.restartBoot) hak (tr := .bootTimeout)
      (c := .bootTimerExpiry) fun t ht => State.bootTimer_expires hreach hb hw
        ((State.bootExpired_request (s := { s with time := d }) hak ha).trans ht)
  refine ⟨fun hn => ?_, fun hk hmax => ?_, fun hskip hlt hno => ?_, fun k p hp hfree hlt hno => ?_⟩
  · subst hn
    obtain ⟨es, hset⟩ := State.settlePending_frame .failed { s with time := d }
    have hes := congrArg (fun t => t.sup.epochs) hset
    obtain ⟨fl, hesc, hboot, -⟩ := State.escalated_eq .bootTimeout .notify .taken s.openNumber
      ((State.settlePending .failed { s with time := d }).modSup fun u => { u with state := .idle, bootTimer := none })
    refine ⟨_, State.bootTimer_expires hreach hb hw
      ((State.bootExpired_notify (s := { s with time := d }) ha).trans hesc) ?_, ?_⟩
    · rw [hset]
      rfl
    · refine ⟨?_, rfl, rfl, ?_, State.failsPending_of (u := { s with time := d }) rfl rfl, ⟨?_, hboot⟩, ?_, ?_, ?_, ?_⟩ <;>
        rw [hset] <;> rfl
  · rcases hk with rfl | rfl
    · exact (hrequest (.inl ⟨rfl, rfl⟩)).1 hmax
    · exact (hrequest (.inr ⟨rfl, rfl⟩)).1 hmax
  · have hgoal {k : ActionKind} (hak : a = .reset ∧ k = .reset ∨ a = .cycle ∧ k = .cycle) :=
      (hrequest hak).2.2 hskip hlt hno _ rfl
    rcases hskip with ⟨rfl, -⟩ | ⟨rfl, -⟩
    · exact hgoal (.inl ⟨rfl, rfl⟩) (by rw [State.escalated, State.setFlag_eq]; rfl)
    · exact hgoal (.inr ⟨rfl, rfl⟩) (by rw [State.escalated, State.setFlag_eq]; rfl)
  · obtain ⟨-, hak⟩ := State.answerTo_begun hp hfree
    exact (hrequest hak).2.1 p hp hfree hlt hno

theorem holdOff_expiries {a : SupAction} (hh : s.sup.holdTimer = some d) (ha : s.sup.policy.faultAction = a) :
    (a = .notify → ∃ t : State, exec .holdOffExpiry s = .next t ∧ t.time = d ∧ s.returnsAt d t ∧
      s.escalatedAs .faultHoldoff a .taken d t ∧ t.power = s.power ∧ t.faults = s.faults ∧ t.usb = s.usb ∧
      t.mem = s.mem) ∧
    (a = .diag → s.action = none → s.pgHigh = true → ¬s.fallDue d → ∃ t : State, exec .holdOffExpiry s = .next t ∧
      t.time = d ∧ s.returnsAt d t ∧ s.escalatedAs .faultHoldoff a .taken d t ∧ s.supActs .diag .diagPulse d t ∧
      t.power.mask = s.power.mask ∧ t.faults = s.faults ∧ t.mem = s.mem) ∧
    (a = .diag ∧ (s.action.isSome = true ∨ s.pgHigh = false) ∨
        s.sup.attempts < s.sup.policy.maxAttempts ∧
          (a = .reset ∧ (s.action.isSome = true ∨ s.pgHigh = false) ∨ a = .cycle ∧ s.action.isSome = true) →
      ¬s.fallDue d → ∃ t : State, exec .holdOffExpiry s = .next t ∧ t.time = d ∧ s.returnsAt d t ∧
        s.escalatedAs .faultHoldoff a .skipped d t ∧ t.power = s.power ∧ t.faults = s.faults ∧ t.usb = s.usb ∧
        t.mem = s.mem) ∧
    (a = .reset ∨ a = .cycle → s.sup.policy.maxAttempts ≤ s.sup.attempts → ∃ t : State,
      exec .holdOffExpiry s = .next t ∧ t.time = d ∧ s.givesUp .faultHoldoff a d t) ∧
    ∀ k p, s.supPhase a k p → s.action = none → s.sup.attempts < s.sup.policy.maxAttempts → ¬s.fallDue d →
      ∃ t : State, exec .holdOffExpiry s = .next t ∧ t.time = d ∧ s.supBegins .faultHoldoff a k p d t := by
  have hrequest {k : ActionKind} (hak : a = .reset ∧ k = .reset ∨ a = .cycle ∧ k = .cycle) :=
    State.request_expires (k := k) (refused := State.returnSup) hak (tr := .faultHoldoff)
      (c := .holdOffExpiry) fun t ht => State.holdOff_expires hreach hh
        ((State.holdExpired_request (s := { s with time := d }) hak ha).trans ht)
  refine ⟨fun hn => ?_, fun hdiag hfree hpg hno => ?_, fun hskip hno => ?_, fun hk hmax => ?_,
    fun k p hp hfree hlt hno => ?_⟩
  · subst hn
    have hret := State.returnSup_escalated .notify .taken d s
    obtain ⟨-, -, -, hpower, -⟩ := id hret
    exact ⟨_, State.holdOff_expires hreach hh (State.holdExpired_notify (s := { s with time := d }) ha)
      (congrArg (fun w => w.pg.level) hpower), hret⟩
  · subst hdiag
    have hleft := State.asFallLeft_of_none (s := { s with time := d }) (State.not_settlesTo hno)
    have hans : State.answerTo .diag { s with time := d } = .begun .diagPulse := by
      rw [State.answerTo_free (s := { s with time := d }) hfree, show s.power.pg.level = true from hpg]
      rfl
    obtain ⟨t, ht, hsame, hfacts⟩ := State.diag_begins d s
    refine ⟨t, State.holdOff_expires hreach hh ?_ hsame, hfacts⟩
    rw [State.holdExpired_diag (s := { s with time := d }) ha, hleft, hans, ← ht]
    rfl
  · have hret := State.returnSup_escalated a .skipped d s
    obtain ⟨-, -, -, hpower, -⟩ := id hret
    have hsame := congrArg (fun w => w.pg.level) hpower
    rcases hskip with ⟨rfl, hrefused⟩ | ⟨hlt, hrefused⟩
    · have hleft := State.asFallLeft_of_none (s := { s with time := d }) (State.not_settlesTo hno)
      have hans : State.answerTo .diag { s with time := d } = .busy ∨ State.answerTo .diag { s with time := d } = .wrongState :=
        State.answerTo_refused (s := { s with time := d }) (hrefused.imp_right fun h => ⟨.inr rfl, h⟩)
      refine ⟨_, State.holdOff_expires hreach hh ?_ hsame, hret⟩
      rw [State.holdExpired_diag (s := { s with time := d }) ha, hleft]
      rcases hans with hans | hans <;> rw [hans] <;> rfl
    · have hgoal {k : ActionKind} (hak : a = .reset ∧ k = .reset ∨ a = .cycle ∧ k = .cycle) :=
        (hrequest hak).2.2 hrefused hlt hno _ rfl hsame
      have hak : ∃ k, a = .reset ∧ k = ActionKind.reset ∨ a = .cycle ∧ k = ActionKind.cycle := by
        rcases hrefused with ⟨rfl, -⟩ | ⟨rfl, -⟩
        · exact ⟨_, .inl ⟨rfl, rfl⟩⟩
        · exact ⟨_, .inr ⟨rfl, rfl⟩⟩
      obtain ⟨k, hak⟩ := hak
      exact ⟨_, hgoal hak, hret⟩
  · rcases hk with rfl | rfl
    · exact (hrequest (.inl ⟨rfl, rfl⟩)).1 hmax
    · exact (hrequest (.inr ⟨rfl, rfl⟩)).1 hmax
  · obtain ⟨-, hak⟩ := State.answerTo_begun hp hfree
    exact (hrequest hak).2.1 p hp hfree hlt hno

end

/-- What an expiry leaves at the moment of a fall, before the close: `v` is the state with the sequencer as the fall left
it. -/
theorem State.expired_at_fall {s v : State} {tr : Trigger} {a : SupAction} {n : Nat}
    (hleft : s.asFallLeft = v) (hsup : v.sup = s.sup) (hpg : v.pgHigh = false) (hn : s.openNumber = n)
    (h : tr = .bootTimeout ∧ s.sup.policy.timeoutAction = a ∧ a ≠ .diag ∨
      tr = .faultHoldoff ∧ s.sup.policy.faultAction = a ∧ s.sup.state ≠ .givenUp) :
    ((a = .diag ∨ s.sup.attempts < s.sup.policy.maxAttempts ∧ (a = .reset ∨ a = .cycle ∧ v.action.isSome = true)) →
      ∃ t, v.skips t ∧ (if tr = .bootTimeout then s.bootExpired else s.holdExpired) = t.escalated tr a .skipped n) ∧
    (a = .cycle → v.action = none → s.sup.attempts < s.sup.policy.maxAttempts →
      (if tr = .bootTimeout then s.bootExpired else s.holdExpired) =
        ((v.beginAction .cycle false .supervisor .pressOn).supBegun).escalated tr a .taken n) := by
  subst hleft hn
  obtain ⟨hdiag, hreset, hbusy, hfree⟩ := State.answerTo_off hpg
  have hrequest {k : ActionKind} (hak : a = .reset ∧ k = .reset ∨ a = .cycle ∧ k = .cycle) : ∃ refused : State → State,
      s.asFallLeft.skips (refused s.asFallLeft) ∧ (if tr = .bootTimeout then s.bootExpired else s.holdExpired) =
        s.supRequest tr a k refused := by
    rcases h with ⟨rfl, ha, -⟩ | ⟨rfl, ha, hs⟩
    · exact ⟨_, State.skips_restartBoot _, State.bootExpired_request hak ha⟩
    · exact ⟨_, State.skips_returnSup (by rw [hsup]; exact hs), State.holdExpired_request hak ha⟩
  refine ⟨fun hskip => ?_, fun hc hnone hlt => ?_⟩
  · rcases hskip with rfl | ⟨hlt, rfl | ⟨rfl, hact⟩⟩
    · rcases h with ⟨-, -, hne⟩ | ⟨rfl, ha, hs⟩
      · exact absurd rfl hne
      · refine ⟨_, State.skips_returnSup (by rw [hsup]; exact hs), (State.holdExpired_diag ha).trans ?_⟩
        rcases hdiag with hans | hans <;> rw [hans] <;> rfl
    · obtain ⟨refused, hr, hexp⟩ := hrequest (.inl ⟨rfl, rfl⟩)
      exact ⟨_, hr, hexp.trans (State.supRequest_skipped hlt hreset)⟩
    · obtain ⟨refused, hr, hexp⟩ := hrequest (.inr ⟨rfl, rfl⟩)
      exact ⟨_, hr, hexp.trans (State.supRequest_skipped hlt (.inl (hbusy hact)))⟩
  · subst hc
    obtain ⟨refused, -, hexp⟩ := hrequest (.inr ⟨rfl, rfl⟩)
    exact hexp.trans (State.supRequest_begun hlt (hfree hnone))

/-- Settles O32. -/
theorem timersEscalate : Obligations.TimersEscalate := by
  refine fun s d hreach => ⟨fun hb hw => congrArg Host.Outcome.next (if_neg hw),
    fun a hb hw ha => bootTimer_expiries hreach hb hw ha, fun a hh ha => holdOff_expiries hreach hh ha,
    fun c tr a e f hfall hf he hc => ?_⟩
  obtain ⟨hleft, w, l, fa, u, hv, hlow⟩ := State.fallAction_due hfall
  rw [exec_pgFall_due hfall hreach] at hf
  obtain rfl := Host.Outcome.next.inj hf
  generalize State.fallAction { s with time := d } = v at hleft hv ⊢
  have hopen : v.openEpoch = some e := by
    rw [hv]
    exact he
  have hnumber : s.openNumber = e.number := by
    rw [State.openNumber, he]
    rfl
  obtain ⟨x, hclose, -⟩ := v.fallClose_eq (fallCause s.phase)
  have haction : (v.fallClose (fallCause s.phase)).action = v.action := by
    rw [hclose]
    rfl
  have hexpired := State.expired_at_fall (s := { s with time := d }) (tr := tr) (a := a) hleft (by rw [hv])
    (by rw [hv]; exact hlow) hnumber (by
      rcases hc with ⟨-, htr, -, -, ha, hne⟩ | ⟨-, htr, -, hs, ha⟩
      · exact .inl ⟨htr, ha.symm, hne⟩
      · exact .inr ⟨htr, ha.symm, hs⟩)
  have hexec : exec c s = .next (State.closeFall s
      (if tr = .bootTimeout then State.bootExpired { s with time := d } else State.holdExpired { s with time := d })) := by
    rcases hc with ⟨rfl, rfl, hb, hw, -⟩ | ⟨rfl, rfl, hh, -⟩
    · exact exec_bootTimerExpiry hreach hb hw
    · exact exec_holdOffExpiry hreach hh
  obtain ⟨hskips, hbegins⟩ := hexpired
  rw [haction, hexec]
  refine ⟨fun hskip => ?_, fun ha hfree hlt => ?_⟩
  · obtain ⟨t, ht, hexp⟩ := hskips hskip
    have htime : v.time = d := by rw [hv]
    have hpg : (t.escalated tr a .skipped e.number).pgHigh = false := by
      obtain ⟨b, h, r, y, rfl, -⟩ := ht
      obtain ⟨fl, hesc, -⟩ := State.escalated_eq tr a .skipped e.number
        { v with sup := { v.sup with bootTimer := b, holdTimer := h, ret := r, state := y } }
      rw [hesc, hv]
      exact hlow
    rw [hexp, State.closeFall_fallen hfall hpg, State.fallClose_skipped hopen ht, htime]
  · have hbegun := hbegins ha hfree hlt
    have hvlow : v.power.pg.level = false := by rw [hv]; exact hlow
    obtain ⟨t, ht, htime, hfacts⟩ := State.cycle_at_fall hopen hvlow tr a (fallCause s.phase)
    have hpg : ((v.beginAction .cycle false .supervisor .pressOn).supBegun.escalated tr a .taken e.number).pgHigh
        = false := by
      obtain ⟨fl, hesc, -⟩ := State.escalated_eq tr a .taken e.number
        (v.beginAction .cycle false .supervisor .pressOn).supBegun
      rw [hesc, State.supBegun_eq]
      exact (congrArg SenseIn.level (State.beginAction_entered .cycle false .supervisor .pressOn v).pg).trans hvlow
    refine ⟨t, ?_, ?_⟩
    · rw [hbegun, State.closeFall_fallen hfall hpg, ht]
    · rw [hclose] at hfacts ⊢
      rw [hv] at hfacts ⊢
      exact ⟨htime.trans (by rw [hv]), hfacts⟩

end Sys2Proof.Machine
end

/-! # The marker matcher, its hits and the supervisor's answers (R40 to R56, R166) -/

section
namespace Sys2Proof.Machine

/-! ## The filter, the tables and the window (R41 to R51) -/

theorem filterStep_normal (b : Byte) : filterStep .normal b = if b = 0x1B then (false, .esc) else (true, .normal) := rfl

theorem filterStep_esc (b : Byte) : filterStep .esc b = (false, if b = 0x5B then .csi else .normal) := by
  rw [apply_ite (Prod.mk false)]
  rfl

theorem filterStep_csi (b : Byte) :
    filterStep .csi b = (false, if 0x40 ≤ b.toNat ∧ b.toNat ≤ 0x7E then .normal else .csi) := by
  rw [apply_ite (Prod.mk false)]
  rfl

/-- The newest 32 bytes of a window of at most 32 with one more (R46). -/
theorem pushWindow_eq {w : List Byte} (h : w.length ≤ 32) (t : Byte) :
    pushWindow w t = (w ++ [t]).drop (w.length + 1 - 32) := by
  rw [pushWindow]
  by_cases hlt : w.length < 32
  · rw [if_pos hlt, show w.length + 1 - 32 = 0 by omega, List.drop_zero]
  · rw [if_neg hlt, show w.length + 1 - 32 = 1 by omega]
    cases w with
    | nil => exact absurd (by decide) hlt
    | cons x xs => rfl

theorem hitsOn_eq (m : Marker) (port : PortId) (w : List Byte) : hitsOn m port w =
    decide (m.cfg.enabled = true ∧ m.cfg.mask.getLsbD port.val = true ∧ m.cfg.pattern <:+ w ∧
      ¬(m.cfg.once = true ∧ m.spent = true)) := by
  have hsuffix : (m.cfg.pattern.length ≤ w.length ∧ w.drop (w.length - m.cfg.pattern.length) = m.cfg.pattern) ↔
      m.cfg.pattern <:+ w :=
    ⟨fun ⟨_, h⟩ => List.suffix_iff_eq_drop.2 h.symm, fun h => ⟨h.length_le, (List.suffix_iff_eq_drop.1 h).symm⟩⟩
  rw [Bool.eq_iff_iff, decide_eq_true_iff, ← hsuffix, hitsOn]
  simp only [Bool.and_eq_true, Bool.not_eq_true', decide_eq_true_eq, and_assoc, Bool.and_eq_false_iff, not_and_or,
    Bool.not_eq_true]

section
variable {s : State} {port : PortId} {b : Byte} {passed : Bool} {f : FilterState}
  (hf : s.ports[port].filtered b = (passed, f))
include hf

theorem State.matchByte_stops (pos : Nat)
    (h : passed = false ∨ s.translate s.ports[port].cfg.translation b = none) :
    s.matchByte port pos b = { s with ports := vupd s.ports port fun q => { q with filter := f } } := by
  rw [State.matchByte_eq, hf]
  dsimp only
  rcases h with rfl | h
  · rfl
  · rw [h]
    exact ite_self _

theorem State.matchByte_goes (pos : Nat) {t : Byte} (hp : passed = true)
    (h : s.translate s.ports[port].cfg.translation b = some t) :
    s.matchByte port pos b = (s.hitList port (pushWindow s.ports[port].window t)).foldl (State.hit port pos)
      { s with ports := vupd s.ports port fun q =>
        { q with filter := f, window := pushWindow s.ports[port].window t } } := by
  rw [State.matchByte_eq, hf, hp]
  dsimp only
  rw [if_pos rfl, h]
  dsimp only
  rw [State.modPort, State.modPort_ports, vupd_vupd]
  rfl

end

theorem State.translate_none {s : State} {x : Translation} {b : Byte}
    (h : (x = .t0 ∧ s.t0[b.toNat]'b.isLt = .skip) ∨ (x = .t1 ∧ s.t1[b.toNat]'b.isLt = .skip)) :
    s.translate x b = none := by
  rcases h with ⟨rfl, h⟩ | ⟨rfl, h⟩ <;> rw [State.translate, State.table] <;> dsimp only <;> rw [h]

theorem State.translate_some {s : State} {x : Translation} {b t : Byte}
    (h : x = .none ∧ t = b ∨ x = .t0 ∧ s.t0[b.toNat]'b.isLt = .replace t ∨ x = .t1 ∧ s.t1[b.toNat]'b.isLt = .replace t) :
    s.translate x b = some t := by
  rcases h with ⟨rfl, rfl⟩ | ⟨rfl, h⟩ | ⟨rfl, h⟩
  · rfl
  · rw [State.translate, State.table]
    dsimp only
    rw [h]
  · rw [State.translate, State.table]
    dsimp only
    rw [h]

/-! ## The record of a hit (R52 to R55) -/

/-- The part of a hit that offers a text: the ports alone change (R19, R20, R52). -/
theorem State.offerInject_spec (port : PortId) (m : Fin 16) (c : MarkerCfg) (s : State) : ∃ ps,
    (s.offerInject port m c).2 = { s with ports := ps } ∧
    (!(s.offerInject port m c).1) = decide (c.role = .inject ∧ s.ports[port].slot ≠ none) ∧
    (c.role ≠ .inject ∨ s.ports[port].slot ≠ none → ps = s.ports) ∧
    (c.role = .inject → s.ports[port].slot = none →
      (128 - s.ports[port].queue.length < c.inject.length →
        ps = (State.kick port { s with ports := vupd s.ports port fun q =>
          { q with slot := some { marker := m, text := c.inject } } }).ports) ∧
      (c.inject.length ≤ 128 - s.ports[port].queue.length →
        ps = (State.kick port { s with ports := vupd s.ports port fun q =>
          { q with queue := q.queue ++ c.inject.map .byte } }).ports)) := by
  rw [State.offerInject]
  by_cases hr : c.role = .inject
  · rw [if_pos hr, State.offerText]
    cases hslot : s.ports[port].slot with
    | some y =>
      refine ⟨s.ports, rfl, ?_, fun _ => rfl, fun _ h => by cases h⟩
      simp [hr]
    | none =>
      obtain ⟨ps, hkick⟩ := State.kick_frame port
        (s.modPort port fun p => Port.moveText { p with slot := some { marker := m, text := c.inject } })
      refine ⟨ps, hkick, by simp, fun h => ?_, fun _ _ => ⟨fun hlong => ?_, fun hfits => ?_⟩⟩
      · rcases h with h | h
        · exact absurd hr h
        · exact absurd rfl h
      · refine (congrArg State.ports hkick).symm.trans ?_
        have hwaits : Port.moveText { s.ports[port] with slot := some { marker := m, text := c.inject } } =
            { s.ports[port] with slot := some { marker := m, text := c.inject } } := Port.moveText_waits rfl hlong
        rw [State.modPort, vupd_congr (g := fun q => { q with slot := some { marker := m, text := c.inject } }) hwaits]
      · have hmoved : Port.moveText { s.ports[port] with slot := some { marker := m, text := c.inject } } =
            { s.ports[port] with queue := s.ports[port].queue ++ c.inject.map .byte } := by
          refine (Port.moveText_moves (p := { s.ports[port] with slot := some { marker := m, text := c.inject } })
            (y := { marker := m, text := c.inject }) rfl hfits).trans ?_
          exact congrArg (fun x => { s.ports[port] with
            queue := s.ports[port].queue ++ c.inject.map TxEntry.byte, slot := x }) hslot.symm
        refine (congrArg State.ports hkick).symm.trans ?_
        rw [State.modPort, vupd_congr (g := fun q => { q with queue := q.queue ++ c.inject.map TxEntry.byte }) hmoved]
  · rw [if_neg hr]
    refine ⟨s.ports, rfl, ?_, fun _ => rfl, fun h => absurd h hr⟩
    simp [hr]

/-- A hit record offered to the open epoch: the epoch table alone changes (R53). -/
theorem State.appendHit_spec (h : HitRec) (s : State) : ∃ es,
    (s.appendHit h).2 = { s with sup := { s.sup with epochs := es } } ∧
    (s.appendHit h).1 = (s.openEpoch.map fun e => decide (e.hits.length < 31)).getD false ∧
    (s.appendHit h).2.openNumber = (s.openEpoch.map (·.number)).getD 0 ∧
    (∀ e, s.openEpoch = some e → e.hits.length < 31 →
      (s.appendHit h).2.openEpoch = some { e with hits := e.hits ++ [h] }) ∧
    (∀ e, s.openEpoch = some e → 31 ≤ e.hits.length → es = s.sup.epochs) ∧
    (s.openEpoch = none → es = s.sup.epochs) := by
  rw [State.appendHit]
  cases he : s.openEpoch with
  | none =>
    refine ⟨s.sup.epochs, rfl, rfl, ?_, fun e h => (by cases h), fun e h => (by cases h), fun _ => rfl⟩
    dsimp only
    rw [State.openNumber, he]
  | some e =>
    dsimp only
    by_cases hroom : e.hits.length < 31
    · have hopen : (s.modOpen fun e => { e with hits := e.hits ++ [h] }).openEpoch =
          some { e with hits := e.hits ++ [h] } := by
        rw [State.modOpen_some he]
        exact openEpoch_of_newest rfl (show e.endCause = none from State.endCause_of_open he)
      rw [if_pos hroom]
      refine ⟨_, State.modOpen_some he _, by simpa using hroom, ?_, fun x hx _ => ?_, fun x hx hfull => ?_,
        fun h => by cases h⟩
      · rw [State.openNumber, hopen]
        rfl
      · cases hx
        exact hopen
      · cases hx
        exact absurd hroom (by omega)
    · rw [if_neg hroom]
      refine ⟨s.sup.epochs, rfl, by simpa using hroom, ?_, fun x hx hlt => ?_, fun _ _ _ => rfl, fun _ => rfl⟩
      · dsimp only
        rw [State.openNumber, he]
      · cases hx
        exact absurd hlt hroom

/-- A kick reads the ports, the moment and the power state alone. -/
theorem State.kick_ports_congr {s t : State} (i : PortId) (hp : t.ports = s.ports) (ht : t.time = s.time)
    (hw : t.power = s.power) : (t.kick i).ports = (s.kick i).ports := by
  have hframing : t.framing t.ports[i] = s.framing s.ports[i] := by
    rw [State.framing, State.framing, State.gated, State.gated, State.pgHigh, State.pgHigh, hp, hw]
  rw [State.kick, State.kick, hframing]
  split
  · rw [State.modPort_ports, State.modPort_ports, hp, ht]
  · exact hp

theorem State.reportHit_eq (h : HitRec) (a : Bool) (s : State) : ∃ fl, s.reportHit h a = { s with
    markReg := { newest := some { hit := h, epoch := s.openNumber, appended := a },
                 count := if s.markReg.count < 255 then s.markReg.count + 1 else s.markReg.count }
    link := { s.link with flags := fl } } ∧ Report.mark ∈ fl := by
  refine ⟨_, State.setFlag_eq _ _, ?_⟩
  split
  · assumption
  · simp

/-- The record of a hit: an INJECT text that finds the slot occupied is dropped (R19, R52). -/
def State.hitOf (port : PortId) (pos : Nat) (m : Fin 16) (s : State) : HitRec :=
  s.hitRec port pos m (!decide (s.markers[m].cfg.role = .inject ∧ s.ports[port].slot ≠ none))

/-- A hit before the supervisor is told of it, whole (R52). -/
theorem State.recordHit_spec (port : PortId) (pos : Nat) (m : Fin 16) (s : State) : ∃ ps es mr fl,
    s.recordHit port pos m = { s.countHit m with
      ports := ps, sup := { s.sup with epochs := es }, markReg := mr, link := { s.link with flags := fl } } ∧
    (∀ e, s.openEpoch = some e → e.hits.length < 31 → (s.recordHit port pos m).openEpoch = some { e with
      hits := e.hits ++ [s.hitOf port pos m] }) ∧
    (∀ e, s.openEpoch = some e → 31 ≤ e.hits.length → es = s.sup.epochs) ∧
    (s.openEpoch = none → es = s.sup.epochs) ∧
    (s.markers[m].cfg.report = false → mr = s.markReg ∧ fl = s.link.flags) ∧
    (s.markers[m].cfg.report = true → Report.mark ∈ fl ∧ mr =
      { newest := some
          { hit := s.hitOf port pos m,
            epoch := (s.openEpoch.map (·.number)).getD 0,
            appended := (s.openEpoch.map fun e => decide (e.hits.length < 31)).getD false },
        count := if s.markReg.count < 255 then s.markReg.count + 1 else s.markReg.count }) ∧
    (s.markers[m].cfg.role ≠ .inject ∨ s.ports[port].slot ≠ none → ps = s.ports) ∧
    (s.markers[m].cfg.role = .inject → s.ports[port].slot = none →
      (128 - s.ports[port].queue.length < s.markers[m].cfg.inject.length →
        ps = (State.kick port { s with ports := vupd s.ports port fun q =>
          { q with slot := some { marker := m, text := s.markers[m].cfg.inject } } }).ports) ∧
      (s.markers[m].cfg.inject.length ≤ 128 - s.ports[port].queue.length →
        ps = (State.kick port { s with ports := vupd s.ports port fun q =>
          { q with queue := q.queue ++ s.markers[m].cfg.inject.map .byte } }).ports)) := by
  obtain ⟨ps, hoffered, hdropped, hkept, hinject⟩ := State.offerInject_spec port m s.markers[m].cfg (s.countHit m)
  have htaken : ((s.countHit m).offerInject port m s.markers[m].cfg).1 =
      !decide (s.markers[m].cfg.role = .inject ∧ s.ports[port].slot ≠ none) := by
    rw [← Bool.not_not ((s.countHit m).offerInject port m s.markers[m].cfg).1, hdropped]
    rfl
  obtain ⟨es, happended, hwhether, hnumber, hopen, hfull, hnone⟩ := State.appendHit_spec
    (s.hitOf port pos m)
    { s.countHit m with ports := ps }
  have hinj (hr : s.markers[m].cfg.role = .inject) (hslot : s.ports[port].slot = none) :
      (128 - s.ports[port].queue.length < s.markers[m].cfg.inject.length →
        ps = (State.kick port { s with ports := vupd s.ports port fun q =>
          { q with slot := some { marker := m, text := s.markers[m].cfg.inject } } }).ports) ∧
      (s.markers[m].cfg.inject.length ≤ 128 - s.ports[port].queue.length →
        ps = (State.kick port { s with ports := vupd s.ports port fun q =>
          { q with queue := q.queue ++ s.markers[m].cfg.inject.map .byte } }).ports) := by
    obtain ⟨hlong, hfits⟩ := hinject hr hslot
    exact ⟨fun h => (hlong h).trans (State.kick_ports_congr port rfl rfl rfl),
      fun h => (hfits h).trans (State.kick_ports_congr port rfl rfl rfl)⟩
  have hrecord : s.recordHit port pos m = if s.markers[m].cfg.report
      then (State.appendHit (s.hitOf port pos m) { s.countHit m with ports := ps }).2.reportHit (s.hitOf port pos m)
        (State.appendHit (s.hitOf port pos m) { s.countHit m with ports := ps }).1
      else (State.appendHit (s.hitOf port pos m) { s.countHit m with ports := ps }).2 := by
    rw [State.recordHit]
    dsimp only
    rw [htaken, hoffered]
    rfl
  rw [hrecord]
  generalize State.appendHit (s.hitOf port pos m) { s.countHit m with ports := ps } = r at *
  have hreg : r.2.markReg = s.markReg := by
    rw [happended]
    rfl
  by_cases hrep : s.markers[m].cfg.report = true
  · obtain ⟨fl, hreport, hmark⟩ := State.reportHit_eq (s.hitOf port pos m) r.1 r.2
    rw [hnumber, hwhether, hreg] at hreport
    rw [if_pos hrep, hwhether, hreport]
    refine ⟨ps, es, _, fl, ?_, hopen, hfull, hnone, fun h => ?_, fun _ => ⟨hmark, rfl⟩, hkept, hinj⟩
    · rw [happended]
      rfl
    · rw [h] at hrep
      cases hrep
  · rw [if_neg hrep]
    exact ⟨ps, es, s.markReg, s.link.flags, happended, hopen, hfull, hnone, fun _ => ⟨rfl, rfl⟩,
      fun h => absurd h hrep, hkept, hinj⟩

/-! ## The supervisor's answers (R166) -/

section
variable {s : State} {port : PortId}

theorem State.supHit_unwatched (h : s.sup.policy.watched.getLsbD port.val = false) (r : Role) :
    s.supHit r port = s :=
  if_neg (Bool.eq_false_iff.1 h)

variable (h : s.sup.policy.watched.getLsbD port.val = true)
include h

theorem State.supHit_bootOk :
    s.supHit .bootOk port = if s.sup.state = .waiting ∨ s.sup.state = .holdoff then s.satisfy else s := by
  refine (if_pos h).trans ?_
  cases s.sup.state <;> rfl

theorem State.supHit_progress : s.supHit .progress port =
    if s.sup.state = .waiting then s.modSup fun u => { u with bootTimer := some s.bootDue } else s := by
  refine (if_pos h).trans ?_
  cases s.sup.state <;> rfl

theorem State.supHit_fault_waiting (hs : s.sup.state = .waiting) : s.supHit .fault port = s.beginHoldOff .waiting := by
  refine (if_pos h).trans ?_
  rw [hs]

theorem State.supHit_fault_satisfied (hs : s.sup.state = .satisfied) :
    s.supHit .fault port = if s.sup.holdTimer = none then s.beginHoldOff .satisfied else s := by
  refine (if_pos h).trans ?_
  rw [hs]
  cases s.sup.holdTimer <;> rfl

theorem State.supHit_fault_other (hw : s.sup.state ≠ .waiting) (hs : s.sup.state ≠ .satisfied) :
    s.supHit .fault port = s := by
  refine (if_pos h).trans ?_
  cases hx : s.sup.state with
  | waiting => exact absurd hx hw
  | satisfied => exact absurd hx hs
  | idle | holdoff | givenUp => rfl

end

/-- A supervisor satisfied, before the eject of its policy: the epoch OK, the state SATISFIED, BOOT pending (R166). -/
def State.satisfied (s : State) : State :=
  State.setFlag .boot ((s.modOpen fun e => { e with status := .ok }).modSup fun u =>
    { u with state := .satisfied, attempts := 0, bootTimer := none,
             ret := if u.state = .holdoff then some .satisfied else u.ret })

theorem State.satisfy_eq (s : State) : s.satisfy =
    if s.sup.policy.eject ∧ s.media.state = .presented then s.satisfied.softEject else s.satisfied := rfl

theorem State.satisfied_eq (s : State) : ∃ es, s.satisfied = State.setFlag .boot { s with sup := { s.sup with
    epochs := es, state := .satisfied, attempts := 0, bootTimer := none,
    ret := if s.sup.state = .holdoff then some .satisfied else s.sup.ret } } ∧
    ∀ e, s.openEpoch = some e → s.satisfied.openEpoch = some { e with status := .ok } := by
  obtain ⟨es, h⟩ := s.modOpen_frame fun e => { e with status := .ok }
  refine ⟨es, by rw [State.satisfied, h]; rfl, fun e he => ?_⟩
  have hmod := State.modOpen_some he fun e => { e with status := .ok }
  rw [State.satisfied, hmod, State.setFlag_eq]
  exact openEpoch_of_newest rfl (show e.endCause = none from State.endCause_of_open he)

/-- A soft eject keeps the supervisor and the reports that were pending, adds MEDIA, and waits or ends the attachment
(R83, R84). -/
theorem State.softEject_spec (s : State) : s.softEject.sup = s.sup ∧ (∀ q ∈ s.link.flags, q ∈ s.softEject.link.flags) ∧
    Report.media ∈ s.softEject.link.flags ∧
    (s.usb.dirty ≠ [] → s.softEject.media = { s.media with state := .ejecting }) ∧
    (s.usb.dirty = [] → s.softEject.media = State.reset.media ∧ s.softEject.cache = []) := by
  obtain ⟨c, a, e, hbegun⟩ := s.ejectBegun_frame
  have hflag := s.mem_ejectBegun
  have hkept : ∀ q ∈ s.link.flags, q ∈ s.ejectBegun.link.flags := fun q hq => by
    rw [hbegun]
    dsimp only
    split
    · exact hq
    · exact List.mem_cons_of_mem _ hq
  by_cases hd : s.usb.dirty = []
  · have hends : s.softEject = s.ejectBegun.endAttachment := by
      rw [State.softEject_eq]
      exact State.completeEject_clean (by rw [hbegun]) (by rw [hbegun]; exact hd)
    obtain ⟨n, h, f, hlink, hf⟩ := s.ejectBegun.endAttachment_link
    obtain ⟨f', l, u, o, hframe⟩ := s.ejectBegun.endAttachment_frame
    have hdet := s.ejectBegun.endAttachment_detached
    have hsup : s.ejectBegun.endAttachment.sup = s.sup := by rw [hframe, hbegun]
    rw [hends, hlink]
    exact ⟨hsup, fun q hq => hf q (hkept q hq), hf _ hflag, fun hne => absurd hd hne, fun _ => ⟨hdet.media, hdet.cache⟩⟩
  · have hwaits : s.softEject = s.ejectBegun := by
      rw [State.softEject_eq]
      exact State.completeEject_dirty (by rw [hbegun]; exact hd)
    rw [hwaits]
    exact ⟨by rw [hbegun], hkept, hflag, fun _ => by rw [hbegun], fun h => absurd h hd⟩

theorem State.satisfied_ejects (s : State) : s.satisfied.softEject.sup = s.satisfied.sup ∧
    Report.media ∈ s.satisfied.softEject.link.flags ∧ Report.boot ∈ s.satisfied.softEject.link.flags ∧
    (s.usb.dirty ≠ [] → s.satisfied.softEject.media = { s.media with state := .ejecting }) ∧
    (s.usb.dirty = [] → s.satisfied.softEject.media = State.reset.media ∧ s.satisfied.softEject.cache = []) := by
  obtain ⟨hsup, hkept, hmedia, hwaits, hends⟩ := s.satisfied.softEject_spec
  obtain ⟨es, hs, -⟩ := s.satisfied_eq
  have hboot : Report.boot ∈ s.satisfied.link.flags := (State.mem_setFlag _ _ _).2 (.inl rfl)
  have husb : s.satisfied.usb = s.usb := by rw [hs, State.setFlag_eq]
  have hmed : s.satisfied.media = s.media := by rw [hs, State.setFlag_eq]
  rw [husb, hmed] at hwaits
  rw [husb] at hends
  exact ⟨hsup, hmedia, hkept _ hboot, hwaits, hends⟩

/-! ## A hold-off begun (R166, R168) -/

theorem State.accept_pg (k : ActionKind) (esc : Bool) (r : Requester) (o : ReqOutcome) (s : State) :
    (s.accept k esc r o).power.pg = s.power.pg := by
  cases o with
  | begun p => exact (s.beginAction_entered k esc r p).pg
  | already =>
    rw [State.accept, State.alreadyAction, State.setFlag_eq]
    rfl
  | busy | wrongState => rfl

theorem State.escalated_power (t : Trigger) (a : SupAction) (o : EscOutcome) (n : Nat) (s : State) :
    (s.escalated t a o n).power = s.power := by
  obtain ⟨fl, h, -⟩ := s.escalated_eq t a o n
  rw [h]

theorem State.supRequest_pg {s : State} (hleft : s.asFallLeft = s) {refused : State → State}
    (hr : ∀ v, (refused v).power = v.power) (t : Trigger) (a : SupAction) (k : ActionKind) :
    (s.supRequest t a k refused).power.pg = s.power.pg := by
  by_cases hlt : s.sup.attempts < s.sup.policy.maxAttempts
  · have hskip (hans : s.answerTo k = .already ∨ s.answerTo k = .busy ∨ s.answerTo k = .wrongState) :
        s.supRequest t a k refused = (refused s).escalated t a .skipped s.openNumber := by
      refine (if_pos hlt).trans ?_
      dsimp only
      rw [hleft]
      rcases hans with h | h | h <;> rw [h]
    cases hans : s.answerTo k with
    | begun p =>
      rw [State.supRequest_begun hlt (by rw [hleft]; exact hans), hleft, State.escalated_power, State.supBegun_eq]
      exact (s.beginAction_entered k false .supervisor p).pg
    | already => rw [hskip (.inl hans), State.escalated_power, hr]
    | busy => rw [hskip (.inr (.inl hans)), State.escalated_power, hr]
    | wrongState => rw [hskip (.inr (.inr hans)), State.escalated_power, hr]
  · rw [State.supRequest_spent (by omega), State.escalated_power, State.giveUp_eq, State.recordFault_eq]

/-- With no fall due, the hold-off's expiry leaves PG. -/
theorem State.holdExpired_pg {s : State} (hleft : s.asFallLeft = s) : s.holdExpired.power.pg = s.power.pg := by
  have hreturn : ∀ v : State, v.returnSup.power = v.power := fun _ => rfl
  cases ha : s.sup.policy.faultAction with
  | notify => rw [State.holdExpired_notify ha, State.escalated_power, hreturn]
  | diag => rw [State.holdExpired_diag ha, State.escalated_power, hreturn, hleft, State.accept_pg]
  | reset => rw [State.holdExpired_request (.inl ⟨rfl, rfl⟩) ha, State.supRequest_pg hleft hreturn]
  | cycle => rw [State.holdExpired_request (.inr ⟨rfl, rfl⟩) ha, State.supRequest_pg hleft hreturn]

/-- The hold-off running, before one of 0 s expires (R166). -/
def State.heldOff (x : ReturnState) (s : State) : State :=
  State.setFlag .boot { s with sup := { s.sup with
    state := .holdoff, ret := some x, bootTimer := none,
    holdTimer := some (s.time + BitVec.ofNat 32 (1000 * s.sup.policy.holdOff)) } }

theorem State.beginHoldOff_eq (x : ReturnState) (s : State) : s.beginHoldOff x =
    if s.sup.policy.holdOff = 0 then (s.heldOff x).holdExpired else s.heldOff x := by
  have hpolicy : (s.heldOff x).sup.policy = s.sup.policy := by rw [State.heldOff, State.setFlag_eq]
  rw [← hpolicy]
  rfl

/-- A hold-off of 0 s expires at the moment it begins. -/
theorem State.heldOff_expires {s : State} (x : ReturnState) (h0 : s.sup.policy.holdOff = 0) :
    exec .holdOffExpiry (s.heldOff x) = .next (State.closeFall (s.heldOff x) (s.heldOff x).holdExpired) := by
  have htimer : (s.heldOff x).sup.holdTimer = some s.time := by
    rw [State.heldOff, State.setFlag_eq]
    dsimp only
    rw [h0]
    simp
  have htime : (s.heldOff x).time = s.time := by rw [State.heldOff, State.setFlag_eq]
  have hreach : (s.heldOff x).reaches s.time = true := by
    rw [State.reaches, htime, BitVec.sub_self]
    exact List.all_eq_true.2 fun e _ => decide_eq_true (Nat.zero_le _)
  rw [exec_holdOffExpiry hreach htimer, ← htime]

/-! ## The four parts of the obligation -/

/-- The filter's answer as the claim writes it. -/
theorem Port.filtered_eq {p : Port} {b : Byte} {x : Bool × FilterState}
    (h : x = if p.cfg.escape = true then filterStep p.filter b else (true, p.filter)) : p.filtered b = x := h.symm

theorem supervised_iff (r : Role) : supervised r = true ↔ r = .bootOk ∨ r = .progress ∨ r = .fault := by
  cases r <;> simp [supervised]

theorem State.hit_recorded {s : State} {port : PortId} {pos : Nat} {m : Fin 16} {h : HitRec} {r : Role}
    (hr : s.markers[m].cfg.role = r)
    (hh : h = { marker := m, port := port, pos := pos, time := s.time, role := r,
                dropped := decide (r = .inject ∧ s.ports[port].slot ≠ none) }) :
    State.hit port pos s m = (if r = .bootOk ∨ r = .progress ∨ r = .fault
      then State.supHit r port (s.recordHit port pos m) else s.recordHit port pos m) ∧ s.hitOf port pos m = h := by
  refine ⟨?_, ?_⟩
  · rw [State.hit_eq, hr]
    exact if_congr (supervised_iff r) rfl rfl
  · rw [State.hitOf, State.hitRec, hr, hh, Bool.not_not]

/-- The marker that hits, counted and spent (R52); the others stay. -/
theorem State.countHit_markers (m : Fin 16) (s : State) :
    (s.countHit m).markers[m] = { s.markers[m] with
      hits := if s.markers[m].hits < 65535 then s.markers[m].hits + 1 else s.markers[m].hits,
      spent := s.markers[m].spent || s.markers[m].cfg.once } ∧
    ∀ k : Fin 16, k ≠ m → (s.countHit m).markers[k] = s.markers[k] :=
  ⟨vupd_self _ _ _, fun _ hk => vupd_ne _ _ hk⟩

section
variable {s : State} {port : PortId} (hw : s.sup.policy.watched.getLsbD port.val = true)
include hw

theorem State.supHit_fault_begins {x : ReturnState} (h : (s.sup.state = .waiting ∧ x = .waiting) ∨
    (s.sup.state = .satisfied ∧ s.sup.holdTimer = none ∧ x = .satisfied)) :
    s.supHit .fault port = s.beginHoldOff x := by
  rcases h with ⟨hs, rfl⟩ | ⟨hs, ht, rfl⟩
  · exact State.supHit_fault_waiting hw hs
  · rw [State.supHit_fault_satisfied hw hs, if_pos ht]

theorem State.supHit_fault_ignored (hs : s.sup.state ≠ .waiting)
    (h : ¬(s.sup.state = .satisfied ∧ s.sup.holdTimer = none)) : s.supHit .fault port = s := by
  by_cases hsat : s.sup.state = .satisfied
  · rw [State.supHit_fault_satisfied hw hsat, if_neg fun ht => h ⟨hsat, ht⟩]
  · exact State.supHit_fault_other hw hs hsat

/-- A FAULT hit's hold-off: it runs, or with 0 s it expires at once (R166). -/
theorem State.supHit_fault_holds {x : ReturnState} (h : (s.sup.state = .waiting ∧ x = .waiting) ∨
    (s.sup.state = .satisfied ∧ s.sup.holdTimer = none ∧ x = .satisfied)) :
    (s.sup.policy.holdOff ≠ 0 → s.supHit .fault port = s.heldOff x) ∧
    (s.sup.policy.holdOff = 0 →
      exec .holdOffExpiry (s.heldOff x) = .next (State.closeFall (s.heldOff x) (s.supHit .fault port))) ∧
    (s.sup.policy.holdOff = 0 → ¬s.fallDue s.time →
      exec .holdOffExpiry (s.heldOff x) = .next (s.supHit .fault port)) := by
  rw [State.supHit_fault_begins hw h, State.beginHoldOff_eq]
  refine ⟨fun h0 => if_neg h0, fun h0 => ?_, fun h0 hno => ?_⟩
  · rw [if_pos h0]
    exact State.heldOff_expires x h0
  · have hpg : (s.heldOff x).power.pg = s.power.pg := by rw [State.heldOff, State.setFlag_eq]
    have htime : (s.heldOff x).time = s.time := by rw [State.heldOff, State.setFlag_eq]
    have hleft : (s.heldOff x).asFallLeft = s.heldOff x :=
      State.asFallLeft_of_none (by rw [hpg, htime]; exact State.not_settlesTo hno)
    rw [if_pos h0, State.heldOff_expires x h0,
      State.closeFall_of_same (congrArg SenseIn.level (State.holdExpired_pg hleft))]

end

/-- Settles O29. -/
theorem hitsAreRecorded : Obligations.HitsAreRecorded := by
  refine ⟨fun b => ⟨filterStep_normal b, filterStep_esc b, filterStep_csi b⟩, fun s port pos b passed f hf =>
    ⟨fun hstop => ?_, fun t w hp ht hlen hwin => ?_⟩, fun s port pos m h r hr hh => ?_, fun s port =>
    ⟨fun r hw => State.supHit_unwatched hw r, fun hw => ⟨fun hwait hhold => ?_, fun hs => ?_,
      fun hs hno => State.supHit_fault_ignored hw hs hno, fun hs => ?_, fun hs => ?_, fun x u hx hu => ?_⟩⟩⟩
  · exact State.matchByte_stops (Port.filtered_eq hf) pos (hstop.imp_right State.translate_none)
  · rw [State.matchByte_goes (Port.filtered_eq hf) pos hp (State.translate_some ht), pushWindow_eq hlen, ← hwin]
    refine congrArg (fun ms => List.foldl (State.hit port pos) _ ms) ?_
    exact List.filter_congr fun m _ => hitsOn_eq _ port w
  · obtain ⟨hhit, hrec⟩ := State.hit_recorded (pos := pos) hr hh
    obtain ⟨ps, es, mr, fl, hx, hopen, hfull, hnone, hsilent, hreport, hkept, hinject⟩ := s.recordHit_spec port pos m
    obtain ⟨hself, hothers⟩ := s.countHit_markers m
    rw [hrec] at hopen hreport
    rw [hr] at hkept hinject
    refine ⟨s.recordHit port pos m, hhit, ?_⟩
    rw [hx] at hopen ⊢
    refine ⟨hself, hothers, hopen, fun e he hlen => ?_, fun he => ?_, fun hrep => ?_, hreport, hkept, hinject,
      rfl, rfl, rfl, rfl, rfl, rfl, rfl⟩
    · dsimp only
      rw [hfull e he hlen]
    · dsimp only
      rw [hnone he]
    · obtain ⟨hmr, hfl⟩ := hsilent hrep
      dsimp only
      rw [hmr, hfl]
      exact ⟨rfl, rfl⟩
  · rw [State.supHit_bootOk hw, if_neg (by simp [hwait, hhold])]
  · rw [State.supHit_progress hw, if_neg hs]
  · rw [State.supHit_progress hw, if_pos hs]
    rfl
  · obtain ⟨es, hu, hopen⟩ := s.satisfied_eq
    have hes : s.satisfied.sup.epochs = es := by rw [hu, State.setFlag_eq]
    refine ⟨s.satisfied, by rw [hes]; exact hu, hopen, fun hno => ?_, fun hej hpres => ⟨s.satisfied.softEject, ?_, ?_⟩⟩
    · rw [State.supHit_bootOk hw, if_pos hs, State.satisfy_eq, if_neg]
      rintro ⟨hej, hpres⟩
      rcases hno with h | h
      · rw [h] at hej
        cases hej
      · exact h hpres
    · rw [State.supHit_bootOk hw, if_pos hs, State.satisfy_eq, if_pos ⟨hej, hpres⟩]
    · exact s.satisfied_ejects
  · subst hu
    exact State.supHit_fault_holds hw hx

end Sys2Proof.Machine
end
